-- ==== Sys2Proof/Word.lean ====
section
/-! DEFINITION. Bytes, and tables of a fixed number of records. -/

namespace Sys2Proof

/-- One byte of a telegram or of a stored part (10 section 10.1). -/
abbrev Byte := BitVec 8

/-- A fixed number of like records, indexed from 0: the 24 section records of R1, the 48 channel
records of R36, the 48 unit records of chapter 8, and so on. Exactly `n` at all times. -/
structure Table (α : Type) (n : Nat) where
  items : List α
  size : items.length = n
deriving DecidableEq, Repr

namespace Table

variable {α β : Type} {n : Nat}

/-- The record at index `i`. -/
def get (t : Table α n) (i : Fin n) : α :=
  t.items[i.val]'(by rw [t.size]; exact i.isLt)

/-- The table with the record at index `i` replaced. -/
def set (t : Table α n) (i : Fin n) (a : α) : Table α n :=
  ⟨t.items.set i.val a, by rw [List.length_set]; exact t.size⟩

/-- The same record at every index. -/
def replicate (n : Nat) (a : α) : Table α n :=
  ⟨List.replicate n a, List.length_replicate⟩

/-- The table whose record at index `i` is `f i`. -/
def ofFn (f : Fin n → α) : Table α n :=
  ⟨List.ofFn f, List.length_ofFn⟩

/-- Every record changed by `f`. -/
def map (f : α → β) (t : Table α n) : Table β n :=
  ⟨t.items.map f, by rw [List.length_map]; exact t.size⟩

end Table

/-- All indexes of a table of `n` records, ascending. -/
abbrev allIds (n : Nat) : List (Fin n) := List.finRange n

end Sys2Proof
end

