-- ==== Sys2Proof/Syntax.lean ====
section
/-! DEFINITION. The commands the part takes: one constructor for each row of spec/opcode_table.json. -/

namespace Sys2Proof

/-- Why the receiver discards a telegram in assembly, other than a late byte (R159). -/
inductive DiscardReason where
  /-- The body length byte is above 240. -/
  | overLength
  /-- A byte of the telegram has a framing error. -/
  | framingError
  /-- The check received differs from the check computed. -/
  | checkMismatch
deriving DecidableEq, Repr

/-- One step of the part (95_what_each_step_holds.md). The rows from `unknownKindRequest` to
`commitSiteRecord` are requests: the link port takes the telegram at the head of its request buffer,
whose tag and body are the request's operands (R161, R170), so these constructors carry none (log 1). -/
inductive Instr where
  /-- POWER_UP (R176): bit u of `faults` says unit u's fault input is ACTIVE, bit i of `levels` says
  trip input i's filtered level is high, both as sampled at power-up (R128, R146). -/
  | powerUp (faults : BitVec 48) (levels : BitVec 8)
  /-- TELEGRAM_RECEIVED (R160): a telegram with this kind, tag, body and check has arrived. -/
  | telegramReceived (kind tag : Byte) (body : List Byte) (check : BitVec 16)
  /-- INTER_BYTE_TIMEOUT (R159): `late` is the late byte, the first one examined. -/
  | interByteTimeout (late : Byte)
  | lineBreak
  | silenceExpiry
  | transmitNextTelegram
  | unknownKindRequest
  | readIdent
  | readCampaign
  | readSection
  | readSteam
  | readUnit
  | readTrips
  | readCapture
  | readChannel
  | readSiteRecord
  | openCampaign
  | closeCampaign
  | resumeCampaign
  | advance
  | hold
  | release
  | adopt
  | excludeSection
  | includeSection
  | setLinks
  | setLimits
  | setTiming
  | setModeSection
  | setModeCampaign
  | setBudget
  | liftCeiling
  | returnUnit
  | setUnits
  | setGroup
  | forceTrip
  | clearTrip
  | setCapture
  | setReporting
  | writeSitePart
  | commitSiteRecord
  | siteRecordWriteDone
  | markWriteComplete
  | clockAdvance
  /-- CONDITIONING_EXPIRY (R64): the conditioning deadline of section `sec` expires. -/
  | conditioningExpiry (sec : Nat)
  /-- LAG_COMPLETION (R116): the lag of the link from section `up` to section `sec` has run out. -/
  | lagCompletion (sec up : Nat)
  /-- CHANNEL_SAMPLE (R38): the conversion result `raw` of channel `channel`. -/
  | channelSample (channel raw : Nat)
  | scanRoundComplete
  /-- FAULT_INPUT_ACTIVE (R130): the fault input of `unit` becomes ACTIVE. -/
  | faultInputActive (unit : Nat)
  /-- FAULT_INPUT_INACTIVE (R131): the fault input of `unit` becomes INACTIVE. -/
  | faultInputInactive (unit : Nat)
  | unitSupervisorTick
  /-- RECOVERY_WINDOW_EXPIRY (R131): the recovery window of `unit` has reached 0. -/
  | recoveryWindowExpiry (unit : Nat)
  /-- TRIP_INPUT_ACTIVE (R148): trip input `input` becomes active. -/
  | tripInputActive (input : Nat)
  /-- TRIP_INPUT_INACTIVE (R150): trip input `input` becomes inactive. -/
  | tripInputInactive (input : Nat)
  | telegramDiscardedInAssembly (why : DiscardReason)
  | lineReturnToIdle
  | powerLoss
deriving DecidableEq, Repr

end Sys2Proof
end

