-- ==== Sys2Proof/Decode.lean ====
section
/-! DEFINITION. The commands that a word spells by the bits of spec/opcode_table.json: none, since no
row of the table gives bits (98_reader.md counts 0 rows with fixed bits). -/

namespace Sys2Proof

/-- No row gives bits, so no word spells a command. -/
def decodeTableWord (_nbits _w : Nat) : Option Instr := none

end Sys2Proof
end

