-- ==== Sys2Proof/Config.lean ====
section
/-! DEFINITION. What the part fixes, and the free values: what the spec leaves open (R3, R174, R178). -/

namespace Sys2Proof.Config

/-- The largest campaign time (R24, R63). -/
def maxTime : Nat := 4294967295

/-- The link port's request buffer holds 4 requests (R160). -/
def requestBuffer : Nat := 4

/-- The port takes a request only while the answer queue holds fewer than 4 answers (R161). -/
def answerQueue : Nat := 4

/-- The watch list holds at most 16 unit ids (R132). -/
def watchList : Nat := 16

/-- How many deliveries one step takes before it leaves the rest in `State.work` (log 5). -/
def cascadeBound : Nat := 5000

/-- FREE VALUE (log 3): the order in which receivers take what one change hands them, which R3 and
others call "no particular order". Applied to a counter in State. -/
opaque freeOrder : Nat → Nat

/-- FREE VALUE (log 14): for a site record write cut off by a power loss, how many bytes of each part
were already the new ones (R174). Applied to a counter in State and to the part number. -/
opaque freeCut : Nat → Nat → Nat

/-- FREE VALUE (log 14): the check value a torn site record write leaves in the store (R174). -/
opaque freeCheck : Nat → BitVec 16

/-- FREE VALUE (log 15): whether READ IDENT shows the check of a mark that was never written as
failed (R175 and R178 do not say). -/
opaque blankMarkCheckFailed : Bool

end Sys2Proof.Config
end

