-- ==== Sys2Proof/Machine/State.lean ====
section
/-! DEFINITION. The records the part's nine blocks hold (00 section 2.0), the state of the part as plain
data, and the state right after power-up from an option store that has never been written. -/

namespace Sys2Proof.Machine

abbrev SectionId := Fin 24
abbrev UnitId := Fin 48
abbrev ChannelId := Fin 48
abbrev GroupId := Fin 4
abbrev InputId := Fin 8
abbrev PartId := Fin 8

/-! ### The section record (01 section 1.1) -/

/-- R2. -/
inductive SectionClass where
  | process
  | storage
deriving DecidableEq, Repr

/-- The eleven states of 01 section 1.3, in the order of their codes (R169). -/
inductive SectionState where
  | absent
  | excluded
  | cold
  | filling
  | conditioning
  | circulating
  | running
  | held
  | sweeteningOff
  | draining
  | laidUp
deriving DecidableEq, Repr

/-- The liquor phase (R45, R46). -/
inductive Phase where
  | empty
  | water
  | sweet
deriving DecidableEq, Repr

/-- A route attribute (01 section 1.3). -/
inductive Route where
  | closed
  | through
  | diverted
deriving DecidableEq, Repr

/-- R53. -/
inductive Mode where
  | auto
  | manual
deriving DecidableEq, Repr

/-- A hold reason record: its kind and, for TRIP and FULL, its source (R94). -/
inductive HoldReason where
  | restart
  | host
  | trip (g : GroupId)
  | steam
  | full (d : SectionId)
  | sensor
  | units
deriving DecidableEq, Repr

/-- R31. -/
inductive CaptureCause where
  | order
  | auto
  | crossing
  | expiry
  | grant
  | hold
  | release
  | campaign
  | restore
deriving DecidableEq, Repr

/-- R32. -/
inductive CaptureMode where
  | absolute
  | difference
deriving DecidableEq, Repr

/-- R33. -/
inductive CaptureFill where
  | continuous
  | single
deriving DecidableEq, Repr

/-- One capture (R31): the state left, the state entered, the cause, the phase and the time. -/
structure Capture where
  leaving : SectionState
  entering : SectionState
  cause : CaptureCause
  phase : Phase
  time : Nat
deriving DecidableEq, Repr

/-- A section's capture ring (02 section 2.10). A slot that has not been written since the ring was
last emptied is `none`. -/
structure CaptureRing where
  mode : CaptureMode
  fill : CaptureFill
  armed : Bool
  count : Nat
  next : Fin 4
  last : Option Nat
  slots : Table (Option Capture) 4
deriving DecidableEq, Repr

/-- An upstream list entry: the section and the lag of the link from it, in seconds (R6). -/
structure Link where
  id : SectionId
  lag : Nat
deriving DecidableEq, Repr

/-- The level and solids limits of a section (R44); the working ceiling stands beside them. -/
structure Limits where
  empty : Nat
  fillDone : Nat
  high : Nat
  hysteresis : Nat
  sweetOn : Nat
  sweetOff : Nat
deriving DecidableEq, Repr

/-- A section record. Its id is its index in the section table (R14). `holds` is the hold set, listed
once each in the order R94 gives, so that equal sets are equal data. -/
structure Section where
  fitted : Bool
  cls : SectionClass
  label : List Byte
  nativeCeiling : Option Nat
  upstream : List Link
  downstream : List SectionId
  state : SectionState
  enteredAt : Nat
  heldFrom : Option SectionState
  holds : List HoldReason
  phase : Phase
  phaseSince : Nat
  deadline : Option Nat
  mode : Mode
  intake : Route
  discharge : Route
  limits : Limits
  workingCeiling : Option Nat
  ceilingLifted : Bool
  conditioningTime : Nat
  demand : Nat
  minUnits : Nat
  dutyUnits : List UnitId
  ring : CaptureRing
deriving DecidableEq, Repr

/-! ### The campaign record (02 section 2.1) -/

/-- In the order of their codes (R169). -/
inductive CampaignState where
  | closed
  | opened
  | windingDown
  | restoring
deriving DecidableEq, Repr

/-- A campaign mark value (R175); also a resume target (R17). -/
inductive Mark where
  | closed
  | opened
  | windingDown
deriving DecidableEq, Repr

structure Campaign where
  state : CampaignState
  clock : Nat
  lock : Bool
  resume : Option Mark
  overlapRequested : Bool
  freeSpares : Nat
  spareReserve : Nat
  overlapEffective : Bool
  supervisionLost : Bool
  pendingMark : Option Mark
deriving DecidableEq, Repr

/-! ### The scanner (chapter 3) -/

inductive Validity where
  | valid
  | bad
deriving DecidableEq, Repr

/-- The band positions of a channel: each yes, no, or absent where the channel has none (R40, R52). -/
structure Bands where
  empty : Option Bool
  fillDone : Option Bool
  high : Option Bool
  ceiling : Option Bool
  sweet : Option Bool
deriving DecidableEq, Repr

/-- A channel record. Its id is its index; its kind and section follow from the id (R36). -/
structure Channel where
  converted : Bool
  raw : Nat
  value : Nat
  validity : Validity
  run : Nat
  bands : Bands
deriving DecidableEq, Repr

/-- `turn` is the scanner's place in the round under way: the lowest channel number it has not passed
(R37). -/
structure Scanner where
  channels : Table Channel 48
  turn : Nat
  prescale : Nat
  round : Nat
deriving DecidableEq, Repr

/-! ### The steam allocator (chapter 5) -/

/-- An entry of the claim list (`since` is granted-at) or of the wait queue (`since` is queued-at). -/
structure Claim where
  sec : SectionId
  demand : Nat
  since : Nat
deriving DecidableEq, Repr

/-- The allocator's record (05 section 5.1). The effective budget and the claimed sum are computed. -/
structure Steam where
  hostBudget : Nat
  caps : Table (Option Nat) 4
  claims : List Claim
  queue : List Claim
deriving DecidableEq, Repr

/-! ### The unit supervisor (chapter 8) -/

/-- In the order of their codes (R169). -/
inductive Role where
  | none
  | duty
  | spare
deriving DecidableEq, Repr

inductive Condition where
  | healthy
  | faultPending
  | failed
deriving DecidableEq, Repr

structure UnitRecord where
  role : Role
  cls : Nat
  sec : Option SectionId
  faultActive : Bool
  condition : Condition
  window : Option Nat
  covering : Option UnitId
  coveredBy : Option UnitId
  runOutput : Bool
deriving DecidableEq, Repr

/-- An entry of the spare demand queue (R133). -/
structure SpareDemand where
  unit : UnitId
  cls : Nat
deriving DecidableEq, Repr

structure UnitSupervisor where
  units : Table UnitRecord 48
  watch : List UnitId
  demands : List SpareDemand
  reserve : Nat
  window : Nat
  short : Table Bool 24
deriving DecidableEq, Repr

/-! ### The trip unit (chapter 9) -/

inductive Polarity where
  | activeHigh
  | activeLow
deriving DecidableEq, Repr

/-- `level` is the filtered level, true for high (R146). -/
structure TripInput where
  polarity : Polarity
  level : Bool
  active : Bool
deriving DecidableEq, Repr

inductive TripMode where
  | latched
  | selfClearing
deriving DecidableEq, Repr

inductive GroupState where
  | normal
  | tripped
deriving DecidableEq, Repr

inductive FirstCause where
  | input (i : InputId)
  | forced
deriving DecidableEq, Repr

/-- A trip group (09 section 9.2). The sets are listed in ascending id. -/
structure TripGroup where
  members : List SectionId
  inputs : List InputId
  mode : TripMode
  cap : Option Nat
  state : GroupState
  firstCause : Option FirstCause
  activeInputs : List InputId
  forced : Bool
deriving DecidableEq, Repr

structure TripUnit where
  inputs : Table TripInput 8
  groups : Table TripGroup 4
deriving DecidableEq, Repr

/-! ### The link port (chapter 10) -/

/-- A telegram without its sync, length and check bytes, which follow from it (10 section 10.1). -/
structure Telegram where
  kind : Byte
  tag : Byte
  body : List Byte
deriving DecidableEq, Repr

/-- The receiver's condition (R159); `spacing` from a line break to the return to idle (R167). -/
inductive Receiver where
  | hunting
  | assembling
  | spacing
deriving DecidableEq, Repr

/-- A key of the report pending set: a report kind and its source (R163). -/
inductive ReportKey where
  | sec (i : SectionId)
  | level (i : SectionId)
  | steam
  | unit (u : UnitId)
  | trip (g : GroupId)
  | campaign
deriving DecidableEq, Repr

/-- The reporting mask: one enable flag for each report kind (R165). -/
structure ReportMask where
  sec : Bool
  level : Bool
  steam : Bool
  unit : Bool
  trip : Bool
  campaign : Bool
deriving DecidableEq, Repr

/-- Which owner holds the port until a write to the option store is done (R161). -/
inductive AwaitedOwner where
  | campaignController
  | optionStore
deriving DecidableEq, Repr

/-- A request whose owner answers only after a write to the option store (R161). `dropped` after a
line break: the owner completes it, and its answer is dropped (R167). -/
structure Awaited where
  request : Telegram
  owner : AwaitedOwner
  dropped : Bool
deriving DecidableEq, Repr

structure LinkPort where
  receiver : Receiver
  requests : List Telegram
  answers : List Telegram
  awaited : Option Awaited
  onLine : Option Telegram
  reports : List ReportKey
  sequence : Byte
  mask : ReportMask
  silenceLimit : Nat
  silenceExpired : Bool
deriving DecidableEq, Repr

/-! ### The option store (chapter 11) -/

/-- What the option store keeps through a loss of power: the eight stored parts with their check
value (R172) and the campaign mark (R175). `none` where never written. Of the mark's own check value only
whether it agrees is held (the model's choice, log 42). -/
structure OptionStore where
  parts : Table (List Byte) 8
  siteCheck : Option (BitVec 16)
  mark : Option Mark
  markCheckAgrees : Bool
deriving DecidableEq, Repr

inductive SiteStatus where
  | valid
  | defaulted
deriving DecidableEq, Repr

/-- In the order of their codes (R169): 19 200, 57 600, 115 200 bit/s. -/
inductive LineRate where
  | r19200
  | r57600
  | r115200
deriving DecidableEq, Repr

/-- What the option store rebuilds at power-up: what READ IDENT reports of the record in force
(R172, R178), the staging area (R173) and the writes in progress (R174, R175). -/
structure SiteService where
  status : SiteStatus
  lineRate : LineRate
  name : List Byte
  issue : Nat
  staging : Table (Option (List Byte)) 8
  committed : Bool
  markRead : Mark
  markCheckFailed : Bool
  markWriting : Option Mark
  markPending : Option Mark
  siteWriting : Bool
deriving DecidableEq, Repr

/-! ### The field lines (R5) -/

/-- One value for each of a section's four route outputs. -/
structure RouteQuad (α : Type) where
  intakeThrough : α
  intakeDivert : α
  dischargeThrough : α
  dischargeDivert : α
deriving DecidableEq, Repr

/-- The output polarities and the output latches; a latch holds a level, true for high. -/
structure FieldLines where
  enabled : Bool
  routePolarity : Table (RouteQuad Polarity) 24
  runPolarity : Table Polarity 48
  routeLatch : Table (RouteQuad Bool) 24
  runLatch : Table Bool 48
deriving DecidableEq, Repr

/-! ### Deliveries inside a step (00 section 2.1, R3) -/

/-- What brought a re-examination about, as far as R31 tells causes apart. -/
inductive Why where
  | crossing
  | expiry
  | modeChange
  | other
deriving DecidableEq, Repr

/-- What one block hands another inside a step and the receiver takes as a change of its own. -/
inductive Delivery where
  /-- Section `i` re-examines its permits (R55). -/
  | reexamine (i : SectionId) (why : Why)
  /-- A hold reason is handed to section `i` (R95). -/
  | addReason (i : SectionId) (r : HoldReason)
  /-- The removal of a hold reason is handed to section `i` (R97, R99), with cause RELEASE. -/
  | removeReason (i : SectionId) (r : HoldReason)
  /-- The steam allocator is asked to release the claim of `i` (R84). -/
  | releaseClaim (i : SectionId)
  /-- The steam allocator is asked to withdraw the queued claim of `i` (R85). -/
  | withdrawClaim (i : SectionId)
  /-- The steam allocator is handed group `g`'s cap, or its removal (R78). -/
  | cap (g : GroupId) (c : Option Nat)
  /-- The unit supervisor sees a state entry of section `i` as run demand (R129). -/
  | runDemand (i : SectionId)
  /-- The unit supervisor takes the exclusion of section `i` (R138). -/
  | unitsExcluded (i : SectionId)
  /-- The unit supervisor takes the inclusion of section `i` (R138). -/
  | unitsIncluded (i : SectionId)
  /-- The campaign controller is supplied with the free-spare count and the reserve (R141). -/
  | spareSupply (free reserve : Nat)
  /-- The campaign controller makes the closing test (R22). -/
  | closingTest
deriving DecidableEq, Repr

/-! ### The state of the part -/

/-- Everything the spec gives the part, the commands waiting for it, and the model's own fields
`work`, `order` and `drawn` (log 3, log 5). -/
structure State where
  powered : Bool
  sections : Table Section 24
  campaign : Campaign
  scanner : Scanner
  steam : Steam
  supervisor : UnitSupervisor
  trips : TripUnit
  link : LinkPort
  store : OptionStore
  site : SiteService
  lines : FieldLines
  work : List Delivery
  order : List Nat
  drawn : Nat
  pending : List Instr
deriving DecidableEq, Repr

/-- Raised by commands that are no event of the part; the spec names no condition that stops it. -/
inductive Fault where
  /-- Raised by the event rows with an operand: a section, unit, channel or trip input id the part
  does not have (00 section 6.0). Safe: no hardware step is lost. -/
  | noSuchTerminal
  /-- Raised by CHANNEL_SAMPLE: a conversion result above 4095 (03 section 3.2.1). Safe. -/
  | noSuchConversion
deriving DecidableEq, Repr

inductive Refusal where
  /-- Raised by an arm of exec that has no meaning yet, with its mnemonic. Safe. -/
  | notModelled (mnemonic : String)
deriving DecidableEq, Repr

/-! ### Power-up values -/

/-- R33: an emptied and armed ring of this mode and fill. -/
def CaptureRing.emptied (mode : CaptureMode) (fill : CaptureFill) : CaptureRing :=
  { mode, fill, armed := true, count := 0, next := 0, last := none, slots := Table.replicate 4 none }

/-- R44. -/
def Limits.powerUp : Limits :=
  { empty := 30, fillDone := 600, high := 900, hysteresis := 20, sweetOn := 20, sweetOff := 5 }

/-- The record of a slot that is not fitted, at power-up (R1, R10, R14, R33, R44, R53, R65, R94, R128). -/
def Section.unfitted : Section :=
  { fitted := false, cls := .process, label := [], nativeCeiling := none, upstream := [], downstream := []
    state := .absent, enteredAt := 0, heldFrom := none, holds := [], phase := .empty, phaseSince := 0
    deadline := none, mode := .manual, intake := .closed, discharge := .closed, limits := Limits.powerUp
    workingCeiling := none, ceilingLifted := false, conditioningTime := 600, demand := 0, minUnits := 0
    dutyUnits := [], ring := CaptureRing.emptied .absolute .continuous }

/-- R36: a channel that is not converted; `level` for the level channel of an ABSENT section. -/
def Channel.unconverted (level : Bool) : Channel :=
  { converted := false, raw := 0, value := 0, validity := .valid, run := 3
    bands := { empty := if level then some true else none, fillDone := none, high := none
               ceiling := none, sweet := none } }

/-- R128, R172: a slot of role NONE. Its class, which the default record does not give, is 0 (log 2). -/
def UnitRecord.none : UnitRecord :=
  { role := .none, cls := 0, sec := Option.none, faultActive := false, condition := .healthy
    window := Option.none, covering := Option.none, coveredBy := Option.none, runOutput := false }

/-- R147: a group at power-up. -/
def TripGroup.powerUp : TripGroup :=
  { members := [], inputs := [], mode := .latched, cap := none, state := .normal, firstCause := none
    activeInputs := [], forced := false }

/-- R165: every report kind enabled. -/
def ReportMask.all : ReportMask :=
  { sec := true, level := true, steam := true, unit := true, trip := true, campaign := true }

/-- R77. -/
def Steam.powerUp : Steam :=
  { hostBudget := 0, caps := Table.replicate 4 none, claims := [], queue := [] }

/-- R168. -/
def LinkPort.powerUp : LinkPort :=
  { receiver := .hunting, requests := [], answers := [], awaited := none, onLine := none
    reports := [.campaign], sequence := 0, mask := ReportMask.all, silenceLimit := 30
    silenceExpired := false }

/-- A store that has never been written (R172, R175, R178). -/
def OptionStore.blank : OptionStore :=
  { parts := Table.replicate 8 [], siteCheck := none, mark := none, markCheckAgrees := false }

/-- The same value for all four route outputs. -/
def RouteQuad.all {α : Type} (a : α) : RouteQuad α :=
  { intakeThrough := a, intakeDivert := a, dischargeThrough := a, dischargeDivert := a }

/-- The part just powered up (R176) from an option store that has never been written, so with the
default record in force (R172) and a mark that reads OPEN (R175), every trip input low and every
fault input INACTIVE (log 2). -/
def State.reset : State :=
  { powered := true
    sections := Table.replicate 24 Section.unfitted
    campaign :=
      { state := .restoring, clock := 0, lock := true, resume := some .opened
        overlapRequested := false, freeSpares := 0, spareReserve := 2, overlapEffective := false
        supervisionLost := false, pendingMark := none }
    scanner :=
      { channels := Table.ofFn fun c => Channel.unconverted (c.val % 2 == 0), turn := 0
        prescale := 0, round := 0 }
    steam := Steam.powerUp
    supervisor :=
      { units := Table.replicate 48 UnitRecord.none, watch := [], demands := [], reserve := 2
        window := 10, short := Table.replicate 24 false }
    trips :=
      { inputs := Table.replicate 8 { polarity := .activeHigh, level := false, active := false }
        groups := Table.replicate 4 TripGroup.powerUp }
    link := LinkPort.powerUp
    store := OptionStore.blank
    site :=
      { status := .defaulted, lineRate := .r57600, name := [], issue := 0
        staging := Table.replicate 8 none, committed := false, markRead := .opened
        markCheckFailed := Config.blankMarkCheckFailed, markWriting := none, markPending := none
        siteWriting := false }
    lines :=
      { enabled := true, routePolarity := Table.replicate 24 (RouteQuad.all .activeHigh)
        runPolarity := Table.replicate 48 .activeHigh
        routeLatch := Table.replicate 24 (RouteQuad.all false), runLatch := Table.replicate 48 false }
    work := []
    order := []
    drawn := 0
    pending := [] }

end Sys2Proof.Machine
end

