-- ==== Sys2Proof/Machine/Flags.lean ====
section
/-! DEFINITION. What is computed from one record alone: route attributes and output levels, hold sets,
band positions and crossings, the phase they call for, captures, and the steps of the state machine. -/

namespace Sys2Proof.Machine

/-! ### States and routes (01 section 1.3) -/

/-- The intake attribute of a state. -/
def SectionState.intake : SectionState → Route
  | .filling => .diverted
  | .running => .through
  | .sweeteningOff => .diverted
  | .absent | .excluded | .cold | .conditioning | .circulating | .held | .draining | .laidUp => .closed

/-- The discharge attribute of a state; in RUNNING and SWEETENING_OFF it follows the phase (R4). -/
def SectionState.discharge (st : SectionState) (p : Phase) : Route :=
  match st with
  | .running | .sweeteningOff => if p = .sweet then .through else .diverted
  | .draining => .diverted
  | .absent | .excluded | .cold | .filling | .conditioning | .circulating | .held | .laidUp => .closed

/-- The six working states, which take hold reasons (R95, R101). -/
def SectionState.working : SectionState → Bool
  | .filling | .conditioning | .circulating | .running | .sweeteningOff | .draining => true
  | .absent | .excluded | .cold | .held | .laidUp => false

/-- The five states that call for running units (R129). -/
def SectionState.runsUnits : SectionState → Bool
  | .conditioning | .circulating | .running | .sweeteningOff | .draining => true
  | .absent | .excluded | .cold | .filling | .held | .laidUp => false

/-- Neither EXCLUDED nor ABSENT: counted as a neighbour (R9). -/
def SectionState.partakes : SectionState → Bool
  | .absent | .excluded => false
  | .cold | .filling | .conditioning | .circulating | .running | .held | .sweeteningOff | .draining
  | .laidUp => true

/-- RUNNING or SWEETENING_OFF: passing liquor downstream, so taking FULL (R95, R105). -/
def SectionState.passesLiquor : SectionState → Bool
  | .running | .sweeteningOff => true
  | .absent | .excluded | .cold | .filling | .conditioning | .circulating | .held | .draining
  | .laidUp => false

/-- R5: the level of an output that is asserted or not. -/
def Polarity.level (p : Polarity) (asserted : Bool) : Bool :=
  match p with
  | .activeHigh => asserted
  | .activeLow => !asserted

/-- R5: the levels of a section's four route outputs. -/
def RouteQuad.drive (p : RouteQuad Polarity) (intake discharge : Route) : RouteQuad Bool :=
  { intakeThrough := p.intakeThrough.level (intake == .through)
    intakeDivert := p.intakeDivert.level (intake == .diverted)
    dischargeThrough := p.dischargeThrough.level (discharge == .through)
    dischargeDivert := p.dischargeDivert.level (discharge == .diverted) }

/-! ### Hold sets (chapter 6) -/

/-- The order in which R94 lists the records of a hold set. -/
def HoldReason.rank : HoldReason → Nat
  | .restart => 0
  | .host => 1
  | .trip g => 2 + g.val
  | .steam => 6
  | .full d => 7 + d.val
  | .sensor => 31
  | .units => 32

/-- A hold set with a record added; a set holds no two equal records (R94). -/
def insertReason (r : HoldReason) : List HoldReason → List HoldReason
  | [] => [r]
  | x :: xs =>
    if x = r then x :: xs
    else if r.rank < x.rank then r :: x :: xs
    else x :: insertReason r xs

/-- A hold set with a record removed. -/
def removeFrom (r : HoldReason) (hs : List HoldReason) : List HoldReason :=
  hs.filter fun x => x ≠ r

/-- R95: whether a section in its present state takes a reason. RESTART is added only at power-up. -/
def Section.takes (r : Section) : HoldReason → Bool
  | .restart => false
  | .full _ =>
    match r.state with
    | .running | .sweeteningOff => true
    | .held => r.heldFrom == some .running || r.heldFrom == some .sweeteningOff
    | .absent | .excluded | .cold | .filling | .conditioning | .circulating | .draining | .laidUp => false
  | .host | .trip _ | .steam | .sensor | .units => r.state.working || r.state == .held

/-! ### Captures (02 section 2.10) -/

/-- R31, R32, R33: a capture, made while the ring is armed. -/
def CaptureRing.capture (ring : CaptureRing) (now : Nat) (leaving entering : SectionState)
    (cause : CaptureCause) (phase : Phase) : CaptureRing :=
  if ring.armed then
    let time :=
      match ring.mode, ring.last with
      | .absolute, _ => now
      | .difference, none => 0
      | .difference, some l => now - l
    let count := min 4 (ring.count + 1)
    { ring with
      slots := ring.slots.set ring.next (some { leaving, entering, cause, phase, time })
      next := ring.next + 1
      count := count
      last := some now
      armed := !(ring.fill == .single && count == 4) }
  else ring

/-- R35: the entries held, oldest first. -/
def CaptureRing.oldestFirst (ring : CaptureRing) : List Capture :=
  let start : Fin 4 := if ring.count < 4 then 0 else ring.next
  ([start, start + 1, start + 2, start + 3].take ring.count).filterMap fun i => ring.slots.get i

/-! ### Bands (03 section 3.2) -/

/-- R38: a raw value inside the live range. -/
def liveRaw (raw : Nat) : Bool := decide (100 ≤ raw) && decide (raw ≤ 4000)

/-- R38: the value of a raw result on a span of 1000 (level) or 850 (solids). -/
def scaled (span raw : Nat) : Nat := (raw - 100) * span / 3900

/-- R41: one position tested against its yes threshold or its no threshold. -/
def testPosition (p : Option Bool) (toYes toNo : Bool) : Option Bool :=
  match p with
  | none => none
  | some false => some toYes
  | some true => some (!toNo)

/-- R40: every position of a channel tested against the limits in force. `ceiling` is the working
ceiling in force; with a working ceiling of 0 the position does not become no. -/
def Bands.evaluate (b : Bands) (l : Limits) (ceiling : Nat) (v : Nat) : Bands :=
  { empty := testPosition b.empty (decide (v ≤ l.empty)) (decide (l.empty + l.hysteresis ≤ v))
    fillDone := testPosition b.fillDone (decide (l.fillDone ≤ v)) (decide (v + l.hysteresis < l.fillDone))
    high := testPosition b.high (decide (l.high ≤ v)) (decide (v + l.hysteresis ≤ l.high))
    ceiling := testPosition b.ceiling (decide (ceiling ≤ v))
      (decide (0 < ceiling) && decide (v ≤ ceiling - l.hysteresis))
    sweet := testPosition b.sweet (decide (l.sweetOn ≤ v)) (decide (v ≤ l.sweetOff)) }

/-- R40: the crossings a change of band positions delivers. -/
inductive Crossing where
  | emptyReached
  | emptyLeft
  | fillDoneReached
  | fillDoneLost
  | highReached
  | highCleared
  | ceilingReached
  | ceilingCleared
  | sweetOn
  | sweetOff
deriving DecidableEq, Repr

def crossingOf (old new : Option Bool) (yes no : Crossing) : List Crossing :=
  match old, new with
  | some false, some true => [yes]
  | some true, some false => [no]
  | _, _ => []

def crossings (old new : Bands) : List Crossing :=
  crossingOf old.empty new.empty .emptyReached .emptyLeft
    ++ crossingOf old.fillDone new.fillDone .fillDoneReached .fillDoneLost
    ++ crossingOf old.high new.high .highReached .highCleared
    ++ crossingOf old.ceiling new.ceiling .ceilingReached .ceilingCleared
    ++ crossingOf old.sweet new.sweet .sweetOn .sweetOff

/-- R108: the working ceiling in force; 0 for a PROCESS section, which has none. -/
def Section.ceilingInForce (r : Section) : Nat :=
  if r.ceilingLifted then r.nativeCeiling.getD 0 else r.workingCeiling.getD 0

/-- R45, R46: the phase the band positions call for. -/
def phaseOf (cls : SectionClass) (level solids : Bands) : Phase :=
  if level.empty = some true then .empty
  else match cls with
    | .storage => .sweet
    | .process => if solids.sweet = some true then .sweet else .water

/-! ### Steps of the state machine -/

/-- R72, R124: the step out of a state, for a section of a class. -/
def nextStep (cls : SectionClass) (st : SectionState) : Option SectionState :=
  match st, cls with
  | .cold, .process => some .filling
  | .cold, .storage => some .circulating
  | .filling, .process => some .conditioning
  | .conditioning, .process => some .circulating
  | .circulating, _ => some .running
  | .running, .process => some .sweeteningOff
  | .running, .storage => some .laidUp
  | .sweeteningOff, .process => some .draining
  | .draining, .process => some .laidUp
  | _, _ => none

/-- R57, in its order. -/
inductive PermitCondition where
  | campaign
  | supervision
  | trip
  | level
  | sensor
  | steam
  | timer
  | upstream
  | downstream
  | lag
  | phase
deriving DecidableEq, Repr

/-- R112: the state the mapping of CLOSE CAMPAIGN gives. -/
def windDownState (cls : SectionClass) (p : Phase) (st : SectionState) : SectionState :=
  match st, cls with
  | .cold, _ => .laidUp
  | .filling, .process => .draining
  | .conditioning, .process | .circulating, .process => if p = .sweet then .sweeteningOff else .draining
  | .circulating, .storage => .running
  | _, _ => st

/-- R177: the states a section of a class may be adopted into. -/
def adoptable (cls : SectionClass) (st : SectionState) : Bool :=
  match st, cls with
  | .cold, _ | .circulating, _ | .running, _ | .laidUp, _ => true
  | .filling, .process | .conditioning, .process | .sweeteningOff, .process | .draining, .process => true
  | _, _ => false

/-- R81, R177: the states whose adoption asks for steam. -/
def SectionState.steamState : SectionState → Bool
  | .conditioning | .circulating | .running | .sweeteningOff => true
  | .absent | .excluded | .cold | .filling | .held | .draining | .laidUp => false

/-- R31: the capture cause of a step taken at a re-examination. -/
def Why.cause : Why → CaptureCause
  | .crossing => .crossing
  | .expiry => .expiry
  | .modeChange => .auto
  | .other => .auto

/-- Campaign states and marks name the same three values (R17, R23). -/
def Mark.campaign : Mark → CampaignState
  | .closed => .closed
  | .opened => .opened
  | .windingDown => .windingDown

/-- The receiver of a delivery: its owner takes its deliveries in the order they were handed. -/
inductive DeliveryReceiver where
  | sec (i : SectionId)
  | steamAllocator
  | unitSupervisor
  | campaignController
deriving DecidableEq, Repr

def Delivery.receiver : Delivery → DeliveryReceiver
  | .reexamine i _ => .sec i
  | .addReason i _ => .sec i
  | .removeReason i _ => .sec i
  | .releaseClaim _ => .steamAllocator
  | .withdrawClaim _ => .steamAllocator
  | .cap _ _ => .steamAllocator
  | .runDemand _ => .unitSupervisor
  | .unitsExcluded _ => .unitSupervisor
  | .unitsIncluded _ => .unitSupervisor
  | .spareSupply _ _ => .campaignController
  | .closingTest => .campaignController

end Sys2Proof.Machine
end

