-- ==== Sys2Proof/Machine/Steam.lean ====
section
/-! DEFINITION. The steam allocator's record and its changes (chapter 5). Each change answers the new
record and the notices it makes for the section table, in the order it makes them (R76, R83). -/

namespace Sys2Proof.Machine

/-- What the allocator hands the section table. -/
inductive SteamNotice where
  /-- A claim is granted (R83). -/
  | grant (i : SectionId)
  /-- A STEAM hold reason (R81, R87). -/
  | steam (i : SectionId)
  /-- The removal of a STEAM hold reason, by a withdrawal (R85). -/
  | lift (i : SectionId)
deriving DecidableEq, Repr

def claimSum (cs : List Claim) : Nat := (cs.map Claim.demand).sum

def hasClaim (i : SectionId) (cs : List Claim) : Bool := cs.any fun c => c.sec == i

def withoutClaim (i : SectionId) (cs : List Claim) : List Claim := cs.filter fun c => c.sec != i

/-- The smaller of a budget and a cap, if present. -/
def capped (budget : Nat) : Option Nat → Nat
  | none => budget
  | some c => min budget c

/-- R78. -/
def Steam.effective (st : Steam) : Nat := st.caps.items.foldl capped st.hostBudget

/-- 05 section 5.1. -/
def Steam.claimedSum (st : Steam) : Nat := claimSum st.claims

/-- The claims a grant pass takes from the head of the queue while the head fits, and the rest (R82). -/
def grantable (room : Nat) : List Claim → List Claim × List Claim
  | [] => ([], [])
  | c :: q =>
    if c.demand ≤ room then
      let rest := grantable (room - c.demand) q
      (c :: rest.1, rest.2)
    else ([], c :: q)

/-- R82: a grant pass at campaign time `now`. -/
def Steam.grantPass (now : Nat) (st : Steam) : Steam × List SteamNotice :=
  let g := grantable (st.effective - st.claimedSum) st.queue
  ({ st with claims := st.claims ++ g.1.map (fun c => { c with since := now }), queue := g.2 },
    g.1.map fun c => .grant c.sec)

/-- A change of the record made before a grant pass, with the notices already made. -/
def Steam.thenPass (now : Nat) (made : List SteamNotice) (st : Steam) : Steam × List SteamNotice :=
  let p := st.grantPass now
  (p.1, made ++ p.2)

/-- R87 steps 1 and 2, on the claim list newest first: the claims taken and the claims kept. -/
def shedNewest (budget : Nat) : List Claim → List Claim × List Claim
  | [] => ([], [])
  | c :: cs =>
    if budget < claimSum (c :: cs) then
      let rest := shedNewest budget cs
      (c :: rest.1, rest.2)
    else ([], c :: cs)

/-- R87. -/
def Steam.shed (now : Nat) (st : Steam) : Steam × List SteamNotice :=
  let r := shedNewest st.effective st.claims.reverse
  let requeued : List Claim := r.1.map fun c => { c with since := now }
  let shed : Steam := { st with claims := r.2.reverse, queue := st.queue ++ requeued }
  shed.thenPass now (r.1.map fun c => .steam c.sec)

/-- R80: what follows a change of the effective budget from `old`. -/
def Steam.rebudget (now old : Nat) (st : Steam) : Steam × List SteamNotice :=
  if st.effective < st.claimedSum then st.shed now
  else if old < st.effective then st.grantPass now
  else (st, [])

/-- R79. -/
def Steam.setHost (now budget : Nat) (st : Steam) : Steam × List SteamNotice :=
  let changed : Steam := { st with hostBudget := budget }
  changed.rebudget now st.effective

/-- R78: a cap written into place `g`, or place `g` made absent. -/
def Steam.setCap (now : Nat) (g : GroupId) (c : Option Nat) (st : Steam) : Steam × List SteamNotice :=
  let changed : Steam := { st with caps := st.caps.set g c }
  changed.rebudget now st.effective

/-- R81: a request for section `i`; `held` where the section is HELD, as an adopted one is. -/
def Steam.request (now : Nat) (i : SectionId) (demand : Nat) (held : Bool) (st : Steam) :
    Steam × List SteamNotice :=
  if hasClaim i st.claims || hasClaim i st.queue then (st, [])
  else if demand = 0 then (st, [.grant i])
  else if st.queue.isEmpty && decide (demand ≤ st.effective - st.claimedSum) then
    ({ st with claims := st.claims ++ [{ sec := i, demand, since := now }] }, [.grant i])
  else
    ({ st with queue := st.queue ++ [{ sec := i, demand, since := now }] },
      if held then [.steam i] else [])

/-- R85. -/
def Steam.withdraw (now : Nat) (i : SectionId) (st : Steam) : Steam × List SteamNotice :=
  if hasClaim i st.queue then
    let without : Steam := { st with queue := withoutClaim i st.queue }
    without.thenPass now [.lift i]
  else (st, [])

/-- R84. -/
def Steam.release (now : Nat) (i : SectionId) (st : Steam) : Steam × List SteamNotice :=
  if hasClaim i st.claims then
    let without : Steam := { st with claims := withoutClaim i st.claims }
    without.grantPass now
  else st.withdraw now i

/-- R86: the releases and withdrawals of the mapping, as one change with one grant pass. The STEAM
removals it makes are handed in ascending section id (the model's choice, log 36). -/
def Steam.mapped (now : Nat) (secs : List SectionId) (st : Steam) : Steam × List SteamNotice :=
  let lifted := secs.filter fun i => hasClaim i st.queue
  let kept (cs : List Claim) : List Claim := cs.filter fun c => !secs.contains c.sec
  if secs.any fun i => hasClaim i st.claims || hasClaim i st.queue then
    let cleared : Steam := { st with claims := kept st.claims, queue := kept st.queue }
    cleared.thenPass now (lifted.map .lift)
  else (st, [])

end Sys2Proof.Machine
end

