-- ==== Sys2Proof/Machine/Ops.lean ====
section
/-! DEFINITION. The shared operations over the whole state: reading records, entering reports, handing
deliveries, state entries, hold reasons, permits, re-examination and the steam allocator's notices. -/

namespace Sys2Proof.Machine

/-! ### Reading and writing records -/

/-- The record of section `i` (R1). -/
def State.sec (s : State) (i : SectionId) : Section := s.sections.get i

def State.setSec (s : State) (i : SectionId) (r : Section) : State :=
  { s with sections := s.sections.set i r }

/-- Campaign time (R24). -/
def State.now (s : State) : Nat := s.campaign.clock

/-- R36: channel 2i carries the level of section i. -/
def levelChannel (i : SectionId) : ChannelId := ⟨2 * i.val, by have := i.isLt; omega⟩

/-- R36: channel 2i+1 carries the solids of section i. -/
def solidsChannel (i : SectionId) : ChannelId := ⟨2 * i.val + 1, by have := i.isLt; omega⟩

/-- R36: the section of a channel. -/
def channelSection (c : ChannelId) : SectionId := ⟨c.val / 2, by have := c.isLt; omega⟩

def State.level (s : State) (i : SectionId) : Channel := s.scanner.channels.get (levelChannel i)

def State.solids (s : State) (i : SectionId) : Channel := s.scanner.channels.get (solidsChannel i)

def State.levelBad (s : State) (i : SectionId) : Bool := (s.level i).validity == .bad

/-- R105, R106: whether section `d` stands full, at its high or its ceiling position. -/
def State.full (s : State) (d : SectionId) : Bool :=
  match (s.sec d).cls with
  | .process => (s.level d).bands.high == some true
  | .storage => (s.level d).bands.ceiling == some true

/-- R9: the upstream sections a rule means, with their lags. -/
def State.upstreamOf (s : State) (i : SectionId) : List Link :=
  (s.sec i).upstream.filter fun l => (s.sec l.id).state.partakes

/-- R9: the downstream sections a rule means. -/
def State.downstreamOf (s : State) (i : SectionId) : List SectionId :=
  (s.sec i).downstream.filter fun d => (s.sec d).state.partakes

/-- The neighbours of a section that take part (R9). -/
def State.neighbours (s : State) (i : SectionId) : List SectionId :=
  (s.upstreamOf i).map Link.id ++ s.downstreamOf i

/-- The sections that are neither EXCLUDED nor ABSENT. -/
def State.partaking (s : State) : List SectionId :=
  (allIds 24).filter fun i => (s.sec i).state.partakes

/-! ### Free choices of order (log 3) -/

/-- A choice among `n`: the next of `order`, or else the next free value. -/
def State.draw (n : Nat) (s : State) : Nat × State :=
  if n ≤ 1 then (0, s)
  else match s.order with
    | k :: rest => (k % n, { s with order := rest })
    | [] => (Config.freeOrder s.drawn % n, { s with drawn := s.drawn + 1 })

/-- The members of a list in a free order, drawn one at a time. -/
def State.shuffleFuel {α : Type} : Nat → List α → State → List α × State
  | 0, l, s => (l, s)
  | _ + 1, [], s => ([], s)
  | n + 1, a :: l, s =>
    let d := s.draw (a :: l).length
    let rest := State.shuffleFuel n ((a :: l).eraseIdx d.1) d.2
    (((a :: l)[d.1]?.getD a) :: rest.1, rest.2)

def State.shuffle {α : Type} (l : List α) (s : State) : List α × State :=
  State.shuffleFuel l.length l s

/-! ### Reports and deliveries -/

/-- R165: whether the mask enables the kind of a key. -/
def ReportMask.allows (m : ReportMask) : ReportKey → Bool
  | .sec _ => m.sec
  | .level _ => m.level
  | .steam => m.steam
  | .unit _ => m.unit
  | .trip _ => m.trip
  | .campaign => m.campaign

/-- R163: an entry handed to the report pending set. -/
def LinkPort.report (l : LinkPort) (k : ReportKey) : LinkPort :=
  if l.mask.allows k && !l.reports.contains k then { l with reports := l.reports ++ [k] } else l

def State.report (s : State) (k : ReportKey) : State := { s with link := s.link.report k }

/-- Entries for several keys of one kind made in one change, in a free order (log 20). -/
def State.reportAll (ks : List ReportKey) (s : State) : State :=
  let sh := s.shuffle ks
  sh.1.foldl State.report sh.2

/-- A delivery handed on, to be taken by its receiver (log 3, log 4). -/
def State.hand (s : State) (d : Delivery) : State := { s with work := s.work ++ [d] }

def State.handAll (s : State) (ds : List Delivery) : State := { s with work := s.work ++ ds }

/-- A re-examination handed to every section that takes part. -/
def State.reexamineAll (s : State) : State :=
  s.handAll (s.partaking.map fun i => .reexamine i .other)

/-! ### Entering a state (R3) -/

/-- R5: the route outputs of section `i` driven from its attributes. -/
def State.driveRoutes (s : State) (i : SectionId) : State :=
  let latch := (s.lines.routePolarity.get i).drive (s.sec i).intake (s.sec i).discharge
  { s with lines := { s.lines with routeLatch := s.lines.routeLatch.set i latch } }

/-- R63: the deadline set on an entry into CONDITIONING. -/
def deadlineFrom (now conditioning : Nat) : Nat := min (now + conditioning) Config.maxTime

/-- The record part of R3: entered-at, routes (R4), deadline (R63), held-from (R96, R99), capture. -/
def Section.entering (r : Section) (now : Nat) (dest : SectionState) (cause : CaptureCause) : Section :=
  { r with
    state := dest
    enteredAt := now
    heldFrom := if dest = .held then some r.state else none
    deadline := if dest = .conditioning then some (deadlineFrom now r.conditioningTime) else none
    intake := dest.intake
    discharge := dest.discharge r.phase
    ring := r.ring.capture now r.state dest cause r.phase }

/-- What a state entry of section `i`, out of `old`, hands to the other blocks (R3, R22, R55, R84,
R85, R129). -/
def State.announcements (s : State) (i : SectionId) (old : SectionState) : List Delivery :=
  let r := s.sec i
  (.reexamine i .other :: (s.neighbours i).map fun j => .reexamine j .other)
    ++ (if r.dutyUnits.isEmpty then [] else [.runDemand i])
    ++ (if r.state = .draining ∨ r.state = .laidUp then [.releaseClaim i] else [])
    ++ (if r.state = .held ∧ old = .filling ∧ hasClaim i s.steam.queue then [.withdrawClaim i] else [])
    ++ (if s.campaign.state = .windingDown then [.closingTest] else [])

/-- R3: section `i` enters a state. -/
def State.enter (s : State) (i : SectionId) (dest : SectionState) (cause : CaptureCause) : State :=
  let old := s.sec i
  let entered := ((s.setSec i (old.entering s.now dest cause)).driveRoutes i).report (.sec i)
  entered.handAll (entered.announcements i old.state)

/-- The reasons of R101 whose causes stand at an entry into a working state. -/
def State.entryReasons (s : State) (i : SectionId) (dest : SectionState) : List HoldReason :=
  (if s.levelBad i then [.sensor] else [])
    ++ (if s.supervisor.short.get i then [.units] else [])
    ++ (if dest.passesLiquor then ((s.downstreamOf i).filter s.full).map .full else [])

/-- Reasons added to a section's hold set, in the record alone. -/
def State.insertHolds (s : State) (i : SectionId) (rs : List HoldReason) : State :=
  s.setSec i { s.sec i with holds := rs.foldr insertReason (s.sec i).holds }

/-- R96: reasons added to a section in a working state, which enters HELD. -/
def State.holdWith (s : State) (i : SectionId) (rs : List HoldReason) : State :=
  (s.insertHolds i rs).enter i .held .hold

/-- R3 with R101: section `i` enters a state, and HELD from it where a cause of a hold stands. -/
def State.enterState (s : State) (i : SectionId) (dest : SectionState) (cause : CaptureCause) : State :=
  let entered := s.enter i dest cause
  let rs := entered.entryReasons i dest
  if dest.working && !rs.isEmpty then entered.holdWith i rs else entered

/-! ### The hold set (chapter 6) -/

/-- R95, R96, R97: a reason handed to section `i`. -/
def State.addReason (s : State) (i : SectionId) (r : HoldReason) : State :=
  let x := s.sec i
  if !x.takes r || x.holds.contains r then s
  else if x.state = .held then (s.insertHolds i [r]).report (.sec i)
  else s.holdWith i [r]

/-- R97, R99: the removal of a reason from section `i`, with the cause a leaving of HELD carries. -/
def State.removeReason (s : State) (i : SectionId) (r : HoldReason) (cause : CaptureCause) : State :=
  let x := s.sec i
  let rest := removeFrom r x.holds
  if !x.holds.contains r then s
  else if rest.isEmpty then
    match x.heldFrom with
    | some back => (s.setSec i { x with holds := [] }).enterState i back cause
    | none => s
  else (s.setSec i { x with holds := rest }).report (.sec i)

/-! ### Steam notices (R83, R85, R88) -/

/-- One notice of the steam allocator, taken by the section table. -/
def State.takeNotice (s : State) : SteamNotice → State
  | .grant i =>
    if (s.sec i).state = .filling then s.enterState i .conditioning .grant
    else if (s.sec i).holds.contains .steam then s.removeReason i .steam .grant
    else s.hand (.releaseClaim i)
  | .steam i => s.addReason i .steam
  | .lift i => s.removeReason i .steam .release

/-- The allocator's new record, with its STEAM report (R93), which joins the pending set before the
SECTION reports of the sections that the change moves (the model's choice, log 35). -/
def State.putSteam (s : State) (st : Steam) : State :=
  if st = s.steam then s else { s with steam := st }.report .steam

/-- A change of the allocator's record, with its notices taken in the order it made them (R76, R83;
log 6). -/
def State.steamChange (s : State) (change : Steam → Steam × List SteamNotice) : State :=
  (change s.steam).2.foldl State.takeNotice (s.putSteam (change s.steam).1)

/-! ### Permits (R57) -/

/-- A condition is listed when it does not hold. -/
def unmet (c : PermitCondition) (holds : Bool) : List PermitCondition := if holds then [] else [c]

/-- R115: whether upstream section `u` meets UPSTREAM for RUNNING → SWEETENING_OFF. -/
def State.windDownClear (s : State) (u : SectionId) : Bool :=
  match (s.sec u).state with
  | .laidUp => true
  | .sweeteningOff | .draining => (s.sec u).phase != .sweet
  | .absent | .excluded | .cold | .filling | .conditioning | .circulating | .running | .held => false

/-- R115, R116: whether the lag of a link has run out. -/
def State.lagRun (s : State) (l : Link) : Bool := decide ((s.sec l.id).phaseSince + l.lag ≤ s.now)

/-- R57 TRIP: whether a TRIPPED group has the section as a member. -/
def State.tripped (s : State) (i : SectionId) : Bool :=
  s.trips.groups.items.any fun g => g.state == .tripped && g.members.contains i

/-- R66: whether a downstream section's state is accepted by CIRCULATING → RUNNING. -/
def State.accepts (s : State) (d : SectionId) : Bool :=
  match (s.sec d).state with
  | .circulating | .running => true
  | .conditioning => s.campaign.overlapEffective
  | .absent | .excluded | .cold | .filling | .held | .sweeteningOff | .draining | .laidUp => false

/-- R64: whether the conditioning deadline is not later than the campaign time. -/
def State.timerRun (s : State) (i : SectionId) : Bool :=
  match (s.sec i).deadline with
  | some d => decide (d ≤ s.now)
  | none => false

/-- The failing conditions of the step out of section `i`'s state, in the order of R57
(R58, R59, R64, R66, R72, R115, R119, R120, R122, R124). -/
def State.failing (s : State) (i : SectionId) : List PermitCondition :=
  let r := s.sec i
  let supervised := r.mode == .manual || !s.campaign.supervisionLost
  let opened := s.campaign.state == .opened
  let windingDown := s.campaign.state == .windingDown
  match r.state, r.cls with
  | .cold, .process =>
    unmet .campaign opened ++ unmet .supervision supervised ++ unmet .trip (!s.tripped i)
      ++ unmet .sensor (!s.levelBad i)
  | .cold, .storage =>
    unmet .campaign opened ++ unmet .supervision supervised ++ unmet .trip (!s.tripped i)
  | .filling, _ => unmet .level ((s.level i).bands.fillDone == some true) ++ [.steam]
  | .conditioning, _ => unmet .timer (s.timerRun i)
  | .circulating, _ =>
    unmet .campaign opened ++ unmet .supervision supervised
      ++ unmet .upstream ((s.upstreamOf i).all fun l => (s.sec l.id).state == .running)
      ++ unmet .downstream ((s.downstreamOf i).all s.accepts)
  | .running, .process =>
    unmet .campaign windingDown
      ++ unmet .upstream ((s.upstreamOf i).all fun l => s.windDownClear l.id)
      ++ unmet .lag ((s.upstreamOf i).all fun l => !s.windDownClear l.id || s.lagRun l)
  | .running, .storage =>
    unmet .campaign windingDown
      ++ unmet .upstream ((s.upstreamOf i).all fun l => (s.sec l.id).state == .laidUp)
      ++ unmet .phase ((s.downstreamOf i).isEmpty || r.phase == .empty)
  | .sweeteningOff, _ => unmet .phase (r.phase != .sweet)
  | .draining, _ => unmet .phase (r.phase == .empty)
  | .absent, _ | .excluded, _ | .held, _ | .laidUp, _ => []

/-! ### Re-examination (R55) -/

/-- R60: the fill-done steam request. -/
def State.fillDoneRequest (s : State) (i : SectionId) : State :=
  if (s.sec i).state = .filling ∧ (s.level i).bands.fillDone = some true ∧
      hasClaim i s.steam.queue = false then
    s.steamChange (Steam.request s.now i (s.sec i).demand false)
  else s

/-- R74: the step out of CONDITIONING is taken at the expiry or at a change of mode (log 8). -/
def Why.allows (why : Why) (st : SectionState) : Bool :=
  match why with
  | .expiry | .modeChange => true
  | .crossing | .other => st != .conditioning

/-- R55: section `i` re-examines its permits. -/
def State.reexamine (s : State) (i : SectionId) (why : Why) : State :=
  let r := s.sec i
  match nextStep r.cls r.state with
  | some dest =>
    if r.mode = .auto ∧ s.failing i = [] ∧ why.allows r.state then s.enterState i dest why.cause
    else s.fillDoneRequest i
  | none => s

end Sys2Proof.Machine
end

