-- ==== Sys2Proof/Machine/Units.lean ====
section
/-! DEFINITION. The unit supervisor's record and its changes (chapter 8): spares, coverings, the watch
list, run outputs, the available count, and what a change hands to the other blocks. -/

namespace Sys2Proof.Machine

/-! ### The record -/

def UnitSupervisor.setUnit (us : UnitSupervisor) (u : UnitId) (r : UnitRecord) : UnitSupervisor :=
  { us with units := us.units.set u r }

/-- A HEALTHY spare that covers no unit (R141). -/
def UnitRecord.freeSpare (r : UnitRecord) : Bool :=
  r.role == .spare && r.condition == .healthy && r.covering == Option.none

/-- R141: the free-spare count. -/
def UnitSupervisor.freeCount (us : UnitSupervisor) : Nat := us.units.items.countP UnitRecord.freeSpare

/-- R134: the lowest-numbered free HEALTHY spare of a class. -/
def UnitSupervisor.lowestFree (us : UnitSupervisor) (cls : Nat) : Option UnitId :=
  (allIds 48).find? fun u => (us.units.get u).freeSpare && (us.units.get u).cls == cls

/-- R134 step 1: spare `sp` assigned to duty unit `u`. -/
def UnitSupervisor.assign (us : UnitSupervisor) (sp u : UnitId) : UnitSupervisor :=
  let covered := us.setUnit u { us.units.get u with coveredBy := some sp }
  covered.setUnit sp { covered.units.get sp with covering := some u }

/-- A covering ended on both records. -/
def UnitSupervisor.uncover (us : UnitSupervisor) (sp u : UnitId) : UnitSupervisor :=
  let freed := us.setUnit u { us.units.get u with coveredBy := none }
  freed.setUnit sp { freed.units.get sp with covering := none }

/-- R134: coverage requested for duty unit `u`. -/
def UnitSupervisor.requestCoverage (us : UnitSupervisor) (u : UnitId) : UnitSupervisor :=
  match us.lowestFree (us.units.get u).cls with
  | some sp => us.assign sp u
  | none => { us with demands := us.demands ++ [{ unit := u, cls := (us.units.get u).cls }] }

def withoutDemand (u : UnitId) (ds : List SpareDemand) : List SpareDemand := ds.filter fun d => d.unit != u

/-- R136: spare `sp` offered to the demand queue. -/
def UnitSupervisor.offer (us : UnitSupervisor) (sp : UnitId) : UnitSupervisor :=
  if (us.units.get sp).freeSpare then
    match us.demands.find? fun d => d.cls == (us.units.get sp).cls with
    | some d => { us with demands := withoutDemand d.unit us.demands }.assign sp d.unit
    | none => us
  else us

/-- R135: spare `sp` taken off duty unit `u`, whose demand goes to the head of the queue. -/
def UnitSupervisor.dropCovering (us : UnitSupervisor) (sp u : UnitId) : UnitSupervisor :=
  let freed := us.uncover sp u
  match freed.lowestFree (freed.units.get u).cls with
  | some other => freed.assign other u
  | none => { freed with demands := { unit := u, cls := (freed.units.get u).cls } :: freed.demands }

/-! ### Faults (R130, R131) -/

/-- Whether the section of a unit is neither ABSENT nor EXCLUDED. -/
def inService (secs : Table Section 24) : Option SectionId → Bool
  | some i => (secs.get i).state.partakes
  | none => false

/-- R130, R134, R135: unit `u` becomes FAILED. -/
def UnitSupervisor.fail (secs : Table Section 24) (us : UnitSupervisor) (u : UnitId) : UnitSupervisor :=
  let r := us.units.get u
  let failed : UnitSupervisor :=
    { us.setUnit u { r with condition := .failed, window := none } with
      watch := us.watch.filter fun w => w != u }
  match r.role, r.covering with
  | .duty, _ => if inService secs r.sec then failed.requestCoverage u else failed
  | .spare, some d => failed.dropCovering u d
  | .spare, none => failed
  | .none, _ => us

/-- R130: the fault input of `u` becomes ACTIVE. -/
def UnitSupervisor.faultActive (secs : Table Section 24) (us : UnitSupervisor) (u : UnitId) :
    UnitSupervisor :=
  let marked := us.setUnit u { us.units.get u with faultActive := true }
  let r := marked.units.get u
  match r.role, r.condition with
  | .none, _ => marked
  | _, .healthy =>
    if r.runOutput && !us.watch.contains u then
      marked.setUnit u { r with condition := .faultPending, window := some us.window }
    else marked.fail secs u
  | _, .faultPending => marked
  | _, .failed => marked

/-- R131, R132: `u` joins the watch list at the newest end; the oldest of 17 is removed. -/
def joinWatch (u : UnitId) (watch : List UnitId) : List UnitId :=
  if watch.length < Config.watchList then watch ++ [u] else (watch ++ [u]).tail

/-- R131: the fault input of `u` becomes INACTIVE. -/
def UnitSupervisor.faultInactive (us : UnitSupervisor) (u : UnitId) : UnitSupervisor :=
  let marked := us.setUnit u { us.units.get u with faultActive := false }
  let r := marked.units.get u
  match r.role, r.condition with
  | .none, _ => marked
  | _, .faultPending =>
    let well : UnitSupervisor :=
      { marked.setUnit u { r with condition := .healthy, window := none } with
        watch := joinWatch u marked.watch }
    well.offer u
  | _, .healthy => marked
  | _, .failed => marked

/-- R131: one tick of the supervisor's timer. -/
def UnitSupervisor.tick (us : UnitSupervisor) : UnitSupervisor :=
  { us with units := us.units.map fun r => { r with window := r.window.map fun w => w - 1 } }

/-- R131: whether the window of `u` has run out with its fault input still ACTIVE. -/
def UnitRecord.windowOut (r : UnitRecord) : Bool :=
  r.condition == .faultPending && r.window == some 0 && r.faultActive

/-! ### Return, exclusion, inclusion (R137, R138) -/

/-- R137: an accepted RETURN UNIT. -/
def UnitSupervisor.giveBack (us : UnitSupervisor) (u : UnitId) : UnitSupervisor :=
  let r := us.units.get u
  let well : UnitSupervisor := us.setUnit u { r with condition := .healthy, window := none }
  match r.role, r.coveredBy with
  | .duty, some sp => (well.uncover sp u).offer sp
  | .duty, none => { well with demands := withoutDemand u well.demands }
  | .spare, _ => well.offer u
  | .none, _ => us

def UnitSupervisor.failedOf (us : UnitSupervisor) (duty : List UnitId) : List UnitId :=
  duty.filter fun u => (us.units.get u).condition == .failed

/-- R138: a FAILED duty unit of an excluded section gives up its covering, or its demand. -/
def UnitSupervisor.giveUp (t : UnitSupervisor) (u : UnitId) : UnitSupervisor :=
  match (t.units.get u).coveredBy with
  | some sp => t.uncover sp u
  | none => { t with demands := withoutDemand u t.demands }

/-- R138: the coverings and demands of the FAILED duty units of an excluded section are ended, and
the spares so freed are offered in ascending id. -/
def UnitSupervisor.exclude (us : UnitSupervisor) (duty : List UnitId) : UnitSupervisor :=
  let failed := us.failedOf duty
  let spares := (allIds 48).filter fun sp =>
    match (us.units.get sp).covering with
    | some u => failed.contains u
    | none => false
  spares.foldl UnitSupervisor.offer (failed.foldl UnitSupervisor.giveUp us)

def UnitSupervisor.queued (us : UnitSupervisor) (u : UnitId) : Bool := us.demands.any fun d => d.unit == u

/-- Whether a duty unit is covered, or waits on the demand queue. -/
def UnitSupervisor.attended (us : UnitSupervisor) (u : UnitId) : Bool :=
  (us.units.get u).coveredBy.isSome || us.queued u

/-- R138: coverage requested for a FAILED duty unit of an included section, unless it is attended
already. -/
def UnitSupervisor.attend (us : UnitSupervisor) (u : UnitId) : UnitSupervisor :=
  if us.attended u then us else us.requestCoverage u

/-- R138: demands entered for the FAILED duty units of an included section. -/
def UnitSupervisor.includeUnits (us : UnitSupervisor) (duty : List UnitId) : UnitSupervisor :=
  (us.failedOf duty).foldl UnitSupervisor.attend us

/-! ### Run outputs and the available count (R129, R139) -/

/-- R129: whether a unit's run output is asserted. -/
def UnitSupervisor.runs (secs : Table Section 24) (us : UnitSupervisor) (u : UnitId) : Bool :=
  let r := us.units.get u
  let calls (o : Option SectionId) : Bool :=
    match o with
    | some i => (secs.get i).state.runsUnits
    | none => false
  r.condition != .failed &&
    match r.role, r.covering with
    | .duty, _ => calls r.sec
    | .spare, some d => calls (us.units.get d).sec
    | .spare, none => false
    | .none, _ => false

/-- The run outputs of these units re-evaluated (R129). -/
def UnitSupervisor.drive (secs : Table Section 24) (us : UnitSupervisor) (which : List UnitId) :
    UnitSupervisor :=
  which.foldl (fun t u => t.setUnit u { t.units.get u with runOutput := t.runs secs u }) us

/-- R139: whether a duty unit counts as available, itself or by its covering spare. -/
def UnitSupervisor.counts (us : UnitSupervisor) (u : UnitId) : Bool :=
  let r := us.units.get u
  r.condition != .failed ||
    match r.coveredBy with
    | some sp => (us.units.get sp).condition != .failed
    | none => false

/-- R139: the available count of a section. -/
def UnitSupervisor.available (us : UnitSupervisor) (r : Section) : Nat := r.dutyUnits.countP us.counts

/-- R139: whether a section is short. -/
def UnitSupervisor.isShort (us : UnitSupervisor) (r : Section) : Bool := decide (us.available r < r.minUnits)

/-- The units whose condition or covering differs, whose run outputs R129 re-evaluates. -/
def UnitSupervisor.moved (old new : UnitSupervisor) : List UnitId :=
  (allIds 48).filter fun u =>
    let a := old.units.get u
    let b := new.units.get u
    a.condition != b.condition || a.covering != b.covering || a.coveredBy != b.coveredBy

/-- R144: whether a unit's record has changed in a way that enters a UNIT report. -/
def UnitSupervisor.reportable (old new : UnitSupervisor) (u : UnitId) : Bool :=
  let a := old.units.get u
  let b := new.units.get u
  a.faultActive != b.faultActive || a.condition != b.condition || a.covering != b.covering
    || a.coveredBy != b.coveredBy || a.runOutput != b.runOutput
    || old.watch.contains u != new.watch.contains u || old.queued u != new.queued u

/-! ### A change of the supervisor's record, and what it hands on -/

/-- R140: the UNITS changes handed for the sections whose short condition has changed. -/
def unitsHandings (old new : Table Bool 24) : List Delivery :=
  (allIds 24).flatMap fun i =>
    match old.get i, new.get i with
    | false, true => [.addReason i .units]
    | true, false => [.removeReason i .units]
    | _, _ => []

/-- R141: the supply made when the free-spare count or the reserve has changed. -/
def supplyHanding (old new : UnitSupervisor) : List Delivery :=
  if old.freeCount = new.freeCount ∧ old.reserve = new.reserve then []
  else [.spareSupply new.freeCount new.reserve]

/-- The supervisor's new record, the latches its run outputs drive (R5), its handings (R140, R141)
and its UNIT reports (R144). -/
def State.putUnits (s : State) (new : UnitSupervisor) : State :=
  let short := Table.ofFn fun i => new.isShort (s.sec i)
  let latch := Table.ofFn fun u => (s.lines.runPolarity.get u).level (new.units.get u).runOutput
  let stored : State :=
    { s with supervisor := { new with short := short }, lines := { s.lines with runLatch := latch } }
  let handed := stored.handAll (unitsHandings s.supervisor.short short ++ supplyHanding s.supervisor new)
  handed.reportAll (((allIds 48).filter (s.supervisor.reportable new)).map .unit)

/-- A change of the supervisor's record, with the run outputs it re-evaluates (R129). -/
def State.supervise (s : State) (change : UnitSupervisor → UnitSupervisor) : State :=
  let new := change s.supervisor
  s.putUnits (new.drive s.sections (s.supervisor.moved new))

/-- R129: section `i`'s state entry, taken as run demand. -/
def State.runDemand (s : State) (i : SectionId) : State :=
  let duty := (s.sec i).dutyUnits
  let spares := duty.filterMap fun u => (s.supervisor.units.get u).coveredBy
  s.putUnits (s.supervisor.drive s.sections (duty ++ spares))

end Sys2Proof.Machine
end

