-- ==== Sys2Proof/Machine/Campaign.lean ====
section
/-! DEFINITION. The campaign controller's operations (chapter 2), its mark writes (R175), and the
mapping that the section table makes for it (chapter 7). -/

namespace Sys2Proof.Machine

/-! ### Overlapped start and the spare supply (R29) -/

/-- R29: the law of the effective flag. -/
def Campaign.overlapDue (c : Campaign) : Bool := c.overlapRequested && decide (c.spareReserve < c.freeSpares)

/-- R29: overlapped start effective recomputed; a change enters a CAMPAIGN report and makes every
section in CIRCULATING re-examine. -/
def State.recomputeOverlap (s : State) : State :=
  let due := s.campaign.overlapDue
  if s.campaign.overlapEffective = due then s
  else
    let turned : State := { s with campaign := { s.campaign with overlapEffective := due } }
    (turned.report .campaign).handAll
      (((allIds 24).filter fun i => (s.sec i).state = .circulating).map fun i => .reexamine i .other)

/-- R29: the free-spare count and the spare reserve, as supplied. -/
def State.takeSupply (s : State) (free reserve : Nat) : State :=
  let supplied : State := { s with campaign := { s.campaign with freeSpares := free, spareReserve := reserve } }
  supplied.recomputeOverlap

/-! ### The campaign mark (R175) -/

/-- R175: a request to write a mark value. -/
def SiteService.requestMark (site : SiteService) (v : Mark) : SiteService :=
  match site.markWriting with
  | none => { site with markWriting := some v }
  | some _ => { site with markPending := some v }

def State.requestMark (s : State) (v : Mark) : State := { s with site := s.site.requestMark v }

/-- R20, R21, R23: a mark value asked for, whose write the answer waits for. -/
def State.awaitMark (s : State) (v : Mark) : State :=
  ({ s with campaign := { s.campaign with pendingMark := some v } } : State).requestMark v

/-! ### Closing (R22) -/

/-- R22: the closing test. -/
def State.finished (s : State) : Bool :=
  (allIds 24).all fun i =>
    !(s.sec i).fitted || (s.sec i).state == .laidUp || (s.sec i).state == .excluded

/-- R22 step 3, R110: the ceiling-lifted flag of every STORAGE section cleared. -/
def Section.dropLift (r : Section) : Section :=
  match r.cls with
  | .storage => { r with ceilingLifted := false }
  | .process => r

/-- R22: the campaign closes as one change. -/
def State.closeNow (s : State) : State :=
  let closed : State :=
    { s with
      campaign :=
        { s.campaign with
          state := .closed
          lock := false
          pendingMark := s.campaign.pendingMark.map fun _ => .closed }
      sections := s.sections.map Section.dropLift }
  ((closed.requestMark .closed).report .campaign).reexamineAll

/-- R22: the closing test, made while the campaign is WINDING_DOWN. -/
def State.closingTest (s : State) : State :=
  if s.campaign.state = .windingDown ∧ s.finished then s.closeNow else s

/-! ### The mapping (R112, R113, R114) -/

/-- R112, R113: section `i` moved, or its held-from rewritten. -/
def State.mapSection (s : State) (i : SectionId) : State :=
  let r := s.sec i
  match r.state with
  | .held =>
    let back := r.heldFrom.map (windDownState r.cls r.phase)
    if back = r.heldFrom then s else (s.setSec i { r with heldFrom := back }).report (.sec i)
  | .cold | .filling | .conditioning | .circulating =>
    let dest := windDownState r.cls r.phase r.state
    if dest = r.state then s else s.enterState i dest .campaign
  | .absent | .excluded | .running | .sweeteningOff | .draining | .laidUp => s

/-- R86: whether the mapping sends the section, or its held-from, to DRAINING or LAID_UP. -/
def Section.mappedOff (r : Section) : Bool :=
  let st := if r.state = .held then r.heldFrom else some r.state
  match st with
  | some st => windDownState r.cls r.phase st != st &&
      (windDownState r.cls r.phase st == .draining || windDownState r.cls r.phase st == .laidUp)
  | none => false

/-- R114 steps 1 and 2: the 24 records moved or rewritten, then the allocator's one change (R86). -/
def State.mapSections (s : State) : State :=
  let off := (allIds 24).filter fun i => (s.sec i).mappedOff
  let sh := s.shuffle (allIds 24)
  let mapped := sh.1.foldl State.mapSection sh.2
  mapped.steamChange (Steam.mapped s.now off)

/-- The section whose state entry a delivery hands the unit supervisor. -/
def Delivery.demanded : Delivery → Option SectionId
  | .runDemand i => some i
  | .reexamine _ _ | .addReason _ _ | .removeReason _ _ | .releaseClaim _ | .withdrawClaim _ | .cap _ _
  | .unitsExcluded _ | .unitsIncluded _ | .spareSupply _ _ | .closingTest => none

/-- Section `i`'s state entry taken off the deliveries waiting, as run demand (R129). -/
def State.takeRunDemand (s : State) (i : SectionId) : State :=
  ({ s with work := s.work.erase (.runDemand i) } : State).runDemand i

/-- R114 step 3: the unit supervisor takes the state entries that wait for it, in the order handed. -/
def State.takeRunDemands (s : State) : State :=
  (s.work.filterMap Delivery.demanded).foldl State.takeRunDemand s

/-- R114: the mapping, one change in three steps: nothing else is taken before the run demands. -/
def State.windDownMapping (s : State) : State := s.mapSections.takeRunDemands

/-- R21, R23: WINDING_DOWN entered with the mapping, the closing test and the re-examinations. -/
def State.windDown (s : State) : State := (s.windDownMapping.closingTest).reexamineAll

/-! ### Opening (R20) -/

/-- R20 stage 2 with R13, R33 and R47. -/
def Section.zeroed (r : Section) : Section :=
  { r with enteredAt := 0, phaseSince := 0, ring := CaptureRing.emptied r.ring.mode r.ring.fill }

/-- R20: the stages of OPEN CAMPAIGN. -/
def State.openNow (s : State) : State :=
  let sh := s.shuffle ((allIds 24).filter fun i => (s.sec i).state = .laidUp)
  let cold := sh.1.foldl (fun t i => t.enterState i .cold .campaign) sh.2
  let opened : State :=
    { cold with
      sections := cold.sections.map Section.zeroed
      campaign := { cold.campaign with clock := 0, lock := true, state := .opened } }
  ((opened.awaitMark .opened).report .campaign).reexamineAll

/-- R21: an accepted CLOSE CAMPAIGN. -/
def State.turnToWindDown (s : State) : State :=
  let turned : State := { s with campaign := { s.campaign with state := .windingDown } }
  ((turned.awaitMark .windingDown).report .campaign).windDown

/-- R23: an accepted RESUME CAMPAIGN with resume target `m`. -/
def State.resumeTo (s : State) (m : Mark) : State :=
  let turned : State := { s with campaign := { s.campaign with state := m.campaign, resume := none } }
  let asked := (turned.awaitMark m).report .campaign
  match m with
  | .windingDown => asked.windDown
  | .opened => asked.reexamineAll
  | .closed => asked.reexamineAll

/-! ### Supervision (R26) -/

/-- R26: supervision lost set. -/
def State.loseSupervision (s : State) : State :=
  if s.campaign.supervisionLost then s
  else ({ s with campaign := { s.campaign with supervisionLost := true } } : State).report .campaign

/-- R26: supervision lost cleared, with every section's re-examination. -/
def State.regainSupervision (s : State) : State :=
  if s.campaign.supervisionLost then
    (({ s with campaign := { s.campaign with supervisionLost := false } } : State).report
      .campaign).reexamineAll
  else s

end Sys2Proof.Machine
end

