-- ==== Sys2Proof/Machine/Trips.lean ====
section
/-! DEFINITION. The trip unit's operations (chapter 9). -/

namespace Sys2Proof.Machine

def State.group (s : State) (g : GroupId) : TripGroup := s.trips.groups.get g

def State.setGroup (s : State) (g : GroupId) (r : TripGroup) : State :=
  { s with trips := { s.trips with groups := s.trips.groups.set g r } }

/-- R146: the active flag an input's level calls for. -/
def TripInput.atLevel (t : TripInput) (level : Bool) : TripInput :=
  { t with level := level, active := t.polarity.level level }

/-- R146: the level that makes an input active, or inactive. -/
def TripInput.becoming (t : TripInput) (active : Bool) : TripInput :=
  { t with level := t.polarity.level active, active := active }

/-- R147: the inputs of a set whose active flag is yes, in the set's own ascending order (the model's choice,
log 46). -/
def TripUnit.activeOf (t : TripUnit) (inputs : List InputId) : List InputId :=
  inputs.filter fun i => (t.inputs.get i).active

/-- The members a trip hands TRIP(g) to: those in a working state or HELD (R148 step 4, R149). -/
def State.tripMembers (s : State) (members : List SectionId) : List SectionId :=
  members.filter fun i => (s.sec i).state.working || (s.sec i).state == .held

def capHanding (g : GroupId) : Option Nat → Option Nat → List Delivery
  | some _, c => [.cap g c]
  | none, _ => []

/-- R148: group `g` trips, with this first cause, these active inputs and this forced flag. -/
def State.tripGroup (s : State) (g : GroupId) (cause : FirstCause) (active : List InputId)
    (forced : Bool) : State :=
  let r := s.group g
  let tripped := s.setGroup g
    { r with state := .tripped, firstCause := some cause, activeInputs := active, forced := forced }
  let handed := tripped.handAll
    ((s.tripMembers r.members).map (fun i => .addReason i (.trip g))
      ++ capHanding g r.cap r.cap
      ++ r.members.map fun i => .reexamine i .other)
  handed.report (.trip g)

/-- R151: group `g` clears. -/
def State.clearGroup (s : State) (g : GroupId) : State :=
  let r := s.group g
  let cleared := s.setGroup g
    { r with state := .normal, firstCause := none, activeInputs := [], forced := false }
  let holders := (allIds 24).filter fun i => (s.sec i).holds.contains (.trip g)
  let handed := cleared.handAll
    (holders.map (fun i => .removeReason i (.trip g))
      ++ capHanding g r.cap none
      ++ r.members.map fun i => .reexamine i .other)
  handed.report (.trip g)

/-- R148: group `g` takes the event that one of its inputs has become active. -/
def State.groupInputActive (s : State) (input : InputId) (g : GroupId) : State :=
  let r := s.group g
  let active := s.trips.activeOf r.inputs
  match r.state with
  | .normal => s.tripGroup g (.input input) active r.forced
  | .tripped => (s.setGroup g { r with activeInputs := active }).report (.trip g)

/-- R150: group `g` takes the event that one of its inputs has become inactive. -/
def State.groupInputInactive (s : State) (g : GroupId) : State :=
  let r := s.group g
  let active := s.trips.activeOf r.inputs
  let left := (s.setGroup g { r with activeInputs := active }).report (.trip g)
  if r.state = .tripped ∧ r.mode = .selfClearing ∧ r.forced = false ∧ active = [] then left.clearGroup g
  else left

/-- The groups whose input set holds an input. -/
def State.groupsOf (s : State) (input : InputId) : List GroupId :=
  (allIds 4).filter fun g => (s.group g).inputs.contains input

def State.setInput (s : State) (i : InputId) (r : TripInput) : State :=
  { s with trips := { s.trips with inputs := s.trips.inputs.set i r } }

/-- R152: an accepted FORCE TRIP. -/
def State.forceGroup (s : State) (g : GroupId) : State :=
  let r := s.group g
  match r.state with
  | .normal => s.tripGroup g .forced r.activeInputs true
  | .tripped => if r.forced then s else (s.setGroup g { r with forced := true }).report (.trip g)

/-- R154: an accepted SET GROUP. -/
def State.configureGroup (s : State) (g : GroupId) (members : List SectionId) (inputs : List InputId)
    (mode : TripMode) (cap : Option Nat) : State :=
  let active := s.trips.activeOf inputs
  let configured := s.setGroup g { s.group g with members, inputs, mode, cap, activeInputs := active }
  match active with
  | [] => configured.report (.trip g)
  | lowest :: _ => configured.tripGroup g (.input lowest) active (s.group g).forced

end Sys2Proof.Machine
end

