-- ==== Sys2Proof/Machine/Cascade.lean ====
section
/-! DEFINITION. Deliveries taken by their receivers until none is left (00 section 2.1, R3, R56). -/

namespace Sys2Proof.Machine

/-- A reason that no delivery places or removes: RESTART is removed by ADOPT alone, HOST by RELEASE
alone, and STEAM goes with the allocator's own notices (R83, R85, R87, R94, R104). -/
def HoldReason.undelivered : HoldReason → Bool
  | .restart | .host | .steam => true
  | .trip _ | .full _ | .sensor | .units => false

/-- One delivery, taken whole by its receiver. An exclusion is taken while the section is out of service,
and an inclusion while it is in service (R138). -/
def State.runDelivery (s : State) : Delivery → State
  | .reexamine i why => s.reexamine i why
  | .addReason i r => if r.undelivered then s else s.addReason i r
  | .removeReason i r => if r.undelivered then s else s.removeReason i r .release
  | .releaseClaim i => s.steamChange (Steam.release s.now i)
  | .withdrawClaim i => s.steamChange (Steam.withdraw s.now i)
  | .cap g c => s.steamChange (Steam.setCap s.now g c)
  | .runDemand i => s.runDemand i
  | .unitsExcluded i =>
    if (s.sec i).state.partakes then s else s.supervise fun us => us.exclude (s.sec i).dutyUnits
  | .unitsIncluded i =>
    if (s.sec i).state.partakes then s.supervise fun us => us.includeUnits (s.sec i).dutyUnits else s
  | .spareSupply free reserve => s.takeSupply free reserve
  | .closingTest => s.closingTest

/-- The receivers with a delivery waiting, each once. -/
def receivers (work : List Delivery) : List DeliveryReceiver := (work.map Delivery.receiver).dedup

/-- A free choice of receiver takes the oldest delivery handed to it (log 3, log 4). -/
def State.takeOne (s : State) : State :=
  let rs := receivers s.work
  let d := s.draw rs.length
  match rs[d.1]? with
  | none => s
  | some r =>
    match s.work.find? fun w => w.receiver = r with
    | none => s
    | some w => ({ d.2 with work := s.work.erase w } : State).runDelivery w

def State.settleFor : Nat → State → State
  | 0, s => s
  | n + 1, s => if s.work.isEmpty then s else settleFor n s.takeOne

/-- Deliveries taken until none is left (log 5). -/
def State.settle (s : State) : State := s.settleFor Config.cascadeBound

end Sys2Proof.Machine
end

