-- ==== Sys2Proof/Machine/Operands.lean ====
section
/-! DEFINITION. Bytes of telegrams and stored parts: the check of R158, the field sizes of R169, and
the readers of body fields. -/

namespace Sys2Proof.Machine

/-! ### The check (10 section 10.1) -/

/-- One bit of the check: polynomial 1021 hex, most significant bit first. -/
def crcBit (c : BitVec 16) : BitVec 16 :=
  if c.msb then (c <<< 1) ^^^ 0x1021#16 else c <<< 1

def crcBits : Nat → BitVec 16 → BitVec 16
  | 0, c => c
  | n + 1, c => crcBits n (crcBit c)

/-- The check carried over one more byte. -/
def crcByte (c : BitVec 16) (b : Byte) : BitVec 16 :=
  crcBits 8 (c ^^^ (b.setWidth 16 <<< 8))

/-- CRC-16 with initial value FFFF hex and no final inversion (10 section 10.1). -/
def crc16 (bs : List Byte) : BitVec 16 :=
  bs.foldl crcByte 0xFFFF#16

/-- A byte holding a quantity of 0..255. -/
def byte (n : Nat) : Byte := BitVec.ofNat 8 n

/-- The check of a telegram: over body length, kind, tag and body. -/
def Telegram.check (t : Telegram) : BitVec 16 :=
  crc16 (byte t.body.length :: t.kind :: t.tag :: t.body)

/-- The bytes of a telegram on the line: sync, body length, kind, tag, body, check high byte first. -/
def Telegram.frame (t : Telegram) : List Byte :=
  0xA5#8 :: byte t.body.length :: t.kind :: t.tag :: t.body
    ++ [(t.check >>> 8).setWidth 8, t.check.setWidth 8]

/-! ### Writing fields (R169) -/

/-- Two bytes, most significant first. -/
def word (n : Nat) : List Byte := [byte (n / 256), byte n]

/-- Four bytes, most significant first: a campaign time. -/
def seconds (n : Nat) : List Byte := word (n / 65536) ++ word n

def flag (b : Bool) : Byte := if b then 1 else 0

/-- An optional field: a presence code, then the value only when present. -/
def optional {α : Type} (put : α → List Byte) : Option α → List Byte
  | none => [0]
  | some a => 1 :: put a

/-- A list: a count, then that many entries. -/
def listed {α : Type} (put : α → List Byte) (l : List α) : List Byte :=
  byte l.length :: l.flatMap put

/-! ### Reading fields (R169) -/

/-- A reader of one field: its value and the bytes after it, or `none` where the bytes run out. -/
abbrev Reader (α : Type) := List Byte → Option (α × List Byte)

def readByte : Reader Nat
  | [] => none
  | b :: bs => some (b.toNat, bs)

def readWord : Reader Nat
  | b :: c :: bs => some (b.toNat * 256 + c.toNat, bs)
  | _ => none

/-- `n` fields of one form. -/
def readMany {α : Type} (one : Reader α) : Nat → Reader (List α)
  | 0, bs => some ([], bs)
  | n + 1, bs =>
    match one bs with
    | none => none
    | some (a, rest) =>
      match readMany one n rest with
      | none => none
      | some (as, rest') => some (a :: as, rest')

/-- A count, then that many fields. -/
def readList {α : Type} (one : Reader α) : Reader (List α) := fun bs =>
  match readByte bs with
  | none => none
  | some (n, rest) => readMany one n rest

/-- A presence code, then the value only when the code is 1; the code is kept for its own check. That a
code of 2 or more calls for no value byte, in a SET GROUP body and in a part of the site record, is the model's
choice (log 43). -/
def readOptional {α : Type} (one : Reader α) : Reader (Nat × Option α) := fun bs =>
  match readByte bs with
  | none => none
  | some (p, rest) =>
    if p = 1 then
      match one rest with
      | none => none
      | some (a, rest') => some ((p, some a), rest')
    else some ((p, none), rest)

/-- One field after another. -/
def readBoth {α β : Type} (one : Reader α) (two : Reader β) : Reader (α × β) := fun bs =>
  match one bs with
  | none => none
  | some (a, rest) =>
    match two rest with
    | none => none
    | some (b, rest') => some ((a, b), rest')

/-- A body that holds exactly one field of this form and nothing after it. -/
def readAll {α : Type} (one : Reader α) (bs : List Byte) : Option α :=
  match one bs with
  | some (a, []) => some a
  | _ => none

/-- The section a section id byte names, if it is one of 0..23. -/
def idOf (n k : Nat) : Option (Fin n) := if h : k < n then some ⟨k, h⟩ else none

/-! ### Request bodies (R170) -/

/-- A request's body, read into its fields as R170 lists them, before any check of their values. -/
inductive Fields where
  | nothing
  | oneId (id : Nat)
  | siteHalf (part half : Nat)
  | adoption (sec state : Nat)
  | links (sec : Nat) (upstream : List (Nat × Nat)) (downstream : List Nat)
  | limits (sec : Nat) (l : Limits) (ceiling : Nat)
  | timing (sec conditioning demand : Nat)
  | mode (scope sec setting : Nat)
  | units (sec minimum reserve window : Nat)
  | group (g : Nat) (members inputs : List Nat) (mode presence : Nat) (cap : Option Nat)
  | capture (sec mode fill : Nat)
  | reporting (flags : List Nat) (prescale silence : Nat)
  | sitePart (bytes : List Byte)
deriving DecidableEq, Repr

def readNothing : List Byte → Option Fields
  | [] => some .nothing
  | _ => none

def readOneId : List Byte → Option Fields
  | [a] => some (.oneId a.toNat)
  | _ => none

def readSiteHalf : List Byte → Option Fields
  | [p, h] => some (.siteHalf p.toNat h.toNat)
  | _ => none

def readAdoption : List Byte → Option Fields
  | [s, st] => some (.adoption s.toNat st.toNat)
  | _ => none

def readLinks (bs : List Byte) : Option Fields :=
  (readAll (readBoth readByte
    (readBoth (readList (readBoth readByte readWord)) (readList readByte))) bs).map
    fun (s, up, down) => .links s up down

def readLimits : List Byte → Option Fields
  | [s, e1, e2, f1, f2, h1, h2, y1, y2, n1, n2, o1, o2, c1, c2] =>
    some (.limits s.toNat
      { empty := e1.toNat * 256 + e2.toNat, fillDone := f1.toNat * 256 + f2.toNat
        high := h1.toNat * 256 + h2.toNat, hysteresis := y1.toNat * 256 + y2.toNat
        sweetOn := n1.toNat * 256 + n2.toNat, sweetOff := o1.toNat * 256 + o2.toNat }
      (c1.toNat * 256 + c2.toNat))
  | _ => none

def readTiming : List Byte → Option Fields
  | [s, c1, c2, d] => some (.timing s.toNat (c1.toNat * 256 + c2.toNat) d.toNat)
  | _ => none

def readMode : List Byte → Option Fields
  | [scope, s, setting] => some (.mode scope.toNat s.toNat setting.toNat)
  | _ => none

def readUnits : List Byte → Option Fields
  | [s, m, r, w] => some (.units s.toNat m.toNat r.toNat w.toNat)
  | _ => none

def readGroup (bs : List Byte) : Option Fields :=
  (readAll (readBoth readByte (readBoth (readList readByte) (readBoth (readList readByte)
    (readBoth readByte (readOptional readByte))))) bs).map
    fun (g, members, inputs, mode, presence, cap) => .group g members inputs mode presence cap

def readCaptureFields : List Byte → Option Fields
  | [s, m, f] => some (.capture s.toNat m.toNat f.toNat)
  | _ => none

def readReporting : List Byte → Option Fields
  | [a, b, c, d, e, f, p, s] =>
    some (.reporting [a.toNat, b.toNat, c.toNat, d.toNat, e.toNat, f.toNat] p.toNat s.toNat)
  | _ => none

/-- R161: any length of 1..240 fits; a body of 0 bytes is MALFORMED. -/
def readSitePart : List Byte → Option Fields
  | [] => none
  | b :: bs => if bs.length < 240 then some (.sitePart (b :: bs)) else none

/-- Whether every field that carries a code holds one of the codes of R169 (R161 step 3). -/
def Fields.codesInRange : Fields → Bool
  | .adoption _ state => decide (state < 11)
  | .mode scope _ setting => decide (scope < 2) && decide (setting < 2)
  | .group _ _ _ m p _ => decide (m < 2) && decide (p < 2)
  | .capture _ m f => decide (m < 2) && decide (f < 2)
  | .reporting flags _ _ => flags.all fun f => decide (f < 2)
  | .nothing => true
  | .oneId _ => true
  | .siteHalf _ _ => true
  | .links _ _ _ => true
  | .limits _ _ _ => true
  | .timing _ _ _ => true
  | .units _ _ _ _ => true
  | .sitePart _ => true

/-- The request kinds of R170. -/
inductive RequestKind where
  | readIdent | readCampaign | readSection | readSteam | readUnit | readTrips | readCapture
  | readChannel | readSiteRecord
  | openCampaign | closeCampaign | resumeCampaign | advance | hold | release | adopt
  | excludeSection | includeSection | setLinks | setLimits | setTiming | setMode | setBudget
  | liftCeiling | returnUnit | setUnits | setGroup | forceTrip | clearTrip | setCapture
  | setReporting | writeSitePart | commitSiteRecord
deriving DecidableEq, Repr

/-- The catalogue of R170: the request kind a kind byte names, if any. -/
def requestKind (k : Byte) : Option RequestKind :=
  match k.toNat with
  | 0x01 => some .readIdent
  | 0x02 => some .readCampaign
  | 0x03 => some .readSection
  | 0x04 => some .readSteam
  | 0x05 => some .readUnit
  | 0x06 => some .readTrips
  | 0x07 => some .readCapture
  | 0x08 => some .readChannel
  | 0x09 => some .readSiteRecord
  | 0x10 => some .openCampaign
  | 0x11 => some .closeCampaign
  | 0x12 => some .resumeCampaign
  | 0x13 => some .advance
  | 0x14 => some .hold
  | 0x15 => some .release
  | 0x16 => some .adopt
  | 0x17 => some .excludeSection
  | 0x18 => some .includeSection
  | 0x19 => some .setLinks
  | 0x1A => some .setLimits
  | 0x1B => some .setTiming
  | 0x1C => some .setMode
  | 0x1D => some .setBudget
  | 0x1E => some .liftCeiling
  | 0x1F => some .returnUnit
  | 0x20 => some .setUnits
  | 0x21 => some .setGroup
  | 0x22 => some .forceTrip
  | 0x23 => some .clearTrip
  | 0x24 => some .setCapture
  | 0x25 => some .setReporting
  | 0x26 => some .writeSitePart
  | 0x27 => some .commitSiteRecord
  | _ => none

/-- The fields of a request's body, or `none` where its length does not fit its kind (R161 step 2). -/
def RequestKind.readBody : RequestKind → List Byte → Option Fields
  | .readIdent => readNothing
  | .readCampaign => readNothing
  | .readSection => readOneId
  | .readSteam => readNothing
  | .readUnit => readOneId
  | .readTrips => readNothing
  | .readCapture => readOneId
  | .readChannel => readOneId
  | .readSiteRecord => readSiteHalf
  | .openCampaign => readNothing
  | .closeCampaign => readNothing
  | .resumeCampaign => readNothing
  | .advance => readOneId
  | .hold => readOneId
  | .release => readOneId
  | .adopt => readAdoption
  | .excludeSection => readOneId
  | .includeSection => readOneId
  | .setLinks => readLinks
  | .setLimits => readLimits
  | .setTiming => readTiming
  | .setMode => readMode
  | .setBudget => readOneId
  | .liftCeiling => readOneId
  | .returnUnit => readOneId
  | .setUnits => readUnits
  | .setGroup => readGroup
  | .forceTrip => readOneId
  | .clearTrip => readOneId
  | .setCapture => readCaptureFields
  | .setReporting => readReporting
  | .writeSitePart => readSitePart
  | .commitSiteRecord => readNothing

end Sys2Proof.Machine
end

