-- ==== Sys2Proof/Machine/Answers.lean ====
section
/-! DEFINITION. The codes of R169 and the bodies of answers and reports (R170), field by field in the
order in which the table or rule of each record lists them (log 13). -/

namespace Sys2Proof.Machine

/-! ### Codes (R169) -/

/-- The causes of R162. -/
inductive Cause where
  | none | unknownKind | malformed | range | noSection | noUnit | locked | state | mode | permit
  | active | campaign | notHeld | cycle | incomplete
deriving DecidableEq, Repr

def Cause.code : Cause → Byte
  | .none => 0
  | .unknownKind => 1
  | .malformed => 2
  | .range => 3
  | .noSection => 4
  | .noUnit => 5
  | .locked => 6
  | .state => 7
  | .mode => 8
  | .permit => 9
  | .active => 10
  | .campaign => 11
  | .notHeld => 12
  | .cycle => 13
  | .incomplete => 14

def PermitCondition.code : PermitCondition → Byte
  | .campaign => 0
  | .supervision => 1
  | .trip => 2
  | .level => 3
  | .sensor => 4
  | .steam => 5
  | .timer => 6
  | .upstream => 7
  | .downstream => 8
  | .lag => 9
  | .phase => 10

def SectionState.code : SectionState → Byte
  | .absent => 0
  | .excluded => 1
  | .cold => 2
  | .filling => 3
  | .conditioning => 4
  | .circulating => 5
  | .running => 6
  | .held => 7
  | .sweeteningOff => 8
  | .draining => 9
  | .laidUp => 10

/-- The section state a code names (R169). -/
def sectionStateOf : Nat → Option SectionState
  | 0 => some .absent
  | 1 => some .excluded
  | 2 => some .cold
  | 3 => some .filling
  | 4 => some .conditioning
  | 5 => some .circulating
  | 6 => some .running
  | 7 => some .held
  | 8 => some .sweeteningOff
  | 9 => some .draining
  | 10 => some .laidUp
  | _ => none

def CampaignState.code : CampaignState → Byte
  | .closed => 0
  | .opened => 1
  | .windingDown => 2
  | .restoring => 3

def Mark.code (m : Mark) : Byte := m.campaign.code

def SectionClass.code : SectionClass → Byte
  | .process => 0
  | .storage => 1

def Phase.code : Phase → Byte
  | .empty => 0
  | .water => 1
  | .sweet => 2

def Mode.code : Mode → Byte
  | .auto => 0
  | .manual => 1

def Route.code : Route → Byte
  | .closed => 0
  | .through => 1
  | .diverted => 2

/-- R169: a hold reason's kind code and its source byte. -/
def HoldReason.bytes : HoldReason → List Byte
  | .restart => [0, 0]
  | .host => [1, 0]
  | .trip g => [2, byte g.val]
  | .steam => [3, 0]
  | .full d => [4, byte d.val]
  | .sensor => [5, 0]
  | .units => [6, 0]

def CaptureCause.code : CaptureCause → Byte
  | .order => 0
  | .auto => 1
  | .crossing => 2
  | .expiry => 3
  | .grant => 4
  | .hold => 5
  | .release => 6
  | .campaign => 7
  | .restore => 8

def CaptureMode.code : CaptureMode → Byte
  | .absolute => 0
  | .difference => 1

def CaptureFill.code : CaptureFill → Byte
  | .continuous => 0
  | .single => 1

def Role.code : Role → Byte
  | .none => 0
  | .duty => 1
  | .spare => 2

def Condition.code : Condition → Byte
  | .healthy => 0
  | .faultPending => 1
  | .failed => 2

def TripMode.code : TripMode → Byte
  | .latched => 0
  | .selfClearing => 1

def GroupState.code : GroupState → Byte
  | .normal => 0
  | .tripped => 1

def Validity.code : Validity → Byte
  | .valid => 0
  | .bad => 1

def FirstCause.code : FirstCause → Byte
  | .input i => byte i.val
  | .forced => 8

def LineRate.code : LineRate → Byte
  | .r19200 => 0
  | .r57600 => 1
  | .r115200 => 2

def Polarity.code : Polarity → Byte
  | .activeHigh => 0
  | .activeLow => 1

def SiteStatus.code : SiteStatus → Byte
  | .valid => 0
  | .defaulted => 1

def idByte {n : Nat} (i : Fin n) : List Byte := [byte i.val]

/-! ### Records -/

/-- R30. The topology lock is coded 1 for set and 0 for clear (the model's choice, log 41). -/
def Campaign.bytes (c : Campaign) : List Byte :=
  [c.state.code] ++ seconds c.clock ++ [flag c.lock] ++ optional (fun m : Mark => [m.code]) c.resume
    ++ [flag c.overlapRequested, flag c.overlapEffective, byte c.freeSpares, byte c.spareReserve,
        flag c.supervisionLost]

/-- R15: the section record, without the capture ring entries. -/
def Section.bytes (i : SectionId) (r : Section) : List Byte :=
  let storage := r.cls == .storage
  idByte i ++ [flag r.fitted, r.cls.code] ++ listed (fun b => [b]) r.label
    ++ optional word r.nativeCeiling
    ++ listed (fun l : Link => idByte l.id ++ word l.lag) r.upstream
    ++ listed idByte r.downstream
    ++ [r.state.code] ++ seconds r.enteredAt
    ++ optional (fun st : SectionState => [st.code]) r.heldFrom
    ++ listed HoldReason.bytes r.holds
    ++ [r.phase.code] ++ seconds r.phaseSince ++ optional seconds r.deadline
    ++ [r.mode.code, r.intake.code, r.discharge.code]
    ++ word r.limits.empty ++ word r.limits.fillDone ++ word r.limits.high ++ word r.limits.hysteresis
    ++ word r.limits.sweetOn ++ word r.limits.sweetOff
    ++ optional word r.workingCeiling
    ++ optional (fun b => [flag b]) (if storage then some r.ceilingLifted else none)
    ++ word r.conditioningTime ++ [byte r.demand, byte r.minUnits]
    ++ listed idByte r.dutyUnits
    ++ [r.ring.mode.code, r.ring.fill.code, flag r.ring.armed, byte r.ring.count, byte r.ring.next.val]

def Claim.bytes (c : Claim) : List Byte := idByte c.sec ++ [byte c.demand] ++ seconds c.since

/-- R92. -/
def Steam.bytes (st : Steam) : List Byte :=
  [byte st.hostBudget] ++ st.caps.items.flatMap (optional fun c => [byte c])
    ++ [byte st.effective, byte st.claimedSum]
    ++ listed Claim.bytes st.claims ++ listed Claim.bytes st.queue

/-- R143, first item. The window deadline, 1 to 60 seconds remaining, takes 1 byte (the model's choice,
log 40). -/
def UnitRecord.bytes (r : UnitRecord) : List Byte :=
  [r.role.code, byte r.cls] ++ optional idByte r.sec ++ [flag r.faultActive, r.condition.code]
    ++ optional (fun w => [byte w]) r.window ++ optional idByte r.covering ++ optional idByte r.coveredBy
    ++ [flag r.runOutput]

/-- R143. For a SPARE or NONE unit the minimum units and the available count are left out, with no byte
(the model's choice, log 37). -/
def State.unitAnswer (s : State) (u : UnitId) : List Byte :=
  let us := s.supervisor
  let r := us.units.get u
  let own : List Byte :=
    match r.role, r.sec with
    | .duty, some i => [byte (s.sec i).minUnits, byte (us.available (s.sec i))]
    | _, _ => []
  r.bytes ++ [flag (us.watch.contains u)] ++ own
    ++ [byte us.freeCount, byte us.reserve, byte us.window]
    ++ listed idByte us.watch
    ++ listed (fun d : SpareDemand => idByte d.unit ++ [byte d.cls]) us.demands

def TripInput.bytes (t : TripInput) : List Byte := [t.polarity.code, flag t.level, flag t.active]

/-- R155. -/
def TripGroup.bytes (g : TripGroup) : List Byte :=
  listed idByte g.members ++ listed idByte g.inputs ++ [g.mode.code]
    ++ optional (fun c => [byte c]) g.cap ++ [g.state.code]
    ++ optional (fun c : FirstCause => [c.code]) g.firstCause
    ++ listed idByte g.activeInputs ++ [flag g.forced]

/-- R155. -/
def TripUnit.bytes (t : TripUnit) : List Byte :=
  t.inputs.items.flatMap TripInput.bytes ++ t.groups.items.flatMap TripGroup.bytes

def Capture.bytes (c : Capture) : List Byte :=
  [c.leaving.code, c.entering.code, c.cause.code, c.phase.code] ++ seconds c.time

/-- R35. The captures have no list count of their own: the ring's count stands for it (the model's choice,
log 45). -/
def CaptureRing.bytes (ring : CaptureRing) : List Byte :=
  [ring.mode.code, ring.fill.code, flag ring.armed, byte ring.count] ++ optional seconds ring.last
    ++ ring.oldestFirst.flatMap Capture.bytes

/-- R52: the five band positions, those the channel does not have marked absent; in a LEVEL report too (the
model's choice, log 44). -/
def Bands.bytes (b : Bands) : List Byte :=
  [b.empty, b.fillDone, b.high, b.ceiling, b.sweet].flatMap (optional fun p => [flag p])

/-- R52; a value takes 2 bytes, as levels and solids do. -/
def Channel.bytes (c : ChannelId) (r : Channel) : List Byte :=
  idByte c ++ [byte (c.val % 2)] ++ idByte (channelSection c) ++ [flag r.converted]
    ++ word r.raw ++ word r.value ++ [r.validity.code, byte r.run] ++ r.bands.bytes

/-- R178: the part identification. The bytes of its characters are ASCII (log 21). -/
def partLabel : List Byte := [0x54#8, 0x43#8, 0x2D#8, 0x32#8, 0x34#8]

/-- R178. -/
def SiteService.bytes (site : SiteService) : List Byte :=
  listed (fun b => [b]) partLabel ++ [1, site.status.code, site.lineRate.code]
    ++ listed (fun b => [b]) site.name ++ [byte site.issue, flag site.committed]
    ++ site.staging.items.map (fun p => flag p.isSome) ++ [site.markRead.code, flag site.markCheckFailed]

/-- R178: a stored part's length, then one half of its bytes. -/
def siteHalf (stored : List Byte) (half : Nat) : List Byte :=
  byte stored.length :: if half = 0 then stored.take 120 else stored.drop 120

/-! ### Reports (R51, R156, R164, R170) -/

/-- R51: a section's level and solids channels. That each of the two carries all five band positions, those
it does not have marked absent as R52 marks them, is the model's choice (log 44). -/
def State.levelReport (s : State) (i : SectionId) : List Byte :=
  let one (c : Channel) : List Byte := word c.value ++ [c.validity.code] ++ c.bands.bytes
  idByte i ++ [(s.sec i).phase.code] ++ one (s.level i) ++ one (s.solids i)

/-- R156: a group's record with the records of its inputs, which follow it with no count of their own
(the model's choice, log 39), in the ascending order of the set (log 46). -/
def State.tripReport (s : State) (g : GroupId) : List Byte :=
  idByte g ++ (s.group g).bytes ++ (s.group g).inputs.flatMap fun i => (s.trips.inputs.get i).bytes

/-- R170: the kind of a report. -/
def ReportKey.kind : ReportKey → Byte
  | .campaign => 0xE0#8
  | .sec _ => 0xE1#8
  | .level _ => 0xE2#8
  | .steam => 0xE3#8
  | .unit _ => 0xE4#8
  | .trip _ => 0xE5#8

/-- R170: the body of a report, from the record as it stands. -/
def State.reportBody (s : State) : ReportKey → List Byte
  | .campaign => s.campaign.bytes
  | .sec i => idByte i ++ (s.sec i).bytes i
  | .level i => s.levelReport i
  | .steam => s.steam.bytes
  | .unit u =>
    idByte u ++ (s.supervisor.units.get u).bytes
      ++ [flag (s.supervisor.watch.contains u), flag (s.supervisor.queued u)]
  | .trip g => s.tripReport g

end Sys2Proof.Machine
end

