-- ==== Sys2Proof/Machine/Requests.lean ====
section
/-! DEFINITION. Taking a request: the head of the request buffer, the checks of R161, the answer of
R162, and the requests that wait for a write to the option store. -/

namespace Sys2Proof.Machine

/-- What a request's owner gives back (R161, R162). -/
inductive Verdict where
  /-- ACCEPTED, followed by the record a query returns. -/
  | accepted (record : List Byte)
  /-- REFUSED with a cause, followed by the failing permit conditions of a PERMIT refusal. -/
  | refused (cause : Cause) (extra : List Byte)
  /-- ACCEPTED once a write to the option store is done. -/
  | waits (owner : AwaitedOwner)
deriving DecidableEq, Repr

/-- The owner of a request: its effect, and what it gives back. -/
abbrev Owner := Fields → State → State × Verdict

/-- A refusal: no record changes (R162). -/
def State.refuse (s : State) (c : Cause) : State × Verdict := (s, .refused c [])

/-- An accepted order. -/
def State.accept (s : State) : State × Verdict := (s, .accepted [])

/-- An accepted query: nothing changes. -/
def State.show (s : State) (record : List Byte) : State × Verdict := (s, .accepted record)

/-- R162: an answer's telegram. -/
def answerTo (t : Telegram) (outcome : Byte) (cause : Cause) (more : List Byte) : Telegram :=
  { kind := t.kind + 0x80#8, tag := t.tag, body := outcome :: cause.code :: more }

/-- R161: an answer appended to the answer queue, and its request removed from the buffer. -/
def LinkPort.answer (l : LinkPort) (a : Telegram) : LinkPort :=
  { l with answers := l.answers ++ [a], requests := l.requests.tail }

/-- R161: the link port acts on what the owner of request `t` gives back. -/
def State.conclude (s : State) (t : Telegram) : Verdict → State
  | .accepted record => { s with link := s.link.answer (answerTo t 0 .none record) }
  | .refused cause extra => { s with link := s.link.answer (answerTo t 1 cause extra) }
  | .waits owner => { s with link := { s.link with awaited := some { request := t, owner, dropped := false } } }

/-- R161: the request that the port may begin taking: the head of the buffer, when no request is
being taken and the answer queue holds fewer than 4 answers. -/
def LinkPort.ready (l : LinkPort) : Option Telegram :=
  if l.awaited.isNone && decide (l.answers.length < Config.answerQueue) then l.requests.head? else none

/-- R161: the checks of the port, then the owner. -/
def State.handle (s : State) (t : Telegram) (kind : RequestKind) (owner : Owner) : State :=
  match kind.readBody t.body with
  | none => s.conclude t (.refused .malformed [])
  | some f =>
    if f.codesInRange then (owner f s).1.conclude t (owner f s).2
    else s.conclude t (.refused .range [])

/-- R161: the request at the head of the buffer taken, where it is one of this kind (log 1). -/
def State.takeRequest (s : State) (kind : RequestKind) (owner : Owner) : State :=
  match s.link.ready with
  | none => s
  | some t => if requestKind t.kind = some kind then s.handle t kind owner else s

/-- R161: a telegram of no request kind at the head of the buffer, taken and answered. -/
def State.takeUnknown (s : State) : State :=
  match s.link.ready with
  | none => s
  | some t => if requestKind t.kind = none then s.conclude t (.refused .unknownKind []) else s

/-- The scope of a SET MODE body, its first byte (R170): 1 for CAMPAIGN. -/
def Telegram.campaignScope (t : Telegram) : Bool :=
  match t.body with
  | b :: _ => b == 1
  | [] => false

/-- R161: a SET MODE at the head of the buffer, of one scope (log 19). -/
def State.takeMode (s : State) (campaign : Bool) (owner : Owner) : State :=
  match s.link.ready with
  | none => s
  | some t =>
    if requestKind t.kind = some .setMode ∧ t.campaignScope = campaign then s.handle t .setMode owner
    else s

/-- R10: the section an order names, unless its id is above 23 or it is ABSENT. -/
def State.named (s : State) (id : Nat) : Option SectionId :=
  match idOf 24 id with
  | some i => if (s.sec i).state = .absent then none else some i
  | none => none

/-- R161: an owner's answer that waited for the option store, queued; after a line break it is
dropped (R167). -/
def State.completeAwaited (s : State) (w : Awaited) : State :=
  let freed : LinkPort := { s.link with awaited := none }
  if w.dropped then { s with link := freed }
  else { s with link := freed.answer (answerTo w.request 0 .none []) }

/-- The command's effect while the part has power; without power nothing but POWER_UP acts (log 17). -/
def State.powering (s : State) (act : State → State) : State := if s.powered then act s else s

end Sys2Proof.Machine
end

