-- ==== Sys2Proof/Machine/CampaignOrders.lean ====
section
/-! DEFINITION. The campaign controller's orders, its clock and its mark writes (chapters 2 and 11). -/

namespace Sys2Proof.Machine

/-- R19, R20. -/
def openOrder : Owner := fun _ s =>
  if s.campaign.state = .closed then (s.openNow.settle, .waits .campaignController)
  else s.refuse .campaign

/-- R21. -/
def closeOrder : Owner := fun _ s =>
  if s.campaign.state = .opened then (s.turnToWindDown.settle, .waits .campaignController)
  else s.refuse .campaign

/-- R23: whether some section still has a RESTART reason. -/
def State.restartLeft (s : State) : Bool := (allIds 24).any fun i => (s.sec i).holds.contains .restart

/-- R23. A RESTORING campaign has a resume target (R17). -/
def resumeOrder : Owner := fun _ s =>
  if s.campaign.state = .restoring then
    if s.restartLeft then s.refuse .state
    else
      match s.campaign.resume with
      | some m => ((s.resumeTo m).settle, .waits .campaignController)
      | none => s.refuse .campaign
  else s.refuse .campaign

/-- R28: setting 1 requests overlapped start, 0 does not. -/
def overlapOrder : Owner
  | .mode _ _ setting, s =>
    let asked := decide (setting = 1)
    if s.campaign.overlapRequested = asked then s.accept
    else
      let changed : State := { s with campaign := { s.campaign with overlapRequested := asked } }
      ((changed.report .campaign).recomputeOverlap.settle).accept
  | _, s => s.refuse .malformed

/-- R24: the clock's next value. -/
def advanced (clock : Nat) : Nat := min (clock + 1) Config.maxTime

/-- R175: the mark write in progress completes, and the pending one begins. -/
def State.markWritten (s : State) (v : Mark) : State :=
  { s with
    store := { s.store with mark := some v, markCheckAgrees := true }
    site := { s.site with markWriting := s.site.markPending, markPending := none } }

/-- R20, R21, R23: the value written is compared with the pending mark value. -/
def State.markReported (s : State) (v : Mark) : State :=
  if s.campaign.pendingMark = some v then
    let met : State := { s with campaign := { s.campaign with pendingMark := none } }
    match s.link.awaited with
    | some w => if w.owner = .campaignController then met.completeAwaited w else met
    | none => met
  else s

/-- OPEN_CAMPAIGN (R20). -/
def execOpenCampaign (s : State) : Host.Outcome State Fault Refusal :=
  .next (s.powering fun s => s.takeRequest .openCampaign openOrder)

/-- CLOSE_CAMPAIGN (R21). -/
def execCloseCampaign (s : State) : Host.Outcome State Fault Refusal :=
  .next (s.powering fun s => s.takeRequest .closeCampaign closeOrder)

/-- RESUME_CAMPAIGN (R23). -/
def execResumeCampaign (s : State) : Host.Outcome State Fault Refusal :=
  .next (s.powering fun s => s.takeRequest .resumeCampaign resumeOrder)

/-- SET_MODE_CAMPAIGN (R28). -/
def execSetModeCampaign (s : State) : Host.Outcome State Fault Refusal :=
  .next (s.powering fun s => s.takeMode true overlapOrder)

/-- MARK_WRITE_COMPLETE (R175). -/
def execMarkWriteComplete (s : State) : Host.Outcome State Fault Refusal :=
  .next (s.powering fun s =>
    match s.site.markWriting with
    | none => s
    | some v => (s.markWritten v).markReported v)

/-- CLOCK_ADVANCE (R24); the expiries and lag completions it brings are commands of their own (log 9). -/
def execClockAdvance (s : State) : Host.Outcome State Fault Refusal :=
  .next (s.powering fun s =>
    if s.campaign.state = .closed then s
    else { s with campaign := { s.campaign with clock := advanced s.campaign.clock } })

end Sys2Proof.Machine
end

