-- ==== Sys2Proof/Machine/Line.lean ====
section
/-! DEFINITION. What happens on the supervisory line (chapter 10). -/

namespace Sys2Proof.Machine

/-- R159: the receiver left hunting, unless a line break holds it (log 33). -/
def Receiver.hunt : Receiver → Receiver
  | .spacing => .spacing
  | .hunting | .assembling => .hunting

def State.setReceiver (s : State) (r : Receiver) : State := { s with link := { s.link with receiver := r } }

/-- R160: a valid telegram's kind decides nothing here; it is buffered while fewer than 4 are. -/
def LinkPort.buffer (l : LinkPort) (t : Telegram) : LinkPort :=
  if l.requests.length < Config.requestBuffer then { l with requests := l.requests ++ [t] } else l

/-- R160: a valid telegram taken. -/
def State.takeTelegram (s : State) (t : Telegram) : State :=
  let heard : State := { s with link := { s.link with receiver := .hunting, silenceExpired := false } }
  let regained := heard.regainSupervision
  ({ regained with link := regained.link.buffer t } : State).settle

/-- R159: whether what has arrived is a valid telegram. -/
def validTelegram (t : Telegram) (check : BitVec 16) : Bool :=
  decide (t.body.length ≤ 240) && decide (check = t.check)

/-- TELEGRAM_RECEIVED (R160); what is not a valid telegram is discarded (R159). -/
def execTelegramReceived (kind tag : Byte) (body : List Byte) (check : BitVec 16) (s : State) :
    Host.Outcome State Fault Refusal :=
  .next (s.powering fun s =>
    if s.link.receiver = .spacing then s
    else if validTelegram ⟨kind, tag, body⟩ check then s.takeTelegram ⟨kind, tag, body⟩
    else s.setReceiver .hunting)

/-- INTER_BYTE_TIMEOUT (R159): the late byte is the first byte examined. -/
def execInterByteTimeout (late : Byte) (s : State) : Host.Outcome State Fault Refusal :=
  .next (s.powering fun s =>
    if s.link.receiver = .spacing then s
    else s.setReceiver (if late = 0xA5#8 then .assembling else .hunting))

/-- R167: the restart of the port. -/
def LinkPort.restart (l : LinkPort) : LinkPort :=
  let bare : LinkPort :=
    { l with
      receiver := .spacing
      requests := []
      answers := []
      awaited := l.awaited.map fun w => { w with dropped := true }
      onLine := none
      reports := []
      sequence := 0
      silenceExpired := false }
  bare.report .campaign

/-- LINE_BREAK (R167): one restart, however long the break lasts. -/
def execLineBreak (s : State) : Host.Outcome State Fault Refusal :=
  .next (s.powering fun s =>
    if s.link.receiver = .spacing then s else { s with link := s.link.restart })

/-- LINE_RETURN_TO_IDLE (R167). -/
def execLineReturnToIdle (s : State) : Host.Outcome State Fault Refusal :=
  .next (s.powering fun s => if s.link.receiver = .spacing then s.setReceiver .hunting else s)

/-- TELEGRAM_DISCARDED_IN_ASSEMBLY (R159): no answer and no other effect, whatever the cause. -/
def execTelegramDiscarded (_why : DiscardReason) (s : State) : Host.Outcome State Fault Refusal :=
  .next (s.powering fun s => s.setReceiver s.link.receiver.hunt)

/-- SILENCE_EXPIRY (R166): once in one quiet spell, while the limit is above 0. -/
def execSilenceExpiry (s : State) : Host.Outcome State Fault Refusal :=
  .next (s.powering fun s =>
    if 0 < s.link.silenceLimit ∧ s.link.silenceExpired = false then
      ({ s with link := { s.link with silenceExpired := true } } : State).loseSupervision
    else s)

/-- R164: the next telegram of the transmitter. -/
def State.transmit (s : State) : State :=
  match s.link.answers, s.link.reports with
  | a :: rest, _ => { s with link := { s.link with answers := rest, onLine := some a } }
  | [], k :: rest =>
    let t : Telegram := { kind := k.kind, tag := s.link.sequence, body := s.reportBody k }
    { s with
      link := { s.link with reports := rest, onLine := some t, sequence := s.link.sequence + 1 } }
  | [], [] => { s with link := { s.link with onLine := none } }

/-- TRANSMIT_NEXT_TELEGRAM (R164). -/
def execTransmitNextTelegram (s : State) : Host.Outcome State Fault Refusal :=
  .next (s.powering State.transmit)

/-- UNKNOWN_KIND_REQUEST (R161). -/
def execUnknownKindRequest (s : State) : Host.Outcome State Fault Refusal :=
  .next (s.powering State.takeUnknown)

end Sys2Proof.Machine
end

