-- ==== Sys2Proof/Machine/PoolOrders.lean ====
section
/-! DEFINITION. The unit supervisor's orders and events (chapter 8). -/

namespace Sys2Proof.Machine

/-- R137. -/
def returnOrder : Owner
  | .oneId id, s =>
    match idOf 48 id with
    | none => s.refuse .noUnit
    | some u =>
      let r := s.supervisor.units.get u
      if r.role = .none then s.refuse .noUnit
      else if r.faultActive then s.refuse .active
      else if r.condition ≠ .failed then s.refuse .state
      else ((s.supervise fun us => us.giveBack u).settle).accept
  | _, s => s.refuse .malformed

/-- R142: an accepted SET UNITS. -/
def State.setUnits (s : State) (i : SectionId) (minimum reserve window : Nat) : State :=
  let set := s.setSec i { s.sec i with minUnits := minimum }
  set.putUnits { s.supervisor with reserve := reserve, window := window }

/-- R142. -/
def unitsOrder : Owner
  | .units id minimum reserve window, s =>
    match s.named id with
    | none => s.refuse .noSection
    | some i =>
      if 4 < minimum ∨ (s.sec i).dutyUnits.length < minimum ∨ 8 < reserve ∨ window < 1 ∨ 60 < window then
        s.refuse .range
      else ((s.setUnits i minimum reserve window).settle).accept
  | _, s => s.refuse .malformed

/-- RETURN_UNIT (R137). -/
def execReturnUnit (s : State) : Host.Outcome State Fault Refusal :=
  .next (s.powering fun s => s.takeRequest .returnUnit returnOrder)

/-- SET_UNITS (R142). -/
def execSetUnits (s : State) : Host.Outcome State Fault Refusal :=
  .next (s.powering fun s => s.takeRequest .setUnits unitsOrder)

/-- FAULT_INPUT_ACTIVE (R130): a change of the input; an input already ACTIVE makes none. -/
def execFaultInputActive (unit : Nat) (s : State) : Host.Outcome State Fault Refusal :=
  match idOf 48 unit with
  | none => .fault .noSuchTerminal
  | some u =>
    .next (s.powering fun s =>
      if (s.supervisor.units.get u).faultActive then s
      else (s.supervise fun us => us.faultActive s.sections u).settle)

/-- FAULT_INPUT_INACTIVE (R131): a change of the input; an input already INACTIVE makes none. -/
def execFaultInputInactive (unit : Nat) (s : State) : Host.Outcome State Fault Refusal :=
  match idOf 48 unit with
  | none => .fault .noSuchTerminal
  | some u =>
    .next (s.powering fun s =>
      if (s.supervisor.units.get u).faultActive then (s.supervise fun us => us.faultInactive u).settle
      else s)

/-- UNIT_SUPERVISOR_TICK (R131): every open window counts down by 1 (log 10). -/
def execUnitSupervisorTick (s : State) : Host.Outcome State Fault Refusal :=
  .next (s.powering fun s => { s with supervisor := s.supervisor.tick })

/-- RECOVERY_WINDOW_EXPIRY (R131). -/
def execRecoveryWindowExpiry (unit : Nat) (s : State) : Host.Outcome State Fault Refusal :=
  match idOf 48 unit with
  | none => .fault .noSuchTerminal
  | some u =>
    .next (s.powering fun s =>
      if (s.supervisor.units.get u).windowOut then (s.supervise fun us => us.fail s.sections u).settle
      else s)

end Sys2Proof.Machine
end

