-- ==== Sys2Proof/Machine/Site.lean ====
section
/-! DEFINITION. The site record (chapter 11): its parts read into fields, the checks of COMMIT SITE
RECORD, the link graph's cycle test, and the state the part comes up in. -/

namespace Sys2Proof.Machine

/-! ### Cycles (R6) -/

/-- The sections left after `n` rounds, each dropping those with no downstream section left. -/
def peel (down : SectionId → List SectionId) : Nat → List SectionId → List SectionId
  | 0, left => left
  | n + 1, left => peel down n (left.filter fun i => (down i).any left.contains)

/-- R6: a link graph has no cycle when 24 rounds leave no section. -/
def acyclic (down : SectionId → List SectionId) : Bool := (peel down 24 (allIds 24)).isEmpty

/-! ### Reading the parts (R171) -/

/-- The eight parts as fields, before any check of their values. -/
structure RawSite where
  rate : Nat
  trip : List Nat
  slots : List (Nat × Nat)
  names : List (List Nat × (Nat × Option Nat))
  links : List (List (Nat × Nat) × List Nat)
  units : List (Nat × (Nat × Nat))
  routes : List Nat
  runs : List Nat
  siteName : List Nat
  issue : Nat
deriving DecidableEq, Repr

/-- A part's fields, which follow its part number and fill the part. -/
def readPart {α : Type} (fields : Reader α) (part : List Byte) : Option α :=
  (readAll (readBoth readByte fields) part).map Prod.snd

def readNames : Reader (List (List Nat × (Nat × Option Nat))) :=
  readMany (readBoth (readList readByte) (readOptional readWord)) 12

def readLinkLists : Reader (List (List (Nat × Nat) × List Nat)) :=
  readMany (readBoth (readList (readBoth readByte readWord)) (readList readByte)) 12

/-- R171: the eight parts read, or `none` where a length does not fit. -/
def readSite (parts : Table (List Byte) 8) : Option RawSite := do
  let (rate, trip, slots) ← readPart
    (readBoth readByte (readBoth (readMany readByte 8) (readMany (readBoth readByte readByte) 24)))
    (parts.get 0)
  let namesLow ← readPart readNames (parts.get 1)
  let namesHigh ← readPart readNames (parts.get 2)
  let linksLow ← readPart readLinkLists (parts.get 3)
  let linksHigh ← readPart readLinkLists (parts.get 4)
  let units ← readPart (readMany (readBoth readByte (readBoth readByte readByte)) 48) (parts.get 5)
  let (routes, runs) ← readPart (readBoth (readMany readByte 96) (readMany readByte 48)) (parts.get 6)
  let (siteName, issue) ← readPart (readBoth (readList readByte) readByte) (parts.get 7)
  return { rate, trip, slots, names := namesLow ++ namesHigh, links := linksLow ++ linksHigh
           units, routes, runs, siteName, issue }

/-! ### The checks of COMMIT SITE RECORD (R174) -/

def RawSite.fitted (w : RawSite) (i : Nat) : Bool := (w.slots.getD i (0, 0)).1 == 1

def RawSite.upIds (w : RawSite) (i : Nat) : List Nat := ((w.links.getD i ([], [])).1).map Prod.fst

def RawSite.downIds (w : RawSite) (i : Nat) : List Nat := (w.links.getD i ([], [])).2

/-- R174 RANGE: codes, classes, lags and ceilings; that a count above 8 characters in a label or in the site
name is among them is the model's reading (log 32). -/
def RawSite.codesOk (w : RawSite) : Bool :=
  decide (w.rate < 3) && w.trip.all (· < 2)
    && w.slots.all (fun p => decide (p.1 < 2) && decide (p.2 < 2))
    && w.names.all (fun p => decide (p.1.length ≤ 8) && decide (p.2.1 < 2)
        && decide (p.2.2.getD 0 ≤ 1000))
    && w.links.all (fun p => p.1.all fun e => decide (e.2 ≤ 3600))
    && w.units.all (fun p => decide (p.1 < 3) && decide (p.2.1 ≤ 7))
    && w.routes.all (· < 2) && w.runs.all (· < 2) && decide (w.siteName.length ≤ 8)

/-- R174 RANGE: duty units and spares. -/
def RawSite.unitsOk (w : RawSite) : Bool :=
  decide (w.units.countP (fun p => p.1 == 2) ≤ 8)
    && (List.range 24).all (fun i => decide (w.units.countP (fun p => p.1 == 1 && p.2.2 == i) ≤ 4))
    && w.units.all (fun p => p.1 != 1 || w.fitted p.2.2)

/-- R174 RANGE: one section's link list. -/
def RawSite.listOk (w : RawSite) (i : Nat) (ids : List Nat) : Bool :=
  decide (ids.length ≤ 3) && decide ids.Nodup && !ids.contains i && ids.all w.fitted

/-- R174 RANGE: the link lists, each link named at both ends. -/
def RawSite.linksOk (w : RawSite) : Bool :=
  (List.range 24).all fun i =>
    w.listOk i (w.upIds i) && w.listOk i (w.downIds i)
      && (w.downIds i).all (fun d => (w.upIds d).contains i)
      && (w.upIds i).all (fun u => (w.downIds u).contains i)

def RawSite.down (w : RawSite) (i : SectionId) : List SectionId :=
  (w.downIds i.val).filterMap (idOf 24)

/-- R174: the checks of the parts together, RANGE before CYCLE. -/
def siteRefusal (parts : Table (List Byte) 8) : Option Cause :=
  match readSite parts with
  | none => some .range
  | some w =>
    if !(w.codesOk && w.unitsOk && w.linksOk) then some .range
    else if !acyclic w.down then some .cycle
    else none

/-! ### The record in force (R172) -/

/-- A section slot of the record in force. -/
structure Slot where
  fitted : Bool
  cls : SectionClass
  label : List Byte
  native : Option Nat
  upstream : List Link
  downstream : List SectionId
deriving DecidableEq, Repr

structure SiteRecord where
  rate : LineRate
  trip : Table Polarity 8
  slots : Table Slot 24
  units : Table UnitRecord 48
  routes : Table (RouteQuad Polarity) 24
  runs : Table Polarity 48
  name : List Byte
  issue : Nat
deriving DecidableEq, Repr

def polarityOf (n : Nat) : Polarity := if n = 0 then .activeHigh else .activeLow

def rateOf : Nat → LineRate
  | 0 => .r19200
  | 1 => .r57600
  | _ => .r115200

/-- R1: the native ceiling of a STORAGE section, 980 where the record gives none. -/
def nativeOf (cls : SectionClass) (given : Option Nat) : Option Nat :=
  match cls with
  | .process => none
  | .storage => some (given.getD 980)

/-- R1, R14: a slot that is not fitted. -/
def Slot.unfitted : Slot :=
  { fitted := false, cls := .process, label := [], native := none, upstream := [], downstream := [] }

def RawSite.slot (w : RawSite) (i : SectionId) : Slot :=
  if w.fitted i.val then
    let cls := if (w.slots.getD i.val (0, 0)).2 = 0 then SectionClass.process else .storage
    let named := w.names.getD i.val ([], (0, none))
    { fitted := true
      cls := cls
      label := named.1.map byte
      native := nativeOf cls named.2.2
      upstream := ((w.links.getD i.val ([], [])).1).filterMap fun e =>
        (idOf 24 e.1).map fun u => { id := u, lag := e.2 }
      downstream := w.down i }
  else .unfitted

/-- R127. -/
def RawSite.unit (w : RawSite) (u : UnitId) : UnitRecord :=
  let p := w.units.getD u.val (0, (0, 0))
  match p.1 with
  | 1 => { UnitRecord.none with role := .duty, cls := p.2.1, sec := idOf 24 p.2.2 }
  | 2 => { UnitRecord.none with role := .spare, cls := p.2.1 }
  | _ => { UnitRecord.none with cls := p.2.1 }

def RawSite.quad (w : RawSite) (i : SectionId) : RouteQuad Polarity :=
  let at' (k : Nat) : Polarity := polarityOf (w.routes.getD (4 * i.val + k) 0)
  { intakeThrough := at' 0, intakeDivert := at' 1, dischargeThrough := at' 2, dischargeDivert := at' 3 }

def RawSite.record (w : RawSite) : SiteRecord :=
  { rate := rateOf w.rate
    trip := Table.ofFn fun i => polarityOf (w.trip.getD i.val 0)
    slots := Table.ofFn w.slot
    units := Table.ofFn w.unit
    routes := Table.ofFn w.quad
    runs := Table.ofFn fun u => polarityOf (w.runs.getD u.val 0)
    name := w.siteName.map byte
    issue := w.issue }

/-- R172: the default record. -/
def SiteRecord.default : SiteRecord :=
  { rate := .r57600
    trip := Table.replicate 8 .activeHigh
    slots := Table.replicate 24 .unfitted
    units := Table.replicate 48 UnitRecord.none
    routes := Table.replicate 24 (RouteQuad.all .activeHigh)
    runs := Table.replicate 48 .activeHigh
    name := []
    issue := 0 }

/-- R172: the check of eight parts in part order. -/
def partsCheck (parts : Table (List Byte) 8) : BitVec 16 := crc16 parts.items.flatten

/-- R172: the record in force and the site status. A store whose check agrees holds a committed
record, which R174 has checked; contents that cannot be read give the default record (log 24). -/
def OptionStore.inForce (st : OptionStore) : SiteRecord × SiteStatus :=
  if st.siteCheck = some (partsCheck st.parts) then
    match readSite st.parts with
    | some w => (w.record, .valid)
    | none => (.default, .defaulted)
  else (.default, .defaulted)

/-- R175: the mark as it reads at power-up. -/
def OptionStore.markRead (st : OptionStore) : Mark :=
  match st.mark with
  | some m => if st.markCheckAgrees then m else .opened
  | none => .opened

/-- R178: whether the mark's check failed; not stated for a mark that was never written (log 15). -/
def OptionStore.markFailed (st : OptionStore) : Bool :=
  match st.mark with
  | some _ => !st.markCheckAgrees
  | none => Config.blankMarkCheckFailed

/-! ### Power-up (R176) -/

/-- R44. -/
def powerUpCeiling (native : Nat) : Nat := min 850 native

/-- R1, R10, R14: a section record at power-up. -/
def Slot.section (sl : Slot) (duty : List UnitId) (mark : Mark) : Section :=
  if sl.fitted then
    { Section.unfitted with
      fitted := true
      cls := sl.cls
      label := sl.label
      nativeCeiling := sl.native
      upstream := sl.upstream
      downstream := sl.downstream
      state := if mark = .closed then .cold else .held
      holds := if mark = .closed then [] else [.restart]
      workingCeiling := sl.native.map powerUpCeiling
      dutyUnits := duty }
  else Section.unfitted

/-- R127: the duty unit list of a section. -/
def dutyList (units : Table UnitRecord 48) (i : SectionId) : List UnitId :=
  (allIds 48).filter fun u => (units.get u).role == .duty && (units.get u).sec == some i

/-- R36, R42: a channel record at power-up. -/
def Slot.channel (sl : Slot) (level : Bool) : Channel :=
  match sl.fitted, level, sl.cls with
  | true, true, .process =>
    { Channel.unconverted false with
      converted := true
      bands := { empty := some true, fillDone := some false, high := some false, ceiling := none, sweet := none } }
  | true, true, .storage =>
    { Channel.unconverted false with
      converted := true
      bands := { empty := some true, fillDone := none, high := none, ceiling := some false, sweet := none } }
  | true, false, .process =>
    { Channel.unconverted false with
      converted := true
      bands := { empty := none, fillDone := none, high := none, ceiling := none, sweet := some false } }
  | true, false, .storage => Channel.unconverted false
  | false, _, _ => Channel.unconverted level

/-- R128: the unit records with the fault inputs as read at power-up. -/
def powerUpUnits (units : Table UnitRecord 48) (faults : BitVec 48) : Table UnitRecord 48 :=
  Table.ofFn fun u =>
    let r := units.get u
    let active := faults.getLsbD u.val
    { r with
      faultActive := active
      condition := if active && r.role != .none then .failed else .healthy }

/-- R128: the unit supervisor at power-up, after its first coverage requests. -/
def powerUpSupervisor (units : Table UnitRecord 48) (faults : BitVec 48) : UnitSupervisor :=
  let us : UnitSupervisor :=
    { units := powerUpUnits units faults, watch := [], demands := [], reserve := 2, window := 10
      short := Table.replicate 24 false }
  ((allIds 48).filter fun u =>
      (us.units.get u).role == .duty && (us.units.get u).condition == .failed).foldl
    UnitSupervisor.requestCoverage us

/-- R17. -/
def powerUpCampaign (mark : Mark) (free reserve : Nat) : Campaign :=
  { state := if mark = .closed then .closed else .restoring
    clock := 0
    lock := decide (mark ≠ .closed)
    resume := if mark = .closed then none else some mark
    overlapRequested := false
    freeSpares := free
    spareReserve := reserve
    overlapEffective := false
    supervisionLost := false
    pendingMark := none }

/-- R5, R176: every output at its rest level. -/
def restLines (inForce : SiteRecord) : FieldLines :=
  { enabled := true
    routePolarity := inForce.routes
    runPolarity := inForce.runs
    routeLatch := inForce.routes.map fun p => p.drive .closed .closed
    runLatch := inForce.runs.map fun p => p.level false }

/-- R176: the part comes up from what its option store holds. -/
def State.boot (s : State) (faults : BitVec 48) (levels : BitVec 8) : State :=
  let inForce := s.store.inForce.1
  let mark := s.store.markRead
  let us := powerUpSupervisor inForce.units faults
  { powered := true
    sections := Table.ofFn fun i => (inForce.slots.get i).section (dutyList inForce.units i) mark
    campaign := powerUpCampaign mark us.freeCount us.reserve
    scanner :=
      { channels := Table.ofFn fun c => (inForce.slots.get (channelSection c)).channel (c.val % 2 == 0)
        turn := 0
        prescale := 0
        round := 0 }
    steam := Steam.powerUp
    supervisor := us
    trips :=
      { inputs := Table.ofFn fun i =>
          ({ polarity := inForce.trip.get i, level := false, active := false } : TripInput).atLevel
            (levels.getLsbD i.val)
        groups := Table.replicate 4 TripGroup.powerUp }
    link := LinkPort.powerUp
    store := s.store
    site :=
      { status := s.store.inForce.2, lineRate := inForce.rate, name := inForce.name, issue := inForce.issue
        staging := Table.replicate 8 none, committed := false, markRead := mark
        markCheckFailed := s.store.markFailed, markWriting := none, markPending := none
        siteWriting := false }
    lines := restLines inForce
    work := []
    order := s.order
    drawn := s.drawn
    pending := s.pending }

/-! ### Power loss (R174, R175) -/

/-- R174: the parts a write cut off leaves: of each part, a free number of bytes are the new ones. -/
def tornParts (old : Table (List Byte) 8) (staging : Table (Option (List Byte)) 8) (drawn : Nat) :
    Table (List Byte) 8 :=
  Table.ofFn fun k =>
    let n := Config.freeCut drawn k.val
    ((staging.get k).getD []).take n ++ (old.get k).drop n

/-- R174: a check value that does not match these parts. -/
def tornCheck (parts : Table (List Byte) 8) (free : BitVec 16) : BitVec 16 :=
  if free = partsCheck parts then free ^^^ 1#16 else free

/-- R174, R175: the option store after a loss of power. -/
def State.storeAfterLoss (s : State) : OptionStore :=
  let parts := tornParts s.store.parts s.site.staging s.drawn
  let kept : OptionStore :=
    if s.site.siteWriting then
      { s.store with parts := parts, siteCheck := some (tornCheck parts (Config.freeCheck s.drawn)) }
    else s.store
  match s.site.markWriting with
  | some v => { kept with mark := some v, markCheckAgrees := false }
  | none => kept

/-- The part without power: the option store keeps its contents, and nothing else is kept (log 23). -/
def State.lose (s : State) : State :=
  { State.reset with
    powered := false
    lines := { State.reset.lines with enabled := false }
    store := s.storeAfterLoss
    order := s.order
    drawn := s.drawn + 1
    pending := s.pending }

end Sys2Proof.Machine
end

