-- ==== Sys2Proof/Machine/Power.lean ====
section
/-! DEFINITION. POWER_UP and POWER_LOSS (chapter 11). -/

namespace Sys2Proof.Machine

/-- POWER_UP (R176). On a part that has power it is a loss of power and its return (log 16). -/
def execPowerUp (faults : BitVec 48) (levels : BitVec 8) (s : State) :
    Host.Outcome State Fault Refusal :=
  .next ((if s.powered then s.lose else s).boot faults levels)

/-- POWER_LOSS (R174, R175). -/
def execPowerLoss (s : State) : Host.Outcome State Fault Refusal :=
  .next (s.powering State.lose)

end Sys2Proof.Machine
end

