-- ==== Sys2Proof/Machine/Queries.lean ====
section
/-! DEFINITION. The nine queries (R170): each answers the record as it stands, and changes nothing. -/

namespace Sys2Proof.Machine

def identQuery : Owner := fun _ s => s.show s.site.bytes

def campaignQuery : Owner := fun _ s => s.show s.campaign.bytes

def sectionQuery : Owner
  | .oneId id, s =>
    match idOf 24 id with
    | some i => s.show ((s.sec i).bytes i)
    | none => s.refuse .noSection
  | _, s => s.refuse .malformed

def steamQuery : Owner := fun _ s => s.show s.steam.bytes

def unitQuery : Owner
  | .oneId id, s =>
    match idOf 48 id with
    | some u => s.show (s.unitAnswer u)
    | none => s.refuse .noUnit
  | _, s => s.refuse .malformed

def tripsQuery : Owner := fun _ s => s.show s.trips.bytes

def captureQuery : Owner
  | .oneId id, s =>
    match idOf 24 id with
    | some i => s.show (s.sec i).ring.bytes
    | none => s.refuse .noSection
  | _, s => s.refuse .malformed

def channelQuery : Owner
  | .oneId id, s =>
    match idOf 48 id with
    | some c => s.show ((s.scanner.channels.get c).bytes c)
    | none => s.refuse .range
  | _, s => s.refuse .malformed

def sitePartQuery : Owner
  | .siteHalf part half, s =>
    match idOf 8 part with
    | some k => if half ≤ 1 then s.show (siteHalf (s.store.parts.get k) half) else s.refuse .range
    | none => s.refuse .range
  | _, s => s.refuse .malformed

/-- READ_IDENT (R178). -/
def execReadIdent (s : State) : Host.Outcome State Fault Refusal :=
  .next (s.powering fun s => s.takeRequest .readIdent identQuery)

/-- READ_CAMPAIGN (R30). -/
def execReadCampaign (s : State) : Host.Outcome State Fault Refusal :=
  .next (s.powering fun s => s.takeRequest .readCampaign campaignQuery)

/-- READ_SECTION (R15). -/
def execReadSection (s : State) : Host.Outcome State Fault Refusal :=
  .next (s.powering fun s => s.takeRequest .readSection sectionQuery)

/-- READ_STEAM (R92). -/
def execReadSteam (s : State) : Host.Outcome State Fault Refusal :=
  .next (s.powering fun s => s.takeRequest .readSteam steamQuery)

/-- READ_UNIT (R143). -/
def execReadUnit (s : State) : Host.Outcome State Fault Refusal :=
  .next (s.powering fun s => s.takeRequest .readUnit unitQuery)

/-- READ_TRIPS (R155). -/
def execReadTrips (s : State) : Host.Outcome State Fault Refusal :=
  .next (s.powering fun s => s.takeRequest .readTrips tripsQuery)

/-- READ_CAPTURE (R35). -/
def execReadCapture (s : State) : Host.Outcome State Fault Refusal :=
  .next (s.powering fun s => s.takeRequest .readCapture captureQuery)

/-- READ_CHANNEL (R52). -/
def execReadChannel (s : State) : Host.Outcome State Fault Refusal :=
  .next (s.powering fun s => s.takeRequest .readChannel channelQuery)

/-- READ_SITE_RECORD (R178). -/
def execReadSiteRecord (s : State) : Host.Outcome State Fault Refusal :=
  .next (s.powering fun s => s.takeRequest .readSiteRecord sitePartQuery)

end Sys2Proof.Machine
end

