-- ==== Sys2Proof/Machine/SectionOrders.lean ====
section
/-! DEFINITION. The section table's orders and timed events (chapters 1 to 7 and 11). -/

namespace Sys2Proof.Machine

/-! ### ADVANCE, HOLD, RELEASE, ADOPT -/

/-- R71, R72, R124. -/
def advanceOrder : Owner
  | .oneId id, s =>
    match s.named id with
    | none => s.refuse .noSection
    | some i =>
      if (s.sec i).mode = .auto then s.refuse .mode
      else
        match nextStep (s.sec i).cls (s.sec i).state with
        | none => s.refuse .state
        | some dest =>
          match s.failing i with
          | [] => ((s.enterState i dest .order).settle).accept
          | c :: cs => (s, .refused .permit (listed (fun c : PermitCondition => [c.code]) (c :: cs)))
  | _, s => s.refuse .malformed

/-- R103: the states whose sections HOLD is refused for. -/
def SectionState.noHold : SectionState → Bool
  | .cold | .laidUp | .excluded | .absent => true
  | .filling | .conditioning | .circulating | .running | .held | .sweeteningOff | .draining => false

/-- R103. -/
def holdOrder : Owner
  | .oneId id, s =>
    match s.named id with
    | none => s.refuse .noSection
    | some i =>
      if (s.sec i).state.noHold then s.refuse .state
      else ((s.addReason i .host).settle).accept
  | _, s => s.refuse .malformed

/-- R104. -/
def releaseOrder : Owner
  | .oneId id, s =>
    match s.named id with
    | none => s.refuse .noSection
    | some i =>
      if (s.sec i).holds.contains .host then ((s.removeReason i .host .release).settle).accept
      else s.refuse .notHeld
  | _, s => s.refuse .malformed

/-- R177 stage 3: the steam request of an adoption. A claim granted at once stands on the claim list;
a queued one brings the STEAM reason (log 31). -/
def State.adoptSteam (s : State) (i : SectionId) : State :=
  let r := Steam.request s.now i (s.sec i).demand true s.steam
  let asked := s.putSteam r.1
  if r.2.contains (.steam i) then asked.insertHolds i [.steam] else asked

/-- R177, its four stages. -/
def State.adopt (s : State) (i : SectionId) (st : SectionState) : State :=
  let named := s.setSec i { s.sec i with heldFrom := some st }
  let pressed :=
    if st.passesLiquor then named.insertHolds i (((named.downstreamOf i).filter named.full).map .full)
    else named
  let asked := if st.steamState ∧ (s.sec i).demand ≠ 0 then pressed.adoptSteam i else pressed
  asked.removeReason i .restart .restore

/-- R177. -/
def adoptOrder : Owner
  | .adoption id code, s =>
    match s.named id with
    | none => s.refuse .noSection
    | some i =>
      if !(s.sec i).holds.contains .restart then s.refuse .state
      else
        match sectionStateOf code with
        | some st => if adoptable (s.sec i).cls st then ((s.adopt i st).settle).accept else s.refuse .range
        | none => s.refuse .range
  | _, s => s.refuse .malformed

/-! ### EXCLUDE and INCLUDE -/

/-- R11, R12: the campaign states in which EXCLUDE and INCLUDE are refused. -/
def CampaignState.bars : CampaignState → Bool
  | .windingDown | .restoring => true
  | .closed | .opened => false

/-- The sections that hold FULL(d) (R107). -/
def State.holdersOfFull (s : State) (d : SectionId) : List SectionId :=
  (allIds 24).filter fun i => (s.sec i).holds.contains (.full d)

/-- R105: the upstream sections of `d` that FULL(d) is handed to. -/
def State.feedersOf (s : State) (d : SectionId) : List SectionId :=
  ((s.upstreamOf d).map Link.id).filter fun u => (s.sec u).takes (.full d)

/-- R11: an accepted EXCLUDE. -/
def State.exclude (s : State) (i : SectionId) : State :=
  (s.enterState i .excluded .order).handAll
    (.unitsExcluded i :: (s.holdersOfFull i).map fun u => .removeReason u (.full i))

/-- R12: an accepted INCLUDE. -/
def State.incorporate (s : State) (i : SectionId) : State :=
  let cold := s.enterState i .cold .order
  cold.handAll
    (.unitsIncluded i ::
      if cold.full i then (cold.feedersOf i).map fun u => .addReason u (.full i) else [])

/-- R11. -/
def excludeOrder : Owner
  | .oneId id, s =>
    match s.named id with
    | none => s.refuse .noSection
    | some i =>
      if s.campaign.state.bars then s.refuse .campaign
      else if (s.sec i).state = .cold ∨ (s.sec i).state = .laidUp then ((s.exclude i).settle).accept
      else s.refuse .state
  | _, s => s.refuse .malformed

/-- R12. -/
def includeOrder : Owner
  | .oneId id, s =>
    match s.named id with
    | none => s.refuse .noSection
    | some i =>
      if s.campaign.state.bars then s.refuse .campaign
      else if (s.sec i).state = .excluded then ((s.incorporate i).settle).accept
      else s.refuse .state
  | _, s => s.refuse .malformed

/-! ### SET LINKS (R7, R8) -/

/-- R8: the lag of a link added from the upstream end. -/
def newLag : Nat := 120

/-- R8: the downstream list of another section `j`, given the target and its old and new records. -/
def mirrorDown (i j : SectionId) (old new : List Link) (list : List SectionId) : List SectionId :=
  let was := old.any fun l => l.id == j
  let is := new.any fun l => l.id == j
  if was && !is then list.filter fun d => d != i
  else if is && !was then list ++ [i]
  else list

/-- R8: the upstream list of another section `j`. -/
def mirrorUp (i j : SectionId) (old new : List SectionId) (list : List Link) : List Link :=
  if old.contains j && !new.contains j then list.filter fun l => l.id != i
  else if new.contains j && !old.contains j then list ++ [{ id := i, lag := newLag }]
  else list

/-- R8: the section table after the edits. -/
def relinked (t : Table Section 24) (i : SectionId) (up : List Link) (down : List SectionId) :
    Table Section 24 :=
  let old := t.get i
  Table.ofFn fun j =>
    let r := t.get j
    if j = i then { r with upstream := up, downstream := down }
    else
      { r with
        downstream := mirrorDown i j old.upstream up r.downstream
        upstream := mirrorUp i j old.downstream down r.upstream }

/-- R7 step 3. -/
def linksInRange (t : Table Section 24) (i : SectionId) (up : List Link) (down : List SectionId) : Bool :=
  decide (up.length ≤ 3) && decide (down.length ≤ 3)
    && decide (up.map Link.id).Nodup && decide down.Nodup
    && up.all (fun l => decide (l.lag ≤ 3600))
    && (allIds 24).all fun j => j == i ||
        (decide (((relinked t i up down).get j).upstream.length ≤ 3)
          && decide (((relinked t i up down).get j).downstream.length ≤ 3))

/-- R7 step 4. -/
def linksCyclic (t : Table Section 24) (i : SectionId) (up : List Link) (down : List SectionId) : Bool :=
  up.any (fun l => l.id == i) || down.contains i || up.any (fun l => down.contains l.id)
    || !acyclic fun j => ((relinked t i up down).get j).downstream

/-- The neighbours of a section in a table, whatever their state. -/
def linkedTo (t : Table Section 24) (i : SectionId) : List SectionId :=
  (t.get i).upstream.map Link.id ++ (t.get i).downstream

/-- R8: the edits, the SECTION reports and the re-examinations. -/
def State.relink (s : State) (i : SectionId) (up : List Link) (down : List SectionId) : State :=
  let after := relinked s.sections i up down
  let changed := (allIds 24).filter fun j =>
    (after.get j).upstream != (s.sec j).upstream || (after.get j).downstream != (s.sec j).downstream
  let touched := (changed ++ changed.flatMap fun j => linkedTo s.sections j ++ linkedTo after j).dedup
  let edited : State := { s with sections := after }
  (edited.reportAll (changed.map .sec)).handAll (touched.map fun j => .reexamine j .other)

/-- R7 step 1: the listed ids as sections, unless one is above 23 or ABSENT. -/
def State.namedAll (s : State) : List Nat → Option (List SectionId)
  | [] => some []
  | id :: ids =>
    match s.named id, s.namedAll ids with
    | some i, some is => some (i :: is)
    | _, _ => none

/-- R7. -/
def linksOrder : Owner
  | .links id up down, s =>
    match s.named id, s.namedAll (up.map Prod.fst), s.namedAll down with
    | some i, some ups, some downs =>
      let links : List Link := (ups.zip (up.map Prod.snd)).map fun p => { id := p.1, lag := p.2 }
      if s.campaign.lock then s.refuse .locked
      else if !linksInRange s.sections i links downs then s.refuse .range
      else if linksCyclic s.sections i links downs then s.refuse .cycle
      else ((s.relink i links downs).settle).accept
    | _, _, _ => s.refuse .noSection
  | _, s => s.refuse .malformed

/-! ### Settings -/

/-- R43 step 2. -/
def limitsInRange (r : Section) (l : Limits) (ceiling : Nat) : Bool :=
  decide (5 ≤ l.hysteresis) && decide (l.hysteresis ≤ 100)
    && decide (l.empty + l.hysteresis < l.fillDone) && decide (l.fillDone < l.high)
    && decide (l.high ≤ 1000) && decide (l.sweetOff < l.sweetOn) && decide (l.sweetOn ≤ 850)
    && (r.cls == .process || decide (ceiling ≤ r.nativeCeiling.getD 0))

/-- R44: the limits replaced; a PROCESS section keeps no working ceiling. -/
def Section.withLimits (r : Section) (l : Limits) (ceiling : Nat) : Section :=
  { r with limits := l, workingCeiling := if r.cls = .storage then some ceiling else r.workingCeiling }

/-- R43. -/
def limitsOrder : Owner
  | .limits id l ceiling, s =>
    match s.named id with
    | none => s.refuse .noSection
    | some i =>
      if limitsInRange (s.sec i) l ceiling then (s.setSec i ((s.sec i).withLimits l ceiling)).accept
      else s.refuse .range
  | _, s => s.refuse .malformed

/-- R65 step 3: whether a section's demand may be changed. -/
def Section.demandFree (r : Section) : Bool :=
  r.state == .cold || r.state == .excluded || r.state == .laidUp || r.holds.contains .restart

/-- R65. -/
def timingOrder : Owner
  | .timing id conditioning demand, s =>
    match s.named id with
    | none => s.refuse .noSection
    | some i =>
      let r := s.sec i
      if 7200 < conditioning ∨ 63 < demand ∨ (r.cls = .storage ∧ demand ≠ 0) then s.refuse .range
      else if demand ≠ r.demand ∧ r.demandFree = false then s.refuse .state
      else (s.setSec i { r with conditioningTime := conditioning, demand := demand }).accept
  | _, s => s.refuse .malformed

/-- R169: a mode's code. -/
def modeOf (n : Nat) : Mode := if n = 0 then .auto else .manual

/-- R54. -/
def modeOrder : Owner
  | .mode _ id setting, s =>
    match s.named id with
    | none => s.refuse .noSection
    | some i =>
      if (s.sec i).mode = modeOf setting then s.accept
      else
        let turned := (s.setSec i { s.sec i with mode := modeOf setting }).report (.sec i)
        ((turned.reexamine i .modeChange).settle).accept
  | _, s => s.refuse .malformed

/-- R109. -/
def liftOrder : Owner
  | .oneId id, s =>
    match s.named id with
    | none => s.refuse .noSection
    | some i =>
      if (s.sec i).cls = .process then s.refuse .state
      else if s.campaign.state = .closed then s.refuse .campaign
      else (s.setSec i { s.sec i with ceilingLifted := true }).accept
  | _, s => s.refuse .malformed

def captureModeOf (n : Nat) : CaptureMode := if n = 0 then .absolute else .difference

def captureFillOf (n : Nat) : CaptureFill := if n = 0 then .continuous else .single

/-- R34. -/
def captureOrder : Owner
  | .capture id mode fill, s =>
    match s.named id with
    | none => s.refuse .noSection
    | some i =>
      (s.setSec i
        { s.sec i with ring := CaptureRing.emptied (captureModeOf mode) (captureFillOf fill) }).accept
  | _, s => s.refuse .malformed

/-! ### The rows -/

/-- ADVANCE (R71). -/
def execAdvance (s : State) : Host.Outcome State Fault Refusal :=
  .next (s.powering fun s => s.takeRequest .advance advanceOrder)

/-- HOLD (R103). -/
def execHold (s : State) : Host.Outcome State Fault Refusal :=
  .next (s.powering fun s => s.takeRequest .hold holdOrder)

/-- RELEASE (R104). -/
def execRelease (s : State) : Host.Outcome State Fault Refusal :=
  .next (s.powering fun s => s.takeRequest .release releaseOrder)

/-- ADOPT (R177). -/
def execAdopt (s : State) : Host.Outcome State Fault Refusal :=
  .next (s.powering fun s => s.takeRequest .adopt adoptOrder)

/-- EXCLUDE (R11). -/
def execExclude (s : State) : Host.Outcome State Fault Refusal :=
  .next (s.powering fun s => s.takeRequest .excludeSection excludeOrder)

/-- INCLUDE (R12). -/
def execInclude (s : State) : Host.Outcome State Fault Refusal :=
  .next (s.powering fun s => s.takeRequest .includeSection includeOrder)

/-- SET_LINKS (R7, R8). -/
def execSetLinks (s : State) : Host.Outcome State Fault Refusal :=
  .next (s.powering fun s => s.takeRequest .setLinks linksOrder)

/-- SET_LIMITS (R43, R44). -/
def execSetLimits (s : State) : Host.Outcome State Fault Refusal :=
  .next (s.powering fun s => s.takeRequest .setLimits limitsOrder)

/-- SET_TIMING (R65). -/
def execSetTiming (s : State) : Host.Outcome State Fault Refusal :=
  .next (s.powering fun s => s.takeRequest .setTiming timingOrder)

/-- SET_MODE_SECTION (R54). -/
def execSetModeSection (s : State) : Host.Outcome State Fault Refusal :=
  .next (s.powering fun s => s.takeMode false modeOrder)

/-- LIFT_CEILING (R109). -/
def execLiftCeiling (s : State) : Host.Outcome State Fault Refusal :=
  .next (s.powering fun s => s.takeRequest .liftCeiling liftOrder)

/-- SET_CAPTURE (R34). -/
def execSetCapture (s : State) : Host.Outcome State Fault Refusal :=
  .next (s.powering fun s => s.takeRequest .setCapture captureOrder)

/-- R24, R63, R64: whether the conditioning deadline of a section expires: the clock has been
advanced since the entry, and stands at the deadline or beyond (log 7). -/
def State.expires (s : State) (i : SectionId) : Bool :=
  (s.sec i).state == .conditioning && s.timerRun i && decide ((s.sec i).enteredAt < s.now)

/-- CONDITIONING_EXPIRY (R64). -/
def execConditioningExpiry (sec : Nat) (s : State) : Host.Outcome State Fault Refusal :=
  match idOf 24 sec with
  | none => .fault .noSuchTerminal
  | some i => .next (s.powering fun s => if s.expires i then (s.reexamine i .expiry).settle else s)

/-- R116: whether the lag of the link from `u` to `i` has run out for a RUNNING section `i` and an
upstream section `u` that meets UPSTREAM. -/
def State.lagCompletes (s : State) (i u : SectionId) : Bool :=
  (s.sec i).state == .running &&
    (s.upstreamOf i).any fun l => l.id == u && s.windDownClear u && s.lagRun l

/-- LAG_COMPLETION (R116). -/
def execLagCompletion (sec up : Nat) (s : State) : Host.Outcome State Fault Refusal :=
  match idOf 24 sec, idOf 24 up with
  | some i, some u =>
    .next (s.powering fun s => if s.lagCompletes i u then (s.reexamine i .expiry).settle else s)
  | _, _ => .fault .noSuchTerminal

end Sys2Proof.Machine
end

