-- ==== Sys2Proof/Machine/Scan.lean ====
section
/-! DEFINITION. The measurement scanner's samples and rounds, and the deliveries the section table
takes from them (chapter 3, chapter 6). -/

namespace Sys2Proof.Machine

/-- R38: the span of a channel's quantity. -/
def spanOf (c : ChannelId) : Nat := if c.val % 2 = 0 then 1000 else 850

/-- R38, R39, R41: a channel record after one sample. -/
def Channel.sampled (ch : Channel) (span raw : Nat) (l : Limits) (ceiling : Nat) : Channel :=
  if liveRaw raw then
    let v := scaled span raw
    let well : Channel :=
      { ch with raw := raw, value := v, validity := .valid, run := 3, bands := ch.bands.evaluate l ceiling v }
    match ch.validity with
    | .valid => well
    | .bad => if 3 ≤ ch.run + 1 then well else { ch with raw := raw, value := v, run := ch.run + 1 }
  else { ch with raw := raw, validity := .bad, run := 0 }

/-- R9, R116: the downstream sections that a phase change of section `i` makes re-examine: the RUNNING
PROCESS sections among them, whose wind-down permit it touches. -/
def State.lagFollowers (s : State) (i : SectionId) : List SectionId :=
  if (s.sec i).state.partakes then
    (s.downstreamOf i).filter fun d => (s.sec d).state == .running && (s.sec d).cls == .process
  else []

/-- R47: the phase of section `i` set; a change is an input to the sections below it (R116). -/
def State.setPhase (s : State) (i : SectionId) (p : Phase) : State :=
  let r := s.sec i
  if r.phase = p then s
  else
    let routed := if r.state.passesLiquor then r.state.discharge p else r.discharge
    let changed := s.setSec i { r with phase := p, phaseSince := s.now, discharge := routed }
    ((changed.driveRoutes i).report (.sec i)).handAll
      ((s.lagFollowers i).map fun d => .reexamine d .crossing)

/-- R45, R46, R48: the phase followed while the level channel is VALID. -/
def State.followPhase (s : State) (i : SectionId) : State :=
  if s.levelBad i then s
  else s.setPhase i (phaseOf (s.sec i).cls (s.level i).bands (s.solids i).bands)

/-- R62, R105, R106, R107: what a crossing of section `i` hands on. -/
def State.crossingHandings (s : State) (i : SectionId) : Crossing → List Delivery
  | .highReached | .ceilingReached =>
    if (s.sec i).state.partakes then (s.feedersOf i).map fun u => .addReason u (.full i) else []
  | .highCleared | .ceilingCleared => (s.holdersOfFull i).map fun u => .removeReason u (.full i)
  | .fillDoneLost =>
    if (s.sec i).state = .filling ∧ hasClaim i s.steam.queue then [.withdrawClaim i] else []
  | .emptyReached | .emptyLeft | .fillDoneReached | .sweetOn | .sweetOff => []

/-- R39, R51: the LEVEL report of a change of validity. -/
def State.reportLevel (s : State) (i : SectionId) : State :=
  if (s.sec i).state.partakes then s.report (.level i) else s

/-- R49, R50: the SENSOR reason placed and removed by a change of the level channel's validity. -/
def State.sensorChange (s : State) (i : SectionId) (old new : Validity) : State :=
  match old, new with
  | .valid, .bad => s.addReason i .sensor
  | .bad, .valid => s.removeReason i .sensor .release
  | .valid, .valid | .bad, .bad => s

/-- Section 3.4: one delivery of the scanner for channel `c`, taken whole: the phase first, then
SENSOR (R50), then the crossings, then the re-examination (R47, R55). Where SENSOR has moved the section
into another state, that entry's own re-examination is the one made (log 22). The SECTION entries of the
phase and of SENSOR join the pending set before the LEVEL entry of the same sample (the model's choice,
log 35). -/
def State.takeDelivery (s : State) (c : ChannelId) (old new : Channel) : State :=
  let i := channelSection c
  let phased := s.followPhase i
  let sensed := if c.val % 2 = 0 then phased.sensorChange i old.validity new.validity else phased
  let handed := sensed.handAll ((crossings old.bands new.bands).flatMap (sensed.crossingHandings i))
  let told := if old.validity = new.validity then handed else handed.reportLevel i
  if (told.sec i).state = (s.sec i).state then told.reexamine i .crossing else told

/-- R37: the channel whose turn it is: the first converted channel the round has not passed. -/
def Scanner.due (x : Scanner) : Option ChannelId :=
  (allIds 48).find? fun c => (x.channels.get c).converted && decide (x.turn ≤ c.val)

/-- R37: the channel record of a sample stored, and the round past it. -/
def Scanner.taken (x : Scanner) (c : ChannelId) (ch : Channel) : Scanner :=
  { x with channels := x.channels.set c ch, turn := c.val + 1 }

/-- R37, R38: one sample of channel `c`; a sample that changes neither validity nor a band position
hands over no delivery. -/
def State.sample (s : State) (c : ChannelId) (raw : Nat) : State :=
  let old := s.scanner.channels.get c
  let r := s.sec (channelSection c)
  let new := old.sampled (spanOf c) raw r.limits r.ceilingInForce
  let stored : State := { s with scanner := s.scanner.taken c new }
  if old.validity = new.validity ∧ crossings old.bands new.bands = [] then stored
  else (stored.takeDelivery c old new).settle

/-- CHANNEL_SAMPLE (R37, R38): the scanner takes the sample of the channel whose turn it is. A sample of
any other channel is none of its own, and a channel that is not converted keeps its record (R36, log 34). -/
def execChannelSample (channel raw : Nat) (s : State) : Host.Outcome State Fault Refusal :=
  match idOf 48 channel with
  | none => .fault .noSuchTerminal
  | some c =>
    if raw ≤ 4095 then
      .next (s.powering fun s => if s.scanner.due = some c then s.sample c raw else s)
    else .fault .noSuchConversion

/-- R51: a completed round counted, and the LEVEL reports of a full count. -/
def State.countRound (s : State) : State :=
  if s.scanner.prescale = 0 then s
  else if s.scanner.round + 1 < s.scanner.prescale then
    { s with scanner := { s.scanner with round := s.scanner.round + 1 } }
  else
    ({ s with scanner := { s.scanner with round := 0 } } : State).reportAll (s.partaking.map .level)

/-- R37: the next round begun. -/
def State.newRound (s : State) : State := { s with scanner := { s.scanner with turn := 0 } }

/-- SCAN_ROUND_COMPLETE (R37, R51): the round completes once no converted channel is left in it, and at
once where none is converted; before that it is no event of the scanner (log 34). -/
def execScanRoundComplete (s : State) : Host.Outcome State Fault Refusal :=
  .next (s.powering fun s => if s.scanner.due = none then s.newRound.countRound else s)

end Sys2Proof.Machine
end

