-- ==== Sys2Proof/Machine/StoreOrders.lean ====
section
/-! DEFINITION. The option store's orders and writes (chapter 11), and SET REPORTING (chapter 10). -/

namespace Sys2Proof.Machine

/-- R173. -/
def sitePartOrder : Owner
  | .sitePart bytes, s =>
    if s.campaign.state ≠ .closed then s.refuse .campaign
    else
      match idOf 8 ((bytes.head?.getD 0).toNat) with
      | some k =>
        let site : SiteService := { s.site with staging := s.site.staging.set k (some bytes) }
        ({ s with site := site } : State).accept
      | none => s.refuse .range
  | _, s => s.refuse .malformed

/-- R174: the staged parts, written as they stand. -/
def stagedParts (staging : Table (Option (List Byte)) 8) : Table (List Byte) 8 :=
  staging.map fun p => p.getD []

/-- R174. -/
def commitOrder : Owner := fun _ s =>
  if s.campaign.state ≠ .closed then s.refuse .campaign
  else if s.site.staging.items.any Option.isNone then s.refuse .incomplete
  else
    match siteRefusal (stagedParts s.site.staging) with
    | some c => s.refuse c
    | none => ({ s with site := { s.site with siteWriting := true } }, .waits .optionStore)

/-- R174: the write is done: the parts and their check value stand, and the staging area is empty. -/
def State.siteWritten (s : State) : State :=
  let parts := stagedParts s.site.staging
  { s with
    store := { s.store with parts := parts, siteCheck := some (partsCheck parts) }
    site := { s.site with staging := Table.replicate 8 none, committed := true, siteWriting := false } }

/-- R165: the mask from the six flags, in report kind order. -/
def maskOf (flags : List Nat) : ReportMask :=
  { sec := flags.getD 0 0 == 1, level := flags.getD 1 0 == 1, steam := flags.getD 2 0 == 1
    unit := flags.getD 3 0 == 1, trip := flags.getD 4 0 == 1, campaign := flags.getD 5 0 == 1 }

/-- R165, with R51 for the prescale. -/
def reportingOrder : Owner
  | .reporting flags prescale silence, s =>
    let mask := maskOf flags
    let link : LinkPort :=
      { s.link with
        mask := mask, reports := s.link.reports.filter mask.allows, silenceLimit := silence
        silenceExpired := false }
    ({ s with link := link, scanner := { s.scanner with prescale := prescale, round := 0 } } : State).accept
  | _, s => s.refuse .malformed

/-- WRITE_SITE_PART (R173). -/
def execWriteSitePart (s : State) : Host.Outcome State Fault Refusal :=
  .next (s.powering fun s => s.takeRequest .writeSitePart sitePartOrder)

/-- COMMIT_SITE_RECORD (R174). -/
def execCommitSiteRecord (s : State) : Host.Outcome State Fault Refusal :=
  .next (s.powering fun s => s.takeRequest .commitSiteRecord commitOrder)

/-- SITE_RECORD_WRITE_DONE (R174). -/
def execSiteRecordWriteDone (s : State) : Host.Outcome State Fault Refusal :=
  .next (s.powering fun s =>
    if s.site.siteWriting then
      match s.link.awaited with
      | some w => if w.owner = .optionStore then s.siteWritten.completeAwaited w else s.siteWritten
      | none => s.siteWritten
    else s)

/-- SET_REPORTING (R165). -/
def execSetReporting (s : State) : Host.Outcome State Fault Refusal :=
  .next (s.powering fun s => s.takeRequest .setReporting reportingOrder)

end Sys2Proof.Machine
end

