-- ==== Sys2Proof/Machine/TripOrders.lean ====
section
/-! DEFINITION. The trip unit's orders and events (chapter 9), and the steam allocator's order
(chapter 5). -/

namespace Sys2Proof.Machine

/-- R79. -/
def budgetOrder : Owner
  | .oneId budget, s => ((s.steamChange (Steam.setHost s.now budget)).settle).accept
  | _, s => s.refuse .malformed

/-- R152. -/
def forceOrder : Owner
  | .oneId id, s =>
    match idOf 4 id with
    | none => s.refuse .range
    | some g => ((s.forceGroup g).settle).accept
  | _, s => s.refuse .malformed

/-- R153. -/
def clearOrder : Owner
  | .oneId id, s =>
    match idOf 4 id with
    | none => s.refuse .range
    | some g =>
      if (s.group g).state = .normal then s.refuse .state
      else if (s.trips.activeOf (s.group g).inputs) ≠ [] then s.refuse .active
      else ((s.clearGroup g).settle).accept
  | _, s => s.refuse .malformed

def tripModeOf (n : Nat) : TripMode := if n = 0 then .latched else .selfClearing

/-- R154: the ids named in a list, each once, ascending. -/
def idsNamed (n : Nat) (ids : List Nat) : List (Fin n) := (allIds n).filter fun i => ids.contains i.val

/-- R154. The limit of 24 members counts the entries of the list as sent, so an id named twice counts
twice (the model's choice, log 38). -/
def groupOrder : Owner
  | .group id members inputs mode _presence cap, s =>
    match idOf 4 id with
    | none => s.refuse .range
    | some g =>
      if inputs.any (fun i => decide (7 < i)) || decide (24 < members.length) then s.refuse .range
      else if members.any (fun m => (s.named m).isNone) then s.refuse .noSection
      else if (s.group g).state = .tripped then s.refuse .state
      else
        ((s.configureGroup g (idsNamed 24 members) (idsNamed 8 inputs) (tripModeOf mode) cap).settle).accept
  | _, s => s.refuse .malformed

/-- SET_BUDGET (R79). -/
def execSetBudget (s : State) : Host.Outcome State Fault Refusal :=
  .next (s.powering fun s => s.takeRequest .setBudget budgetOrder)

/-- SET_GROUP (R154). -/
def execSetGroup (s : State) : Host.Outcome State Fault Refusal :=
  .next (s.powering fun s => s.takeRequest .setGroup groupOrder)

/-- FORCE_TRIP (R152). -/
def execForceTrip (s : State) : Host.Outcome State Fault Refusal :=
  .next (s.powering fun s => s.takeRequest .forceTrip forceOrder)

/-- CLEAR_TRIP (R153). -/
def execClearTrip (s : State) : Host.Outcome State Fault Refusal :=
  .next (s.powering fun s => s.takeRequest .clearTrip clearOrder)

/-- R146, R148: an input's active flag set, and the event taken by every group that holds it. -/
def State.inputActive (s : State) (i : InputId) : State :=
  let set := s.setInput i ((s.trips.inputs.get i).becoming true)
  let sh := set.shuffle (set.groupsOf i)
  (sh.1.foldl (State.groupInputActive · i ·) sh.2).settle

/-- R146, R150. -/
def State.inputInactive (s : State) (i : InputId) : State :=
  let set := s.setInput i ((s.trips.inputs.get i).becoming false)
  let sh := set.shuffle (set.groupsOf i)
  (sh.1.foldl State.groupInputInactive sh.2).settle

/-- TRIP_INPUT_ACTIVE (R148): a change of the active flag; an input already active makes none. -/
def execTripInputActive (input : Nat) (s : State) : Host.Outcome State Fault Refusal :=
  match idOf 8 input with
  | none => .fault .noSuchTerminal
  | some i => .next (s.powering fun s => if (s.trips.inputs.get i).active then s else s.inputActive i)

/-- TRIP_INPUT_INACTIVE (R150): a change of the active flag; an input already inactive makes none. -/
def execTripInputInactive (input : Nat) (s : State) : Host.Outcome State Fault Refusal :=
  match idOf 8 input with
  | none => .fault .noSuchTerminal
  | some i => .next (s.powering fun s => if (s.trips.inputs.get i).active then s.inputInactive i else s)

end Sys2Proof.Machine
end

