-- ==== Sys2Proof/Machine/Dispatch.lean ====
section
/-! DEFINITION. One arm for each command, each a call of its meaning. -/

namespace Sys2Proof.Machine

def exec (i : Instr) (s : State) : Host.Outcome State Fault Refusal :=
  match i with
  | .powerUp faults levels => Sys2Proof.Machine.execPowerUp faults levels s
  | .telegramReceived kind tag body check => Sys2Proof.Machine.execTelegramReceived kind tag body check s
  | .interByteTimeout late => Sys2Proof.Machine.execInterByteTimeout late s
  | .lineBreak => Sys2Proof.Machine.execLineBreak s
  | .silenceExpiry => Sys2Proof.Machine.execSilenceExpiry s
  | .transmitNextTelegram => Sys2Proof.Machine.execTransmitNextTelegram s
  | .unknownKindRequest => Sys2Proof.Machine.execUnknownKindRequest s
  | .readIdent => Sys2Proof.Machine.execReadIdent s
  | .readCampaign => Sys2Proof.Machine.execReadCampaign s
  | .readSection => Sys2Proof.Machine.execReadSection s
  | .readSteam => Sys2Proof.Machine.execReadSteam s
  | .readUnit => Sys2Proof.Machine.execReadUnit s
  | .readTrips => Sys2Proof.Machine.execReadTrips s
  | .readCapture => Sys2Proof.Machine.execReadCapture s
  | .readChannel => Sys2Proof.Machine.execReadChannel s
  | .readSiteRecord => Sys2Proof.Machine.execReadSiteRecord s
  | .openCampaign => Sys2Proof.Machine.execOpenCampaign s
  | .closeCampaign => Sys2Proof.Machine.execCloseCampaign s
  | .resumeCampaign => Sys2Proof.Machine.execResumeCampaign s
  | .advance => Sys2Proof.Machine.execAdvance s
  | .hold => Sys2Proof.Machine.execHold s
  | .release => Sys2Proof.Machine.execRelease s
  | .adopt => Sys2Proof.Machine.execAdopt s
  | .excludeSection => Sys2Proof.Machine.execExclude s
  | .includeSection => Sys2Proof.Machine.execInclude s
  | .setLinks => Sys2Proof.Machine.execSetLinks s
  | .setLimits => Sys2Proof.Machine.execSetLimits s
  | .setTiming => Sys2Proof.Machine.execSetTiming s
  | .setModeSection => Sys2Proof.Machine.execSetModeSection s
  | .setModeCampaign => Sys2Proof.Machine.execSetModeCampaign s
  | .setBudget => Sys2Proof.Machine.execSetBudget s
  | .liftCeiling => Sys2Proof.Machine.execLiftCeiling s
  | .returnUnit => Sys2Proof.Machine.execReturnUnit s
  | .setUnits => Sys2Proof.Machine.execSetUnits s
  | .setGroup => Sys2Proof.Machine.execSetGroup s
  | .forceTrip => Sys2Proof.Machine.execForceTrip s
  | .clearTrip => Sys2Proof.Machine.execClearTrip s
  | .setCapture => Sys2Proof.Machine.execSetCapture s
  | .setReporting => Sys2Proof.Machine.execSetReporting s
  | .writeSitePart => Sys2Proof.Machine.execWriteSitePart s
  | .commitSiteRecord => Sys2Proof.Machine.execCommitSiteRecord s
  | .siteRecordWriteDone => Sys2Proof.Machine.execSiteRecordWriteDone s
  | .markWriteComplete => Sys2Proof.Machine.execMarkWriteComplete s
  | .clockAdvance => Sys2Proof.Machine.execClockAdvance s
  | .conditioningExpiry sec => Sys2Proof.Machine.execConditioningExpiry sec s
  | .lagCompletion sec up => Sys2Proof.Machine.execLagCompletion sec up s
  | .channelSample channel raw => Sys2Proof.Machine.execChannelSample channel raw s
  | .scanRoundComplete => Sys2Proof.Machine.execScanRoundComplete s
  | .faultInputActive unit => Sys2Proof.Machine.execFaultInputActive unit s
  | .faultInputInactive unit => Sys2Proof.Machine.execFaultInputInactive unit s
  | .unitSupervisorTick => Sys2Proof.Machine.execUnitSupervisorTick s
  | .recoveryWindowExpiry unit => Sys2Proof.Machine.execRecoveryWindowExpiry unit s
  | .tripInputActive input => Sys2Proof.Machine.execTripInputActive input s
  | .tripInputInactive input => Sys2Proof.Machine.execTripInputInactive input s
  | .telegramDiscardedInAssembly why => Sys2Proof.Machine.execTelegramDiscarded why s
  | .lineReturnToIdle => Sys2Proof.Machine.execLineReturnToIdle s
  | .powerLoss => Sys2Proof.Machine.execPowerLoss s

end Sys2Proof.Machine
end

