-- ==== Sys2Proof/Safety.lean ====
section
/-! DEFINITION. The laws of the device, as predicates on a state, and what a cascade of deliveries
leaves alone. -/

namespace Sys2Proof.Machine

/-! ### Laws of the device -/

/-- R163: at most one pending entry for any report kind and source. -/
def State.reportsOnce (s : State) : Prop := s.link.reports.Nodup

/-- R94: a section is in HELD exactly when its hold set is not empty, held-from is present in HELD
only, is absent there exactly when the set contains RESTART, and is never HELD itself. -/
def Section.holdLaw (r : Section) : Prop :=
  (r.state = .held ↔ r.holds ≠ []) ∧
  (r.state ≠ .held → r.heldFrom = none) ∧
  (r.state = .held → (r.heldFrom = none ↔ .restart ∈ r.holds)) ∧
  r.heldFrom ≠ some .held

/-- R94 for every section. -/
def State.holdLaw (s : State) : Prop := ∀ i, (s.sec i).holdLaw

/-- R94: the records of a hold set in the order in which it is listed, no two of them equal. -/
def HoldsOrdered (hs : List HoldReason) : Prop := hs.Pairwise fun a b => a.rank < b.rank

def State.holdOrderLaw (s : State) : Prop := ∀ i, HoldsOrdered (s.sec i).holds

/-- R4: a section's route attributes are those of its state and phase. -/
def Section.routeLaw (r : Section) : Prop :=
  r.intake = r.state.intake ∧ r.discharge = r.state.discharge r.phase

/-- R4, R5, R129: the attributes follow the states, and every output latch follows its attribute or
its run output by its polarity. -/
def State.outputLaw (s : State) : Prop :=
  (∀ i, (s.sec i).routeLaw) ∧
  (∀ i, s.lines.routeLatch.get i = (s.lines.routePolarity.get i).drive (s.sec i).intake (s.sec i).discharge) ∧
  (∀ u, s.lines.runLatch.get u = (s.lines.runPolarity.get u).level (s.supervisor.units.get u).runOutput)

/-- R75: the claimed sum stays within the effective budget, every entry's demand is at least 1, and a
section stands at most once on the two lists together. -/
def Steam.law (st : Steam) : Prop :=
  st.claimedSum ≤ st.effective ∧
  ((st.claims ++ st.queue).map Claim.sec).Nodup ∧
  ∀ c ∈ st.claims ++ st.queue, 1 ≤ c.demand

def State.steamLaw (s : State) : Prop := s.steam.law

/-- Held from one of the four states that hold a claim, or to be so once RESTART is gone. -/
def Section.heldSteaming (r : Section) : Prop :=
  r.state = .held ∧ ∃ back, r.heldFrom = some back ∧ back.steamState = true

/-- R76 for one section, given whether it stands on the claim list and on the wait queue, and whether a
release or a withdrawal of its claim is on its way to the allocator. A section on the claim list is in one
of the four states that hold a claim, or HELD from one of them, without STEAM; a section on the wait queue
is in FILLING, or HELD from one of the four with STEAM; and a section with STEAM is on the wait queue. -/
def Section.claimLaw (r : Section) (claimed queued released withdrawn : Prop) : Prop :=
  (claimed → released ∨ r.state.steamState = true ∨ (r.heldSteaming ∧ .steam ∉ r.holds)) ∧
  (queued → released ∨ r.state = .filling ∨ (r.heldSteaming ∧ .steam ∈ r.holds) ∨
    (withdrawn ∧ .steam ∉ r.holds)) ∧
  (.steam ∈ r.holds → queued)

/-- R76 for section `i`, by the lists of the allocator's record `st`. -/
def State.claimAt (s : State) (st : Steam) (i : SectionId) : Prop :=
  (s.sec i).claimLaw (hasClaim i st.claims = true) (hasClaim i st.queue = true)
    (.releaseClaim i ∈ s.work) (.withdrawClaim i ∈ s.work)

/-- R76: the law that ties the claim list and the wait queue to the states of the sections. -/
def State.claimLaw (s : State) : Prop := ∀ i, s.claimAt s.steam i

/-- R132: the watch list holds at most 16 units, no unit twice, and HEALTHY units only. -/
def UnitSupervisor.watchLaw (us : UnitSupervisor) : Prop :=
  us.watch.length ≤ 16 ∧ us.watch.Nodup ∧ ∀ u ∈ us.watch, (us.units.get u).condition = .healthy

def State.watchLaw (s : State) : Prop := s.supervisor.watchLaw

/-- R127: a section's duty units are the DUTY units of the section. -/
def State.dutyLaw (s : State) : Prop :=
  (∀ i u, u ∈ (s.sec i).dutyUnits ↔
    (s.supervisor.units.get u).role = .duty ∧ (s.supervisor.units.get u).sec = some i) ∧
  ∀ u, (s.supervisor.units.get u).role = .duty → ∃ i, (s.supervisor.units.get u).sec = some i

/-- R133, of the supervisor's own record: a covering stands on both records, a spare that is not FAILED
covers a FAILED duty unit, and so no more than one; the demand queue holds uncovered FAILED duty units,
none twice, each with its class; and no HEALTHY spare that covers nothing has the class of an entry. -/
def UnitSupervisor.coverLaw (us : UnitSupervisor) : Prop :=
  (∀ u sp, (us.units.get u).coveredBy = some sp ↔ (us.units.get sp).covering = some u) ∧
  (∀ u sp, (us.units.get u).coveredBy = some sp →
    (us.units.get u).role = .duty ∧ (us.units.get u).condition = .failed ∧
    (us.units.get sp).role = .spare ∧ (us.units.get sp).condition ≠ .failed) ∧
  (us.demands.map SpareDemand.unit).Nodup ∧
  (∀ d ∈ us.demands, (us.units.get d.unit).role = .duty ∧ (us.units.get d.unit).condition = .failed ∧
    (us.units.get d.unit).coveredBy = none ∧ d.cls = (us.units.get d.unit).cls) ∧
  ∀ d ∈ us.demands, ∀ sp, (us.units.get sp).freeSpare = true → (us.units.get sp).cls ≠ d.cls

/-- R133, R138: a FAILED duty unit of a section that takes part is covered or queued, and that of a
section that does not is neither, unless the supervisor has the section's inclusion or exclusion yet to
take. -/
def State.needLaw (s : State) : Prop :=
  ∀ u i, (s.supervisor.units.get u).role = .duty → (s.supervisor.units.get u).sec = some i →
    (s.supervisor.units.get u).condition = .failed →
    ((s.sec i).state.partakes = true → s.supervisor.attended u = true ∨ .unitsIncluded i ∈ s.work) ∧
    ((s.sec i).state.partakes = false → s.supervisor.attended u = false ∨ .unitsExcluded i ∈ s.work)

/-- R134: a HEALTHY spare of a class that covers nothing. -/
def UnitSupervisor.free (us : UnitSupervisor) (cls : Nat) (sp : UnitId) : Prop :=
  (us.units.get sp).role = .spare ∧ (us.units.get sp).condition = .healthy ∧
  (us.units.get sp).covering = none ∧ (us.units.get sp).cls = cls

/-- R134: the lowest-numbered such spare. -/
def UnitSupervisor.lowest (us : UnitSupervisor) (cls : Nat) (sp : UnitId) : Prop :=
  us.free cls sp ∧ ∀ k, k < sp → ¬ us.free cls k

/-- `t` is `us` but for spare `sp`, which covers duty unit `u` in it, and for its demand queue. -/
def UnitSupervisor.covers (us t : UnitSupervisor) (sp u : UnitId) (demands : List SpareDemand) : Prop :=
  t = { us with units := t.units, demands := demands } ∧
  ∀ v, t.units.get v =
    if v = sp then { us.units.get v with covering := some u }
    else if v = u then { us.units.get v with coveredBy := some sp }
    else us.units.get v

/-- The section a unit runs for: a DUTY unit its own, a covering spare its duty unit's (R129). -/
def UnitSupervisor.serves (us : UnitSupervisor) (u : UnitId) : Option SectionId :=
  match (us.units.get u).role, (us.units.get u).covering with
  | .duty, _ => (us.units.get u).sec
  | .spare, some d => (us.units.get d).sec
  | .spare, none => none
  | .none, _ => none

/-- R129: a unit's run output is asserted exactly when its condition, its covering and its section's
state call for it, unless the section's state entry is yet to be taken as run demand. -/
def State.runLaw (s : State) : Prop :=
  ∀ u, (s.supervisor.units.get u).runOutput = s.supervisor.runs s.sections u ∨
    ∃ i, s.supervisor.serves u = some i ∧ .runDemand i ∈ s.work

/-- A section is held from a state that takes part, never from ABSENT or EXCLUDED (R94). -/
def Section.heldInService (r : Section) : Prop := ∀ back, r.heldFrom = some back → back.partakes = true

def State.serviceLaw (s : State) : Prop := ∀ i, (s.sec i).heldInService

/-- R129, R133: the laws of the pool. -/
def State.poolLaw (s : State) : Prop :=
  s.serviceLaw ∧ s.dutyLaw ∧ s.supervisor.coverLaw ∧ s.needLaw ∧ s.runLaw

/-- R29: overlapped start is effective exactly while it is requested and the free spares last supplied
exceed the reserve. -/
def State.overlapLaw (s : State) : Prop :=
  s.campaign.overlapEffective = true ↔
    s.campaign.overlapRequested = true ∧ s.campaign.spareReserve < s.campaign.freeSpares

/-- R147: a group's active inputs are those of its set whose flag is yes, and a NORMAL group has no
first cause, forced clear and no active input. -/
def State.tripLaw (s : State) : Prop :=
  ∀ g, (s.group g).activeInputs = s.trips.activeOf (s.group g).inputs ∧
    ((s.group g).state = .normal →
      (s.group g).firstCause = none ∧ (s.group g).forced = false ∧ (s.group g).activeInputs = [])

/-- R154, R155: a group's members and input set stand in ascending id, no id twice. -/
def TripGroup.setsOrdered (g : TripGroup) : Prop :=
  g.members.Pairwise (· < ·) ∧ g.inputs.Pairwise (· < ·)

def State.groupSetsLaw (s : State) : Prop := ∀ g, (s.group g).setsOrdered

/-- TRIP(g) is on its way to section `i`, and no removal of it stands behind. -/
def tripOnWay (g : GroupId) (i : SectionId) (work : List Delivery) : Prop :=
  ∃ before after, work = before ++ .addReason i (.trip g) :: after ∧ .removeReason i (.trip g) ∉ after

/-- R149, the law of the tripped groups and the hold sets: a member of a TRIPPED group in a working state
or HELD carries its TRIP reason, unless the reason is on its way to it. -/
def State.memberLaw (s : State) : Prop :=
  ∀ g i, (s.group g).state = .tripped → i ∈ (s.group g).members → (s.sec i).takes (.trip g) = true →
    (.trip g ∈ (s.sec i).holds ∧ .removeReason i (.trip g) ∉ s.work) ∨ tripOnWay g i s.work

/-- R10: a slot is ABSENT exactly while it is not fitted, and no section is held from ABSENT. -/
def State.fittedLaw (s : State) : Prop :=
  ∀ i, ((s.sec i).state = .absent ↔ (s.sec i).fitted = false) ∧ (s.sec i).heldFrom ≠ some .absent

/-- R22: while the campaign is CLOSED, no section is in a working state or HELD. -/
def State.closedLaw (s : State) : Prop :=
  s.campaign.state = .closed → ∀ i, (s.sec i).state.working = false ∧ (s.sec i).state ≠ .held

/-- R17, R25: the topology lock is set exactly while the campaign is not CLOSED, and a resume target,
OPEN or WINDING_DOWN, is present exactly while it is RESTORING. -/
def State.campaignLaw (s : State) : Prop :=
  (s.campaign.lock = true ↔ s.campaign.state ≠ .closed) ∧
  (s.campaign.resume.isSome = true ↔ s.campaign.state = .restoring) ∧
  s.campaign.resume ≠ some .closed

/-- R13, R24, R47: the clock never passes its last value, and no entered-at and no phase-since lies
ahead of it. -/
def State.clockLaw (s : State) : Prop :=
  s.campaign.clock ≤ Config.maxTime ∧
  ∀ i, (s.sec i).enteredAt ≤ s.campaign.clock ∧ (s.sec i).phaseSince ≤ s.campaign.clock

/-- R63: a conditioning deadline is present exactly in CONDITIONING. -/
def State.deadlineLaw (s : State) : Prop :=
  ∀ i, (s.sec i).deadline.isSome = true ↔ (s.sec i).state = .conditioning

/-- R6, the law of the line graph: at most 3 links each way, no section twice in a list, no lag above
3600, each link named at both ends, and no way along the links from a section back to it. -/
def graphLaw (t : Table Section 24) : Prop :=
  (∀ i, (t.get i).upstream.length ≤ 3 ∧ (t.get i).downstream.length ≤ 3 ∧
    ((t.get i).upstream.map Link.id).Nodup ∧ (t.get i).downstream.Nodup ∧
    ∀ l ∈ (t.get i).upstream, l.lag ≤ 3600) ∧
  (∀ i j, j ∈ (t.get i).downstream ↔ ∃ l ∈ (t.get j).upstream, l.id = i) ∧
  ∀ i, ¬ Relation.TransGen (fun a b => b ∈ (t.get a).downstream) i i

def State.graphLaw (s : State) : Prop := Machine.graphLaw s.sections

/-- R174: parts that stand under a matching check value have passed the checks of COMMIT SITE RECORD. -/
def OptionStore.sound (st : OptionStore) : Prop :=
  st.siteCheck = some (partsCheck st.parts) → siteRefusal st.parts = none

/-- R172, R174: the stored record is sound, and while a site record is being written its eight staged
parts have passed the checks and the port waits for the write. -/
def State.storeLaw (s : State) : Prop :=
  s.store.sound ∧
  (s.site.siteWriting = true →
    (∃ w, s.link.awaited = some w ∧ w.owner = .optionStore) ∧
    ∃ parts : Table (List Byte) 8,
      (∀ k, s.site.staging.get k = some (parts.get k)) ∧ siteRefusal parts = none)

/-- The option store that a POWER_UP reads (log 16). -/
def State.storeAtPowerUp (s : State) : OptionStore := if s.powered then s.storeAfterLoss else s.store

/-- R160, R161: the request buffer holds at most 4 telegrams, and so does the answer queue with the
answer that is still to come. -/
def State.portLaw (s : State) : Prop :=
  s.link.requests.length ≤ 4 ∧
  s.link.answers.length + (if s.link.awaited.isSome then 1 else 0) ≤ 4

/-! ### A request being taken -/

/-- The request kind of a request row (95_what_each_step_holds.md). -/
def rowKind : Instr → Option RequestKind
  | .readIdent => some .readIdent
  | .readCampaign => some .readCampaign
  | .readSection => some .readSection
  | .readSteam => some .readSteam
  | .readUnit => some .readUnit
  | .readTrips => some .readTrips
  | .readCapture => some .readCapture
  | .readChannel => some .readChannel
  | .readSiteRecord => some .readSiteRecord
  | .openCampaign => some .openCampaign
  | .closeCampaign => some .closeCampaign
  | .resumeCampaign => some .resumeCampaign
  | .advance => some .advance
  | .hold => some .hold
  | .release => some .release
  | .adopt => some .adopt
  | .excludeSection => some .excludeSection
  | .includeSection => some .includeSection
  | .setLinks => some .setLinks
  | .setLimits => some .setLimits
  | .setTiming => some .setTiming
  | .setModeSection => some .setMode
  | .setModeCampaign => some .setMode
  | .setBudget => some .setBudget
  | .liftCeiling => some .liftCeiling
  | .returnUnit => some .returnUnit
  | .setUnits => some .setUnits
  | .setGroup => some .setGroup
  | .forceTrip => some .forceTrip
  | .clearTrip => some .clearTrip
  | .setCapture => some .setCapture
  | .setReporting => some .setReporting
  | .writeSitePart => some .writeSitePart
  | .commitSiteRecord => some .commitSiteRecord
  | _ => none

/-- Whether telegram `t` is a request of row `c`; a SET MODE is told apart by its scope (log 19). -/
def rowOf (c : Instr) (t : Telegram) : Bool :=
  match rowKind c with
  | none => c == .unknownKindRequest && requestKind t.kind == none
  | some k =>
    requestKind t.kind == some k &&
      (k != .setMode || (if t.campaignScope then c == .setModeCampaign else c == .setModeSection))

/-- The part begins to take request `t`, a request of row `c` whose body passes the port's checks and
reads as the fields `f` (R161). -/
abbrev State.taking (s : State) (c : Instr) (t : Telegram) (f : Fields) : Prop :=
  s.powered = true ∧ s.link.ready = some t ∧ rowOf c t = true ∧
  (rowKind c).bind (fun k => k.readBody t.body) = some f ∧ f.codesInRange = true

/-- Request `t` is refused with this cause, and no record changes (R162). -/
abbrev State.refusedAs (s : State) (c : Instr) (t : Telegram) (cause : Cause) : Prop :=
  exec c s = .next (s.conclude t (.refused cause []))

/-- Request `t` is accepted: its effect gives `u`, and the answer carries `record` (R162). -/
abbrev State.acceptedAs (s : State) (c : Instr) (t : Telegram) (u : State)
    (record : List Byte := []) : Prop :=
  exec c s = .next (u.conclude t (.accepted record))

/-- Request `t` is accepted: its effect gives `u`, and its answer waits for the option store (R161). -/
abbrev State.waitsAs (s : State) (c : Instr) (t : Telegram) (u : State) (owner : AwaitedOwner) : Prop :=
  exec c s = .next (u.conclude t (.waits owner))

/-! ### Frames -/

/-- The fields of a section record that no delivery changes: identity, links, mode and settings. -/
def Section.sameSettings (a b : Section) : Prop :=
  b.fitted = a.fitted ∧ b.cls = a.cls ∧ b.label = a.label ∧ b.nativeCeiling = a.nativeCeiling ∧
  b.upstream = a.upstream ∧ b.downstream = a.downstream ∧ b.mode = a.mode ∧ b.limits = a.limits ∧
  b.workingCeiling = a.workingCeiling ∧ b.conditioningTime = a.conditioningTime ∧
  b.demand = a.demand ∧ b.minUnits = a.minUnits ∧ b.dutyUnits = a.dutyUnits ∧ b.phase = a.phase ∧
  b.phaseSince = a.phaseSince

/-- What a cascade of deliveries leaves alone: the scanner, the trip unit, the option store, the link
port but for its pending set, the polarities, the campaign clock and requests, the host budget, the
units' faults, conditions and watch list, the reserve and window, and the sections' settings. -/
structure CascadeFrame (s t : State) : Prop where
  powered : t.powered = s.powered
  scanner : t.scanner = s.scanner
  trips : t.trips = s.trips
  store : t.store = s.store
  pending : t.pending = s.pending
  link : t.link = { s.link with reports := t.link.reports }
  polarity : t.lines.routePolarity = s.lines.routePolarity ∧ t.lines.runPolarity = s.lines.runPolarity ∧
    t.lines.enabled = s.lines.enabled
  clock : t.campaign.clock = s.campaign.clock
  requested : t.campaign.overlapRequested = s.campaign.overlapRequested
  supervision : t.campaign.supervisionLost = s.campaign.supervisionLost
  resume : t.campaign.resume = s.campaign.resume
  budget : t.steam.hostBudget = s.steam.hostBudget
  watch : t.supervisor.watch = s.supervisor.watch
  pool : t.supervisor.reserve = s.supervisor.reserve ∧ t.supervisor.window = s.supervisor.window
  units : ∀ u, (t.supervisor.units.get u).condition = (s.supervisor.units.get u).condition ∧
    (t.supervisor.units.get u).faultActive = (s.supervisor.units.get u).faultActive ∧
    (t.supervisor.units.get u).window = (s.supervisor.units.get u).window ∧
    (t.supervisor.units.get u).role = (s.supervisor.units.get u).role ∧
    (t.supervisor.units.get u).cls = (s.supervisor.units.get u).cls ∧
    (t.supervisor.units.get u).sec = (s.supervisor.units.get u).sec
  site : t.site.status = s.site.status ∧ t.site.staging = s.site.staging ∧
    t.site.siteWriting = s.site.siteWriting ∧ t.site.committed = s.site.committed ∧
    t.site.markRead = s.site.markRead
  settings : ∀ i, (s.sec i).sameSettings (t.sec i)

end Sys2Proof.Machine
end

