-- ==== Sys2Proof/WellFormed.lean ====
section
/-! DEFINITION. Which commands are events the part can meet: operands that name a terminal it has, a
conversion result its converter can return, a telegram that is a valid one. -/

namespace Sys2Proof

/-- Ids are in the ranges of 00 section 6.0, a conversion result in 0..4095 (03 section 3.2.1); a
received telegram has a body of at most 240 bytes and its last check byte agrees (R159). -/
def Instr.wellFormed : Instr → Bool
  | .powerUp _ _ => true
  | .telegramReceived kind tag body check =>
    decide (body.length ≤ 240) && decide (check = Machine.Telegram.check ⟨kind, tag, body⟩)
  | .interByteTimeout _ => true
  | .lineBreak => true
  | .silenceExpiry => true
  | .transmitNextTelegram => true
  | .unknownKindRequest => true
  | .readIdent => true
  | .readCampaign => true
  | .readSection => true
  | .readSteam => true
  | .readUnit => true
  | .readTrips => true
  | .readCapture => true
  | .readChannel => true
  | .readSiteRecord => true
  | .openCampaign => true
  | .closeCampaign => true
  | .resumeCampaign => true
  | .advance => true
  | .hold => true
  | .release => true
  | .adopt => true
  | .excludeSection => true
  | .includeSection => true
  | .setLinks => true
  | .setLimits => true
  | .setTiming => true
  | .setModeSection => true
  | .setModeCampaign => true
  | .setBudget => true
  | .liftCeiling => true
  | .returnUnit => true
  | .setUnits => true
  | .setGroup => true
  | .forceTrip => true
  | .clearTrip => true
  | .setCapture => true
  | .setReporting => true
  | .writeSitePart => true
  | .commitSiteRecord => true
  | .siteRecordWriteDone => true
  | .markWriteComplete => true
  | .clockAdvance => true
  | .conditioningExpiry sec => decide (sec < 24)
  | .lagCompletion sec up => decide (sec < 24) && decide (up < 24)
  | .channelSample channel raw => decide (channel < 48) && decide (raw ≤ 4095)
  | .scanRoundComplete => true
  | .faultInputActive unit => decide (unit < 48)
  | .faultInputInactive unit => decide (unit < 48)
  | .unitSupervisorTick => true
  | .recoveryWindowExpiry unit => decide (unit < 48)
  | .tripInputActive input => decide (input < 8)
  | .tripInputInactive input => decide (input < 8)
  | .telegramDiscardedInAssembly _ => true
  | .lineReturnToIdle => true
  | .powerLoss => true

end Sys2Proof
end

