-- ==== Sys2Proof/Certificates/Slice0/Obligations.lean ====
section
/-! DEFINITION. The statements for the provers: what each command does, by the rules of spec/, and the
laws every step keeps. -/

open Sys2Proof Sys2Proof.Machine

/-! ### Steps -/

/-- One step runs the command at the front of the queue on the state with the queue's rest. -/
def Obligations.StepRunsFrontCommand : Prop :=
  ∀ (c : Instr) (s : State), step { s with pending := c :: s.pending } = exec c s

/-- Every well-formed command answers a next state; of the events that are not well-formed, one that
names a terminal the part does not have, or a result its converter cannot return, is a fault (log 27). On
an empty queue the part idles (log 18), and a part without power acts on POWER_UP alone (log 17). All three
are the model's choices. A telegram that is not well-formed is no fault: the receiver discards it (R159). -/
def Obligations.WellFormedCommandsComplete : Prop :=
  (∀ s : State, s.pending = [] → step s = .next s) ∧
  (∀ (c : Instr) (s : State), s.powered = false → c.wellFormed = true →
    (∀ f l, c ≠ .powerUp f l) → exec c s = .next s) ∧
  (∀ (c : Instr) (s : State), c.wellFormed = true → ∃ t, exec c s = .next t) ∧
  (∀ (s : State) (k : Nat), 24 ≤ k → exec (.conditioningExpiry k) s = .fault .noSuchTerminal) ∧
  (∀ (s : State) (k l : Nat), 24 ≤ k ∨ 24 ≤ l →
    exec (.lagCompletion k l) s = .fault .noSuchTerminal) ∧
  (∀ (s : State) (k raw : Nat), 48 ≤ k → exec (.channelSample k raw) s = .fault .noSuchTerminal) ∧
  (∀ (s : State) (k raw : Nat), k < 48 → 4095 < raw →
    exec (.channelSample k raw) s = .fault .noSuchConversion) ∧
  (∀ (s : State) (k : Nat), 48 ≤ k →
    exec (.faultInputActive k) s = .fault .noSuchTerminal ∧
    exec (.faultInputInactive k) s = .fault .noSuchTerminal ∧
    exec (.recoveryWindowExpiry k) s = .fault .noSuchTerminal) ∧
  ∀ (s : State) (k : Nat), 8 ≤ k →
    exec (.tripInputActive k) s = .fault .noSuchTerminal ∧
    exec (.tripInputInactive k) s = .fault .noSuchTerminal

/-! ### Power (chapter 11) -/

/-- R175: the mark reads as it stands where its check agrees, and as OPEN where the check fails or the mark has
never been written. R5, R14, R17, R42, R77, R128, R147, R165, R168, R176: what POWER_UP gives the blocks, whatever
they held; every run output is driven to its rest level. A POWER_UP of a part that has power is a loss of power and
its return (the model's reading, log 16). R128, R134: each FAILED duty unit in ascending unit id asks for coverage,
as `FaultInputMovesCondition` gives it; a record that has passed the checks of R174 gives a duty unit no section but
a fitted one. R139: no section is short. R178: the mark as read, and whether the check of a mark that has been
written failed; for a mark never written that flag is a free value (log 15). The operands of POWER_UP are the inputs
as sampled (log 25), and of the mark's check value only whether it agrees is held (log 42): the model's reading and
choice. -/
def Obligations.PowerUpGivesBlocksTheirValues : Prop :=
  (∀ store : OptionStore,
    (∀ m, store.mark = some m → store.markCheckAgrees = true → store.markRead = m) ∧
    (store.markCheckAgrees = false → store.markRead = .opened) ∧
    (store.mark = none → store.markRead = .opened)) ∧
  (∀ s : State, s.powered = true → ∃ lost, exec .powerLoss s = .next lost ∧ lost.powered = false ∧
    ∀ faults levels, exec (.powerUp faults levels) s = exec (.powerUp faults levels) lost) ∧
  ∀ (s : State) (faults : BitVec 48) (levels : BitVec 8), s.powered = false →
    ∃ t, exec (.powerUp faults levels) s = .next t ∧ t.powered = true ∧ t.pending = s.pending ∧
      t.store = s.store ∧
      t.campaign.state = (if s.store.markRead = .closed then .closed else .restoring) ∧
      t.campaign.resume = (if s.store.markRead = .closed then none else some s.store.markRead) ∧
      t.campaign.clock = 0 ∧ (t.campaign.lock = true ↔ s.store.markRead ≠ .closed) ∧
      t.campaign.overlapRequested = false ∧ t.campaign.overlapEffective = false ∧
      t.campaign.supervisionLost = false ∧ t.campaign.pendingMark = none ∧
      t.campaign.freeSpares = t.supervisor.freeCount ∧ t.campaign.spareReserve = 2 ∧
      t.steam.hostBudget = 0 ∧ t.steam.effective = 0 ∧ t.steam.claims = [] ∧ t.steam.queue = [] ∧
      t.steam.claimedSum = 0 ∧ (∀ g, t.steam.caps.get g = none) ∧
      t.supervisor.watch = [] ∧ t.supervisor.reserve = 2 ∧ t.supervisor.window = 10 ∧
      (∀ u, (t.supervisor.units.get u).faultActive = faults.getLsbD u.val ∧
        (t.supervisor.units.get u).window = none ∧ (t.supervisor.units.get u).runOutput = false ∧
        ((t.supervisor.units.get u).condition = .failed ↔
          faults.getLsbD u.val = true ∧ (t.supervisor.units.get u).role ≠ .none) ∧
        (t.supervisor.units.get u).condition ≠ .faultPending) ∧
      (∀ i, (t.trips.inputs.get i).level = levels.getLsbD i.val ∧
        (t.trips.inputs.get i).active = (t.trips.inputs.get i).polarity.level (levels.getLsbD i.val)) ∧
      (∃ (failed : List UnitId) (bare : UnitSupervisor),
        failed.Pairwise (· < ·) ∧
        (∀ u, u ∈ failed ↔ (t.supervisor.units.get u).role = .duty ∧ faults.getLsbD u.val = true) ∧
        bare = { t.supervisor with units := bare.units, demands := [] } ∧
        (∀ u, bare.units.get u = { t.supervisor.units.get u with covering := none, coveredBy := none }) ∧
        t.supervisor = failed.foldl UnitSupervisor.requestCoverage bare) ∧
      (∀ g, (t.group g).state = .normal ∧ (t.group g).members = [] ∧ (t.group g).inputs = [] ∧
        (t.group g).mode = .latched ∧ (t.group g).cap = none ∧ (t.group g).firstCause = none ∧
        (t.group g).activeInputs = [] ∧ (t.group g).forced = false) ∧
      (∀ i, t.supervisor.short.get i = false) ∧ t.link.onLine = none ∧
      t.site.markRead = s.store.markRead ∧
      (∀ m, s.store.mark = some m → t.site.markCheckFailed = !s.store.markCheckAgrees) ∧
      t.link.receiver = .hunting ∧ t.link.requests = [] ∧ t.link.answers = [] ∧
      t.link.awaited = none ∧ t.link.sequence = 0 ∧ t.link.reports = [.campaign] ∧
      t.link.mask = { sec := true, level := true, steam := true, unit := true, trip := true, campaign := true } ∧
      t.link.silenceLimit = 30 ∧ t.link.silenceExpired = false ∧
      t.scanner.prescale = 0 ∧ t.scanner.round = 0 ∧ t.scanner.turn = 0 ∧
      t.lines.enabled = true ∧
      (∀ u, t.lines.runLatch.get u = (t.lines.runPolarity.get u).level false) ∧
      t.site.committed = false ∧ (∀ k, t.site.staging.get k = none) ∧ t.site.markWriting = none ∧
      t.site.markPending = none ∧ t.site.siteWriting = false

/-- R1, R5, R6, R14, R127, R146, R172: what POWER_UP loads from a stored record whose check agrees, field by
field of its parts (whose places `CommitWritesSiteRecord` gives), and the default record that any other store
puts in force; that a record whose lengths do not fit is one of these is the model's reading (log 24), and the
class 0 of a unit of the default record is its choice (log 2). A part that has power loses it first
(`PowerUpGivesBlocksTheirValues`, log 16). R1, R5, R10, R14, R33, R36, R42, R44, R53, R65, R110, R128,
R176: what POWER_UP gives each section, its two channels and its route outputs. -/
def Obligations.PowerUpGivesSectionsTheirValues : Prop :=
  (∀ (s : State) (faults : BitVec 48) (levels : BitVec 8) (w : RawSite), s.powered = false →
    s.store.siteCheck = some (crc16 s.store.parts.items.flatten) → readSite s.store.parts = some w →
    ∃ t, exec (.powerUp faults levels) s = .next t ∧ t.site.status = .valid ∧
      (w.rate = 0 → t.site.lineRate = .r19200) ∧ (w.rate = 1 → t.site.lineRate = .r57600) ∧
      (w.rate = 2 → t.site.lineRate = .r115200) ∧
      t.site.name = w.siteName.map byte ∧ t.site.issue = w.issue ∧
      (∀ i, (t.trips.inputs.get i).polarity = if w.trip.getD i.val 0 = 0 then .activeHigh else .activeLow) ∧
      (∀ u, t.lines.runPolarity.get u = if w.runs.getD u.val 0 = 0 then .activeHigh else .activeLow) ∧
      (∀ i, t.lines.routePolarity.get i =
        { intakeThrough := if w.routes.getD (4 * i.val) 0 = 0 then .activeHigh else .activeLow
          intakeDivert := if w.routes.getD (4 * i.val + 1) 0 = 0 then .activeHigh else .activeLow
          dischargeThrough := if w.routes.getD (4 * i.val + 2) 0 = 0 then .activeHigh else .activeLow
          dischargeDivert := if w.routes.getD (4 * i.val + 3) 0 = 0 then .activeHigh else .activeLow }) ∧
      (∀ u, (t.supervisor.units.get u).cls = (w.units.getD u.val (0, (0, 0))).2.1 ∧
        (t.supervisor.units.get u).role = (if (w.units.getD u.val (0, (0, 0))).1 = 1 then .duty
          else if (w.units.getD u.val (0, (0, 0))).1 = 2 then .spare else .none) ∧
        ∀ i, (t.supervisor.units.get u).sec = some i ↔
          (w.units.getD u.val (0, (0, 0))).1 = 1 ∧ (w.units.getD u.val (0, (0, 0))).2.2 = i.val) ∧
      ∀ i : SectionId,
        ((t.sec i).fitted = true ↔ (w.slots.getD i.val (0, 0)).1 = 1) ∧
        ((t.sec i).fitted = true →
          (t.sec i).cls = (if (w.slots.getD i.val (0, 0)).2 = 0 then .process else .storage) ∧
          (t.sec i).label = (w.names.getD i.val ([], (0, none))).1.map byte ∧
          (t.sec i).nativeCeiling = (if (w.slots.getD i.val (0, 0)).2 = 0 then none
            else some ((w.names.getD i.val ([], (0, none))).2.2.getD 980)) ∧
          (∀ l, l ∈ (t.sec i).upstream ↔ (l.id.val, l.lag) ∈ (w.links.getD i.val ([], [])).1) ∧
          (∀ d, d ∈ (t.sec i).downstream ↔ d.val ∈ (w.links.getD i.val ([], [])).2) ∧
          (t.sec i).dutyUnits.Pairwise (· < ·) ∧
          ∀ u, u ∈ (t.sec i).dutyUnits ↔
            (t.supervisor.units.get u).role = .duty ∧ (t.supervisor.units.get u).sec = some i) ∧
        ((t.sec i).fitted = false →
          (t.sec i).upstream = [] ∧ (t.sec i).downstream = [] ∧ (t.sec i).dutyUnits = []) ∧
        (siteRefusal s.store.parts = none → (t.sec i).fitted = true →
          (t.sec i).upstream.map (fun l => (l.id.val, l.lag)) = (w.links.getD i.val ([], [])).1 ∧
          (t.sec i).downstream.map (fun d => d.val) = (w.links.getD i.val ([], [])).2)) ∧
  (∀ (s : State) (faults : BitVec 48) (levels : BitVec 8), s.powered = false →
    s.store.siteCheck ≠ some (crc16 s.store.parts.items.flatten) ∨ readSite s.store.parts = none →
    ∃ t, exec (.powerUp faults levels) s = .next t ∧ t.site.status = .defaulted ∧
      t.site.lineRate = .r57600 ∧ t.site.name = [] ∧ t.site.issue = 0 ∧
      (∀ i, (t.trips.inputs.get i).polarity = .activeHigh) ∧
      (∀ u, t.lines.runPolarity.get u = .activeHigh ∧ (t.supervisor.units.get u).role = .none ∧
        (t.supervisor.units.get u).cls = 0 ∧ (t.supervisor.units.get u).sec = none) ∧
      ∀ i, t.lines.routePolarity.get i = { intakeThrough := .activeHigh, intakeDivert := .activeHigh
                                           dischargeThrough := .activeHigh, dischargeDivert := .activeHigh } ∧
        (t.sec i).fitted = false ∧ (t.sec i).upstream = [] ∧ (t.sec i).downstream = [] ∧
        (t.sec i).dutyUnits = []) ∧
  ∀ (s : State) (faults : BitVec 48) (levels : BitVec 8), s.powered = false →
    ∃ t, exec (.powerUp faults levels) s = .next t ∧ ∀ i : SectionId,
      ((t.sec i).fitted = false → (t.sec i).state = .absent ∧ (t.sec i).holds = [] ∧
        (t.sec i).cls = .process ∧ (t.sec i).label = [] ∧ (t.sec i).nativeCeiling = none) ∧
      ((t.sec i).fitted = true → s.store.markRead = .closed →
        (t.sec i).state = .cold ∧ (t.sec i).holds = []) ∧
      ((t.sec i).fitted = true → s.store.markRead ≠ .closed →
        (t.sec i).state = .held ∧ (t.sec i).holds = [.restart]) ∧
      (t.sec i).heldFrom = none ∧ (t.sec i).enteredAt = 0 ∧ (t.sec i).phase = .empty ∧
      (t.sec i).phaseSince = 0 ∧ (t.sec i).mode = .manual ∧ (t.sec i).intake = .closed ∧
      (t.sec i).discharge = .closed ∧ (t.sec i).conditioningTime = 600 ∧ (t.sec i).demand = 0 ∧
      (t.sec i).minUnits = 0 ∧ (t.sec i).ceilingLifted = false ∧
      (t.sec i).limits = { empty := 30, fillDone := 600, high := 900, hysteresis := 20, sweetOn := 20, sweetOff := 5 } ∧
      (t.sec i).ring = { mode := .absolute, fill := .continuous, armed := true, count := 0, next := 0, last := none
                         slots := Table.replicate 4 none } ∧
      ((t.level i).converted = true ↔ (t.sec i).fitted = true) ∧
      ((t.solids i).converted = true ↔ (t.sec i).fitted = true ∧ (t.sec i).cls = .process) ∧
      ((t.sec i).cls = .process → (t.sec i).nativeCeiling = none ∧ (t.sec i).workingCeiling = none) ∧
      ((t.sec i).cls = .storage → ∃ n, (t.sec i).nativeCeiling = some n ∧
        (t.sec i).workingCeiling = some (min 850 n)) ∧
      (∀ c ∈ [t.level i, t.solids i], c.raw = 0 ∧ c.value = 0 ∧ c.validity = .valid ∧ c.run = 3) ∧
      (t.level i).bands =
        (if (t.sec i).fitted = false then
          { empty := some true, fillDone := none, high := none, ceiling := none, sweet := none }
        else if (t.sec i).cls = .process then
          { empty := some true, fillDone := some false, high := some false, ceiling := none, sweet := none }
        else { empty := some true, fillDone := none, high := none, ceiling := some false, sweet := none }) ∧
      (t.solids i).bands =
        (if (t.sec i).fitted = true ∧ (t.sec i).cls = .process then
          { empty := none, fillDone := none, high := none, ceiling := none, sweet := some false }
        else { empty := none, fillDone := none, high := none, ceiling := none, sweet := none }) ∧
      t.lines.routeLatch.get i = (t.lines.routePolarity.get i).drive .closed .closed

/-- R172, R174, R175: what POWER_LOSS leaves in the option store: a write in progress is torn, so that
a torn site record comes up DEFAULTED at the next power-up and a torn mark reads OPEN. That the outputs are
not driven without power is the model's choice (log 23). -/
def Obligations.PowerLossTearsWritesInProgress : Prop :=
  ∀ s : State, s.powered = true →
    ∃ t, exec .powerLoss s = .next t ∧ t.powered = false ∧ t.lines.enabled = false ∧
      t.pending = s.pending ∧
      (s.site.siteWriting = false →
        t.store.parts = s.store.parts ∧ t.store.siteCheck = s.store.siteCheck) ∧
      (s.site.markWriting = none →
        t.store.mark = s.store.mark ∧ t.store.markCheckAgrees = s.store.markCheckAgrees) ∧
      (s.site.markWriting ≠ none → t.store.markRead = .opened) ∧
      (s.site.siteWriting = true → ∀ faults levels, ∃ u, exec (.powerUp faults levels) t = .next u ∧
        u.site.status = .defaulted ∧ ∀ i, (u.sec i).state = .absent)

/-! ### The line (chapter 10) -/

/-- R26, R159, R160, R166: a valid telegram restarts the silence timer, clears supervision lost and
joins the request buffer while it holds fewer than 4; the clearing enters a CAMPAIGN report and makes every
section that takes part re-examine. That a telegram reported while the line is held at
spacing changes nothing is the model's reading (log 33). -/
def Obligations.ValidTelegramIsBuffered : Prop :=
  (∀ (s : State) (t : Telegram), s.link.receiver = .spacing →
    exec (.telegramReceived t.kind t.tag t.body t.check) s = .next s) ∧
  ∀ (s : State) (t : Telegram), s.powered = true → s.link.receiver ≠ .spacing → t.body.length ≤ 240 →
    ∃ u, exec (.telegramReceived t.kind t.tag t.body t.check) s = .next u ∧
      u.link.receiver = .hunting ∧ u.link.silenceExpired = false ∧
      u.campaign.supervisionLost = false ∧
      u.link.requests =
        (if s.link.requests.length < 4 then s.link.requests ++ [t] else s.link.requests) ∧
      u.link.answers = s.link.answers ∧ u.link.awaited = s.link.awaited ∧
      (s.campaign.supervisionLost = true → s.link.mask.campaign = true → .campaign ∈ u.link.reports) ∧
      (s.campaign.supervisionLost = true → ∃ (heard : State) (looks : List Delivery),
        heard = { s with
          campaign := { s.campaign with supervisionLost := false }
          work := s.work ++ looks
          link := { s.link with
            receiver := .hunting, silenceExpired := false, reports := heard.link.reports
            requests := if s.link.requests.length < 4 then s.link.requests ++ [t] else s.link.requests } } ∧
        (∀ w, w ∈ looks ↔ ∃ i, w = .reexamine i .other ∧
          (s.sec i).state ≠ .absent ∧ (s.sec i).state ≠ .excluded) ∧
        (∀ k, k ∈ heard.link.reports ↔
          k ∈ s.link.reports ∨ (k = .campaign ∧ s.link.mask.campaign = true)) ∧
        u = heard.settle) ∧
      (s.campaign.supervisionLost = false → s.work = [] →
        u = { s with link := { s.link with
          receiver := .hunting, silenceExpired := false
          requests := if s.link.requests.length < 4 then s.link.requests ++ [t] else s.link.requests } })

/-- R158: the check of a telegram, polynomial 1021 hex and initial value FFFF hex over body length, kind, tag and
body, and the bytes of a telegram on the line. R159: what is not a valid telegram is discarded with no answer and
no other effect, and a late A5 hex begins a new telegram. R167: a line break restarts the port once, and the
receiver hunts when the line is idle again. That a telegram, a late byte or a telegram discarded in assembly which
is reported while the line is held at spacing changes nothing is the model's reading (log 33). -/
def Obligations.ReceiverDiscardsAndRestarts : Prop :=
  ((∀ t : Telegram, t.check = crc16 (byte t.body.length :: t.kind :: t.tag :: t.body) ∧
      t.frame = 0xA5#8 :: byte t.body.length :: t.kind :: t.tag :: t.body ++
        [t.check.extractLsb' 8 8, t.check.extractLsb' 0 8]) ∧
    crc16 [] = 0xFFFF#16 ∧
    (∀ (bs : List Byte) (b : Byte),
      crc16 (bs ++ [b]) = crcBit^[8] (crc16 bs ^^^ (b.setWidth 16 <<< 8))) ∧
    (∀ c : BitVec 16, crcBit c = if c.getLsbD 15 then (c <<< 1) ^^^ 0x1021#16 else c <<< 1) ∧
    crc16 [0x31, 0x32, 0x33, 0x34, 0x35, 0x36, 0x37, 0x38, 0x39] = 0x29B1#16) ∧
  (∀ s : State, s.link.receiver = .spacing →
    (∀ (kind tag : Byte) (body : List Byte) (check : BitVec 16),
      exec (.telegramReceived kind tag body check) s = .next s) ∧
    (∀ late : Byte, exec (.interByteTimeout late) s = .next s) ∧
    ∀ why : DiscardReason, exec (.telegramDiscardedInAssembly why) s = .next s) ∧
  (∀ (s : State), s.powered = true → s.link.receiver ≠ .spacing →
    (∀ (kind tag : Byte) (body : List Byte) (check : BitVec 16),
      240 < body.length ∨ check ≠ Telegram.check ⟨kind, tag, body⟩ →
      exec (.telegramReceived kind tag body check) s =
        .next { s with link := { s.link with receiver := .hunting } }) ∧
    (∀ late : Byte, late ≠ 0xA5#8 → exec (.interByteTimeout late) s =
      .next { s with link := { s.link with receiver := .hunting } }) ∧
    exec (.interByteTimeout 0xA5#8) s =
      .next { s with link := { s.link with receiver := .assembling } } ∧
    ∀ why : DiscardReason, exec (.telegramDiscardedInAssembly why) s =
      .next { s with link := { s.link with receiver := .hunting } }) ∧
  (∀ s : State, s.powered = true → s.link.receiver ≠ .spacing →
    exec .lineBreak s = .next { s with link :=
      { receiver := .spacing, requests := [], answers := []
        awaited := s.link.awaited.map fun w => { w with dropped := true }
        onLine := none, reports := if s.link.mask.campaign then [.campaign] else [], sequence := 0
        mask := s.link.mask, silenceLimit := s.link.silenceLimit, silenceExpired := false } }) ∧
  (∀ s : State, s.powered = true → s.link.receiver = .spacing →
    exec .lineBreak s = .next s ∧
    exec .lineReturnToIdle s = .next { s with link := { s.link with receiver := .hunting } }) ∧
  ∀ s : State, s.powered = true → s.link.receiver ≠ .spacing → exec .lineReturnToIdle s = .next s

/-- R26, R166: the silence timer's expiry sets supervision lost, once in a quiet spell and only while
the silence limit is above 0; supervision lost already set stays as it is. -/
def Obligations.SilenceExpirySetsSupervisionLost : Prop :=
  ∀ s : State, s.powered = true →
    (0 < s.link.silenceLimit → s.link.silenceExpired = false → s.campaign.supervisionLost = false →
      exec .silenceExpiry s = .next
        { s with
          campaign := { s.campaign with supervisionLost := true }
          link := { s.link with silenceExpired := true }.report .campaign }) ∧
    (0 < s.link.silenceLimit → s.link.silenceExpired = false → s.campaign.supervisionLost = true →
      exec .silenceExpiry s = .next { s with link := { s.link with silenceExpired := true } }) ∧
    (s.link.silenceLimit = 0 ∨ s.link.silenceExpired = true → exec .silenceExpiry s = .next s)

/-- R164, R170: the transmitter sends the oldest answer, or else the report of the oldest pending entry with the
sequence number as its tag and the record as it stands. R51, R156: the body of each report, field by field; the
order of the fields, that a TRIP report's inputs have no count, and that a LEVEL report marks as absent the band
positions a channel does not have are the model's choice (logs 13, 39 and 44), and so is the ascending order of a
TRIP report's inputs (log 46); the telegram of one command stands on the line until the next (log 29). -/
def Obligations.TransmitterSendsAnswersFirst : Prop :=
  (∀ s : State,
    (ReportKey.campaign.kind = 0xE0#8 ∧ ReportKey.steam.kind = 0xE3#8 ∧ ∀ i u g,
      (ReportKey.sec i).kind = 0xE1#8 ∧ (ReportKey.level i).kind = 0xE2#8 ∧
      (ReportKey.unit u).kind = 0xE4#8 ∧ (ReportKey.trip g).kind = 0xE5#8) ∧
    s.reportBody .campaign = s.campaign.bytes ∧ s.reportBody .steam = s.steam.bytes ∧
    (∀ i, s.reportBody (.sec i) = byte i.val :: (s.sec i).bytes i) ∧
    (∀ i, s.reportBody (.level i) = byte i.val :: (s.sec i).phase.code ::
      (word (s.level i).value ++ [(s.level i).validity.code] ++ (s.level i).bands.bytes ++
        word (s.solids i).value ++ [(s.solids i).validity.code] ++ (s.solids i).bands.bytes)) ∧
    (∀ u, s.reportBody (.unit u) = byte u.val :: (s.supervisor.units.get u).bytes ++
      [flag (decide (u ∈ s.supervisor.watch)),
        flag (decide (∃ d ∈ s.supervisor.demands, d.unit = u))]) ∧
    ∀ g, s.reportBody (.trip g) = byte g.val :: (s.group g).bytes ++
      (s.group g).inputs.flatMap fun k => (s.trips.inputs.get k).bytes) ∧
  ∀ s : State, s.powered = true →
    (∀ a rest, s.link.answers = a :: rest → exec .transmitNextTelegram s =
      .next { s with link := { s.link with answers := rest, onLine := some a } }) ∧
    (∀ k rest, s.link.answers = [] → s.link.reports = k :: rest → exec .transmitNextTelegram s =
      .next { s with link := { s.link with
        reports := rest
        onLine := some { kind := k.kind, tag := s.link.sequence, body := s.reportBody k }
        sequence := s.link.sequence + 1 } }) ∧
    (s.link.answers = [] → s.link.reports = [] → exec .transmitNextTelegram s =
      .next { s with link := { s.link with onLine := none } })

/-- R163: an entry handed to the pending set is not made while its kind is disabled or an equal key is
pending, and otherwise joins at the newest end; the set so never holds two entries for one key, nor more
than 102. -/
def Obligations.ReportEntersPendingSetOnce : Prop :=
  (∀ (s : State) (k : ReportKey),
    (s.link.mask.allows k = false → s.report k = s) ∧
    (k ∈ s.link.reports → s.report k = s) ∧
    (s.link.mask.allows k = true → k ∉ s.link.reports →
      s.report k = { s with link := { s.link with reports := s.link.reports ++ [k] } }) ∧
    (s.reportsOnce → (s.report k).reportsOnce)) ∧
  ∀ s : State, s.reportsOnce → s.link.reports.length ≤ 102

/-- R162, R169, R170: the codes of the causes and of the permit conditions, and the kinds of the requests. R161,
R162: the port takes the request at the head of the buffer when no answer is awaited and fewer than 4 are queued; it
makes its own checks in their order, and sends back an owner's answer with kind plus 80 hex, the tag, the outcome
and the cause. R161, R169, R170: the bytes of the body of each kind of request, every other body being MALFORMED,
and the fields it is read into; the codes of those fields that are in range, every other being RANGE. A row whose
request is not the one to be taken changes nothing (log 1), a SET MODE request is of the row of its scope byte (log
19), and a presence code of 2 or more calls for no value byte (log 43): each the model's choice. -/
def Obligations.PortChecksAndAnswersRequests : Prop :=
  ([Cause.none, .unknownKind, .malformed, .range, .noSection, .noUnit, .locked, .state, .mode, .permit,
      .active, .campaign, .notHeld, .cycle, .incomplete].map Cause.code = (List.range 15).map byte ∧
    [PermitCondition.campaign, .supervision, .trip, .level, .sensor, .steam, .timer, .upstream, .downstream,
      .lag, .phase].map PermitCondition.code = (List.range 11).map byte ∧
    ((List.range 9).map fun k => requestKind (byte (0x01 + k))) =
      [some .readIdent, some .readCampaign, some .readSection, some .readSteam, some .readUnit,
        some .readTrips, some .readCapture, some .readChannel, some .readSiteRecord] ∧
    ((List.range 24).map fun k => requestKind (byte (0x10 + k))) =
      [some .openCampaign, some .closeCampaign, some .resumeCampaign, some .advance, some .hold,
        some .release, some .adopt, some .excludeSection, some .includeSection, some .setLinks,
        some .setLimits, some .setTiming, some .setMode, some .setBudget, some .liftCeiling,
        some .returnUnit, some .setUnits, some .setGroup, some .forceTrip, some .clearTrip,
        some .setCapture, some .setReporting, some .writeSitePart, some .commitSiteRecord] ∧
    (∀ k : Byte, requestKind k = none ↔ ¬ ((0x01 ≤ k.toNat ∧ k.toNat ≤ 0x09) ∨
      (0x10 ≤ k.toNat ∧ k.toNat ≤ 0x27))) ∧
    ∀ (α : Type) (one : Reader α) (p : Byte) (bs : List Byte),
      (p = 1#8 → readOptional one (p :: bs) = (one bs).map fun a => ((1, some a.1), a.2)) ∧
      (p ≠ 1#8 → readOptional one (p :: bs) = some ((p.toNat, none), bs))) ∧
  (∀ (bs : List Byte) (f : Fields),
    (∀ k ∈ [RequestKind.readIdent, .readCampaign, .readSteam, .readTrips, .openCampaign, .closeCampaign,
        .resumeCampaign, .commitSiteRecord],
      k.readBody bs = some f ↔ bs = [] ∧ f = .nothing) ∧
    (∀ k ∈ [RequestKind.readSection, .readUnit, .readCapture, .readChannel, .advance, .hold, .release,
        .excludeSection, .includeSection, .setBudget, .liftCeiling, .returnUnit, .forceTrip, .clearTrip],
      k.readBody bs = some f ↔ ∃ id : Byte, bs = [id] ∧ f = .oneId id.toNat) ∧
    (RequestKind.readSiteRecord.readBody bs = some f ↔ ∃ part half : Byte,
      bs = [part, half] ∧ f = .siteHalf part.toNat half.toNat) ∧
    (RequestKind.adopt.readBody bs = some f ↔ ∃ sec st : Byte,
      bs = [sec, st] ∧ f = .adoption sec.toNat st.toNat) ∧
    (RequestKind.setLinks.readBody bs = some f ↔ ∃ (sec : Nat) (up : List (Nat × Nat)) (down : List Nat),
      sec < 256 ∧ up.length < 256 ∧ (∀ l ∈ up, l.1 < 256 ∧ l.2 < 65536) ∧ down.length < 256 ∧
      (∀ d ∈ down, d < 256) ∧
      bs = byte sec :: (byte up.length :: up.flatMap fun l => byte l.1 :: word l.2) ++
        byte down.length :: down.map byte ∧
      f = .links sec up down) ∧
    (RequestKind.setLimits.readBody bs = some f ↔
      ∃ sec empty fillDone high hysteresis sweetOn sweetOff ceiling : Nat,
        sec < 256 ∧ (∀ n ∈ [empty, fillDone, high, hysteresis, sweetOn, sweetOff, ceiling], n < 65536) ∧
        bs = byte sec :: [empty, fillDone, high, hysteresis, sweetOn, sweetOff, ceiling].flatMap word ∧
        f = .limits sec { empty, fillDone, high, hysteresis, sweetOn, sweetOff } ceiling) ∧
    (RequestKind.setTiming.readBody bs = some f ↔ ∃ sec time demand : Nat,
      sec < 256 ∧ time < 65536 ∧ demand < 256 ∧ bs = byte sec :: word time ++ [byte demand] ∧
      f = .timing sec time demand) ∧
    (RequestKind.setMode.readBody bs = some f ↔ ∃ scope sec setting : Byte,
      bs = [scope, sec, setting] ∧ f = .mode scope.toNat sec.toNat setting.toNat) ∧
    (RequestKind.setUnits.readBody bs = some f ↔ ∃ sec minimum reserve window : Byte,
      bs = [sec, minimum, reserve, window] ∧
      f = .units sec.toNat minimum.toNat reserve.toNat window.toNat) ∧
    (RequestKind.setGroup.readBody bs = some f ↔
      ∃ (g : Nat) (members inputs : List Nat) (mode presence : Nat) (cap : Option Nat),
        (∀ n ∈ g :: mode :: presence :: members ++ inputs ++ cap.toList, n < 256) ∧
        members.length < 256 ∧ inputs.length < 256 ∧ (cap.isSome = true ↔ presence = 1) ∧
        bs = byte g :: (byte members.length :: members.map byte) ++ (byte inputs.length :: inputs.map byte) ++
          byte mode :: byte presence :: cap.toList.map byte ∧
        f = .group g members inputs mode presence cap) ∧
    (RequestKind.setCapture.readBody bs = some f ↔ ∃ sec mode fill : Byte,
      bs = [sec, mode, fill] ∧ f = .capture sec.toNat mode.toNat fill.toNat) ∧
    (RequestKind.setReporting.readBody bs = some f ↔ ∃ (flags : List Byte) (prescale silence : Byte),
      flags.length = 6 ∧ bs = flags ++ [prescale, silence] ∧
      f = .reporting (flags.map BitVec.toNat) prescale.toNat silence.toNat) ∧
    (RequestKind.writeSitePart.readBody bs = some f ↔
      1 ≤ bs.length ∧ bs.length ≤ 240 ∧ f = .sitePart bs)) ∧
  ((∀ sec st, (Fields.adoption sec st).codesInRange = true ↔ st < 11) ∧
    (∀ scope sec setting, (Fields.mode scope sec setting).codesInRange = true ↔ scope < 2 ∧ setting < 2) ∧
    (∀ g members inputs mode presence cap,
      (Fields.group g members inputs mode presence cap).codesInRange = true ↔ mode < 2 ∧ presence < 2) ∧
    (∀ sec mode fill, (Fields.capture sec mode fill).codesInRange = true ↔ mode < 2 ∧ fill < 2) ∧
    (∀ flags prescale silence,
      (Fields.reporting flags prescale silence).codesInRange = true ↔ ∀ f ∈ flags, f < 2) ∧
    ∀ f : Fields, f = .nothing ∨ (∃ id, f = .oneId id) ∨ (∃ part half, f = .siteHalf part half) ∨
        (∃ sec up down, f = .links sec up down) ∨ (∃ sec l ceiling, f = .limits sec l ceiling) ∨
        (∃ sec time demand, f = .timing sec time demand) ∨
        (∃ sec minimum reserve window, f = .units sec minimum reserve window) ∨
        (∃ bytes, f = .sitePart bytes) →
      f.codesInRange = true) ∧
  (∀ s : State,
    (s.link.awaited = none → s.link.answers.length < 4 → s.link.ready = s.link.requests.head?) ∧
    (s.link.awaited ≠ none → s.link.ready = none) ∧
    (4 ≤ s.link.answers.length → s.link.ready = none)) ∧
  (∀ (s : State) (t : Telegram),
    (∀ record, s.conclude t (.accepted record) = { s with link := { s.link with
      answers := s.link.answers ++ [{ kind := t.kind + 0x80#8, tag := t.tag, body := 0 :: 0 :: record }]
      requests := s.link.requests.tail } }) ∧
    (∀ cause extra, s.conclude t (.refused cause extra) = { s with link := { s.link with
      answers := s.link.answers ++
        [{ kind := t.kind + 0x80#8, tag := t.tag, body := 1 :: cause.code :: extra }]
      requests := s.link.requests.tail } }) ∧
    ∀ owner, s.conclude t (.waits owner) = { s with link := { s.link with
      awaited := some { request := t, owner, dropped := false } } }) ∧
  (∀ (s : State) (t : Telegram), s.powered = true → s.link.ready = some t → requestKind t.kind = none →
    s.refusedAs .unknownKindRequest t .unknownKind) ∧
  (∀ (c : Instr) (k : RequestKind) (s : State) (t : Telegram), s.powered = true →
    s.link.ready = some t → rowKind c = some k → rowOf c t = true →
    (k.readBody t.body = none → s.refusedAs c t .malformed) ∧
    ∀ f, k.readBody t.body = some f → f.codesInRange = false → s.refusedAs c t .range) ∧
  ∀ (c : Instr) (s : State), c = .unknownKindRequest ∨ (rowKind c).isSome = true →
    (s.link.ready = none ∨ ∃ t, s.link.ready = some t ∧ rowOf c t = false) → exec c s = .next s

/-! ### Queries (R15, R30, R35, R52, R92, R143, R155, R178) -/

/-- R169: the sizes of the fields and the codes of the enumerations. R15, R30, R35, R52, R92, R143, R155, R178: the
fields of each record, one after another; their order is the model's choice (log 13), and so are the code of the
lock (log 41), the size of a window (log 40), what a SPARE unit's answer leaves out (log 37) and that the captures
of a READ CAPTURE answer have no count but the ring's own (log 45); that the part identification of READ IDENT is
the ASCII bytes of TC-24 is presumed (log 21). R35: which capture is the oldest. Each query answers its record as
it stands and changes nothing else; one that names a record is refused for an id out of range. -/
def Obligations.QueriesAnswerRecords : Prop :=
  ((∀ n, byte n = BitVec.ofNat 8 n ∧ word n = [byte (n / 256), byte n] ∧
      seconds n = [byte (n / 16777216), byte (n / 65536), byte (n / 256), byte n]) ∧
    flag false = 0#8 ∧ flag true = 1#8 ∧
    (∀ put : Nat → List Byte, optional put none = [0#8] ∧ ∀ a, optional put (some a) = 1#8 :: put a) ∧
    (∀ (put : Nat → List Byte) l, listed put l = byte l.length :: l.flatMap put) ∧
    ([.absent, .excluded, .cold, .filling, .conditioning, .circulating, .running, .held, .sweeteningOff,
      .draining, .laidUp].map SectionState.code) = (List.range 11).map byte ∧
    ([.closed, .opened, .windingDown, .restoring].map CampaignState.code) = (List.range 4).map byte ∧
    ([.closed, .opened, .windingDown].map Mark.code) = (List.range 3).map byte ∧
    ([.process, .storage].map SectionClass.code) = [0#8, 1#8] ∧
    ([.empty, .water, .sweet].map Phase.code) = [0#8, 1#8, 2#8] ∧
    ([.auto, .manual].map Mode.code) = [0#8, 1#8] ∧
    ([.closed, .through, .diverted].map Route.code) = [0#8, 1#8, 2#8] ∧
    (∀ g d, ([.restart, .host, .trip g, .steam, .full d, .sensor, .units].map HoldReason.bytes) =
      [[0#8, 0#8], [1#8, 0#8], [2#8, byte g.val], [3#8, 0#8], [4#8, byte d.val], [5#8, 0#8], [6#8, 0#8]]) ∧
    ([.order, .auto, .crossing, .expiry, .grant, .hold, .release, .campaign, .restore].map
      CaptureCause.code) = (List.range 9).map byte ∧
    ([.absolute, .difference].map CaptureMode.code) = [0#8, 1#8] ∧
    ([.continuous, .single].map CaptureFill.code) = [0#8, 1#8] ∧
    ([.none, .duty, .spare].map Role.code) = [0#8, 1#8, 2#8] ∧
    ([.healthy, .faultPending, .failed].map Condition.code) = [0#8, 1#8, 2#8] ∧
    ([.latched, .selfClearing].map TripMode.code) = [0#8, 1#8] ∧
    ([.normal, .tripped].map GroupState.code) = [0#8, 1#8] ∧
    ([.valid, .bad].map Validity.code) = [0#8, 1#8] ∧
    (∀ k, (FirstCause.input k).code = byte k.val) ∧ FirstCause.forced.code = 8#8 ∧
    ([.r19200, .r57600, .r115200].map LineRate.code) = [0#8, 1#8, 2#8] ∧
    ([.activeHigh, .activeLow].map Polarity.code) = [0#8, 1#8] ∧
    ([.valid, .defaulted].map SiteStatus.code) = [0#8, 1#8]) ∧
  (∀ c : Campaign, c.bytes = c.state.code :: seconds c.clock ++ [flag c.lock] ++
    optional (fun m : Mark => [m.code]) c.resume ++
    [flag c.overlapRequested, flag c.overlapEffective, byte c.freeSpares, byte c.spareReserve,
      flag c.supervisionLost]) ∧
  (∀ (i : SectionId) (r : Section), r.bytes i =
    [byte i.val, flag r.fitted, r.cls.code] ++ listed (fun b => [b]) r.label ++
    optional word r.nativeCeiling ++
    listed (fun l : Link => byte l.id.val :: word l.lag) r.upstream ++
    listed (fun d : SectionId => [byte d.val]) r.downstream ++ [r.state.code] ++ seconds r.enteredAt ++
    optional (fun st : SectionState => [st.code]) r.heldFrom ++ listed HoldReason.bytes r.holds ++
    [r.phase.code] ++ seconds r.phaseSince ++ optional seconds r.deadline ++
    [r.mode.code, r.intake.code, r.discharge.code] ++ word r.limits.empty ++ word r.limits.fillDone ++
    word r.limits.high ++ word r.limits.hysteresis ++ word r.limits.sweetOn ++ word r.limits.sweetOff ++
    optional word r.workingCeiling ++
    optional (fun b => [flag b]) (if r.cls = .storage then some r.ceilingLifted else none) ++
    word r.conditioningTime ++ [byte r.demand, byte r.minUnits] ++
    listed (fun u : UnitId => [byte u.val]) r.dutyUnits ++
    [r.ring.mode.code, r.ring.fill.code, flag r.ring.armed, byte r.ring.count, byte r.ring.next.val]) ∧
  (∀ st : Steam, st.bytes = byte st.hostBudget ::
    (st.caps.items.flatMap (optional fun c => [byte c]) ++ [byte st.effective, byte st.claimedSum] ++
    listed (fun c : Claim => byte c.sec.val :: byte c.demand :: seconds c.since) st.claims ++
    listed (fun c : Claim => byte c.sec.val :: byte c.demand :: seconds c.since) st.queue)) ∧
  (∀ r : UnitRecord, r.bytes = [r.role.code, byte r.cls] ++
    optional (fun i : SectionId => [byte i.val]) r.sec ++ [flag r.faultActive, r.condition.code] ++
    optional (fun w => [byte w]) r.window ++ optional (fun u : UnitId => [byte u.val]) r.covering ++
    optional (fun u : UnitId => [byte u.val]) r.coveredBy ++ [flag r.runOutput]) ∧
  (∀ (s : State) (u : UnitId), ∃ own, s.unitAnswer u = (s.supervisor.units.get u).bytes ++
    [flag (decide (u ∈ s.supervisor.watch))] ++ own ++
    [byte s.supervisor.freeCount, byte s.supervisor.reserve, byte s.supervisor.window] ++
    listed (fun v : UnitId => [byte v.val]) s.supervisor.watch ++
    listed (fun d : SpareDemand => [byte d.unit.val, byte d.cls]) s.supervisor.demands ∧
    (∀ i, (s.supervisor.units.get u).role = .duty → (s.supervisor.units.get u).sec = some i →
      own = [byte (s.sec i).minUnits, byte (s.supervisor.available (s.sec i))]) ∧
    ((s.supervisor.units.get u).role ≠ .duty → own = [])) ∧
  (∀ x : TripInput, x.bytes = [x.polarity.code, flag x.level, flag x.active]) ∧
  (∀ g : TripGroup, g.bytes = listed (fun i : SectionId => [byte i.val]) g.members ++
    listed (fun k : InputId => [byte k.val]) g.inputs ++ [g.mode.code] ++
    optional (fun c => [byte c]) g.cap ++ [g.state.code] ++
    optional (fun c : FirstCause => [c.code]) g.firstCause ++
    listed (fun k : InputId => [byte k.val]) g.activeInputs ++ [flag g.forced]) ∧
  (∀ x : TripUnit, x.bytes = x.inputs.items.flatMap TripInput.bytes ++
    x.groups.items.flatMap TripGroup.bytes) ∧
  (∀ ring : CaptureRing, ring.bytes = [ring.mode.code, ring.fill.code, flag ring.armed, byte ring.count] ++
    optional seconds ring.last ++ ring.oldestFirst.flatMap fun c =>
      [c.leaving.code, c.entering.code, c.cause.code, c.phase.code] ++ seconds c.time) ∧
  (∀ ring : CaptureRing,
    (ring.count < 4 → ring.oldestFirst =
      ([0, 1, 2, 3].take ring.count).filterMap fun k : Fin 4 => ring.slots.get k) ∧
    (4 ≤ ring.count → ring.oldestFirst =
      [ring.next, ring.next + 1, ring.next + 2, ring.next + 3].filterMap fun k => ring.slots.get k)) ∧
  (∀ (c : ChannelId) (r : Channel), r.bytes c =
    [byte c.val, byte (c.val % 2), byte (c.val / 2), flag r.converted] ++ word r.raw ++ word r.value ++
    [r.validity.code, byte r.run] ++
    [r.bands.empty, r.bands.fillDone, r.bands.high, r.bands.ceiling, r.bands.sweet].flatMap
      (optional fun p => [flag p])) ∧
  (∀ x : SiteService, x.bytes = [5#8, 0x54#8, 0x43#8, 0x2D#8, 0x32#8, 0x34#8] ++
    [1#8, x.status.code, x.lineRate.code] ++ listed (fun b => [b]) x.name ++
    [byte x.issue, flag x.committed] ++ x.staging.items.map (fun p => flag p.isSome) ++
    [x.markRead.code, flag x.markCheckFailed]) ∧
  (∀ (s : State) (t : Telegram),
    (s.taking .readIdent t .nothing → s.acceptedAs .readIdent t s s.site.bytes) ∧
    (s.taking .readCampaign t .nothing → s.acceptedAs .readCampaign t s s.campaign.bytes) ∧
    (s.taking .readSteam t .nothing → s.acceptedAs .readSteam t s s.steam.bytes) ∧
    (s.taking .readTrips t .nothing → s.acceptedAs .readTrips t s s.trips.bytes)) ∧
  ∀ (s : State) (t : Telegram) (id : Nat),
    (s.taking .readSection t (.oneId id) →
      (∀ i : SectionId, i.val = id → s.acceptedAs .readSection t s ((s.sec i).bytes i)) ∧
      (24 ≤ id → s.refusedAs .readSection t .noSection)) ∧
    (s.taking .readCapture t (.oneId id) →
      (∀ i : SectionId, i.val = id → s.acceptedAs .readCapture t s (s.sec i).ring.bytes) ∧
      (24 ≤ id → s.refusedAs .readCapture t .noSection)) ∧
    (s.taking .readUnit t (.oneId id) →
      (∀ u : UnitId, u.val = id → s.acceptedAs .readUnit t s (s.unitAnswer u)) ∧
      (48 ≤ id → s.refusedAs .readUnit t .noUnit)) ∧
    (s.taking .readChannel t (.oneId id) →
      (∀ c : ChannelId, c.val = id →
        s.acceptedAs .readChannel t s ((s.scanner.channels.get c).bytes c)) ∧
      (48 ≤ id → s.refusedAs .readChannel t .range)) ∧
    ∀ half, s.taking .readSiteRecord t (.siteHalf id half) →
      (∀ k : PartId, k.val = id → half ≤ 1 → s.acceptedAs .readSiteRecord t s
        (byte (s.store.parts.get k).length ::
          if half = 0 then (s.store.parts.get k).take 120 else (s.store.parts.get k).drop 120)) ∧
      (8 ≤ id ∨ 1 < half → s.refusedAs .readSiteRecord t .range)

/-! ### The campaign (chapter 2) -/

/-- R175: a request to write a mark begins the write, or replaces the pending value. R3, R13, R20, R33, R47: the
stages of an accepted OPEN CAMPAIGN take each LAID_UP section to COLD, set every entered-at and phase-since to 0,
and empty and arm every ring (that the slots of an emptied ring hold nothing is the model's choice, log 26); R16,
R18, R30: they enter a SECTION report of each such section and a CAMPAIGN report. R13, R19, R20, R25, R47: OPEN
CAMPAIGN. The clock, every entered-at and every phase-since are 0, the lock is set, the mark OPEN is asked for, and
the answer waits for its write. -/
def Obligations.OpenCampaignStartsAtZero : Prop :=
  (∀ (s : State) (v : Mark),
    (s.site.markWriting = none →
      s.requestMark v = { s with site := { s.site with markWriting := some v } }) ∧
    (∀ m, s.site.markWriting = some m →
      s.requestMark v = { s with site := { s.site with markPending := some v } })) ∧
  (∀ (s : State) (i : SectionId),
    s.openNow.sec i =
      (let zeroed := { s.sec i with
        enteredAt := 0, phaseSince := 0
        ring := { mode := (s.sec i).ring.mode, fill := (s.sec i).ring.fill, armed := true, count := 0
                  next := 0, last := none, slots := Table.replicate 4 none } }
      if (s.sec i).state = .laidUp then
        { zeroed with state := .cold, heldFrom := none, deadline := none, intake := .closed, discharge := .closed }
      else zeroed) ∧
    ((s.sec i).state = .laidUp → s.link.mask.sec = true → .sec i ∈ s.openNow.link.reports) ∧
    ((s.sec i).state ≠ .absent → (s.sec i).state ≠ .excluded → .reexamine i .other ∈ s.openNow.work)) ∧
  (∀ (s : State) (k : ReportKey), k ∈ s.openNow.link.reports ↔ k ∈ s.link.reports ∨
    (k = .campaign ∧ s.link.mask.campaign = true) ∨
    ∃ i, k = .sec i ∧ (s.sec i).state = .laidUp ∧ s.link.mask.sec = true) ∧
  ∀ (s : State) (t : Telegram), s.taking .openCampaign t .nothing →
    (s.campaign.state ≠ .closed → s.refusedAs .openCampaign t .campaign) ∧
    (s.campaign.state = .closed →
      s.waitsAs .openCampaign t s.openNow.settle .campaignController ∧
      ∃ u, exec .openCampaign s = .next u ∧ u.campaign.state = .opened ∧ u.campaign.clock = 0 ∧
        u.campaign.lock = true ∧ u.campaign.pendingMark = some .opened ∧
        (s.site.markWriting = none → u.site.markWriting = some .opened) ∧
        (∀ m, s.site.markWriting = some m →
          u.site.markWriting = some m ∧ u.site.markPending = some .opened) ∧
        u.link.awaited = some { request := t, owner := .campaignController, dropped := false } ∧
        u.link.answers = s.link.answers ∧ u.link.requests = s.link.requests ∧
        (s.link.mask.campaign = true → .campaign ∈ u.link.reports) ∧
        ∀ i, (u.sec i).enteredAt = 0 ∧ (u.sec i).phaseSince = 0)

/-- R21, R22, R25: CLOSE CAMPAIGN turns an OPEN campaign to WINDING_DOWN, or through it to CLOSED;
the answer waits for the mark of the state reached. R112: the table of the mapping. R112, R113: a section that
is not HELD is moved by it with cause CAMPAIGN, and a HELD one stays HELD with its held-from rewritten. R86,
R114: the 24 sections in any order; then the claims of the sections sent to DRAINING or LAID_UP taken off both
lists as one change with one grant pass; then the run demands; and when these are done the closing test and the
re-examinations. That the STEAM removals go in ascending id, and that the CAMPAIGN report joins the pending set
before the reports of the mapping, are the model's choice (logs 36 and 35). -/
def Obligations.CloseCampaignWindsDown : Prop :=
  (∀ (s : State) (t : Telegram), s.taking .closeCampaign t .nothing →
    (s.campaign.state ≠ .opened → s.refusedAs .closeCampaign t .campaign) ∧
    (s.campaign.state = .opened →
      s.waitsAs .closeCampaign t s.turnToWindDown.settle .campaignController ∧
      ∃ u, exec .closeCampaign s = .next u ∧ u.campaign.clock = s.campaign.clock ∧
        u.link.awaited = some { request := t, owner := .campaignController, dropped := false } ∧
        u.link.answers = s.link.answers ∧ u.link.requests = s.link.requests ∧
        ((u.campaign.state = .windingDown ∧ u.campaign.lock = s.campaign.lock ∧
            u.campaign.pendingMark = some .windingDown) ∨
          (u.campaign.state = .closed ∧ u.campaign.lock = false ∧
            u.campaign.pendingMark = some .closed)))) ∧
  (∀ (s : State) (i : SectionId),
    ((s.sec i).state ≠ .held →
      s.mapSection i =
        (if windDownState (s.sec i).cls (s.sec i).phase (s.sec i).state = (s.sec i).state then s
         else s.enterState i (windDownState (s.sec i).cls (s.sec i).phase (s.sec i).state) .campaign)) ∧
    ((s.sec i).state = .held →
      ((s.sec i).heldFrom = none → s.mapSection i = s) ∧
      ∀ back, (s.sec i).heldFrom = some back →
        s.mapSection i =
          (if windDownState (s.sec i).cls (s.sec i).phase back = back then s
           else (s.setSec i { s.sec i with
             heldFrom := some (windDownState (s.sec i).cls (s.sec i).phase back) }).report (.sec i)))) ∧
  (∀ (now : Nat) (off : List SectionId) (st cleared : Steam),
    cleared = { st with
      claims := st.claims.filter fun c => decide (c.sec ∉ off)
      queue := st.queue.filter fun c => decide (c.sec ∉ off) } →
    ((∀ c ∈ st.claims ++ st.queue, c.sec ∉ off) → st.mapped now off = (st, [])) ∧
    ((∃ c ∈ st.claims ++ st.queue, c.sec ∈ off) → st.mapped now off =
      ((cleared.grantPass now).1,
        (off.filter fun i => decide (∃ c ∈ st.queue, c.sec = i)).map .lift ++ (cleared.grantPass now).2))) ∧
  (∀ s : State, ∃ (secs off : List SectionId) (start : State),
    secs.Nodup ∧ (∀ i, i ∈ secs) ∧ start = { s with order := start.order, drawn := start.drawn } ∧
    off.Pairwise (· < ·) ∧
    (∀ i, i ∈ off ↔ ∃ st,
      (((s.sec i).state ≠ .held ∧ st = (s.sec i).state) ∨
        ((s.sec i).state = .held ∧ (s.sec i).heldFrom = some st)) ∧
      windDownState (s.sec i).cls (s.sec i).phase st ≠ st ∧
      (windDownState (s.sec i).cls (s.sec i).phase st = .draining ∨
        windDownState (s.sec i).cls (s.sec i).phase st = .laidUp)) ∧
    s.mapSections = (secs.foldl State.mapSection start).steamChange (Steam.mapped s.campaign.clock off)) ∧
  (∀ s : State, ∃ entered : List SectionId,
    entered.map Delivery.runDemand = s.work.filter (fun w => decide (∃ i, w = .runDemand i)) ∧
    s.takeRunDemands = entered.foldl (fun x i =>
      ({ x with work := x.work.erase (.runDemand i) } : State).runDelivery (.runDemand i)) s) ∧
  (∀ s : State, ∃ mapped : State, ∃ looks : List Delivery,
    mapped = s.mapSections.takeRunDemands.closingTest ∧
    (∀ w, w ∈ looks ↔ ∃ i, w = .reexamine i .other ∧
      (mapped.sec i).state ≠ .absent ∧ (mapped.sec i).state ≠ .excluded) ∧
    s.windDown = { mapped with work := mapped.work ++ looks }) ∧
  (∀ s : State, s.turnToWindDown =
    (((({ s with campaign := { s.campaign with state := .windingDown, pendingMark := some .windingDown } } :
      State).requestMark .windingDown).report .campaign).windDown)) ∧
  ∀ (cls : SectionClass) (p : Phase),
    (∀ st ∈ [SectionState.absent, .excluded, .laidUp, .running, .sweeteningOff, .draining],
      windDownState cls p st = st) ∧
    windDownState cls p .cold = .laidUp ∧
    windDownState .process p .filling = .draining ∧
    (∀ st ∈ [SectionState.conditioning, .circulating],
      windDownState .process .sweet st = .sweeteningOff ∧
      windDownState .process .water st = .draining ∧ windDownState .process .empty st = .draining) ∧
    windDownState .storage p .circulating = .running

/-- R23, R114: a resume target of WINDING_DOWN makes the mapping of CLOSE CAMPAIGN, and one of OPEN makes every
section re-examine (that the CAMPAIGN report joins the pending set before those of the mapping is the model's
choice, log 35). R23: RESUME CAMPAIGN sets the campaign to its resume target once no section carries
RESTART. -/
def Obligations.ResumeCampaignTakesItsTarget : Prop :=
  (∀ s : State,
    s.resumeTo .windingDown =
      (((({ s with campaign := { s.campaign with
        state := .windingDown, resume := none, pendingMark := some .windingDown } } :
        State).requestMark .windingDown).report .campaign).windDown) ∧
    ∃ (resumed : State) (looks : List Delivery),
      resumed = ((({ s with campaign := { s.campaign with
        state := .opened, resume := none, pendingMark := some .opened } } :
        State).requestMark .opened).report .campaign) ∧
      (∀ w, w ∈ looks ↔ ∃ i, w = .reexamine i .other ∧
        (s.sec i).state ≠ .absent ∧ (s.sec i).state ≠ .excluded) ∧
      s.resumeTo .opened = { resumed with work := resumed.work ++ looks }) ∧
  ∀ (s : State) (t : Telegram), s.taking .resumeCampaign t .nothing →
    (s.campaign.state ≠ .restoring → s.refusedAs .resumeCampaign t .campaign) ∧
    (s.campaign.state = .restoring → (∃ i, .restart ∈ (s.sec i).holds) →
      s.refusedAs .resumeCampaign t .state) ∧
    ∀ m, s.campaign.state = .restoring → (∀ i, .restart ∉ (s.sec i).holds) →
      s.campaign.resume = some m →
      s.waitsAs .resumeCampaign t (s.resumeTo m).settle .campaignController ∧
      ∃ u, exec .resumeCampaign s = .next u ∧ u.campaign.clock = s.campaign.clock ∧
        u.campaign.resume = none ∧
        (m = .opened → u.campaign.state = .opened ∧ u.campaign.lock = s.campaign.lock ∧
          u.campaign.pendingMark = some .opened) ∧
        (m = .windingDown →
          (u.campaign.state = .windingDown ∧ u.campaign.pendingMark = some .windingDown) ∨
          (u.campaign.state = .closed ∧ u.campaign.pendingMark = some .closed))

/-- R18, R22, R110, R175: the closing test, made when it is handed on, and what a closing changes; the change of
the campaign state makes every section that takes part re-examine. -/
def Obligations.ClosingTestClosesFinishedCampaign : Prop :=
  ∀ s : State,
    s.runDelivery .closingTest = s.closingTest ∧
    (s.campaign.state ≠ .windingDown → s.closingTest = s) ∧
    ((∃ i, (s.sec i).fitted = true ∧ (s.sec i).state ≠ .laidUp ∧ (s.sec i).state ≠ .excluded) →
      s.closingTest = s) ∧
    (s.campaign.state = .windingDown →
      (∀ i, (s.sec i).fitted = true → (s.sec i).state = .laidUp ∨ (s.sec i).state = .excluded) →
      s.closingTest.campaign =
        { s.campaign with
          state := .closed, lock := false
          pendingMark := s.campaign.pendingMark.map fun _ => .closed } ∧
      (∀ i, s.closingTest.sec i = { s.sec i with
        ceilingLifted := if (s.sec i).cls = .storage then false else (s.sec i).ceilingLifted }) ∧
      (∃ looks : List Delivery, s.closingTest.work = s.work ++ looks ∧
        ∀ w, w ∈ looks ↔ ∃ i, w = .reexamine i .other ∧
          (s.sec i).state ≠ .absent ∧ (s.sec i).state ≠ .excluded) ∧
      (s.site.markWriting = none → s.closingTest.site.markWriting = some .closed) ∧
      (s.site.markWriting ≠ none → s.closingTest.site.markWriting = s.site.markWriting ∧
        s.closingTest.site.markPending = some .closed) ∧
      (s.link.mask.campaign = true → .campaign ∈ s.closingTest.link.reports))

/-- R20, R21, R23, R175: a mark write completes: the value stands in the store, the pending write begins, and the
waiting answer is queued when the value is the one awaited, its request leaving the buffer. R161, R167: an answer
that a line break has dropped is not queued, and the port may take the next request (the model's reading, log
30). -/
def Obligations.MarkWriteCompletes : Prop :=
  ∀ s : State, s.powered = true →
    (s.site.markWriting = none → exec .markWriteComplete s = .next s) ∧
    ∀ v, s.site.markWriting = some v →
      ∃ u, exec .markWriteComplete s = .next u ∧
        u.store = { s.store with mark := some v, markCheckAgrees := true } ∧
        u.site = { s.site with markWriting := s.site.markPending, markPending := none } ∧
        u.sections = s.sections ∧ u.scanner = s.scanner ∧ u.steam = s.steam ∧
        u.supervisor = s.supervisor ∧ u.trips = s.trips ∧ u.lines = s.lines ∧
        (s.campaign.pendingMark ≠ some v → u.campaign = s.campaign ∧ u.link = s.link) ∧
        (s.campaign.pendingMark = some v →
          u.campaign = { s.campaign with pendingMark := none } ∧
          ((∀ w, s.link.awaited = some w → w.owner ≠ .campaignController) → u.link = s.link) ∧
          ∀ w, s.link.awaited = some w → w.owner = .campaignController →
            (w.dropped = true → u.link = { s.link with awaited := none }) ∧
            (w.dropped = false → u.link = { s.link with
              awaited := none
              answers := s.link.answers ++
                [{ kind := w.request.kind + 0x80#8, tag := w.request.tag, body := [0, 0] }]
              requests := s.link.requests.tail }))

/-- R24: the clock counts by 1 while the campaign is not CLOSED, and stays at its last value. The
expiries and lag completions it brings are commands of their own (the model's choice, log 9). -/
def Obligations.ClockCountsWhileCampaignRuns : Prop :=
  ∀ s : State, s.powered = true →
    (s.campaign.state = .closed → exec .clockAdvance s = .next s) ∧
    (s.campaign.state ≠ .closed → s.campaign.clock < 4294967295 → exec .clockAdvance s =
      .next { s with campaign := { s.campaign with clock := s.campaign.clock + 1 } }) ∧
    (s.campaign.state ≠ .closed → s.campaign.clock = 4294967295 → exec .clockAdvance s = .next s)

/-- R29: a supply of the free-spare count and the reserve is stored, and overlapped start effective computed
anew; a change of that flag enters a CAMPAIGN report and makes every section in CIRCULATING re-examine. R28, R29:
the campaign-level SET MODE. That its own CAMPAIGN report joins the pending set before what the flag's change
enters is the model's choice (log 35). -/
def Obligations.OverlappedStartIsRequested : Prop :=
  (∀ (s : State) (free reserve : Nat), s.runDelivery (.spareSupply free reserve) =
    ({ s with campaign := { s.campaign with freeSpares := free, spareReserve := reserve } } :
      State).recomputeOverlap) ∧
  (∀ (s : State) (due : Bool),
    (due = true ↔ s.campaign.overlapRequested = true ∧ s.campaign.spareReserve < s.campaign.freeSpares) →
    (s.campaign.overlapEffective = due → s.recomputeOverlap = s) ∧
    (s.campaign.overlapEffective ≠ due → ∃ (x : State) (looks : List Delivery),
      x = s.recomputeOverlap ∧
      x = { s with
        campaign := { s.campaign with overlapEffective := due }
        work := s.work ++ looks
        link := { s.link with reports := x.link.reports } } ∧
      (∀ w, w ∈ looks ↔ ∃ i, w = .reexamine i .other ∧ (s.sec i).state = .circulating) ∧
      ∀ k, k ∈ x.link.reports ↔ k ∈ s.link.reports ∨ (k = .campaign ∧ s.link.mask.campaign = true))) ∧
  ∀ (s : State) (t : Telegram) (sec setting : Nat), s.taking .setModeCampaign t (.mode 1 sec setting) →
    (s.campaign.overlapRequested = decide (setting = 1) → s.acceptedAs .setModeCampaign t s) ∧
    (s.campaign.overlapRequested ≠ decide (setting = 1) →
      ∃ u, s.acceptedAs .setModeCampaign t u ∧
        u.campaign.overlapRequested = decide (setting = 1) ∧ u.campaign.clock = s.campaign.clock ∧
        (s.link.mask.campaign = true → .campaign ∈ u.link.reports) ∧
        u = ((({ s with campaign := { s.campaign with overlapRequested := decide (setting = 1) } } :
          State).report .campaign).recomputeOverlap).settle ∧
        (s.work = [] → setting ≠ 1 → u.campaign.overlapEffective = false) ∧
        CascadeFrame { s with campaign := { s.campaign with overlapRequested := decide (setting = 1) } } u)

/-! ### Section orders (chapters 1 to 7) -/

/-- R3, R22, R55, R84, R85, R129: what a state entry hands on: the re-examination of the section and of each
neighbour that takes part, the run demand, the release or the withdrawal of its claim, and the closing test.
That the deliveries one change hands on are taken one at a time, each receiver's in the order handed, in a
free order between receivers, for at most 5000, is the model's reading and choice (logs 3, 4 and 5). R3, R4,
R5, R31, R63, R96: the record, the route outputs and the report of a state entry; no other section changes. -/
def Obligations.StateEntryWritesRecord : Prop :=
  (∀ (s : State) (i : SectionId) (dest : SectionState) (cause : CaptureCause), ∃ handed : List Delivery,
    (s.enter i dest cause).work = s.work ++ handed ∧
    ∀ w, w ∈ handed ↔
      (∃ j, w = .reexamine j .other ∧ (j = i ∨
        ((∃ l ∈ (s.sec i).upstream, l.id = j) ∨ j ∈ (s.sec i).downstream) ∧
          (s.sec j).state ≠ .absent ∧ (s.sec j).state ≠ .excluded)) ∨
      (w = .runDemand i ∧ (s.sec i).dutyUnits ≠ []) ∨
      (w = .releaseClaim i ∧ (dest = .draining ∨ dest = .laidUp)) ∨
      (w = .withdrawClaim i ∧ dest = .held ∧ (s.sec i).state = .filling ∧ ∃ c ∈ s.steam.queue, c.sec = i) ∨
      (w = .closingTest ∧ s.campaign.state = .windingDown)) ∧
  (∀ s : State, s.settle = State.takeOne^[5000] s ∧ (s.work = [] → s.takeOne = s) ∧
    (s.work ≠ [] → ∃ before w after order drawn, s.work = before ++ w :: after ∧
      (∀ v ∈ before, v.receiver ≠ w.receiver) ∧
      s.takeOne =
        ({ s with work := before ++ after, order := order, drawn := drawn } : State).runDelivery w)) ∧
  ∀ (s : State) (i : SectionId) (dest : SectionState) (cause : CaptureCause),
    (s.enter i dest cause).sec i = { s.sec i with
      state := dest
      enteredAt := s.campaign.clock
      heldFrom := if dest = .held then some (s.sec i).state else none
      deadline := if dest = .conditioning then
        some (min (s.campaign.clock + (s.sec i).conditioningTime) 4294967295) else none
      intake := dest.intake
      discharge := dest.discharge (s.sec i).phase
      ring := (s.sec i).ring.capture s.campaign.clock (s.sec i).state dest cause (s.sec i).phase } ∧
    (∀ j, j ≠ i → (s.enter i dest cause).sec j = s.sec j) ∧
    (s.enter i dest cause).lines.routeLatch.get i =
      (s.lines.routePolarity.get i).drive dest.intake (dest.discharge (s.sec i).phase) ∧
    (∀ j, j ≠ i → (s.enter i dest cause).lines.routeLatch.get j = s.lines.routeLatch.get j) ∧
    (s.link.mask.sec = true → .sec i ∈ (s.enter i dest cause).link.reports) ∧
    (s.enter i dest cause).campaign = s.campaign ∧ (s.enter i dest cause).steam = s.steam ∧
    (s.enter i dest cause).supervisor = s.supervisor ∧ (s.enter i dest cause).trips = s.trips ∧
    (s.enter i dest cause).store = s.store ∧ (s.enter i dest cause).scanner = s.scanner

/-- R32, R33: a capture, by the ring's mode and fill. -/
def Obligations.CaptureFollowsModeAndFill : Prop :=
  ∀ (ring : CaptureRing) (now : Nat) (a b : SectionState) (cause : CaptureCause) (p : Phase),
    (ring.armed = false → ring.capture now a b cause p = ring) ∧
    (ring.armed = true →
      (ring.capture now a b cause p).slots.get ring.next = some
        { leaving := a, entering := b, cause, phase := p
          time := match ring.mode, ring.last with
            | .absolute, _ => now
            | .difference, none => 0
            | .difference, some l => now - l } ∧
      (∀ k, k ≠ ring.next → (ring.capture now a b cause p).slots.get k = ring.slots.get k) ∧
      (ring.capture now a b cause p).next = ring.next + 1 ∧
      (ring.capture now a b cause p).last = some now ∧
      (ring.capture now a b cause p).count = min 4 (ring.count + 1) ∧
      (ring.fill = .continuous → (ring.capture now a b cause p).armed = true) ∧
      (ring.fill = .single → ((ring.capture now a b cause p).armed = true ↔ ring.count < 3)))

/-- R9: the upstream and downstream sections that a rule means. R57: when TRIP fails. R57, R58, R59, R60, R64,
R66, R115, R119, R120, R122: the failing conditions of each step, in R57's order, and when its permit holds. -/
def Obligations.PermitsHoldWhenConditionsDo : Prop :=
  (∀ (s : State) (i : SectionId),
    s.upstreamOf i = (s.sec i).upstream.filter (fun l =>
      decide ((s.sec l.id).state ≠ .absent ∧ (s.sec l.id).state ≠ .excluded)) ∧
    s.downstreamOf i = (s.sec i).downstream.filter (fun d =>
      decide ((s.sec d).state ≠ .absent ∧ (s.sec d).state ≠ .excluded)) ∧
    (s.tripped i = true ↔ ∃ g, (s.group g).state = .tripped ∧ i ∈ (s.group g).members)) ∧
  (∀ (s : State) (i : SectionId),
    ((s.sec i).state = .cold → s.failing i =
      (if s.campaign.state = .opened then [] else [.campaign]) ++
      (if (s.sec i).mode = .manual ∨ s.campaign.supervisionLost = false then [] else [.supervision]) ++
      (if s.tripped i = false then [] else [.trip]) ++
      (if (s.sec i).cls = .storage ∨ (s.level i).validity = .valid then [] else [.sensor])) ∧
    ((s.sec i).state = .conditioning → s.failing i =
      if ∃ d ∈ (s.sec i).deadline, d ≤ s.campaign.clock then [] else [.timer]) ∧
    ((s.sec i).state = .circulating → s.failing i =
      (if s.campaign.state = .opened then [] else [.campaign]) ++
      (if (s.sec i).mode = .manual ∨ s.campaign.supervisionLost = false then [] else [.supervision]) ++
      (if ∀ l ∈ s.upstreamOf i, (s.sec l.id).state = .running then [] else [.upstream]) ++
      (if ∀ d ∈ s.downstreamOf i, (s.sec d).state = .circulating ∨ (s.sec d).state = .running ∨
        ((s.sec d).state = .conditioning ∧ s.campaign.overlapEffective = true) then [] else [.downstream])) ∧
    ((s.sec i).state = .running → (s.sec i).cls = .process → s.failing i =
      (if s.campaign.state = .windingDown then [] else [.campaign]) ++
      (if ∀ l ∈ s.upstreamOf i, (s.sec l.id).state = .laidUp ∨
        (((s.sec l.id).state = .sweeteningOff ∨ (s.sec l.id).state = .draining) ∧
          (s.sec l.id).phase ≠ .sweet) then [] else [.upstream]) ++
      (if ∀ l ∈ s.upstreamOf i, (s.sec l.id).state = .laidUp ∨
        (((s.sec l.id).state = .sweeteningOff ∨ (s.sec l.id).state = .draining) ∧
          (s.sec l.id).phase ≠ .sweet) → (s.sec l.id).phaseSince + l.lag ≤ s.campaign.clock
        then [] else [.lag])) ∧
    ((s.sec i).state = .running → (s.sec i).cls = .storage → s.failing i =
      (if s.campaign.state = .windingDown then [] else [.campaign]) ++
      (if ∀ l ∈ s.upstreamOf i, (s.sec l.id).state = .laidUp then [] else [.upstream]) ++
      (if s.downstreamOf i = [] ∨ (s.sec i).phase = .empty then [] else [.phase])) ∧
    ((s.sec i).state = .sweeteningOff → s.failing i = if (s.sec i).phase = .sweet then [.phase] else []) ∧
    ((s.sec i).state = .draining → s.failing i = if (s.sec i).phase = .empty then [] else [.phase])) ∧
  ∀ (s : State) (i : SectionId),
    ((s.sec i).state = .cold → (s.sec i).cls = .process →
      (s.failing i = [] ↔ s.campaign.state = .opened ∧ s.tripped i = false ∧
        (s.level i).validity = .valid ∧ ((s.sec i).mode = .auto → s.campaign.supervisionLost = false))) ∧
    ((s.sec i).state = .cold → (s.sec i).cls = .storage →
      (s.failing i = [] ↔ s.campaign.state = .opened ∧ s.tripped i = false ∧
        ((s.sec i).mode = .auto → s.campaign.supervisionLost = false))) ∧
    ((s.sec i).state = .filling →
      s.failing i = if (s.level i).bands.fillDone = some true then [.steam] else [.level, .steam]) ∧
    ((s.sec i).state = .conditioning →
      (s.failing i = [] ↔ ∃ d, (s.sec i).deadline = some d ∧ d ≤ s.campaign.clock)) ∧
    ((s.sec i).state = .circulating →
      (s.failing i = [] ↔ s.campaign.state = .opened ∧
        (∀ l ∈ s.upstreamOf i, (s.sec l.id).state = .running) ∧
        (∀ d ∈ s.downstreamOf i, (s.sec d).state = .circulating ∨ (s.sec d).state = .running ∨
          ((s.sec d).state = .conditioning ∧ s.campaign.overlapEffective = true)) ∧
        ((s.sec i).mode = .auto → s.campaign.supervisionLost = false))) ∧
    ((s.sec i).state = .running → (s.sec i).cls = .process →
      (s.failing i = [] ↔ s.campaign.state = .windingDown ∧
        ∀ l ∈ s.upstreamOf i,
          ((s.sec l.id).state = .laidUp ∨
            (((s.sec l.id).state = .sweeteningOff ∨ (s.sec l.id).state = .draining) ∧
              (s.sec l.id).phase ≠ .sweet)) ∧
          (s.sec l.id).phaseSince + l.lag ≤ s.campaign.clock)) ∧
    ((s.sec i).state = .running → (s.sec i).cls = .storage →
      (s.failing i = [] ↔ s.campaign.state = .windingDown ∧
        (∀ l ∈ s.upstreamOf i, (s.sec l.id).state = .laidUp) ∧
        (s.downstreamOf i = [] ∨ (s.sec i).phase = .empty))) ∧
    ((s.sec i).state = .sweeteningOff → (s.failing i = [] ↔ (s.sec i).phase ≠ .sweet)) ∧
    ((s.sec i).state = .draining → (s.failing i = [] ↔ (s.sec i).phase = .empty))

/-- R31, R53, R55: at a re-examination an AUTO section whose permit holds takes its step, with the cause that
R31 gives; a MANUAL section, or one whose permit fails, keeps its state. R74: the step out of CONDITIONING is
taken at the expiry or at a change of mode (the model's reading, log 8). R60: the fill-done steam request. R10:
an order names a section when its id is at most 23 and the section is not ABSENT. R72, R124: the step out of
each state. R71: ADVANCE, with its refusals in their order; a section so advanced takes its step. -/
def Obligations.AdvanceTakesPermittedStep : Prop :=
  (([.crossing, .expiry, .modeChange, .other].map Why.cause = [.crossing, .expiry, .auto, .auto]) ∧
    ∀ (s : State) (i : SectionId) (why : Why),
      s.runDelivery (.reexamine i why) = s.reexamine i why ∧
      (nextStep (s.sec i).cls (s.sec i).state = none → s.reexamine i why = s) ∧
      (∀ dest, nextStep (s.sec i).cls (s.sec i).state = some dest →
        ((s.sec i).mode = .auto → s.failing i = [] →
          (s.sec i).state ≠ .conditioning ∨ why = .expiry ∨ why = .modeChange →
          s.reexamine i why = s.enterState i dest why.cause) ∧
        ((s.sec i).state = .conditioning → why = .crossing ∨ why = .other → s.reexamine i why = s) ∧
        ((s.sec i).mode = .manual ∨ s.failing i ≠ [] →
          s.reexamine i why =
            if (s.sec i).state = .filling ∧ (s.level i).bands.fillDone = some true ∧
                ∀ c ∈ s.steam.queue, c.sec ≠ i
            then s.steamChange (Steam.request s.campaign.clock i (s.sec i).demand false) else s))) ∧
  (nextStep .process .cold = some .filling ∧ nextStep .storage .cold = some .circulating ∧
    nextStep .process .filling = some .conditioning ∧
    nextStep .process .conditioning = some .circulating ∧
    (∀ cls, nextStep cls .circulating = some .running) ∧
    nextStep .process .running = some .sweeteningOff ∧ nextStep .storage .running = some .laidUp ∧
    nextStep .process .sweeteningOff = some .draining ∧ nextStep .process .draining = some .laidUp ∧
    (∀ st ∈ [SectionState.filling, .conditioning, .sweeteningOff, .draining],
      nextStep .storage st = none) ∧
    ∀ cls, ∀ st ∈ [SectionState.absent, .excluded, .held, .laidUp], nextStep cls st = none) ∧
  (∀ (s : State) (id : Nat),
    (∀ i : SectionId, s.named id = some i ↔ i.val = id ∧ (s.sec i).state ≠ .absent) ∧
    (s.named id = none ↔ 24 ≤ id ∨ ∃ i : SectionId, i.val = id ∧ (s.sec i).state = .absent)) ∧
  ∀ (s : State) (t : Telegram) (id : Nat), s.taking .advance t (.oneId id) →
    (s.named id = none → s.refusedAs .advance t .noSection) ∧
    ∀ i, s.named id = some i →
      ((s.sec i).mode = .auto → s.refusedAs .advance t .mode) ∧
      ((s.sec i).mode = .manual →
        (nextStep (s.sec i).cls (s.sec i).state = none → s.refusedAs .advance t .state) ∧
        ∀ dest, nextStep (s.sec i).cls (s.sec i).state = some dest →
          (∀ c cs, s.failing i = c :: cs → exec .advance s = .next (s.conclude t
            (.refused .permit (byte (cs.length + 1) :: c.code :: cs.map PermitCondition.code)))) ∧
          (s.failing i = [] → s.acceptedAs .advance t (s.enterState i dest .order).settle))

/-- R103: HOLD; an accepted one leaves the section HELD with the HOST record, and held from the state it
was in; a section that holds HOST already is left unchanged. -/
def Obligations.HoldLeavesSectionHeld : Prop :=
  ∀ (s : State) (t : Telegram) (id : Nat), s.taking .hold t (.oneId id) →
    (s.named id = none → s.refusedAs .hold t .noSection) ∧
    ∀ i, s.named id = some i →
      ((s.sec i).state = .cold ∨ (s.sec i).state = .laidUp ∨ (s.sec i).state = .excluded →
        s.refusedAs .hold t .state) ∧
      ((s.sec i).state ≠ .cold → (s.sec i).state ≠ .laidUp → (s.sec i).state ≠ .excluded →
        s.acceptedAs .hold t (s.addReason i .host).settle ∧
        (.host ∈ (s.sec i).holds → s.work = [] → s.acceptedAs .hold t s) ∧
        ((s.sec i).holdLaw → ∃ u, exec .hold s = .next u ∧ (u.sec i).state = .held ∧
          .host ∈ (u.sec i).holds ∧
          (u.sec i).heldFrom =
            if (s.sec i).state = .held then (s.sec i).heldFrom else some (s.sec i).state))

/-- R104: RELEASE; with other reasons left the section stays HELD without HOST, and with none left it
leaves HELD with cause RELEASE, to be HELD again where the cause of a hold stands. -/
def Obligations.ReleaseRemovesHost : Prop :=
  ∀ (s : State) (t : Telegram) (id : Nat), s.taking .release t (.oneId id) →
    (s.named id = none → s.refusedAs .release t .noSection) ∧
    ∀ i, s.named id = some i →
      (.host ∉ (s.sec i).holds → s.refusedAs .release t .notHeld) ∧
      (.host ∈ (s.sec i).holds →
        s.acceptedAs .release t (s.removeReason i .host .release).settle) ∧
      (.host ∈ (s.sec i).holds → s.work = [] → (∃ r ∈ (s.sec i).holds, r ≠ .host) →
        s.acceptedAs .release t ((s.setSec i { s.sec i with
          holds := (s.sec i).holds.filter fun r => r ≠ .host }).report (.sec i))) ∧
      ∀ back, (s.sec i).holds = [.host] → (s.sec i).heldFrom = some back →
        s.acceptedAs .release t
          (((s.setSec i { s.sec i with holds := [] }).enterState i back .release).settle) ∧
        (back.working = true → s.levelBad i = true ∨ s.supervisor.short.get i = true →
          (((s.setSec i { s.sec i with holds := [] }).enterState i back .release).sec i).state = .held)

/-- R95: the reasons that each state takes. R16, R96, R97, R99, R101: what the addition and the removal of a
reason do to the section, before any other block acts on it, with the SECTION report and the cause HOLD, and
how a section that enters a working state while the cause of a hold stands is HELD from it. -/
def Obligations.ReasonsHoldAndReleaseSections : Prop :=
  (∀ r : Section, r.takes .restart = false ∧
    (∀ x ∈ [HoldReason.host, .steam, .sensor, .units], r.takes x = true ↔ r.state ∈
      [.filling, .conditioning, .circulating, .running, .sweeteningOff, .draining, .held]) ∧
    (∀ g, r.takes (.trip g) = true ↔ r.state ∈
      [.filling, .conditioning, .circulating, .running, .sweeteningOff, .draining, .held]) ∧
    ∀ d, r.takes (.full d) = true ↔ r.state = .running ∨ r.state = .sweeteningOff ∨
      (r.state = .held ∧ (r.heldFrom = some .running ∨ r.heldFrom = some .sweeteningOff))) ∧
  (∀ (s : State) (i : SectionId) (r : HoldReason),
    ((s.sec i).takes r = false ∨ r ∈ (s.sec i).holds → s.addReason i r = s) ∧
    ((s.sec i).takes r = true → r ∉ (s.sec i).holds →
      (∀ x, x ∈ ((s.addReason i r).sec i).holds ↔ x = r ∨ x ∈ (s.sec i).holds) ∧
      ((s.addReason i r).sec i).state = .held ∧
      (s.link.mask.sec = true → .sec i ∈ (s.addReason i r).link.reports) ∧
      (∃ marked : State, marked = s.setSec i { s.sec i with holds := ((s.addReason i r).sec i).holds } ∧
        ((s.sec i).state = .held → s.addReason i r = marked.report (.sec i)) ∧
        ((s.sec i).state ≠ .held → s.addReason i r = marked.enter i .held .hold ∧
          ((s.addReason i r).sec i).ring = (s.sec i).ring.capture s.campaign.clock (s.sec i).state .held
            .hold (s.sec i).phase)) ∧
      ((s.sec i).state = .held → ((s.addReason i r).sec i).heldFrom = (s.sec i).heldFrom ∧
        ((s.addReason i r).sec i).ring = (s.sec i).ring) ∧
      ((s.sec i).state ≠ .held →
        ((s.addReason i r).sec i).heldFrom = some (s.sec i).state ∧
        ((s.addReason i r).sec i).intake = .closed ∧ ((s.addReason i r).sec i).discharge = .closed ∧
        ((s.addReason i r).sec i).deadline = none)) ∧
    (∀ cause, r ∉ (s.sec i).holds → s.removeReason i r cause = s) ∧
    (∀ cause, r ∈ (s.sec i).holds → (∃ x ∈ (s.sec i).holds, x ≠ r) →
      (s.removeReason i r cause).sec i =
        { s.sec i with holds := (s.sec i).holds.filter fun x => x ≠ r } ∧
      s.removeReason i r cause = (s.setSec i { s.sec i with
        holds := (s.sec i).holds.filter fun x => x ≠ r }).report (.sec i) ∧
      (s.link.mask.sec = true → .sec i ∈ (s.removeReason i r cause).link.reports)) ∧
    ∀ cause back, r ∈ (s.sec i).holds → (∀ x ∈ (s.sec i).holds, x = r) →
      (s.sec i).heldFrom = some back →
      s.removeReason i r cause = (s.setSec i { s.sec i with holds := [] }).enterState i back cause) ∧
  (∀ (s : State) (d : SectionId),
    ((s.sec d).cls = .process → (s.full d = true ↔ (s.level d).bands.high = some true)) ∧
    ((s.sec d).cls = .storage → (s.full d = true ↔ (s.level d).bands.ceiling = some true))) ∧
  ∀ (s : State) (i : SectionId) (dest : SectionState) (cause : CaptureCause),
    dest ∈ [.filling, .conditioning, .circulating, .running, .sweeteningOff, .draining] →
    (s.levelBad i = true ∨ s.supervisor.short.get i = true →
      ((s.enterState i dest cause).sec i).state = .held ∧
      ((s.enterState i dest cause).sec i).heldFrom = some dest ∧
      (s.levelBad i = true → .sensor ∈ ((s.enterState i dest cause).sec i).holds) ∧
      (s.supervisor.short.get i = true → .units ∈ ((s.enterState i dest cause).sec i).holds)) ∧
    (dest = .running ∨ dest = .sweeteningOff → ∀ d ∈ s.downstreamOf i, s.full d = true →
      ((s.enterState i dest cause).sec i).state = .held ∧
      ((s.enterState i dest cause).sec i).heldFrom = some dest ∧
      .full d ∈ ((s.enterState i dest cause).sec i).holds) ∧
    (s.levelBad i = false → s.supervisor.short.get i = false → i ∉ (s.sec i).downstream →
      (dest = .running ∨ dest = .sweeteningOff → ∀ d ∈ s.downstreamOf i, s.full d = false) →
      s.enterState i dest cause = s.enter i dest cause)

/-- R177: ADOPT, with its refusals in their order, the states each class may be adopted into, and the stages of an
accepted one: FULL for each downstream section that stands full, then the steam request, then RESTART removed. That
a claim granted at once leaves the section HELD by its other reasons is the model's reading (log 31). -/
def Obligations.AdoptRestoresSection : Prop :=
  ((List.range 12).map sectionStateOf = [some .absent, some .excluded, some .cold, some .filling,
      some .conditioning, some .circulating, some .running, some .held, some .sweeteningOff,
      some .draining, some .laidUp, none] ∧
    (∀ st, adoptable .process st = true ↔ st ∈ [.cold, .filling, .conditioning, .circulating, .running,
      .sweeteningOff, .draining, .laidUp]) ∧
    ∀ st, adoptable .storage st = true ↔ st ∈ [.cold, .circulating, .running, .laidUp]) ∧
  (∀ (s : State) (i : SectionId) (st : SectionState), (s.sec i).state = .held →
    .restart ∈ (s.sec i).holds → st ≠ .held →
    (st = .running ∨ st = .sweeteningOff → ∀ d ∈ s.downstreamOf i, s.full d = true →
      ((s.adopt i st).sec i).state = .held ∧ ((s.adopt i st).sec i).heldFrom = some st ∧
      .full d ∈ ((s.adopt i st).sec i).holds ∧ .restart ∉ ((s.adopt i st).sec i).holds) ∧
    (st ∉ [.conditioning, .circulating, .running, .sweeteningOff] ∨ (s.sec i).demand = 0 →
      (s.adopt i st).steam = s.steam) ∧
    (st ∈ [.conditioning, .circulating, .running, .sweeteningOff] → (s.sec i).demand ≠ 0 →
      (∀ c ∈ s.steam.claims ++ s.steam.queue, c.sec ≠ i) →
      (s.steam.queue = [] → s.steam.claimedSum + (s.sec i).demand ≤ s.steam.effective →
        (s.adopt i st).steam = { s.steam with claims := s.steam.claims ++
          [{ sec := i, demand := (s.sec i).demand, since := s.campaign.clock }] }) ∧
      (s.steam.queue ≠ [] ∨ s.steam.effective < s.steam.claimedSum + (s.sec i).demand →
        (s.adopt i st).steam = { s.steam with queue := s.steam.queue ++
          [{ sec := i, demand := (s.sec i).demand, since := s.campaign.clock }] } ∧
        ((s.adopt i st).sec i).state = .held ∧ ((s.adopt i st).sec i).heldFrom = some st ∧
        .steam ∈ ((s.adopt i st).sec i).holds ∧ .restart ∉ ((s.adopt i st).sec i).holds)) ∧
    ((s.sec i).holds = [.restart] → i ∉ (s.sec i).downstream → s.levelBad i = false →
      s.supervisor.short.get i = false →
      (st = .running ∨ st = .sweeteningOff → ∀ d ∈ s.downstreamOf i, s.full d = false) →
      (st ∈ [.conditioning, .circulating, .running, .sweeteningOff] → (s.sec i).demand ≠ 0 →
        (∀ c ∈ s.steam.claims, c.sec ≠ i) ∧ s.steam.queue = [] ∧
        s.steam.claimedSum + (s.sec i).demand ≤ s.steam.effective) →
      ((s.adopt i st).sec i).state = st ∧ ((s.adopt i st).sec i).holds = [] ∧
      ((s.adopt i st).sec i).heldFrom = none)) ∧
  ∀ (s : State) (t : Telegram) (id code : Nat), s.taking .adopt t (.adoption id code) →
    (s.named id = none → s.refusedAs .adopt t .noSection) ∧
    ∀ i, s.named id = some i →
      (.restart ∉ (s.sec i).holds → s.refusedAs .adopt t .state) ∧
      (.restart ∈ (s.sec i).holds → ∀ st, sectionStateOf code = some st →
        (adoptable (s.sec i).cls st = false → s.refusedAs .adopt t .range) ∧
        (adoptable (s.sec i).cls st = true → s.acceptedAs .adopt t (s.adopt i st).settle) ∧
        (adoptable (s.sec i).cls st = true → (s.sec i).holds = [.restart] → st.working = false →
          s.acceptedAs .adopt t ((s.setSec i
            { s.sec i with heldFrom := some st, holds := [] }).enter i st .restore).settle) ∧
        (adoptable (s.sec i).cls st = true → st.steamState = false → s.work = [] →
          (∃ r ∈ (s.sec i).holds, r ≠ .restart) →
          s.acceptedAs .adopt t ((s.setSec i { s.sec i with
            heldFrom := some st
            holds := (s.sec i).holds.filter fun r => r ≠ .restart }).report (.sec i))))

/-- R138: what an exclusion and an inclusion do to the pool, each taken while the section stands so. R11,
R12, R105, R107: an exclusion enters EXCLUDED and an inclusion COLD, both with cause ORDER; the one hands on the
removal of FULL from every holder, the other FULL to the feeders of a section that stands full. R11, R12:
EXCLUDE and INCLUDE, with their refusals in their order. -/
def Obligations.ExcludeAndIncludeMoveSections : Prop :=
  ((∀ (us : UnitSupervisor) (duty : List UnitId), ∃ spares : List UnitId,
      spares.Pairwise (· < ·) ∧
      (∀ sp, sp ∈ spares ↔ ∃ u ∈ duty, (us.units.get u).condition = .failed ∧
        (us.units.get sp).covering = some u) ∧
      us.exclude duty = spares.foldl UnitSupervisor.offer
        ((duty.filter fun u => (us.units.get u).condition = .failed).foldl UnitSupervisor.giveUp us)) ∧
    (∀ (us : UnitSupervisor) (u : UnitId),
      (∀ sp, (us.units.get u).coveredBy = some sp → us.giveUp u = us.uncover sp u) ∧
      ((us.units.get u).coveredBy = none →
        us.giveUp u = { us with demands := us.demands.filter fun d => d.unit ≠ u }) ∧
      ((us.units.get u).coveredBy ≠ none ∨ (∃ d ∈ us.demands, d.unit = u) → us.attend u = us) ∧
      ((us.units.get u).coveredBy = none → (∀ d ∈ us.demands, d.unit ≠ u) →
        us.attend u = us.requestCoverage u)) ∧
    (∀ (us : UnitSupervisor) (duty : List UnitId), us.includeUnits duty =
      (duty.filter fun u => (us.units.get u).condition = .failed).foldl UnitSupervisor.attend us) ∧
    ∀ (s : State) (i : SectionId),
      ((s.sec i).state = .excluded →
        s.runDelivery (.unitsExcluded i) = s.supervise fun us => us.exclude (s.sec i).dutyUnits) ∧
      ((s.sec i).state ≠ .absent → (s.sec i).state ≠ .excluded →
        s.runDelivery (.unitsIncluded i) = s.supervise fun us => us.includeUnits (s.sec i).dutyUnits)) ∧
  (∀ (s : State) (i : SectionId), ∃ (entered : State) (handed : List Delivery),
    entered = s.enter i .excluded .order ∧
    s.exclude i = { entered with work := entered.work ++ handed } ∧
    ∀ w, w ∈ handed ↔ w = .unitsExcluded i ∨
      ∃ u, w = .removeReason u (.full i) ∧ .full i ∈ (s.sec u).holds) ∧
  (∀ (s : State) (i : SectionId), (s.sec i).state = .excluded → ∃ (entered : State) (handed : List Delivery),
    entered = s.enter i .cold .order ∧
    s.incorporate i = { entered with work := entered.work ++ handed } ∧
    ∀ w, w ∈ handed ↔ w = .unitsIncluded i ∨ ∃ u, w = .addReason u (.full i) ∧
      s.full i = true ∧ (∃ l ∈ (s.sec i).upstream, l.id = u) ∧
      ((s.sec u).state = .running ∨ (s.sec u).state = .sweeteningOff ∨
        ((s.sec u).state = .held ∧
          ((s.sec u).heldFrom = some .running ∨ (s.sec u).heldFrom = some .sweeteningOff)))) ∧
  ∀ (s : State) (t : Telegram) (id : Nat),
    (s.taking .excludeSection t (.oneId id) →
      (s.named id = none → s.refusedAs .excludeSection t .noSection) ∧
      ∀ i, s.named id = some i →
        (s.campaign.state = .windingDown ∨ s.campaign.state = .restoring →
          s.refusedAs .excludeSection t .campaign) ∧
        (s.campaign.state = .closed ∨ s.campaign.state = .opened →
          ((s.sec i).state ≠ .cold → (s.sec i).state ≠ .laidUp →
            s.refusedAs .excludeSection t .state) ∧
          ((s.sec i).state = .cold ∨ (s.sec i).state = .laidUp →
            s.acceptedAs .excludeSection t (s.exclude i).settle ∧
            .unitsExcluded i ∈ (s.exclude i).work ∧
            (∀ u, .full i ∈ (s.sec u).holds → .removeReason u (.full i) ∈ (s.exclude i).work) ∧
            ((s.exclude i).sec i).state = .excluded))) ∧
    (s.taking .includeSection t (.oneId id) →
      (s.named id = none → s.refusedAs .includeSection t .noSection) ∧
      ∀ i, s.named id = some i →
        (s.campaign.state = .windingDown ∨ s.campaign.state = .restoring →
          s.refusedAs .includeSection t .campaign) ∧
        (s.campaign.state = .closed ∨ s.campaign.state = .opened →
          ((s.sec i).state ≠ .excluded → s.refusedAs .includeSection t .state) ∧
          ((s.sec i).state = .excluded →
            s.acceptedAs .includeSection t (s.incorporate i).settle ∧
            .unitsIncluded i ∈ (s.incorporate i).work ∧
            ((s.incorporate i).sec i).state = .cold)))

/-- R7, R8: SET LINKS, with its refusals in their order; an accepted one gives the target the two lists
of the order, and each other section gains or loses the target as its list of the order says. RANGE and CYCLE
are judged on the lists as they stand after the edits. R8: each section whose lists change gets a SECTION report,
and it and its neighbours, old and new, re-examine. -/
def Obligations.SetLinksEditsBothEnds : Prop :=
  ∀ (s : State) (t : Telegram) (id : Nat) (up : List (Nat × Nat)) (down : List Nat),
    s.taking .setLinks t (.links id up down) →
    (s.named id = none ∨ (∃ p ∈ up, s.named p.1 = none) ∨ (∃ d ∈ down, s.named d = none) →
      s.refusedAs .setLinks t .noSection) ∧
    ∀ (i : SectionId) (links : List Link) (downs : List SectionId), s.named id = some i →
      links.map (fun l => (l.id.val, l.lag)) = up → downs.map (fun d => d.val) = down →
      (∀ l ∈ links, (s.sec l.id).state ≠ .absent) → (∀ d ∈ downs, (s.sec d).state ≠ .absent) →
      (s.campaign.lock = true → s.refusedAs .setLinks t .locked) ∧
      (linksInRange s.sections i links downs = true ↔
        links.length ≤ 3 ∧ downs.length ≤ 3 ∧ (links.map Link.id).Nodup ∧ downs.Nodup ∧
        (∀ l ∈ links, l.lag ≤ 3600) ∧
        ∀ j, j ≠ i → ((s.relink i links downs).sec j).upstream.length ≤ 3 ∧
          ((s.relink i links downs).sec j).downstream.length ≤ 3) ∧
      (linksCyclic s.sections i links downs = true ↔
        (∃ l ∈ links, l.id = i) ∨ i ∈ downs ∨ (∃ l ∈ links, l.id ∈ downs) ∨
        ∃ j, Relation.TransGen
          (fun a b => b ∈ ((s.relink i links downs).sec a).downstream) j j) ∧
      (s.campaign.lock = false →
        (linksInRange s.sections i links downs = false → s.refusedAs .setLinks t .range) ∧
        (linksInRange s.sections i links downs = true →
          (linksCyclic s.sections i links downs = true → s.refusedAs .setLinks t .cycle) ∧
          (linksCyclic s.sections i links downs = false →
            s.acceptedAs .setLinks t (s.relink i links downs).settle ∧
            ((s.relink i links downs).sec i).upstream = links ∧
            ((s.relink i links downs).sec i).downstream = downs ∧
            (∃ (x : State) (edited : SectionId → Prop) (looks : List Delivery),
              x = s.relink i links downs ∧
              (∀ j, edited j ↔ (x.sec j).upstream ≠ (s.sec j).upstream ∨
                (x.sec j).downstream ≠ (s.sec j).downstream) ∧
              x = { s with
                sections := x.sections, work := s.work ++ looks, order := x.order, drawn := x.drawn
                link := { s.link with reports := x.link.reports } } ∧
              (∀ j, x.sec j =
                { s.sec j with upstream := (x.sec j).upstream, downstream := (x.sec j).downstream }) ∧
              (∀ k, k ∈ x.link.reports ↔ k ∈ s.link.reports ∨
                ∃ j, k = .sec j ∧ edited j ∧ s.link.mask.sec = true) ∧
              ∀ w, w ∈ looks ↔ ∃ j c, w = .reexamine j .other ∧ edited c ∧ (j = c ∨
                (∃ l ∈ (s.sec c).upstream ++ (x.sec c).upstream, l.id = j) ∨
                j ∈ (s.sec c).downstream ++ (x.sec c).downstream)) ∧
            ∀ j, j ≠ i →
              ((∃ l ∈ (s.sec i).upstream, l.id = j) → (∀ l ∈ links, l.id ≠ j) →
                ((s.relink i links downs).sec j).downstream =
                  (s.sec j).downstream.filter fun d => d ≠ i) ∧
              ((∀ l ∈ (s.sec i).upstream, l.id ≠ j) → (∃ l ∈ links, l.id = j) →
                ((s.relink i links downs).sec j).downstream = (s.sec j).downstream ++ [i]) ∧
              (((∃ l ∈ (s.sec i).upstream, l.id = j) ↔ ∃ l ∈ links, l.id = j) →
                ((s.relink i links downs).sec j).downstream = (s.sec j).downstream) ∧
              (j ∈ (s.sec i).downstream → j ∉ downs →
                ((s.relink i links downs).sec j).upstream =
                  (s.sec j).upstream.filter fun l => l.id ≠ i) ∧
              (j ∉ (s.sec i).downstream → j ∈ downs →
                ((s.relink i links downs).sec j).upstream =
                  (s.sec j).upstream ++ [{ id := i, lag := 120 }]) ∧
              ((j ∈ (s.sec i).downstream ↔ j ∈ downs) →
                ((s.relink i links downs).sec j).upstream = (s.sec j).upstream) ∧
              ((s.relink i links downs).sec j).state = (s.sec j).state)))

/-- R43, R44, R109: SET LIMITS and LIFT CEILING, with their refusals in their order. -/
def Obligations.LimitsAndCeilingAreSet : Prop :=
  (∀ (s : State) (t : Telegram) (id : Nat) (l : Limits) (ceiling : Nat),
    s.taking .setLimits t (.limits id l ceiling) →
    (s.named id = none → s.refusedAs .setLimits t .noSection) ∧
    ∀ i, s.named id = some i →
      (l.hysteresis < 5 ∨ 100 < l.hysteresis ∨ l.fillDone ≤ l.empty + l.hysteresis ∨
          l.high ≤ l.fillDone ∨ 1000 < l.high ∨ l.sweetOn ≤ l.sweetOff ∨ 850 < l.sweetOn ∨
          ((s.sec i).cls = .storage ∧ ((s.sec i).nativeCeiling.getD 0) < ceiling) →
        s.refusedAs .setLimits t .range) ∧
      (5 ≤ l.hysteresis → l.hysteresis ≤ 100 → l.empty + l.hysteresis < l.fillDone →
        l.fillDone < l.high → l.high ≤ 1000 → l.sweetOff < l.sweetOn → l.sweetOn ≤ 850 →
        ((s.sec i).cls = .process →
          s.acceptedAs .setLimits t (s.setSec i { s.sec i with limits := l })) ∧
        ((s.sec i).cls = .storage → ceiling ≤ (s.sec i).nativeCeiling.getD 0 →
          s.acceptedAs .setLimits t
            (s.setSec i { s.sec i with limits := l, workingCeiling := some ceiling })))) ∧
  ∀ (s : State) (t : Telegram) (id : Nat), s.taking .liftCeiling t (.oneId id) →
    (s.named id = none → s.refusedAs .liftCeiling t .noSection) ∧
    ∀ i, s.named id = some i →
      ((s.sec i).cls = .process → s.refusedAs .liftCeiling t .state) ∧
      ((s.sec i).cls = .storage → s.campaign.state = .closed → s.refusedAs .liftCeiling t .campaign) ∧
      ((s.sec i).cls = .storage → s.campaign.state ≠ .closed →
        s.acceptedAs .liftCeiling t (s.setSec i { s.sec i with ceilingLifted := true }))

/-- R65: SET TIMING, with its refusals in their order. -/
def Obligations.SetTimingReplacesTiming : Prop :=
  ∀ (s : State) (t : Telegram) (id time demand : Nat), s.taking .setTiming t (.timing id time demand) →
    (s.named id = none → s.refusedAs .setTiming t .noSection) ∧
    ∀ i, s.named id = some i →
      (7200 < time ∨ 63 < demand ∨ ((s.sec i).cls = .storage ∧ demand ≠ 0) →
        s.refusedAs .setTiming t .range) ∧
      (time ≤ 7200 → demand ≤ 63 → ((s.sec i).cls = .process ∨ demand = 0) →
        (demand ≠ (s.sec i).demand → (s.sec i).state ≠ .cold → (s.sec i).state ≠ .excluded →
          (s.sec i).state ≠ .laidUp → .restart ∉ (s.sec i).holds → s.refusedAs .setTiming t .state) ∧
        (demand = (s.sec i).demand ∨ (s.sec i).state = .cold ∨ (s.sec i).state = .excluded ∨
            (s.sec i).state = .laidUp ∨ .restart ∈ (s.sec i).holds →
          s.acceptedAs .setTiming t
            (s.setSec i { s.sec i with conditioningTime := time, demand := demand })))

/-- R54, R60: the section-level SET MODE; a section that turns re-examines its permits, which in MANUAL takes no
step and makes no change but the fill-done steam request of a FILLING section. -/
def Obligations.SetModeTurnsSection : Prop :=
  ∀ (s : State) (t : Telegram) (id setting : Nat), s.taking .setModeSection t (.mode 0 id setting) →
    (s.named id = none → s.refusedAs .setModeSection t .noSection) ∧
    ∀ i, s.named id = some i →
      ((setting = 0 ∧ (s.sec i).mode = .auto) ∨ (setting = 1 ∧ (s.sec i).mode = .manual) →
        s.acceptedAs .setModeSection t s) ∧
      (setting = 0 → (s.sec i).mode = .manual → ∃ u, s.acceptedAs .setModeSection t u ∧
        (u.sec i).mode = .auto ∧
        u = (((s.setSec i { s.sec i with mode := .auto }).report (.sec i)).reexamine i .modeChange).settle) ∧
      (setting = 1 → (s.sec i).mode = .auto → ∃ u, s.acceptedAs .setModeSection t u ∧
        (u.sec i).mode = .manual ∧
        ∃ turned : State, turned = (s.setSec i { s.sec i with mode := .manual }).report (.sec i) ∧
          u = (turned.reexamine i .modeChange).settle ∧
          ((s.sec i).state = .filling → (s.sec i).cls = .process → s.work = [] → u =
            if (s.level i).bands.fillDone = some true ∧ ∀ c ∈ s.steam.queue, c.sec ≠ i
            then (turned.steamChange (Steam.request s.campaign.clock i (s.sec i).demand false)).settle
            else turned) ∧
          ((s.sec i).state ≠ .filling ∨ (s.sec i).cls = .storage → s.work = [] → u = turned))

/-- R34: SET CAPTURE sets the ring's mode and fill, arms it and empties it, in every campaign state and
every section state but ABSENT, with no report; a repetition empties and arms the ring again. That the slots
of an emptied ring hold nothing is the model's choice (log 26). -/
def Obligations.SetCaptureArmsEmptiedRing : Prop :=
  ∀ (s : State) (t : Telegram) (id mode fill : Nat), s.taking .setCapture t (.capture id mode fill) →
    (24 ≤ id → s.refusedAs .setCapture t .noSection) ∧
    ∀ i : SectionId, i.val = id →
      ((s.sec i).state = .absent → s.refusedAs .setCapture t .noSection) ∧
      ((s.sec i).state ≠ .absent → s.acceptedAs .setCapture t (s.setSec i { s.sec i with ring :=
        { mode := if mode = 0 then .absolute else .difference
          fill := if fill = 0 then .continuous else .single
          armed := true, count := 0, next := 0, last := none, slots := Table.replicate 4 none } }))

/-- R64, R116: a deadline that has expired, or a lag that has run out, makes the section re-examine. That
a deadline expires only once the clock has advanced past the entry (log 7), and that an event with no occasion
changes nothing (logs 7 and 9), are the model's choices. -/
def Obligations.TimedEventsReexamineSection : Prop :=
  ∀ (s : State), s.powered = true → s.work = [] → ∀ (i u : SectionId),
    ((s.sec i).state = .conditioning → (s.sec i).cls = .process → (s.sec i).mode = .auto →
      (∃ d, (s.sec i).deadline = some d ∧ d ≤ s.campaign.clock) →
      (s.sec i).enteredAt < s.campaign.clock →
      exec (.conditioningExpiry i.val) s = .next (s.enterState i .circulating .expiry).settle) ∧
    ((s.sec i).state = .conditioning → (s.sec i).mode = .manual →
      exec (.conditioningExpiry i.val) s = .next s) ∧
    ((s.sec i).state ≠ .conditioning → exec (.conditioningExpiry i.val) s = .next s) ∧
    ((∀ d, (s.sec i).deadline = some d → s.campaign.clock < d) →
      exec (.conditioningExpiry i.val) s = .next s) ∧
    (s.campaign.clock ≤ (s.sec i).enteredAt → exec (.conditioningExpiry i.val) s = .next s) ∧
    (∀ l ∈ s.upstreamOf i, l.id = u →
      (s.sec u).state = .laidUp ∨ ((s.sec u).state = .sweeteningOff ∨ (s.sec u).state = .draining) ∧
        (s.sec u).phase ≠ .sweet →
      (s.sec u).phaseSince + l.lag ≤ s.campaign.clock → (s.sec i).state = .running →
      (s.sec i).cls = .process → (s.sec i).mode = .auto → s.failing i = [] →
      exec (.lagCompletion i.val u.val) s = .next (s.enterState i .sweeteningOff .expiry).settle) ∧
    ((s.sec i).mode = .manual → exec (.lagCompletion i.val u.val) s = .next s) ∧
    ((s.sec i).state ≠ .running → exec (.lagCompletion i.val u.val) s = .next s) ∧
    ((∀ l ∈ s.upstreamOf i, l.id = u → s.campaign.clock < (s.sec u).phaseSince + l.lag) →
      exec (.lagCompletion i.val u.val) s = .next s)

/-- What one order or event leaves alone. R3, R55, R71: the six section orders, a deadline or a lag change
nothing but what `CascadeFrame` leaves open. R7, R28, R54, R79, R137, R142, R152, R153, R154: the nine orders
that move other blocks leave the scanner, the option store, the clock and each record that they do not name.
R20, R21, R23: so do the three campaign orders, of which OPEN CAMPAIGN alone sets the clock. R34, R43, R65,
R109, R165, R173, R174: the settings orders change their own record and the port's, and no cascade follows.
R38, R130, R131, R148, R150: a sample, a fault event and a trip event leave the blocks they do not name. R26,
R159, R164, R167: the link events leave all but the port, and supervision lost with what its return brings. -/
def Obligations.OrdersAndEventsKeepFrame : Prop :=
  (∀ c ∈ [Instr.openCampaign, .closeCampaign, .resumeCampaign], ∀ s u : State, exec c s = .next u →
    u.powered = s.powered ∧ u.scanner = s.scanner ∧ u.trips = s.trips ∧ u.store = s.store ∧
    u.pending = s.pending ∧ u.steam.hostBudget = s.steam.hostBudget ∧
    u.supervisor.watch = s.supervisor.watch ∧ u.supervisor.reserve = s.supervisor.reserve ∧
    u.supervisor.window = s.supervisor.window ∧
    (∀ v, (u.supervisor.units.get v).condition = (s.supervisor.units.get v).condition ∧
      (u.supervisor.units.get v).faultActive = (s.supervisor.units.get v).faultActive) ∧
    u.campaign.overlapRequested = s.campaign.overlapRequested ∧
    u.campaign.supervisionLost = s.campaign.supervisionLost ∧ u.link.mask = s.link.mask ∧
    (c ≠ .openCampaign → u.campaign.clock = s.campaign.clock) ∧
    (c ≠ .resumeCampaign → u.campaign.resume = s.campaign.resume) ∧
    ∀ i, (u.sec i).upstream = (s.sec i).upstream ∧ (u.sec i).downstream = (s.sec i).downstream ∧
      (u.sec i).mode = (s.sec i).mode ∧ (u.sec i).limits = (s.sec i).limits ∧
      (u.sec i).phase = (s.sec i).phase) ∧
  (∀ c ∈ [Instr.setLimits, .setTiming, .liftCeiling, .setCapture, .setReporting, .writeSitePart,
      .commitSiteRecord], ∀ s u : State, exec c s = .next u →
    u.powered = s.powered ∧ u.campaign = s.campaign ∧ u.steam = s.steam ∧
    u.supervisor = s.supervisor ∧ u.trips = s.trips ∧ u.store = s.store ∧ u.lines = s.lines ∧
    u.work = s.work ∧ u.pending = s.pending ∧ u.link.receiver = s.link.receiver ∧
    u.scanner.channels = s.scanner.channels ∧ u.scanner.turn = s.scanner.turn ∧
    (c ≠ .setReporting → u.scanner = s.scanner ∧ u.link.mask = s.link.mask ∧
      u.link.reports = s.link.reports) ∧
    (c ≠ .writeSitePart → c ≠ .commitSiteRecord → u.site = s.site) ∧
    ((c = .setReporting ∨ c = .writeSitePart ∨ c = .commitSiteRecord) → u.sections = s.sections) ∧
    ∀ i, (u.sec i).state = (s.sec i).state ∧ (u.sec i).holds = (s.sec i).holds ∧
      (u.sec i).heldFrom = (s.sec i).heldFrom ∧ (u.sec i).phase = (s.sec i).phase ∧
      (u.sec i).upstream = (s.sec i).upstream ∧ (u.sec i).downstream = (s.sec i).downstream ∧
      (u.sec i).intake = (s.sec i).intake ∧ (u.sec i).discharge = (s.sec i).discharge) ∧
  (∀ (s u : State) (kind tag : Byte) (body : List Byte) (check : BitVec 16),
    exec (.telegramReceived kind tag body check) s = .next u →
    u.powered = s.powered ∧ u.scanner = s.scanner ∧ u.trips = s.trips ∧ u.store = s.store ∧
    u.pending = s.pending ∧ u.steam.hostBudget = s.steam.hostBudget ∧
    u.supervisor.watch = s.supervisor.watch ∧ u.campaign.clock = s.campaign.clock ∧
    u.campaign.overlapRequested = s.campaign.overlapRequested ∧ u.link.mask = s.link.mask ∧
    u.link.answers = s.link.answers ∧ u.link.awaited = s.link.awaited ∧
    ∀ v, (u.supervisor.units.get v).condition = (s.supervisor.units.get v).condition) ∧
  (∀ (s u : State) (late : Byte) (why : DiscardReason),
    exec (.interByteTimeout late) s = .next u ∨ exec (.telegramDiscardedInAssembly why) s = .next u ∨
      exec .lineBreak s = .next u ∨ exec .lineReturnToIdle s = .next u ∨
      exec .transmitNextTelegram s = .next u ∨ exec .unknownKindRequest s = .next u →
    u = { s with link := u.link } ∧ u.link.mask = s.link.mask ∧
    u.link.silenceLimit = s.link.silenceLimit) ∧
  (∀ s u : State, exec .silenceExpiry s = .next u →
    u = { s with
      link := { s.link with reports := u.link.reports, silenceExpired := u.link.silenceExpired }
      campaign := { s.campaign with supervisionLost := u.campaign.supervisionLost } }) ∧
  (∀ c ∈ [Instr.advance, .hold, .release, .adopt, .excludeSection, .includeSection], ∀ s u : State,
    exec c s = .next u → u = s ∨ ∃ t v, s.link.ready = some t ∧ CascadeFrame (s.conclude t v) u) ∧
  (∀ (s u : State) (k l : Nat), exec (.conditioningExpiry k) s = .next u ∨
    exec (.lagCompletion k l) s = .next u → CascadeFrame s u) ∧
  (∀ c ∈ [Instr.setLinks, .setModeSection, .setModeCampaign, .setBudget, .returnUnit, .setUnits,
      .setGroup, .forceTrip, .clearTrip], ∀ s u : State, exec c s = .next u →
    u.powered = s.powered ∧ u.scanner = s.scanner ∧ u.store = s.store ∧ u.pending = s.pending ∧
    u.campaign.clock = s.campaign.clock ∧ u.campaign.resume = s.campaign.resume ∧
    u.campaign.supervisionLost = s.campaign.supervisionLost ∧
    u.supervisor.watch = s.supervisor.watch ∧ u.link.mask = s.link.mask ∧
    (c ≠ .setBudget → u.steam.hostBudget = s.steam.hostBudget) ∧
    (c ≠ .setModeCampaign → u.campaign.overlapRequested = s.campaign.overlapRequested) ∧
    (c ≠ .returnUnit → ∀ v, (u.supervisor.units.get v).condition = (s.supervisor.units.get v).condition) ∧
    (c ≠ .setUnits → u.supervisor.reserve = s.supervisor.reserve ∧
      u.supervisor.window = s.supervisor.window) ∧
    (c ≠ .setGroup → c ≠ .forceTrip → c ≠ .clearTrip → u.trips = s.trips) ∧
    (c ≠ .setLinks → ∀ i, (u.sec i).upstream = (s.sec i).upstream ∧
      (u.sec i).downstream = (s.sec i).downstream)) ∧
  (∀ (s u : State) (k : Nat), exec (.faultInputActive k) s = .next u ∨
    exec (.faultInputInactive k) s = .next u ∨ exec (.recoveryWindowExpiry k) s = .next u →
    u.powered = s.powered ∧ u.trips = s.trips ∧ u.scanner = s.scanner ∧ u.store = s.store ∧
    u.pending = s.pending ∧ u.steam.hostBudget = s.steam.hostBudget ∧
    u.campaign.clock = s.campaign.clock ∧ u.supervisor.reserve = s.supervisor.reserve ∧
    u.link.requests = s.link.requests ∧ u.link.answers = s.link.answers) ∧
  (∀ (s u : State) (k : Nat), exec (.tripInputActive k) s = .next u ∨
    exec (.tripInputInactive k) s = .next u →
    u.powered = s.powered ∧ u.scanner = s.scanner ∧ u.store = s.store ∧ u.pending = s.pending ∧
    u.steam.hostBudget = s.steam.hostBudget ∧ u.supervisor.watch = s.supervisor.watch ∧
    u.campaign.clock = s.campaign.clock ∧ u.link.requests = s.link.requests ∧
    u.link.answers = s.link.answers) ∧
  ∀ (s u : State) (k raw : Nat), exec (.channelSample k raw) s = .next u →
    u.powered = s.powered ∧ u.trips = s.trips ∧ u.store = s.store ∧ u.pending = s.pending ∧
    u.steam.hostBudget = s.steam.hostBudget ∧ u.supervisor.watch = s.supervisor.watch ∧
    u.campaign.clock = s.campaign.clock ∧ u.scanner.prescale = s.scanner.prescale ∧
    u.scanner.round = s.scanner.round ∧
    ∀ c : ChannelId, c.val ≠ k → u.scanner.channels.get c = s.scanner.channels.get c

/-! ### The scanner (chapter 3) -/

/-- R37: a round takes the converted channels in ascending order, each once. R38: a sample's raw result
and value, whether the channel is VALID or BAD. That a sample out of its turn is no event of the scanner is
the model's reading (log 34). -/
def Obligations.SampleWritesRawAndValue : Prop :=
  (∀ x : Scanner,
    (∀ c, x.due = some c ↔ (x.channels.get c).converted = true ∧ x.turn ≤ c.val ∧
      ∀ d : ChannelId, x.turn ≤ d.val → d < c → (x.channels.get d).converted = false) ∧
    (x.due = none ↔ ∀ d : ChannelId, x.turn ≤ d.val → (x.channels.get d).converted = false)) ∧
  (∀ (s : State) (c : ChannelId) (raw : Nat), raw ≤ 4095 → s.scanner.due ≠ some c →
    exec (.channelSample c.val raw) s = .next s) ∧
  ∀ (s : State) (c : ChannelId) (raw : Nat), s.powered = true → raw ≤ 4095 →
    s.scanner.due = some c →
    ∃ u, exec (.channelSample c.val raw) s = .next u ∧
      u.scanner.turn = c.val + 1 ∧
      (∀ d, d ≠ c → u.scanner.channels.get d = s.scanner.channels.get d) ∧
      (u.scanner.channels.get c).converted = (s.scanner.channels.get c).converted ∧
      (u.scanner.channels.get c).raw = raw ∧
      (100 ≤ raw → raw ≤ 4000 → c.val % 2 = 0 →
        (u.scanner.channels.get c).value = (raw - 100) * 1000 / 3900) ∧
      (100 ≤ raw → raw ≤ 4000 → c.val % 2 = 1 →
        (u.scanner.channels.get c).value = (raw - 100) * 850 / 3900) ∧
      (raw < 100 ∨ 4000 < raw →
        (u.scanner.channels.get c).value = (s.scanner.channels.get c).value)

/-- R40, R108: the thresholds of each band position, and the working ceiling in force. R36, R39, R41: a
sample's validity, count and band positions; a sample that changes neither validity nor a position changes
the channel record alone, and the round's place. -/
def Obligations.SampleMovesValidityAndBands : Prop :=
  (∀ (b : Bands) (l : Limits) (ceiling v : Nat),
    (b.empty = none → (b.evaluate l ceiling v).empty = none) ∧
    (b.empty = some false → (b.evaluate l ceiling v).empty = some (decide (v ≤ l.empty))) ∧
    (b.empty = some true → (b.evaluate l ceiling v).empty = some (decide (v < l.empty + l.hysteresis))) ∧
    (b.fillDone = none → (b.evaluate l ceiling v).fillDone = none) ∧
    (b.fillDone = some false → (b.evaluate l ceiling v).fillDone = some (decide (l.fillDone ≤ v))) ∧
    (b.fillDone = some true →
      (b.evaluate l ceiling v).fillDone = some (decide (l.fillDone ≤ v + l.hysteresis))) ∧
    (b.high = none → (b.evaluate l ceiling v).high = none) ∧
    (b.high = some false → (b.evaluate l ceiling v).high = some (decide (l.high ≤ v))) ∧
    (b.high = some true → (b.evaluate l ceiling v).high = some (decide (l.high < v + l.hysteresis))) ∧
    (b.ceiling = none → (b.evaluate l ceiling v).ceiling = none) ∧
    (b.ceiling = some false → (b.evaluate l ceiling v).ceiling = some (decide (ceiling ≤ v))) ∧
    (b.ceiling = some true → (b.evaluate l ceiling v).ceiling =
      some (decide (ceiling = 0 ∨ (0 < v ∧ ceiling < v + l.hysteresis)))) ∧
    (b.sweet = none → (b.evaluate l ceiling v).sweet = none) ∧
    (b.sweet = some false → (b.evaluate l ceiling v).sweet = some (decide (l.sweetOn ≤ v))) ∧
    (b.sweet = some true → (b.evaluate l ceiling v).sweet = some (decide (l.sweetOff < v)))) ∧
  (∀ r : Section,
    (r.ceilingLifted = true → r.ceilingInForce = r.nativeCeiling.getD 0) ∧
    (r.ceilingLifted = false → r.ceilingInForce = r.workingCeiling.getD 0)) ∧
  ∀ (s : State) (c : ChannelId) (raw : Nat), s.powered = true → raw ≤ 4095 →
    ((s.scanner.channels.get c).converted = false → exec (.channelSample c.val raw) s = .next s) ∧
    (s.scanner.due = some c →
      ∃ u, exec (.channelSample c.val raw) s = .next u ∧
        (raw < 100 ∨ 4000 < raw → (s.scanner.channels.get c).validity = .bad →
          u = { s with scanner := { s.scanner with
            turn := c.val + 1
            channels := s.scanner.channels.set c
              { s.scanner.channels.get c with raw := raw, run := 0 } } }) ∧
        (100 ≤ raw → raw ≤ 4000 → (s.scanner.channels.get c).validity = .valid →
          (s.scanner.channels.get c).bands.evaluate (s.sec (channelSection c)).limits
            (s.sec (channelSection c)).ceilingInForce
            ((raw - 100) * (if c.val % 2 = 0 then 1000 else 850) / 3900) =
            (s.scanner.channels.get c).bands →
          u = { s with scanner := { s.scanner with
            turn := c.val + 1
            channels := s.scanner.channels.set c
              { s.scanner.channels.get c with
                raw := raw
                value := (raw - 100) * (if c.val % 2 = 0 then 1000 else 850) / 3900
                run := 3 } } }) ∧
        (raw < 100 ∨ 4000 < raw →
          (u.scanner.channels.get c).validity = .bad ∧ (u.scanner.channels.get c).run = 0 ∧
          (u.scanner.channels.get c).bands = (s.scanner.channels.get c).bands) ∧
        (100 ≤ raw → raw ≤ 4000 → (s.scanner.channels.get c).validity = .bad →
          (s.scanner.channels.get c).run < 2 →
          u = { s with scanner := { s.scanner with
            turn := c.val + 1
            channels := s.scanner.channels.set c
              { s.scanner.channels.get c with
                raw := raw
                value := (raw - 100) * (if c.val % 2 = 0 then 1000 else 850) / 3900
                run := (s.scanner.channels.get c).run + 1 } } }) ∧
        (100 ≤ raw → raw ≤ 4000 →
          (s.scanner.channels.get c).validity = .valid ∨ 2 ≤ (s.scanner.channels.get c).run →
          (u.scanner.channels.get c).validity = .valid ∧ (u.scanner.channels.get c).run = 3 ∧
          (u.scanner.channels.get c).bands = (s.scanner.channels.get c).bands.evaluate
            (s.sec (channelSection c)).limits (s.sec (channelSection c)).ceilingInForce
            ((raw - 100) * (if c.val % 2 = 0 then 1000 else 850) / 3900)))

/-- R5, R45, R46, R47, R48, R116: the phase a delivery calls for, what a phase change writes and drives, and the
re-examinations it hands to the RUNNING PROCESS sections below. R40: the crossings
of a change of positions. R49, R50: SENSOR placed when the level channel goes BAD and removed when it returns.
R62, R105, R106, R107: what each crossing hands on, FULL to the feeders and its removal to the holders. R55:
a delivery taken whole, its phase before its SENSOR and that before its crossings; that an entry which SENSOR
brings makes the re-examination is the model's choice (log 22). -/
def Obligations.DeliveryMovesPhaseSensorAndFull : Prop :=
  (∀ a b : Bands, crossings a b =
    (if a.empty = some false ∧ b.empty = some true then [.emptyReached] else []) ++
    (if a.empty = some true ∧ b.empty = some false then [.emptyLeft] else []) ++
    (if a.fillDone = some false ∧ b.fillDone = some true then [.fillDoneReached] else []) ++
    (if a.fillDone = some true ∧ b.fillDone = some false then [.fillDoneLost] else []) ++
    (if a.high = some false ∧ b.high = some true then [.highReached] else []) ++
    (if a.high = some true ∧ b.high = some false then [.highCleared] else []) ++
    (if a.ceiling = some false ∧ b.ceiling = some true then [.ceilingReached] else []) ++
    (if a.ceiling = some true ∧ b.ceiling = some false then [.ceilingCleared] else []) ++
    (if a.sweet = some false ∧ b.sweet = some true then [.sweetOn] else []) ++
    (if a.sweet = some true ∧ b.sweet = some false then [.sweetOff] else [])) ∧
  (∀ (s : State) (d u : SectionId) (w : Delivery),
    (∀ c ∈ [Crossing.highReached, .ceilingReached],
      (w ∈ s.crossingHandings d c → ∃ v, w = .addReason v (.full d)) ∧
      (.addReason u (.full d) ∈ s.crossingHandings d c ↔
        (s.sec d).state ≠ .absent ∧ (s.sec d).state ≠ .excluded ∧
        (∃ l ∈ (s.sec d).upstream, l.id = u) ∧
        ((s.sec u).state = .running ∨ (s.sec u).state = .sweeteningOff ∨
          ((s.sec u).state = .held ∧
            ((s.sec u).heldFrom = some .running ∨ (s.sec u).heldFrom = some .sweeteningOff))))) ∧
    (∀ c ∈ [Crossing.highCleared, .ceilingCleared],
      (w ∈ s.crossingHandings d c → ∃ v, w = .removeReason v (.full d)) ∧
      (.removeReason u (.full d) ∈ s.crossingHandings d c ↔ .full d ∈ (s.sec u).holds)) ∧
    s.crossingHandings d .fillDoneLost =
      (if (s.sec d).state = .filling ∧ ∃ c ∈ s.steam.queue, c.sec = d then [.withdrawClaim d] else []) ∧
    (∀ c ∈ [Crossing.emptyReached, .emptyLeft, .fillDoneReached, .sweetOn, .sweetOff],
      s.crossingHandings d c = []) ∧
    s.runDelivery (.addReason u (.full d)) = s.addReason u (.full d) ∧
    s.runDelivery (.removeReason u (.full d)) = s.removeReason u (.full d) .release) ∧
  (∀ (s : State) (c : ChannelId) (old new : Channel), ∃ told : State,
    s.takeDelivery c old new =
      (if (told.sec (channelSection c)).state = (s.sec (channelSection c)).state then
        told.reexamine (channelSection c) .crossing else told) ∧
    ∃ sensed : State,
      (c.val % 2 = 0 → old.validity = .valid → new.validity = .bad →
        sensed = (s.followPhase (channelSection c)).addReason (channelSection c) .sensor) ∧
      (c.val % 2 = 0 → old.validity = .bad → new.validity = .valid →
        sensed = (s.followPhase (channelSection c)).removeReason (channelSection c) .sensor .release) ∧
      (c.val % 2 = 1 ∨ old.validity = new.validity → sensed = s.followPhase (channelSection c)) ∧
      told = { sensed with
        work := sensed.work ++
          (crossings old.bands new.bands).flatMap (sensed.crossingHandings (channelSection c))
        link := { sensed.link with reports := told.link.reports } } ∧
      ∀ k, k ∈ told.link.reports ↔ k ∈ sensed.link.reports ∨
        (k = .level (channelSection c) ∧ old.validity ≠ new.validity ∧ sensed.link.mask.level = true ∧
          (sensed.sec (channelSection c)).state ≠ .absent ∧
          (sensed.sec (channelSection c)).state ≠ .excluded)) ∧
  (∀ (s : State) (c : ChannelId) (raw : Nat), s.powered = true → raw ≤ 4095 → s.scanner.due = some c →
    ∃ new : Channel, exec (.channelSample c.val raw) s =
      .next (if (s.scanner.channels.get c).validity = new.validity ∧
          crossings (s.scanner.channels.get c).bands new.bands = []
        then { s with scanner := s.scanner.taken c new }
        else (({ s with scanner := s.scanner.taken c new } : State).takeDelivery c
          (s.scanner.channels.get c) new).settle)) ∧
  ∀ (s : State) (i : SectionId),
    ((s.level i).validity = .bad → s.followPhase i = s) ∧
    ((s.level i).validity = .valid →
      ((s.followPhase i).sec i).phase =
        (if (s.level i).bands.empty = some true then .empty
         else if (s.sec i).cls = .storage ∨ (s.solids i).bands.sweet = some true then .sweet
         else .water) ∧
      (((s.followPhase i).sec i).phase = (s.sec i).phase → s.followPhase i = s) ∧
      (((s.followPhase i).sec i).phase ≠ (s.sec i).phase →
        (∃ (x : State) (looks : List Delivery), x = s.followPhase i ∧
          x = { s with
            sections := s.sections.set i { s.sec i with
              phase := (x.sec i).phase, phaseSince := s.campaign.clock, discharge := (x.sec i).discharge }
            lines := { s.lines with
              routeLatch := s.lines.routeLatch.set i
                ((s.lines.routePolarity.get i).drive (s.sec i).intake (x.sec i).discharge) }
            work := s.work ++ looks
            link := { s.link with reports := x.link.reports } } ∧
          (∀ w, w ∈ looks ↔ ∃ d, w = .reexamine d .crossing ∧
            (s.sec i).state ≠ .absent ∧ (s.sec i).state ≠ .excluded ∧ d ∈ (s.sec i).downstream ∧
            (s.sec d).state = .running ∧ (s.sec d).cls = .process) ∧
          (∀ k, k ∈ x.link.reports ↔ k ∈ s.link.reports ∨ (k = .sec i ∧ s.link.mask.sec = true)) ∧
          ((s.sec i).state ≠ .running → (s.sec i).state ≠ .sweeteningOff →
            (x.sec i).discharge = (s.sec i).discharge)) ∧
        ((s.followPhase i).sec i).phaseSince = s.campaign.clock ∧
        ((s.followPhase i).sec i).state = (s.sec i).state ∧
        ((s.followPhase i).sec i).ring = (s.sec i).ring ∧
        ((s.sec i).state = .running ∨ (s.sec i).state = .sweeteningOff →
          ((s.followPhase i).sec i).discharge =
            if ((s.followPhase i).sec i).phase = .sweet then .through else .diverted) ∧
        (s.link.mask.sec = true → .sec i ∈ (s.followPhase i).link.reports)))

/-- R37: a round completes once every converted channel has been taken, and the next begins. R51: the
rounds counted, and the LEVEL reports of a full count. That a completion before the round's last channel is no
event of the scanner is the model's reading (log 34). -/
def Obligations.RoundsCountToLevelReports : Prop :=
  ∀ s : State, s.powered = true →
    ((∃ c : ChannelId, s.scanner.turn ≤ c.val ∧ (s.scanner.channels.get c).converted = true) →
      exec .scanRoundComplete s = .next s) ∧
    ((∀ c : ChannelId, s.scanner.turn ≤ c.val → (s.scanner.channels.get c).converted = false) →
    (s.scanner.prescale = 0 → exec .scanRoundComplete s =
      .next { s with scanner := { s.scanner with turn := 0 } }) ∧
    (s.scanner.round + 1 < s.scanner.prescale → exec .scanRoundComplete s =
      .next { s with scanner := { s.scanner with turn := 0, round := s.scanner.round + 1 } }) ∧
    (0 < s.scanner.prescale → s.scanner.prescale ≤ s.scanner.round + 1 →
      ∃ u, exec .scanRoundComplete s = .next u ∧ u.scanner = { s.scanner with turn := 0, round := 0 } ∧
        u.sections = s.sections ∧ u.link.answers = s.link.answers ∧ u.campaign = s.campaign ∧
        (∀ k, k ∈ u.link.reports ↔ k ∈ s.link.reports ∨
          ∃ i, k = .level i ∧ s.link.mask.level = true ∧ (s.sec i).state ≠ .absent ∧
            (s.sec i).state ≠ .excluded)))

/-! ### Steam (chapter 5) -/

/-- R78: the effective budget. R79, R80: SET BUDGET sets the host budget at once, and sheds, or runs a grant
pass, as the effective budget moves; a repetition changes nothing. -/
def Obligations.SetBudgetSetsHostBudget : Prop :=
  (∀ st : Steam, st.effective ≤ st.hostBudget ∧ (∀ g c, st.caps.get g = some c → st.effective ≤ c) ∧
    (st.effective = st.hostBudget ∨ ∃ g, st.caps.get g = some st.effective)) ∧
  (∀ (now budget : Nat) (st new : Steam), new = { st with hostBudget := budget } →
    (new.effective < new.claimedSum → st.setHost now budget = new.shed now) ∧
    (new.claimedSum ≤ new.effective → st.effective < new.effective →
      st.setHost now budget = new.grantPass now) ∧
    (new.claimedSum ≤ new.effective → new.effective ≤ st.effective → st.setHost now budget = (new, []))) ∧
  (∀ (now : Nat) (g : GroupId) (c : Option Nat) (st new : Steam),
    new = { st with caps := st.caps.set g c } →
    (new.effective < new.claimedSum → st.setCap now g c = new.shed now) ∧
    (new.claimedSum ≤ new.effective → st.effective < new.effective →
      st.setCap now g c = new.grantPass now) ∧
    (new.claimedSum ≤ new.effective → new.effective ≤ st.effective → st.setCap now g c = (new, []))) ∧
  ∀ (s : State) (t : Telegram) (budget : Nat), s.taking .setBudget t (.oneId budget) →
    s.acceptedAs .setBudget t (s.steamChange (Steam.setHost s.campaign.clock budget)).settle ∧
    (∃ u, exec .setBudget s = .next u ∧ u.steam.hostBudget = budget ∧
      u.link.answers = s.link.answers ++ [{ kind := t.kind + 0x80#8, tag := t.tag, body := [0, 0] }] ∧
      u.trips = s.trips ∧ u.scanner = s.scanner ∧ u.store = s.store ∧
      u.campaign.clock = s.campaign.clock) ∧
    (s.steam.hostBudget = budget → s.steamLaw → s.work = [] → s.acceptedAs .setBudget t s)

/-- R81: a steam request is granted at once, or queued. R84, R85: a release and a withdrawal, each with a
grant pass behind it. R87: claims shed newest first until the sum fits, then queued in the order taken. R83,
R85, R88: what the section table does with a grant, a STEAM reason and its removal. R82: a grant pass takes
claims from the head of the queue while the head fits, and stops at the first that does not. That the notices of
a change are taken inside it, in the order it made them, and that the STEAM report joins the pending set before
them, are the model's reading and choice (logs 6 and 35). -/
def Obligations.SteamAllocatorGrantsReleasesAndSheds : Prop :=
  (∀ (now : Nat) (i : SectionId) (demand : Nat) (held : Bool) (st : Steam),
    ((∃ c ∈ st.claims ++ st.queue, c.sec = i) → st.request now i demand held = (st, [])) ∧
    ((∀ c ∈ st.claims ++ st.queue, c.sec ≠ i) →
      (demand = 0 → st.request now i demand held = (st, [.grant i])) ∧
      (demand ≠ 0 → st.queue = [] → st.claimedSum + demand ≤ st.effective →
        st.request now i demand held =
          ({ st with claims := st.claims ++ [{ sec := i, demand, since := now }] }, [.grant i])) ∧
      (demand ≠ 0 → st.queue ≠ [] ∨ st.effective < st.claimedSum + demand →
        st.request now i demand held =
          ({ st with queue := st.queue ++ [{ sec := i, demand, since := now }] },
            if held = true then [.steam i] else [])))) ∧
  (∀ (now : Nat) (i : SectionId) (st : Steam),
    ((∃ c ∈ st.claims, c.sec = i) → st.release now i =
      ({ st with claims := st.claims.filter fun c => c.sec ≠ i } : Steam).grantPass now) ∧
    ((∀ c ∈ st.claims, c.sec ≠ i) → st.release now i = st.withdraw now i) ∧
    ((∃ c ∈ st.queue, c.sec = i) → st.withdraw now i =
      ((({ st with queue := st.queue.filter fun c => c.sec ≠ i } : Steam).grantPass now).1,
        .lift i :: (({ st with queue := st.queue.filter fun c => c.sec ≠ i } : Steam).grantPass now).2)) ∧
    ((∀ c ∈ st.queue, c.sec ≠ i) → st.withdraw now i = (st, []))) ∧
  (∀ (now : Nat) (st : Steam), ∃ kept taken : List Claim,
    st.claims = kept ++ taken.reverse ∧
    (kept.map Claim.demand).sum ≤ st.effective ∧
    (∀ c first, taken = first ++ [c] → st.effective < (kept.map Claim.demand).sum + c.demand) ∧
    (st.shed now).1 = (({ st with
      claims := kept
      queue := st.queue ++ taken.map fun c => { c with since := now } } : Steam).grantPass now).1 ∧
    (st.shed now).2 = taken.map (fun c => .steam c.sec) ++ (({ st with
      claims := kept
      queue := st.queue ++ taken.map fun c => { c with since := now } } : Steam).grantPass now).2) ∧
  (∀ (s : State) (i : SectionId),
    ((s.sec i).state = .filling → s.takeNotice (.grant i) = s.enterState i .conditioning .grant) ∧
    ((s.sec i).state ≠ .filling → .steam ∈ (s.sec i).holds →
      s.takeNotice (.grant i) = s.removeReason i .steam .grant) ∧
    ((s.sec i).state ≠ .filling → .steam ∉ (s.sec i).holds →
      s.takeNotice (.grant i) = { s with work := s.work ++ [.releaseClaim i] }) ∧
    s.takeNotice (.steam i) = s.addReason i .steam ∧
    s.takeNotice (.lift i) = s.removeReason i .steam .release ∧
    s.runDelivery (.releaseClaim i) = s.steamChange (Steam.release s.campaign.clock i) ∧
    s.runDelivery (.withdrawClaim i) = s.steamChange (Steam.withdraw s.campaign.clock i)) ∧
  (∀ (s : State) (f : Steam → Steam × List SteamNotice),
    ((f s.steam).1 = s.steam → s.steamChange f = (f s.steam).2.foldl State.takeNotice s) ∧
    ((f s.steam).1 ≠ s.steam → s.steamChange f = (f s.steam).2.foldl State.takeNotice
      (({ s with steam := (f s.steam).1 } : State).report .steam))) ∧
  ∀ (now : Nat) (st : Steam), ∃ granted : List Claim,
    st.queue = granted ++ (st.grantPass now).1.queue ∧
    (st.grantPass now).1.claims = st.claims ++ granted.map (fun c => { c with since := now }) ∧
    (st.grantPass now).2 = granted.map (fun c => SteamNotice.grant c.sec) ∧
    (st.claimedSum ≤ st.effective → (st.grantPass now).1.claimedSum ≤ st.effective) ∧
    ∀ c rest, (st.grantPass now).1.queue = c :: rest →
      st.effective < (st.grantPass now).1.claimedSum + c.demand

/-! ### Units (chapter 8) -/

/-- R134: a coverage request takes the lowest-numbered free spare of the class, or else the tail of the
queue. R135: a covering spare that fails leaves its duty unit to the lowest-numbered free spare of the class,
or else at the head. R130, R131: a unit's fault input becomes ACTIVE, or INACTIVE. -/
def Obligations.FaultInputMovesCondition : Prop :=
  (∀ (us : UnitSupervisor) (u : UnitId), (us.units.get u).role = .duty →
    (∀ sp, us.lowest (us.units.get u).cls sp →
      us.covers (us.requestCoverage u) sp u us.demands) ∧
    ((∀ sp, ¬ us.free (us.units.get u).cls sp) → us.requestCoverage u =
      { us with demands := us.demands ++ [{ unit := u, cls := (us.units.get u).cls }] })) ∧
  (∀ (us freed : UnitSupervisor) (sp u : UnitId), (us.units.get u).role = .duty →
    (us.units.get sp).role = .spare → freed = us.uncover sp u →
    freed = { us with units := freed.units } ∧
    (∀ v, freed.units.get v =
      if v = sp then { us.units.get v with covering := none }
      else if v = u then { us.units.get v with coveredBy := none }
      else us.units.get v) ∧
    (∀ other, freed.lowest (us.units.get u).cls other →
      freed.covers (us.dropCovering sp u) other u us.demands) ∧
    ((∀ other, ¬ freed.free (us.units.get u).cls other) → us.dropCovering sp u =
      { freed with demands := { unit := u, cls := (us.units.get u).cls } :: us.demands })) ∧
  (∀ (secs : Table Section 24) (us failed : UnitSupervisor) (u : UnitId),
    failed = { us with
      units := us.units.set u { us.units.get u with condition := .failed, window := none }
      watch := us.watch.filter fun w => w ≠ u } →
    (∀ i, (us.units.get u).role = .duty → (us.units.get u).sec = some i →
      ((secs.get i).state ≠ .absent → (secs.get i).state ≠ .excluded →
        us.fail secs u = failed.requestCoverage u) ∧
      ((secs.get i).state = .absent ∨ (secs.get i).state = .excluded → us.fail secs u = failed)) ∧
    ((us.units.get u).role = .spare →
      (∀ d, (us.units.get u).covering = some d → us.fail secs u = failed.dropCovering u d) ∧
      ((us.units.get u).covering = none → us.fail secs u = failed))) ∧
  (∀ (s : State) (u : UnitId), s.powered = true → (s.supervisor.units.get u).role ≠ .none →
    ((s.supervisor.units.get u).faultActive = false → (s.supervisor.units.get u).condition = .healthy →
      (s.supervisor.units.get u).runOutput = false ∨ u ∈ s.supervisor.watch →
      exec (.faultInputActive u.val) s = .next (s.supervise fun us =>
        ({ us with units := us.units.set u { us.units.get u with faultActive := true } } :
          UnitSupervisor).fail s.sections u).settle) ∧
    ((s.supervisor.units.get u).faultActive = true →
      (s.supervisor.units.get u).condition = .faultPending →
      exec (.faultInputInactive u.val) s = .next (s.supervise fun us =>
        ({ us with
          units := us.units.set u
            { us.units.get u with faultActive := false, condition := .healthy, window := none }
          watch := if us.watch.length < 16 then us.watch ++ [u] else (us.watch ++ [u]).tail } :
          UnitSupervisor).offer u).settle)) ∧
  ∀ (s : State) (u : UnitId), s.powered = true →
    ((s.supervisor.units.get u).faultActive = true → exec (.faultInputActive u.val) s = .next s) ∧
    ((s.supervisor.units.get u).faultActive = false → exec (.faultInputInactive u.val) s = .next s) ∧
    ((s.supervisor.units.get u).faultActive = false →
      ∃ t, exec (.faultInputActive u.val) s = .next t ∧
        (t.supervisor.units.get u).faultActive = true ∧
        (∀ v, v ≠ u → (t.supervisor.units.get v).condition = (s.supervisor.units.get v).condition ∧
          (t.supervisor.units.get v).faultActive = (s.supervisor.units.get v).faultActive ∧
          (t.supervisor.units.get v).window = (s.supervisor.units.get v).window) ∧
        ((s.supervisor.units.get u).role = .none ∨ (s.supervisor.units.get u).condition ≠ .healthy →
          (t.supervisor.units.get u).condition = (s.supervisor.units.get u).condition ∧
          t.supervisor.watch = s.supervisor.watch) ∧
        ((s.supervisor.units.get u).role ≠ .none → (s.supervisor.units.get u).condition = .healthy →
          ((s.supervisor.units.get u).runOutput = true → u ∉ s.supervisor.watch →
            (t.supervisor.units.get u).condition = .faultPending ∧
            (t.supervisor.units.get u).window = some s.supervisor.window ∧
            t.supervisor.watch = s.supervisor.watch) ∧
          ((s.supervisor.units.get u).runOutput = false ∨ u ∈ s.supervisor.watch →
            (t.supervisor.units.get u).condition = .failed ∧
            (t.supervisor.units.get u).window = none ∧
            t.supervisor.watch = s.supervisor.watch.filter fun w => w ≠ u))) ∧
    ((s.supervisor.units.get u).faultActive = true →
      ∃ t, exec (.faultInputInactive u.val) s = .next t ∧
        (t.supervisor.units.get u).faultActive = false ∧
        (∀ v, v ≠ u → (t.supervisor.units.get v).condition = (s.supervisor.units.get v).condition) ∧
        ((s.supervisor.units.get u).role ≠ .none →
          (s.supervisor.units.get u).condition = .faultPending →
          (t.supervisor.units.get u).condition = .healthy ∧
          (t.supervisor.units.get u).window = none ∧
          t.supervisor.watch = (if s.supervisor.watch.length < 16 then s.supervisor.watch ++ [u]
            else (s.supervisor.watch ++ [u]).tail)) ∧
        ((s.supervisor.units.get u).role = .none ∨
            (s.supervisor.units.get u).condition ≠ .faultPending →
          (t.supervisor.units.get u).condition = (s.supervisor.units.get u).condition ∧
          t.supervisor.watch = s.supervisor.watch))

/-- R131: the supervisor's tick counts every open window down by 1 (that a window reads 0 between the
tick and its expiry is the model's choice, log 10), and a window that has run out with the input ACTIVE
makes the unit FAILED, with the coverage that R134 and R135 give. -/
def Obligations.RecoveryWindowRunsOut : Prop :=
  (∀ s : State, s.powered = true → exec .unitSupervisorTick s =
    .next { s with supervisor := { s.supervisor with units := s.supervisor.units.map fun r =>
      { r with window := r.window.map fun w => w - 1 } } }) ∧
  ∀ (s : State) (u : UnitId), s.powered = true →
    ((s.supervisor.units.get u).condition ≠ .faultPending ∨
        (s.supervisor.units.get u).window ≠ some 0 ∨ (s.supervisor.units.get u).faultActive = false →
      exec (.recoveryWindowExpiry u.val) s = .next s) ∧
    ((s.supervisor.units.get u).condition = .faultPending →
      (s.supervisor.units.get u).window = some 0 → (s.supervisor.units.get u).faultActive = true →
      (s.supervisor.units.get u).role ≠ .none →
      ∃ t, exec (.recoveryWindowExpiry u.val) s = .next t ∧
        t = (s.supervise fun us => us.fail s.sections u).settle ∧
        (t.supervisor.units.get u).condition = .failed ∧ (t.supervisor.units.get u).window = none ∧
        (t.supervisor.units.get u).runOutput = false ∧
        ∀ v, v ≠ u → (t.supervisor.units.get v).condition = (s.supervisor.units.get v).condition)

/-- R136: a free spare offered takes the entry nearest the head of the queue that has its class. R137:
RETURN UNIT, with its refusals in their order; a duty unit's covering spare is freed and offered, its queued
demand removed, and a returned spare offered. -/
def Obligations.ReturnUnitHealsUnit : Prop :=
  (∀ (us : UnitSupervisor) (sp : UnitId),
    (¬ us.free (us.units.get sp).cls sp → us.offer sp = us) ∧
    ((∀ d ∈ us.demands, d.cls ≠ (us.units.get sp).cls) → us.offer sp = us) ∧
    ∀ front d rest, us.free (us.units.get sp).cls sp → us.demands = front ++ d :: rest →
      (∀ e ∈ front, e.cls ≠ (us.units.get sp).cls) → d.cls = (us.units.get sp).cls →
      (us.demands.map SpareDemand.unit).Nodup → (us.units.get d.unit).role = .duty →
      us.covers (us.offer sp) sp d.unit (front ++ rest)) ∧
  (∀ (us well : UnitSupervisor) (u : UnitId),
    well = { us with units := us.units.set u { us.units.get u with condition := .healthy, window := none } } →
    ((us.units.get u).role = .duty →
      (∀ sp, (us.units.get u).coveredBy = some sp → us.giveBack u = (well.uncover sp u).offer sp) ∧
      ((us.units.get u).coveredBy = none →
        us.giveBack u = { well with demands := us.demands.filter fun d => d.unit ≠ u })) ∧
    ((us.units.get u).role = .spare → us.giveBack u = well.offer u)) ∧
  ∀ (s : State) (t : Telegram) (id : Nat), s.taking .returnUnit t (.oneId id) →
    (48 ≤ id → s.refusedAs .returnUnit t .noUnit) ∧
    ∀ u : UnitId, u.val = id →
      ((s.supervisor.units.get u).role = .none → s.refusedAs .returnUnit t .noUnit) ∧
      ((s.supervisor.units.get u).role ≠ .none →
        ((s.supervisor.units.get u).faultActive = true → s.refusedAs .returnUnit t .active) ∧
        ((s.supervisor.units.get u).faultActive = false →
          ((s.supervisor.units.get u).condition ≠ .failed → s.refusedAs .returnUnit t .state) ∧
          ((s.supervisor.units.get u).condition = .failed →
            ∃ v, s.acceptedAs .returnUnit t v ∧
              (v.supervisor.units.get u).condition = .healthy ∧
              (v.supervisor.units.get u).window = none ∧
              (∀ w, w ≠ u →
                (v.supervisor.units.get w).condition = (s.supervisor.units.get w).condition) ∧
              v.supervisor.watch = s.supervisor.watch ∧ v.trips = s.trips ∧ v.scanner = s.scanner ∧
              v = (s.supervise fun us => us.giveBack u).settle)))

/-- R139, R140, R141, R144: what a change of the unit supervisor's record hands on: the available count of
each section, UNITS for a section that becomes short and its removal for one that ceases to be, the spare
supply, and the UNIT reports. R129: the run outputs a change and a state entry re-evaluate. R142: SET UNITS,
with its refusals in their order; an accepted one is such a change of the record. -/
def Obligations.PoolChangesHandOnUnitsAndSupply : Prop :=
  ((∀ (us : UnitSupervisor) (r : Section), us.available r = r.dutyUnits.countP fun u => decide
      ((us.units.get u).condition ≠ .failed ∨
        ∃ sp, (us.units.get u).coveredBy = some sp ∧ (us.units.get sp).condition ≠ .failed)) ∧
    (∀ us : UnitSupervisor, us.freeCount = us.units.items.countP fun r => decide
      (r.role = .spare ∧ r.condition = .healthy ∧ r.covering = none)) ∧
    (∀ (s : State) (new : UnitSupervisor),
      (s.putUnits new).supervisor = { new with short := (s.putUnits new).supervisor.short } ∧
      (∀ i, (s.putUnits new).supervisor.short.get i = true ↔
        new.available (s.sec i) < (s.sec i).minUnits) ∧
      (s.putUnits new).sections = s.sections ∧ (s.putUnits new).campaign = s.campaign ∧
      (s.putUnits new).steam = s.steam ∧ (s.putUnits new).trips = s.trips ∧
      (∀ u, (s.putUnits new).lines.runLatch.get u =
        (s.lines.runPolarity.get u).level (new.units.get u).runOutput) ∧
      (∃ units supply, (s.putUnits new).work = s.work ++ units ++ supply ∧
        (∀ w, w ∈ units ↔ ∃ i,
          (w = .addReason i .units ∧ s.supervisor.short.get i = false ∧
            (s.putUnits new).supervisor.short.get i = true) ∨
          (w = .removeReason i .units ∧ s.supervisor.short.get i = true ∧
            (s.putUnits new).supervisor.short.get i = false)) ∧
        supply = if s.supervisor.freeCount = new.freeCount ∧ s.supervisor.reserve = new.reserve then []
          else [.spareSupply new.freeCount new.reserve]) ∧
      ∀ k, k ∈ (s.putUnits new).link.reports ↔ k ∈ s.link.reports ∨ ∃ u, k = .unit u ∧
        s.link.mask.unit = true ∧
        ((s.supervisor.units.get u).faultActive ≠ (new.units.get u).faultActive ∨
          (s.supervisor.units.get u).condition ≠ (new.units.get u).condition ∨
          (s.supervisor.units.get u).covering ≠ (new.units.get u).covering ∨
          (s.supervisor.units.get u).coveredBy ≠ (new.units.get u).coveredBy ∨
          (s.supervisor.units.get u).runOutput ≠ (new.units.get u).runOutput ∨
          ¬ (u ∈ s.supervisor.watch ↔ u ∈ new.watch) ∨
          ¬ ((∃ d ∈ s.supervisor.demands, d.unit = u) ↔ ∃ d ∈ new.demands, d.unit = u))) ∧
    (∀ (s : State) (f : UnitSupervisor → UnitSupervisor), ∃ new : UnitSupervisor,
      s.supervise f = s.putUnits new ∧ new = { f s.supervisor with units := new.units } ∧
      ∀ u, new.units.get u =
        if (s.supervisor.units.get u).condition ≠ ((f s.supervisor).units.get u).condition ∨
          (s.supervisor.units.get u).covering ≠ ((f s.supervisor).units.get u).covering ∨
          (s.supervisor.units.get u).coveredBy ≠ ((f s.supervisor).units.get u).coveredBy
        then { (f s.supervisor).units.get u with runOutput := (f s.supervisor).runs s.sections u }
        else (f s.supervisor).units.get u) ∧
    (∀ (s : State) (i : SectionId), ∃ new : UnitSupervisor,
      s.runDelivery (.runDemand i) = s.putUnits new ∧ new = { s.supervisor with units := new.units } ∧
      ∀ u, new.units.get u =
        if u ∈ (s.sec i).dutyUnits ∨ ∃ d ∈ (s.sec i).dutyUnits, (s.supervisor.units.get d).coveredBy = some u
        then { s.supervisor.units.get u with runOutput := s.supervisor.runs s.sections u }
        else s.supervisor.units.get u) ∧
    ∀ (s : State) (i : SectionId),
      s.runDelivery (.addReason i .units) = s.addReason i .units ∧
      s.runDelivery (.removeReason i .units) = s.removeReason i .units .release) ∧
  ∀ (s : State) (t : Telegram) (id minimum reserve window : Nat),
    s.taking .setUnits t (.units id minimum reserve window) →
    (s.named id = none → s.refusedAs .setUnits t .noSection) ∧
    ∀ i, s.named id = some i →
      (4 < minimum ∨ (s.sec i).dutyUnits.length < minimum ∨ 8 < reserve ∨ window < 1 ∨ 60 < window →
        s.refusedAs .setUnits t .range) ∧
      (minimum ≤ 4 → minimum ≤ (s.sec i).dutyUnits.length → reserve ≤ 8 → 1 ≤ window → window ≤ 60 →
        ∃ u, s.acceptedAs .setUnits t u ∧ (u.sec i).minUnits = minimum ∧
          u.supervisor.reserve = reserve ∧ u.supervisor.window = window ∧
          CascadeFrame { s.setSec i { s.sec i with minUnits := minimum } with
            supervisor := { s.supervisor with reserve := reserve, window := window } } u ∧
          s.setUnits i minimum reserve window =
            (s.setSec i { s.sec i with minUnits := minimum }).putUnits
              { s.supervisor with reserve := reserve, window := window } ∧
          u = (s.setUnits i minimum reserve window).settle)

/-! ### Trips (chapter 9) -/

/-- R154: SET GROUP, with its refusals in their order; a group with an active input trips at once, with the
lowest-numbered one as its first cause and all that a trip hands on (`ForceAndClearTripGroup`), before the answer.
Members and input set stand in ascending id, an id named twice once. That the limit of 24 members counts the entries
as sent is the model's choice (log 38), and so is the ascending order of the active inputs (log 46). -/
def Obligations.SetGroupConfiguresGroup : Prop :=
  ∀ (s : State) (t : Telegram) (id : Nat) (members inputs : List Nat) (mode p : Nat) (cap : Option Nat),
    s.taking .setGroup t (.group id members inputs mode p cap) →
    (4 ≤ id ∨ (∃ k ∈ inputs, 7 < k) ∨ 24 < members.length → s.refusedAs .setGroup t .range) ∧
    ∀ g : GroupId, g.val = id → (∀ k ∈ inputs, k ≤ 7) → members.length ≤ 24 →
      ((∃ m ∈ members, s.named m = none) → s.refusedAs .setGroup t .noSection) ∧
      ((∀ m ∈ members, s.named m ≠ none) →
        ((s.group g).state = .tripped → s.refusedAs .setGroup t .state) ∧
        ((s.group g).state = .normal →
          ∃ u, s.acceptedAs .setGroup t u ∧
            (∀ i : SectionId, i ∈ (u.group g).members ↔ i.val ∈ members) ∧
            (∀ k : InputId, k ∈ (u.group g).inputs ↔ k.val ∈ inputs) ∧
            (u.group g).members.Pairwise (· < ·) ∧ (u.group g).inputs.Pairwise (· < ·) ∧
            (u.group g).mode = (if mode = 0 then .latched else .selfClearing) ∧
            (u.group g).cap = cap ∧
            (u.group g).activeInputs = (u.group g).inputs.filter (fun k => (s.trips.inputs.get k).active) ∧
            ((u.group g).activeInputs = [] → (u.group g).state = .normal) ∧
            (∀ k rest, (u.group g).activeInputs = k :: rest →
              (u.group g).state = .tripped ∧ (u.group g).firstCause = some (.input k) ∧
              ∀ k' ∈ (u.group g).activeInputs, k ≤ k') ∧
            (∀ h, h ≠ g → u.group h = s.group h) ∧
            ∃ set changed : State,
              set = { s with trips := { s.trips with groups := s.trips.groups.set g { s.group g with
                members := (u.group g).members, inputs := (u.group g).inputs, mode := (u.group g).mode
                cap := cap, activeInputs := (u.group g).activeInputs } } } ∧
              ((u.group g).activeInputs = [] → changed = set.report (.trip g)) ∧
              (∀ k rest, (u.group g).activeInputs = k :: rest →
                changed = set.tripGroup g (.input k) (k :: rest) (s.group g).forced) ∧
              u = changed.settle))

/-- R148, R149: a group that trips hands TRIP(g) to every member in a working state or HELD, its cap, if any, to
the steam allocator, and a re-examination to every member. R151: a group that clears hands the removal of TRIP(g)
to every section that holds it, the removal of its cap, and a re-examination to every member. R78, R95, R97, R99:
how these are taken. R152, R153: FORCE TRIP and CLEAR TRIP, with their refusals in their order. -/
def Obligations.ForceAndClearTripGroup : Prop :=
  (∀ (s : State) (g : GroupId) (cause : FirstCause) (active : List InputId) (forced : Bool),
    ∃ (x : State) (places caps : List Delivery), x = s.tripGroup g cause active forced ∧
      x = { s with
        trips := { s.trips with groups := s.trips.groups.set g { s.group g with
          state := .tripped, firstCause := some cause, activeInputs := active, forced := forced } }
        work := s.work ++ places ++ caps ++ ((s.group g).members.map fun i => .reexamine i .other)
        link := { s.link with reports := x.link.reports } } ∧
      (∀ w, w ∈ places ↔ ∃ i ∈ (s.group g).members, w = .addReason i (.trip g) ∧
        (s.sec i).state ∈ [.filling, .conditioning, .circulating, .running, .sweeteningOff, .draining, .held]) ∧
      ((s.group g).cap = none → caps = []) ∧
      (∀ c, (s.group g).cap = some c → caps = [.cap g (some c)]) ∧
      ∀ k, k ∈ x.link.reports ↔ k ∈ s.link.reports ∨ (k = .trip g ∧ s.link.mask.trip = true)) ∧
  (∀ (s : State) (g : GroupId),
    ∃ (x : State) (lifts caps : List Delivery), x = s.clearGroup g ∧
      x = { s with
        trips := { s.trips with groups := s.trips.groups.set g { s.group g with
          state := .normal, firstCause := none, activeInputs := [], forced := false } }
        work := s.work ++ lifts ++ caps ++ ((s.group g).members.map fun i => .reexamine i .other)
        link := { s.link with reports := x.link.reports } } ∧
      (∀ w, w ∈ lifts ↔ ∃ i, w = .removeReason i (.trip g) ∧ .trip g ∈ (s.sec i).holds) ∧
      ((s.group g).cap = none → caps = []) ∧
      (∀ c, (s.group g).cap = some c → caps = [.cap g none]) ∧
      ∀ k, k ∈ x.link.reports ↔ k ∈ s.link.reports ∨ (k = .trip g ∧ s.link.mask.trip = true)) ∧
  (∀ (s : State) (g : GroupId) (i : SectionId) (c : Option Nat),
    s.runDelivery (.addReason i (.trip g)) = s.addReason i (.trip g) ∧
    s.runDelivery (.removeReason i (.trip g)) = s.removeReason i (.trip g) .release ∧
    s.runDelivery (.cap g c) = s.steamChange (Steam.setCap s.campaign.clock g c)) ∧
  (∀ (s : State) (g : GroupId),
    ((s.group g).state = .normal → s.forceGroup g = s.tripGroup g .forced (s.group g).activeInputs true) ∧
    ((s.group g).state = .tripped → (s.group g).forced = true → s.forceGroup g = s) ∧
    ((s.group g).state = .tripped → (s.group g).forced = false →
      s.forceGroup g = ({ s with
        trips := { s.trips with groups := s.trips.groups.set g { s.group g with forced := true } } } :
        State).report (.trip g))) ∧
  ∀ (s : State) (t : Telegram) (id : Nat),
    (s.taking .forceTrip t (.oneId id) →
      (4 ≤ id → s.refusedAs .forceTrip t .range) ∧
      ∀ g : GroupId, g.val = id → ∃ u, s.acceptedAs .forceTrip t u ∧
        u = (s.forceGroup g).settle ∧ (u.group g).state = .tripped ∧ (u.group g).forced = true ∧
        (u.group g).firstCause =
          (if (s.group g).state = .normal then some .forced else (s.group g).firstCause) ∧
        (u.group g).activeInputs = (s.group g).activeInputs ∧
        (u.group g).members = (s.group g).members ∧ ∀ h, h ≠ g → u.group h = s.group h) ∧
    (s.taking .clearTrip t (.oneId id) →
      (4 ≤ id → s.refusedAs .clearTrip t .range) ∧
      ∀ g : GroupId, g.val = id →
        ((s.group g).state = .normal → s.refusedAs .clearTrip t .state) ∧
        ((s.group g).state = .tripped →
          ((∃ k ∈ (s.group g).inputs, (s.trips.inputs.get k).active = true) →
            s.refusedAs .clearTrip t .active) ∧
          ((∀ k ∈ (s.group g).inputs, (s.trips.inputs.get k).active = false) →
            ∃ u, s.acceptedAs .clearTrip t u ∧ u = (s.clearGroup g).settle ∧
              (u.group g).state = .normal ∧ (u.group g).firstCause = none ∧
              (u.group g).forced = false ∧ (u.group g).activeInputs = [] ∧
              (u.group g).members = (s.group g).members ∧ ∀ h, h ≠ g → u.group h = s.group h)))

/-- R148, R150: how a group takes the event of one of its inputs, by its state, mode and forced flag; a trip and a
clearing hand on what `ForceAndClearTripGroup` gives. R146, R148, R150: a trip input becomes active, or inactive,
and each group that holds it takes the event; no other group changes. That the active inputs are listed in the order
of the input set is the model's choice (log 46), and the groups take the event in a free order (log 3). -/
def Obligations.TripInputMovesItsGroups : Prop :=
  (∀ (s : State) (i : InputId) (g : GroupId), ∃ active : List InputId,
    active = (s.group g).inputs.filter (fun k => (s.trips.inputs.get k).active) ∧
    ((s.group g).state = .normal →
      s.groupInputActive i g = s.tripGroup g (.input i) active (s.group g).forced) ∧
    ((s.group g).state = .tripped →
      s.groupInputActive i g = ({ s with
        trips := { s.trips with groups := s.trips.groups.set g { s.group g with activeInputs := active } } } :
        State).report (.trip g)) ∧
    ∃ left : State,
      left = ({ s with
        trips := { s.trips with groups := s.trips.groups.set g { s.group g with activeInputs := active } } } :
        State).report (.trip g) ∧
      ((s.group g).state = .tripped ∧ (s.group g).mode = .selfClearing ∧ (s.group g).forced = false ∧
        active = [] → s.groupInputInactive g = left.clearGroup g) ∧
      ((s.group g).state = .normal ∨ (s.group g).mode = .latched ∨ (s.group g).forced = true ∨
        active ≠ [] → s.groupInputInactive g = left)) ∧
  (∀ (s : State) (i : InputId) (now : Bool), s.powered = true → (s.trips.inputs.get i).active = !now →
    ∃ (groups : List GroupId) (start u : State),
      groups.Nodup ∧ (∀ g, g ∈ groups ↔ i ∈ (s.group g).inputs) ∧
      start = { s with
        trips := { s.trips with inputs := s.trips.inputs.set i { s.trips.inputs.get i with
          level := (s.trips.inputs.get i).polarity.level now, active := now } }
        order := start.order, drawn := start.drawn } ∧
      (now = true → exec (.tripInputActive i.val) s = .next u ∧
        u = (groups.foldl (fun x g => x.groupInputActive i g) start).settle) ∧
      (now = false → exec (.tripInputInactive i.val) s = .next u ∧
        u = (groups.foldl (fun x g => x.groupInputInactive g) start).settle)) ∧
  ∀ (s : State) (i : InputId), s.powered = true →
    ((s.trips.inputs.get i).active = true → exec (.tripInputActive i.val) s = .next s) ∧
    ((s.trips.inputs.get i).active = false → exec (.tripInputInactive i.val) s = .next s) ∧
    ((s.trips.inputs.get i).active = false →
      ∃ u, exec (.tripInputActive i.val) s = .next u ∧ (u.trips.inputs.get i).active = true ∧
        (∀ j, j ≠ i → u.trips.inputs.get j = s.trips.inputs.get j) ∧
        (∀ g, i ∉ (s.group g).inputs → u.group g = s.group g) ∧
        ∀ g, i ∈ (s.group g).inputs →
          (u.group g).state = .tripped ∧ i ∈ (u.group g).activeInputs ∧
          (u.group g).firstCause =
            (if (s.group g).state = .normal then some (.input i) else (s.group g).firstCause)) ∧
    ((s.trips.inputs.get i).active = true →
      ∃ u, exec (.tripInputInactive i.val) s = .next u ∧ (u.trips.inputs.get i).active = false ∧
        (∀ j, j ≠ i → u.trips.inputs.get j = s.trips.inputs.get j) ∧
        (∀ g, i ∉ (s.group g).inputs → u.group g = s.group g) ∧
        ∀ g, i ∈ (s.group g).inputs →
          i ∉ (u.group g).activeInputs ∧
          ((s.group g).state = .tripped → (s.group g).mode = .selfClearing →
            (s.group g).forced = false →
            (∀ k ∈ (s.group g).inputs, k ≠ i → (s.trips.inputs.get k).active = false) →
            (u.group g).state = .normal ∧ (u.group g).firstCause = none) ∧
          ((s.group g).state = .tripped →
            (s.group g).mode = .latched ∨ (s.group g).forced = true ∨
              (∃ k ∈ (s.group g).inputs, k ≠ i ∧ (s.trips.inputs.get k).active = true) →
            (u.group g).state = .tripped ∧ (u.group g).firstCause = (s.group g).firstCause))

/-! ### The option store and SET REPORTING (chapters 10 and 11) -/

/-- R173: WRITE SITE PART, with its refusals in their order. -/
def Obligations.WriteSitePartStagesPart : Prop :=
  ∀ (s : State) (t : Telegram) (b : Byte) (bs : List Byte),
    s.taking .writeSitePart t (.sitePart (b :: bs)) →
    (s.campaign.state ≠ .closed → s.refusedAs .writeSitePart t .campaign) ∧
    (s.campaign.state = .closed → 8 ≤ b.toNat → s.refusedAs .writeSitePart t .range) ∧
    ∀ k : PartId, s.campaign.state = .closed → k.val = b.toNat →
      s.acceptedAs .writeSitePart t
        { s with site := { s.site with staging := s.site.staging.set k (some (b :: bs)) } }

/-- R171: the eight parts are read exactly where their lengths fit, into the fields at these places. R174: the
checks of the eight parts; that a count of more than 8 characters in a label or in the site name is among the RANGE
checks is the model's reading (log 32), and a presence code of 2 or more calls for no value in the model's choice
(log 43). R174: COMMIT SITE RECORD, with its refusals in their order, and the completion of its write. R161, R167:
its answer is queued and the request leaves the buffer, or the answer is not queued where a line break has dropped
it (the model's reading, log 30). -/
def Obligations.CommitWritesSiteRecord : Prop :=
  (∀ parts : Table (List Byte) 8,
    (readSite parts = none → siteRefusal parts = some .range) ∧
    (∀ w, readSite parts = some w ↔
      (parts.get 0).length = 58 ∧ (parts.get 5).length = 145 ∧ (parts.get 6).length = 145 ∧
      w.trip.length = 8 ∧ w.slots.length = 24 ∧ w.units.length = 48 ∧ w.routes.length = 96 ∧
      w.runs.length = 48 ∧
      w.rate = ((parts.get 0).getD 1 0).toNat ∧
      (∀ k < 8, w.trip.getD k 0 = ((parts.get 0).getD (2 + k) 0).toNat) ∧
      (∀ i < 24, w.slots.getD i (0, 0) =
        (((parts.get 0).getD (10 + 2 * i) 0).toNat, ((parts.get 0).getD (11 + 2 * i) 0).toNat)) ∧
      (∀ u < 48, w.units.getD u (0, (0, 0)) =
        (((parts.get 5).getD (1 + 3 * u) 0).toNat, (((parts.get 5).getD (2 + 3 * u) 0).toNat,
          ((parts.get 5).getD (3 + 3 * u) 0).toNat))) ∧
      (∀ k < 96, w.routes.getD k 0 = ((parts.get 6).getD (1 + k) 0).toNat) ∧
      (∀ u < 48, w.runs.getD u 0 = ((parts.get 6).getD (97 + u) 0).toNat) ∧
      w.names.length = 24 ∧ w.links.length = 24 ∧
      (∃ low high last : Byte,
        parts.get 1 = low :: (w.names.take 12).flatMap (fun p =>
          byte p.1.length :: p.1.map byte ++ byte p.2.1 :: (p.2.2.map word).getD []) ∧
        parts.get 2 = high :: (w.names.drop 12).flatMap (fun p =>
          byte p.1.length :: p.1.map byte ++ byte p.2.1 :: (p.2.2.map word).getD []) ∧
        parts.get 7 = last :: byte w.siteName.length :: w.siteName.map byte ++ [byte w.issue]) ∧
      (∀ p ∈ w.names, p.2.2.isSome = true ↔ p.2.1 = 1) ∧
      (∃ low high : Byte,
        parts.get 3 = low :: (w.links.take 12).flatMap (fun p =>
          (byte p.1.length :: p.1.flatMap fun l => byte l.1 :: word l.2) ++
            byte p.2.length :: p.2.map byte) ∧
        parts.get 4 = high :: (w.links.drop 12).flatMap (fun p =>
          (byte p.1.length :: p.1.flatMap fun l => byte l.1 :: word l.2) ++
            byte p.2.length :: p.2.map byte)) ∧
      (∀ p ∈ w.names, p.1.length < 256 ∧ (∀ c ∈ p.1, c < 256) ∧ p.2.1 < 256 ∧ ∀ n ∈ p.2.2, n < 65536) ∧
      (∀ p ∈ w.links, p.1.length < 256 ∧ p.2.length < 256 ∧ (∀ l ∈ p.1, l.1 < 256 ∧ l.2 < 65536) ∧
        ∀ d ∈ p.2, d < 256) ∧
      w.siteName.length < 256 ∧ (∀ c ∈ w.siteName, c < 256) ∧ w.issue < 256) ∧
    ∀ w, readSite parts = some w →
      (siteRefusal parts = some .range ↔
        2 < w.rate ∨ (∃ p ∈ w.trip ++ w.routes ++ w.runs, 1 < p) ∨
        (∃ p ∈ w.slots, 1 < p.1 ∨ 1 < p.2) ∨
        (∃ p ∈ w.names, 8 < p.1.length ∨ 1 < p.2.1 ∨ ∃ n, p.2.2 = some n ∧ 1000 < n) ∨
        8 < w.siteName.length ∨
        (∃ p ∈ w.units, 2 < p.1 ∨ 7 < p.2.1) ∨
        8 < w.units.countP (fun p => p.1 == 2) ∨
        (∃ i < 24, 4 < w.units.countP fun p => p.1 == 1 && p.2.2 == i) ∨
        (∃ p ∈ w.units, p.1 = 1 ∧ (w.slots.getD p.2.2 (0, 0)).1 ≠ 1) ∨
        (∃ p ∈ w.links, ∃ l ∈ p.1, 3600 < l.2) ∨
        ∃ i < 24, ∃ up down, w.links.getD i ([], []) = (up, down) ∧
          (3 < up.length ∨ 3 < down.length ∨ ¬ (up.map Prod.fst).Nodup ∨ ¬ down.Nodup ∨
            (∃ j ∈ up.map Prod.fst ++ down, j = i ∨ (w.slots.getD j (0, 0)).1 ≠ 1) ∨
            (∃ d ∈ down, i ∉ ((w.links.getD d ([], [])).1).map Prod.fst) ∨
            ∃ l ∈ up, i ∉ (w.links.getD l.1 ([], [])).2)) ∧
      (siteRefusal parts = some .cycle ↔ siteRefusal parts ≠ some .range ∧
        ∃ i : SectionId, Relation.TransGen
          (fun a b : SectionId => b.val ∈ (w.links.getD a.val ([], [])).2) i i) ∧
      (siteRefusal parts = none ∨ siteRefusal parts = some .range ∨ siteRefusal parts = some .cycle)) ∧
  (∀ (s : State) (t : Telegram), s.taking .commitSiteRecord t .nothing →
    (s.campaign.state ≠ .closed → s.refusedAs .commitSiteRecord t .campaign) ∧
    (s.campaign.state = .closed → (∃ k, s.site.staging.get k = none) →
      s.refusedAs .commitSiteRecord t .incomplete) ∧
    ∀ parts : Table (List Byte) 8, s.campaign.state = .closed →
      (∀ k, s.site.staging.get k = some (parts.get k)) →
      (∀ cause, siteRefusal parts = some cause → s.refusedAs .commitSiteRecord t cause) ∧
      (siteRefusal parts = none → s.waitsAs .commitSiteRecord t
        { s with site := { s.site with siteWriting := true } } .optionStore)) ∧
  ∀ s : State, s.powered = true →
    (s.site.siteWriting = false → exec .siteRecordWriteDone s = .next s) ∧
    (s.site.siteWriting = true → ∀ parts : Table (List Byte) 8,
      (∀ k, s.site.staging.get k = some (parts.get k)) →
      ∃ u, exec .siteRecordWriteDone s = .next u ∧
        u.store = { s.store with parts := parts, siteCheck := some (crc16 parts.items.flatten) } ∧
        u.site = { s.site with staging := Table.replicate 8 none, committed := true, siteWriting := false } ∧
        u.sections = s.sections ∧ u.campaign = s.campaign ∧
        ((∀ w, s.link.awaited = some w → w.owner ≠ .optionStore) → u.link = s.link) ∧
        ∀ w, s.link.awaited = some w → w.owner = .optionStore →
          (w.dropped = true → u.link = { s.link with awaited := none }) ∧
          (w.dropped = false → u.link = { s.link with
            awaited := none
            answers := s.link.answers ++
              [{ kind := w.request.kind + 0x80#8, tag := w.request.tag, body := [0, 0] }]
            requests := s.link.requests.tail }))

/-- R51, R165, R166: SET REPORTING. -/
def Obligations.SetReportingSetsMaskAndLimits : Prop :=
  ∀ (s : State) (t : Telegram) (a b c d e f prescale silence : Nat),
    s.taking .setReporting t (.reporting [a, b, c, d, e, f] prescale silence) →
    s.acceptedAs .setReporting t { s with
      link := { s.link with
        mask := { sec := a == 1, level := b == 1, steam := c == 1, unit := d == 1, trip := e == 1, campaign := f == 1 }
        reports := s.link.reports.filter (ReportMask.allows
          { sec := a == 1, level := b == 1, steam := c == 1, unit := d == 1, trip := e == 1, campaign := f == 1 })
        silenceLimit := silence
        silenceExpired := false }
      scanner := { s.scanner with prescale := prescale, round := 0 } }

/-! ### Laws of the device, kept by every step -/

/-- The laws below hold at reset, and reset is the part powered up from a blank store with every input
at rest (the model's choice, log 2). -/
def Obligations.LawsHoldAtReset : Prop :=
  State.reset.reportsOnce ∧ State.reset.portLaw ∧ State.reset.holdLaw ∧ State.reset.deadlineLaw ∧
  State.reset.fittedLaw ∧ State.reset.closedLaw ∧ State.reset.campaignLaw ∧ State.reset.clockLaw ∧
  State.reset.graphLaw ∧ State.reset.outputLaw ∧ State.reset.steamLaw ∧ State.reset.watchLaw ∧ State.reset.overlapLaw ∧
  State.reset.holdOrderLaw ∧ State.reset.groupSetsLaw ∧
  State.reset.tripLaw ∧ State.reset.memberLaw ∧ State.reset.claimLaw ∧ State.reset.poolLaw ∧ State.reset.storeLaw ∧ exec (.powerUp 0 0) { State.reset with powered := false } = .next State.reset

/-- R160, R161, R163: the link port's buffers stay within their bounds, and no report key is pending
twice. -/
def Obligations.StepKeepsLinkPortLaws : Prop :=
  ∀ s t : State, s.reportsOnce → s.portLaw → step s = .next t → t.reportsOnce ∧ t.portLaw

/-- R63, R94: a section is HELD exactly while it has a hold reason, and has a deadline exactly in
CONDITIONING. R94: each hold set is listed by kind in the order RESTART, HOST, TRIP, STEAM, FULL, SENSOR, UNITS,
with TRIP by ascending group id and FULL by ascending section id, and holds no two equal records. -/
def Obligations.StepKeepsHoldLaw : Prop :=
  (∀ s t : State, s.holdLaw → s.deadlineLaw → step s = .next t → t.holdLaw ∧ t.deadlineLaw) ∧
  (∀ s t : State, s.holdOrderLaw → step s = .next t → t.holdOrderLaw) ∧
  (∀ s : State, s.holdOrderLaw ↔ ∀ i, (s.sec i).holds.Pairwise fun a b => a.rank < b.rank) ∧
  (∀ (g : GroupId) (d : SectionId),
    [.restart, .host, .trip g, .steam, .full d, .sensor, .units].map HoldReason.rank =
      [0, 1, 2 + g.val, 6, 7 + d.val, 31, 32]) ∧
  ∀ s : State, s.holdOrderLaw → ∀ i, (s.sec i).holds.Nodup

/-- R13, R17, R24, R25, R29, R47: the lock, the resume target, the clock and the effective flag agree with the
campaign's state, request and supply, and no section's time lies ahead of the clock. -/
def Obligations.StepKeepsCampaignLaw : Prop :=
  ∀ s t : State, s.campaignLaw → s.clockLaw → s.overlapLaw → step s = .next t →
    t.campaignLaw ∧ t.clockLaw ∧ t.overlapLaw

/-- R10, R22: an unfitted slot is ABSENT, and no section of a CLOSED campaign is in a working state or
HELD. -/
def Obligations.StepKeepsClosedLaw : Prop :=
  ∀ s t : State, s.holdLaw → s.campaignLaw → s.fittedLaw → s.closedLaw → step s = .next t →
    t.fittedLaw ∧ t.closedLaw

/-- R4: the intake and discharge attributes of each state. R5, R146: the level of an output, or of an active
input, by its polarity, and the levels of the four route outputs. R4, R5: the route attributes follow the state
and the phase, and the route outputs follow them. R129: each run latch follows its unit's run output, by its
polarity. -/
def Obligations.StepKeepsOutputLaw : Prop :=
  (∀ p : Phase,
    (SectionState.filling.intake = .diverted ∧ SectionState.filling.discharge p = .closed) ∧
    (SectionState.running.intake = .through ∧
      SectionState.running.discharge p = if p = .sweet then .through else .diverted) ∧
    (SectionState.sweeteningOff.intake = .diverted ∧
      SectionState.sweeteningOff.discharge p = if p = .sweet then .through else .diverted) ∧
    (SectionState.draining.intake = .closed ∧ SectionState.draining.discharge p = .diverted) ∧
    ∀ st ∈ [SectionState.absent, .excluded, .cold, .conditioning, .circulating, .held, .laidUp],
      st.intake = .closed ∧ st.discharge p = .closed) ∧
  (∀ on : Bool, Polarity.level .activeHigh on = on ∧ Polarity.level .activeLow on = !on) ∧
  (∀ (p : RouteQuad Polarity) (intake discharge : Route), p.drive intake discharge =
    { intakeThrough := p.intakeThrough.level (decide (intake = .through))
      intakeDivert := p.intakeDivert.level (decide (intake = .diverted))
      dischargeThrough := p.dischargeThrough.level (decide (discharge = .through))
      dischargeDivert := p.dischargeDivert.level (decide (discharge = .diverted)) }) ∧
  (∀ (s : State) (i : SectionId), s.outputLaw →
    (s.sec i).intake = (s.sec i).state.intake ∧ (s.sec i).discharge = (s.sec i).state.discharge (s.sec i).phase ∧
    s.lines.routeLatch.get i =
      (s.lines.routePolarity.get i).drive (s.sec i).intake (s.sec i).discharge ∧
    ∀ u, s.lines.runLatch.get u =
      (s.lines.runPolarity.get u).level (s.supervisor.units.get u).runOutput) ∧
  ∀ s t : State, s.outputLaw → step s = .next t → t.outputLaw

/-- R75: the claimed sum stays within the effective budget, and no section stands on the lists twice. R76:
the lists agree with the states and hold sets of the sections, but for a release or a withdrawal still on its
way; with none on its way, R76's three sentences hold. -/
def Obligations.StepKeepsSteamLaw : Prop :=
  (∀ s t : State, s.steamLaw → step s = .next t → t.steamLaw) ∧
  (∀ s t : State, s.holdLaw → s.steamLaw → s.claimLaw → step s = .next t → t.claimLaw) ∧
  ∀ s : State, s.holdLaw → s.claimLaw → s.work = [] →
    (∀ c ∈ s.steam.claims, .steam ∉ (s.sec c.sec).holds ∧
      (s.sec c.sec).state ∈ [.conditioning, .circulating, .running, .sweeteningOff, .held]) ∧
    (∀ c ∈ s.steam.queue, (s.sec c.sec).state = .filling ∨
      ((s.sec c.sec).state = .held ∧ .steam ∈ (s.sec c.sec).holds)) ∧
    ∀ i, (s.sec i).state = .held → .steam ∈ (s.sec i).holds → ∃ c ∈ s.steam.queue, c.sec = i

/-- R132: the watch list holds at most 16 units, none twice and HEALTHY ones only. R147: each group's active inputs
are those of its set that are active, and a NORMAL group has none; their ascending order is the model's choice (log
46). R154, R155: each group's members and input set stand in ascending id, no id twice. R149: each member of a
TRIPPED group in a working state or HELD carries its TRIP reason, unless the reason is still on its way; with
nothing on its way, each member in none of COLD, LAID_UP, ABSENT and EXCLUDED is HELD with it. R133: the coverings
and the demand queue; R129: the run outputs: both kept but for an exclusion, an inclusion or a run demand still on
its way, and whole with none on its way. -/
def Obligations.StepKeepsPoolAndTripLaws : Prop :=
  (∀ s t : State, step s = .next t → (s.watchLaw → t.watchLaw) ∧ (s.tripLaw → t.tripLaw) ∧
    (s.groupSetsLaw → t.groupSetsLaw)) ∧
  (∀ s t : State, s.holdLaw → s.memberLaw → step s = .next t → t.memberLaw) ∧
  (∀ s : State, s.holdLaw → s.memberLaw → s.work = [] → ∀ g, (s.group g).state = .tripped →
    ∀ i ∈ (s.group g).members, (s.sec i).state ∉ [.cold, .laidUp, .absent, .excluded] →
      (s.sec i).state = .held ∧ .trip g ∈ (s.sec i).holds) ∧
  (∀ s t : State, s.holdLaw → s.poolLaw →
    (∀ faults levels rest, s.pending = .powerUp faults levels :: rest → s.storeAtPowerUp.sound) →
    step s = .next t → t.poolLaw) ∧
  (∀ (us : UnitSupervisor) (secs : Table Section 24) (u : UnitId),
    us.runs secs u = true ↔ (us.units.get u).condition ≠ .failed ∧ ∃ i,
      (secs.get i).state ∈ [.conditioning, .circulating, .running, .sweeteningOff, .draining] ∧
      (((us.units.get u).role = .duty ∧ (us.units.get u).sec = some i) ∨
        ((us.units.get u).role = .spare ∧ ∃ d, (us.units.get u).covering = some d ∧
          (us.units.get d).sec = some i))) ∧
  ∀ s : State, s.poolLaw → s.work = [] →
    (∀ u, (s.supervisor.units.get u).runOutput = s.supervisor.runs s.sections u) ∧
    (∀ u i, (s.supervisor.units.get u).role = .duty → (s.supervisor.units.get u).sec = some i →
      (s.supervisor.units.get u).condition = .failed →
      ((s.sec i).state ≠ .absent → (s.sec i).state ≠ .excluded →
        ((∃ sp, (s.supervisor.units.get u).coveredBy = some sp) ∧
          ∀ d ∈ s.supervisor.demands, d.unit ≠ u) ∨
        ((s.supervisor.units.get u).coveredBy = none ∧
          (s.supervisor.demands.map SpareDemand.unit).count u = 1)) ∧
      ((s.sec i).state = .absent ∨ (s.sec i).state = .excluded →
        (s.supervisor.units.get u).coveredBy = none ∧ ∀ d ∈ s.supervisor.demands, d.unit ≠ u)) ∧
    (∀ u v sp, (s.supervisor.units.get u).coveredBy = some sp →
      (s.supervisor.units.get v).coveredBy = some sp → u = v) ∧
    (∀ sp, (s.supervisor.units.get sp).condition = .failed →
      (s.supervisor.units.get sp).covering = none) ∧
    ∀ d ∈ s.supervisor.demands, ∀ sp, ¬ s.supervisor.free d.cls sp

/-- R6, the law of the line graph: every step keeps it, and so does a POWER_UP from an option store whose
site record, where its check matches, has passed the checks of R174. R172, R174: every step keeps the store so,
and what is being written has passed those checks. -/
def Obligations.StepKeepsStoreAndGraphLaws : Prop :=
  (∀ s t : State, s.graphLaw →
    (∀ faults levels rest, s.pending = .powerUp faults levels :: rest → s.storeAtPowerUp.sound) →
    step s = .next t → t.graphLaw) ∧
  (∀ s t : State, s.storeLaw → step s = .next t → t.storeLaw) ∧
  ∀ s : State, s.storeLaw → s.storeAtPowerUp.sound
end

