-- ==== Sys2Proof/Laws/Table.lean ====
section
/-! SUPPORT. Reading a table after each of its operations. -/

namespace Sys2Proof.Table

variable {α β : Type} {n : Nat}

@[ext] theorem ext_items {t u : Table α n} (h : t.items = u.items) : t = u := by
  cases t; cases u; cases h; rfl

@[simp] theorem get_set_self (t : Table α n) (i : Fin n) (a : α) : (t.set i a).get i = a := by
  simp [Table.get, Table.set]

theorem get_set_of_ne (t : Table α n) {i j : Fin n} (a : α) (h : j ≠ i) : (t.set i a).get j = t.get j := by
  have h' : i.val ≠ j.val := fun e => h (Fin.ext e.symm)
  simp [Table.get, Table.set, h']

theorem get_set (t : Table α n) (i j : Fin n) (a : α) :
    (t.set i a).get j = if j = i then a else t.get j := by
  split
  · next h => subst h; exact get_set_self t j a
  · next h => exact get_set_of_ne t a h

@[simp] theorem get_replicate (a : α) (i : Fin n) : (Table.replicate n a).get i = a := by
  simp [Table.get, Table.replicate]

@[simp] theorem get_ofFn (f : Fin n → α) (i : Fin n) : (Table.ofFn f).get i = f i := by
  simp [Table.get, Table.ofFn]

@[simp] theorem get_map (f : α → β) (t : Table α n) (i : Fin n) : (t.map f).get i = f (t.get i) := by
  simp [Table.get, Table.map]

/-- Tables with equal records are equal. -/
theorem ext_get {t u : Table α n} (h : ∀ i, t.get i = u.get i) : t = u := by
  apply ext_items
  apply List.ext_getElem
  · rw [t.size, u.size]
  · intro k h1 _
    exact h ⟨k, by rw [← t.size]; exact h1⟩

@[simp] theorem set_get_self (t : Table α n) (i : Fin n) : t.set i (t.get i) = t := by
  apply ext_get
  intro j
  rw [get_set]
  split
  · next h => rw [h]
  · rfl

/-- A record is among the items. -/
@[simp] theorem set_set (t : Table α n) (i : Fin n) (a b : α) : (t.set i a).set i b = t.set i b := by
  apply ext_get
  intro j
  simp only [get_set]
  split <;> rfl

theorem get_mem (t : Table α n) (i : Fin n) : t.get i ∈ t.items := List.getElem_mem _

/-- Every item is the record at some index. -/
theorem exists_get_of_mem {t : Table α n} {a : α} (h : a ∈ t.items) : ∃ i, t.get i = a := by
  obtain ⟨k, hk, rfl⟩ := List.getElem_of_mem h
  exact ⟨⟨k, by rw [← t.size]; exact hk⟩, rfl⟩

end Sys2Proof.Table
end

