-- ==== Sys2Proof/Laws/State.lean ====
section
/-! SUPPORT. One lemma for each field after each update of the state, all true by definition. -/

namespace Sys2Proof.Machine.State

variable (s : State)

@[simp] theorem setSec_powered (i : SectionId) (r : Section) : (s.setSec i r).powered = s.powered := rfl
@[simp] theorem setSec_campaign (i : SectionId) (r : Section) : (s.setSec i r).campaign = s.campaign := rfl
@[simp] theorem setSec_scanner (i : SectionId) (r : Section) : (s.setSec i r).scanner = s.scanner := rfl
@[simp] theorem setSec_steam (i : SectionId) (r : Section) : (s.setSec i r).steam = s.steam := rfl
@[simp] theorem setSec_supervisor (i : SectionId) (r : Section) : (s.setSec i r).supervisor = s.supervisor := rfl
@[simp] theorem setSec_trips (i : SectionId) (r : Section) : (s.setSec i r).trips = s.trips := rfl
@[simp] theorem setSec_link (i : SectionId) (r : Section) : (s.setSec i r).link = s.link := rfl
@[simp] theorem setSec_store (i : SectionId) (r : Section) : (s.setSec i r).store = s.store := rfl
@[simp] theorem setSec_site (i : SectionId) (r : Section) : (s.setSec i r).site = s.site := rfl
@[simp] theorem setSec_lines (i : SectionId) (r : Section) : (s.setSec i r).lines = s.lines := rfl
@[simp] theorem setSec_work (i : SectionId) (r : Section) : (s.setSec i r).work = s.work := rfl
@[simp] theorem setSec_order (i : SectionId) (r : Section) : (s.setSec i r).order = s.order := rfl
@[simp] theorem setSec_drawn (i : SectionId) (r : Section) : (s.setSec i r).drawn = s.drawn := rfl
@[simp] theorem setSec_pending (i : SectionId) (r : Section) : (s.setSec i r).pending = s.pending := rfl

@[simp] theorem report_powered (k : ReportKey) : (s.report k).powered = s.powered := rfl
@[simp] theorem report_sections (k : ReportKey) : (s.report k).sections = s.sections := rfl
@[simp] theorem report_campaign (k : ReportKey) : (s.report k).campaign = s.campaign := rfl
@[simp] theorem report_scanner (k : ReportKey) : (s.report k).scanner = s.scanner := rfl
@[simp] theorem report_steam (k : ReportKey) : (s.report k).steam = s.steam := rfl
@[simp] theorem report_supervisor (k : ReportKey) : (s.report k).supervisor = s.supervisor := rfl
@[simp] theorem report_trips (k : ReportKey) : (s.report k).trips = s.trips := rfl
@[simp] theorem report_store (k : ReportKey) : (s.report k).store = s.store := rfl
@[simp] theorem report_site (k : ReportKey) : (s.report k).site = s.site := rfl
@[simp] theorem report_lines (k : ReportKey) : (s.report k).lines = s.lines := rfl
@[simp] theorem report_work (k : ReportKey) : (s.report k).work = s.work := rfl
@[simp] theorem report_order (k : ReportKey) : (s.report k).order = s.order := rfl
@[simp] theorem report_drawn (k : ReportKey) : (s.report k).drawn = s.drawn := rfl
@[simp] theorem report_pending (k : ReportKey) : (s.report k).pending = s.pending := rfl

@[simp] theorem hand_powered (d : Delivery) : (s.hand d).powered = s.powered := rfl
@[simp] theorem hand_sections (d : Delivery) : (s.hand d).sections = s.sections := rfl
@[simp] theorem hand_campaign (d : Delivery) : (s.hand d).campaign = s.campaign := rfl
@[simp] theorem hand_scanner (d : Delivery) : (s.hand d).scanner = s.scanner := rfl
@[simp] theorem hand_steam (d : Delivery) : (s.hand d).steam = s.steam := rfl
@[simp] theorem hand_supervisor (d : Delivery) : (s.hand d).supervisor = s.supervisor := rfl
@[simp] theorem hand_trips (d : Delivery) : (s.hand d).trips = s.trips := rfl
@[simp] theorem hand_link (d : Delivery) : (s.hand d).link = s.link := rfl
@[simp] theorem hand_store (d : Delivery) : (s.hand d).store = s.store := rfl
@[simp] theorem hand_site (d : Delivery) : (s.hand d).site = s.site := rfl
@[simp] theorem hand_lines (d : Delivery) : (s.hand d).lines = s.lines := rfl
@[simp] theorem hand_order (d : Delivery) : (s.hand d).order = s.order := rfl
@[simp] theorem hand_drawn (d : Delivery) : (s.hand d).drawn = s.drawn := rfl
@[simp] theorem hand_pending (d : Delivery) : (s.hand d).pending = s.pending := rfl

@[simp] theorem handAll_powered (ds : List Delivery) : (s.handAll ds).powered = s.powered := rfl
@[simp] theorem handAll_sections (ds : List Delivery) : (s.handAll ds).sections = s.sections := rfl
@[simp] theorem handAll_campaign (ds : List Delivery) : (s.handAll ds).campaign = s.campaign := rfl
@[simp] theorem handAll_scanner (ds : List Delivery) : (s.handAll ds).scanner = s.scanner := rfl
@[simp] theorem handAll_steam (ds : List Delivery) : (s.handAll ds).steam = s.steam := rfl
@[simp] theorem handAll_supervisor (ds : List Delivery) : (s.handAll ds).supervisor = s.supervisor := rfl
@[simp] theorem handAll_trips (ds : List Delivery) : (s.handAll ds).trips = s.trips := rfl
@[simp] theorem handAll_link (ds : List Delivery) : (s.handAll ds).link = s.link := rfl
@[simp] theorem handAll_store (ds : List Delivery) : (s.handAll ds).store = s.store := rfl
@[simp] theorem handAll_site (ds : List Delivery) : (s.handAll ds).site = s.site := rfl
@[simp] theorem handAll_lines (ds : List Delivery) : (s.handAll ds).lines = s.lines := rfl
@[simp] theorem handAll_order (ds : List Delivery) : (s.handAll ds).order = s.order := rfl
@[simp] theorem handAll_drawn (ds : List Delivery) : (s.handAll ds).drawn = s.drawn := rfl
@[simp] theorem handAll_pending (ds : List Delivery) : (s.handAll ds).pending = s.pending := rfl

@[simp] theorem driveRoutes_powered (i : SectionId) : (s.driveRoutes i).powered = s.powered := rfl
@[simp] theorem driveRoutes_sections (i : SectionId) : (s.driveRoutes i).sections = s.sections := rfl
@[simp] theorem driveRoutes_campaign (i : SectionId) : (s.driveRoutes i).campaign = s.campaign := rfl
@[simp] theorem driveRoutes_scanner (i : SectionId) : (s.driveRoutes i).scanner = s.scanner := rfl
@[simp] theorem driveRoutes_steam (i : SectionId) : (s.driveRoutes i).steam = s.steam := rfl
@[simp] theorem driveRoutes_supervisor (i : SectionId) : (s.driveRoutes i).supervisor = s.supervisor := rfl
@[simp] theorem driveRoutes_trips (i : SectionId) : (s.driveRoutes i).trips = s.trips := rfl
@[simp] theorem driveRoutes_link (i : SectionId) : (s.driveRoutes i).link = s.link := rfl
@[simp] theorem driveRoutes_store (i : SectionId) : (s.driveRoutes i).store = s.store := rfl
@[simp] theorem driveRoutes_site (i : SectionId) : (s.driveRoutes i).site = s.site := rfl
@[simp] theorem driveRoutes_work (i : SectionId) : (s.driveRoutes i).work = s.work := rfl
@[simp] theorem driveRoutes_order (i : SectionId) : (s.driveRoutes i).order = s.order := rfl
@[simp] theorem driveRoutes_drawn (i : SectionId) : (s.driveRoutes i).drawn = s.drawn := rfl
@[simp] theorem driveRoutes_pending (i : SectionId) : (s.driveRoutes i).pending = s.pending := rfl

@[simp] theorem setGroup_powered (g : GroupId) (r : TripGroup) : (s.setGroup g r).powered = s.powered := rfl
@[simp] theorem setGroup_sections (g : GroupId) (r : TripGroup) : (s.setGroup g r).sections = s.sections := rfl
@[simp] theorem setGroup_campaign (g : GroupId) (r : TripGroup) : (s.setGroup g r).campaign = s.campaign := rfl
@[simp] theorem setGroup_scanner (g : GroupId) (r : TripGroup) : (s.setGroup g r).scanner = s.scanner := rfl
@[simp] theorem setGroup_steam (g : GroupId) (r : TripGroup) : (s.setGroup g r).steam = s.steam := rfl
@[simp] theorem setGroup_supervisor (g : GroupId) (r : TripGroup) : (s.setGroup g r).supervisor = s.supervisor := rfl
@[simp] theorem setGroup_link (g : GroupId) (r : TripGroup) : (s.setGroup g r).link = s.link := rfl
@[simp] theorem setGroup_store (g : GroupId) (r : TripGroup) : (s.setGroup g r).store = s.store := rfl
@[simp] theorem setGroup_site (g : GroupId) (r : TripGroup) : (s.setGroup g r).site = s.site := rfl
@[simp] theorem setGroup_lines (g : GroupId) (r : TripGroup) : (s.setGroup g r).lines = s.lines := rfl
@[simp] theorem setGroup_work (g : GroupId) (r : TripGroup) : (s.setGroup g r).work = s.work := rfl
@[simp] theorem setGroup_order (g : GroupId) (r : TripGroup) : (s.setGroup g r).order = s.order := rfl
@[simp] theorem setGroup_drawn (g : GroupId) (r : TripGroup) : (s.setGroup g r).drawn = s.drawn := rfl
@[simp] theorem setGroup_pending (g : GroupId) (r : TripGroup) : (s.setGroup g r).pending = s.pending := rfl

@[simp] theorem setInput_powered (i : InputId) (r : TripInput) : (s.setInput i r).powered = s.powered := rfl
@[simp] theorem setInput_sections (i : InputId) (r : TripInput) : (s.setInput i r).sections = s.sections := rfl
@[simp] theorem setInput_campaign (i : InputId) (r : TripInput) : (s.setInput i r).campaign = s.campaign := rfl
@[simp] theorem setInput_scanner (i : InputId) (r : TripInput) : (s.setInput i r).scanner = s.scanner := rfl
@[simp] theorem setInput_steam (i : InputId) (r : TripInput) : (s.setInput i r).steam = s.steam := rfl
@[simp] theorem setInput_supervisor (i : InputId) (r : TripInput) : (s.setInput i r).supervisor = s.supervisor := rfl
@[simp] theorem setInput_link (i : InputId) (r : TripInput) : (s.setInput i r).link = s.link := rfl
@[simp] theorem setInput_store (i : InputId) (r : TripInput) : (s.setInput i r).store = s.store := rfl
@[simp] theorem setInput_site (i : InputId) (r : TripInput) : (s.setInput i r).site = s.site := rfl
@[simp] theorem setInput_lines (i : InputId) (r : TripInput) : (s.setInput i r).lines = s.lines := rfl
@[simp] theorem setInput_work (i : InputId) (r : TripInput) : (s.setInput i r).work = s.work := rfl
@[simp] theorem setInput_order (i : InputId) (r : TripInput) : (s.setInput i r).order = s.order := rfl
@[simp] theorem setInput_drawn (i : InputId) (r : TripInput) : (s.setInput i r).drawn = s.drawn := rfl
@[simp] theorem setInput_pending (i : InputId) (r : TripInput) : (s.setInput i r).pending = s.pending := rfl


@[simp] theorem requestMark_powered (v : Mark) : (s.requestMark v).powered = s.powered := rfl
@[simp] theorem requestMark_sections (v : Mark) : (s.requestMark v).sections = s.sections := rfl
@[simp] theorem requestMark_campaign (v : Mark) : (s.requestMark v).campaign = s.campaign := rfl
@[simp] theorem requestMark_scanner (v : Mark) : (s.requestMark v).scanner = s.scanner := rfl
@[simp] theorem requestMark_steam (v : Mark) : (s.requestMark v).steam = s.steam := rfl
@[simp] theorem requestMark_supervisor (v : Mark) : (s.requestMark v).supervisor = s.supervisor := rfl
@[simp] theorem requestMark_trips (v : Mark) : (s.requestMark v).trips = s.trips := rfl
@[simp] theorem requestMark_link (v : Mark) : (s.requestMark v).link = s.link := rfl
@[simp] theorem requestMark_store (v : Mark) : (s.requestMark v).store = s.store := rfl
@[simp] theorem requestMark_lines (v : Mark) : (s.requestMark v).lines = s.lines := rfl
@[simp] theorem requestMark_work (v : Mark) : (s.requestMark v).work = s.work := rfl
@[simp] theorem requestMark_order (v : Mark) : (s.requestMark v).order = s.order := rfl
@[simp] theorem requestMark_drawn (v : Mark) : (s.requestMark v).drawn = s.drawn := rfl
@[simp] theorem requestMark_pending (v : Mark) : (s.requestMark v).pending = s.pending := rfl

@[simp] theorem insertHolds_powered (i : SectionId) (rs : List HoldReason) : (s.insertHolds i rs).powered = s.powered := rfl
@[simp] theorem insertHolds_campaign (i : SectionId) (rs : List HoldReason) : (s.insertHolds i rs).campaign = s.campaign := rfl
@[simp] theorem insertHolds_scanner (i : SectionId) (rs : List HoldReason) : (s.insertHolds i rs).scanner = s.scanner := rfl
@[simp] theorem insertHolds_steam (i : SectionId) (rs : List HoldReason) : (s.insertHolds i rs).steam = s.steam := rfl
@[simp] theorem insertHolds_supervisor (i : SectionId) (rs : List HoldReason) : (s.insertHolds i rs).supervisor = s.supervisor := rfl
@[simp] theorem insertHolds_trips (i : SectionId) (rs : List HoldReason) : (s.insertHolds i rs).trips = s.trips := rfl
@[simp] theorem insertHolds_link (i : SectionId) (rs : List HoldReason) : (s.insertHolds i rs).link = s.link := rfl
@[simp] theorem insertHolds_store (i : SectionId) (rs : List HoldReason) : (s.insertHolds i rs).store = s.store := rfl
@[simp] theorem insertHolds_site (i : SectionId) (rs : List HoldReason) : (s.insertHolds i rs).site = s.site := rfl
@[simp] theorem insertHolds_lines (i : SectionId) (rs : List HoldReason) : (s.insertHolds i rs).lines = s.lines := rfl
@[simp] theorem insertHolds_work (i : SectionId) (rs : List HoldReason) : (s.insertHolds i rs).work = s.work := rfl
@[simp] theorem insertHolds_order (i : SectionId) (rs : List HoldReason) : (s.insertHolds i rs).order = s.order := rfl
@[simp] theorem insertHolds_drawn (i : SectionId) (rs : List HoldReason) : (s.insertHolds i rs).drawn = s.drawn := rfl
@[simp] theorem insertHolds_pending (i : SectionId) (rs : List HoldReason) : (s.insertHolds i rs).pending = s.pending := rfl

@[simp] theorem setSec_sections (i : SectionId) (r : Section) :
    (s.setSec i r).sections = s.sections.set i r := rfl
@[simp] theorem report_link (k : ReportKey) : (s.report k).link = s.link.report k := rfl
@[simp] theorem hand_work (d : Delivery) : (s.hand d).work = s.work ++ [d] := rfl
@[simp] theorem handAll_work (ds : List Delivery) : (s.handAll ds).work = s.work ++ ds := rfl
@[simp] theorem setGroup_groups (g : GroupId) (r : TripGroup) :
    (s.setGroup g r).trips.groups = s.trips.groups.set g r := rfl
@[simp] theorem setGroup_inputs (g : GroupId) (r : TripGroup) :
    (s.setGroup g r).trips.inputs = s.trips.inputs := rfl
@[simp] theorem setInput_inputs (i : InputId) (r : TripInput) :
    (s.setInput i r).trips.inputs = s.trips.inputs.set i r := rfl
@[simp] theorem setInput_groups (i : InputId) (r : TripInput) :
    (s.setInput i r).trips.groups = s.trips.groups := rfl
@[simp] theorem requestMark_site (v : Mark) : (s.requestMark v).site = s.site.requestMark v := rfl
@[simp] theorem driveRoutes_routePolarity (i : SectionId) :
    (s.driveRoutes i).lines.routePolarity = s.lines.routePolarity := rfl
@[simp] theorem driveRoutes_runPolarity (i : SectionId) :
    (s.driveRoutes i).lines.runPolarity = s.lines.runPolarity := rfl
@[simp] theorem driveRoutes_runLatch (i : SectionId) :
    (s.driveRoutes i).lines.runLatch = s.lines.runLatch := rfl
@[simp] theorem driveRoutes_enabled (i : SectionId) :
    (s.driveRoutes i).lines.enabled = s.lines.enabled := rfl

/-! ### Reading a section record -/

@[simp] theorem sec_setSec_self (i : SectionId) (r : Section) : (s.setSec i r).sec i = r :=
  Table.get_set_self _ _ _

theorem sec_setSec (i j : SectionId) (r : Section) :
    (s.setSec i r).sec j = if j = i then r else s.sec j := Table.get_set _ _ _ _

@[simp] theorem sec_report (k : ReportKey) (i : SectionId) : (s.report k).sec i = s.sec i := rfl
@[simp] theorem sec_hand (d : Delivery) (i : SectionId) : (s.hand d).sec i = s.sec i := rfl
@[simp] theorem sec_handAll (ds : List Delivery) (i : SectionId) : (s.handAll ds).sec i = s.sec i := rfl
@[simp] theorem sec_driveRoutes (i j : SectionId) : (s.driveRoutes i).sec j = s.sec j := rfl
@[simp] theorem sec_setGroup (g : GroupId) (r : TripGroup) (i : SectionId) :
    (s.setGroup g r).sec i = s.sec i := rfl
@[simp] theorem sec_setInput (k : InputId) (r : TripInput) (i : SectionId) :
    (s.setInput k r).sec i = s.sec i := rfl

end Sys2Proof.Machine.State
end

