-- ==== Sys2Proof/Laws/Ops.lean ====
section
/-! SUPPORT. What each shared operation can change, said once: state entries and hold reasons change
section records, route latches, the report pending set and the work list, and nothing else. -/

namespace Sys2Proof.Machine

/-- What a state entry, and every change of a hold set, leaves alone. -/
structure OnlySections (s t : State) : Prop where
  powered : t.powered = s.powered
  campaign : t.campaign = s.campaign
  scanner : t.scanner = s.scanner
  steam : t.steam = s.steam
  supervisor : t.supervisor = s.supervisor
  trips : t.trips = s.trips
  store : t.store = s.store
  site : t.site = s.site
  order : t.order = s.order
  drawn : t.drawn = s.drawn
  pending : t.pending = s.pending
  link : t.link = { s.link with reports := t.link.reports }
  lines : t.lines = { s.lines with routeLatch := t.lines.routeLatch }

namespace OnlySections

theorem refl (s : State) : OnlySections s s := by constructor <;> rfl

theorem trans {s t u : State} (h : OnlySections s t) (k : OnlySections t u) : OnlySections s u where
  powered := k.powered.trans h.powered
  campaign := k.campaign.trans h.campaign
  scanner := k.scanner.trans h.scanner
  steam := k.steam.trans h.steam
  supervisor := k.supervisor.trans h.supervisor
  trips := k.trips.trans h.trips
  store := k.store.trans h.store
  site := k.site.trans h.site
  order := k.order.trans h.order
  drawn := k.drawn.trans h.drawn
  pending := k.pending.trans h.pending
  link := by rw [k.link, h.link]
  lines := by rw [k.lines, h.lines]

end OnlySections

/-- An entry handed to the pending set changes the pending set alone. -/
theorem LinkPort.report_eq (l : LinkPort) (k : ReportKey) :
    l.report k = { l with reports := (l.report k).reports } := by
  unfold LinkPort.report; split <;> rfl

theorem setSec_onlySections (s : State) (i : SectionId) (r : Section) : OnlySections s (s.setSec i r) := by
  constructor <;> rfl

theorem report_onlySections (s : State) (k : ReportKey) : OnlySections s (s.report k) := by
  constructor <;> first | rfl | exact LinkPort.report_eq _ _

theorem handAll_onlySections (s : State) (ds : List Delivery) : OnlySections s (s.handAll ds) := by
  constructor <;> rfl

theorem hand_onlySections (s : State) (d : Delivery) : OnlySections s (s.hand d) := by
  constructor <;> rfl

theorem driveRoutes_onlySections (s : State) (i : SectionId) : OnlySections s (s.driveRoutes i) := by
  constructor <;> rfl

theorem insertHolds_onlySections (s : State) (i : SectionId) (rs : List HoldReason) :
    OnlySections s (s.insertHolds i rs) := setSec_onlySections _ _ _

theorem enter_onlySections (s : State) (i : SectionId) (dest : SectionState) (c : CaptureCause) :
    OnlySections s (s.enter i dest c) :=
  (((setSec_onlySections _ _ _).trans (driveRoutes_onlySections _ _)).trans
    (report_onlySections _ _)).trans (handAll_onlySections _ _)

theorem holdWith_onlySections (s : State) (i : SectionId) (rs : List HoldReason) :
    OnlySections s (s.holdWith i rs) :=
  (insertHolds_onlySections _ _ _).trans (enter_onlySections _ _ _ _)

theorem enterState_onlySections (s : State) (i : SectionId) (dest : SectionState) (c : CaptureCause) :
    OnlySections s (s.enterState i dest c) := by
  unfold State.enterState
  dsimp only
  split
  · exact (enter_onlySections _ _ _ _).trans (holdWith_onlySections _ _ _)
  · exact enter_onlySections _ _ _ _

theorem addReason_onlySections (s : State) (i : SectionId) (r : HoldReason) :
    OnlySections s (s.addReason i r) := by
  unfold State.addReason
  dsimp only
  split
  · exact .refl _
  · split
    · exact (insertHolds_onlySections _ _ _).trans (report_onlySections _ _)
    · exact holdWith_onlySections _ _ _

theorem removeReason_onlySections (s : State) (i : SectionId) (r : HoldReason) (c : CaptureCause) :
    OnlySections s (s.removeReason i r c) := by
  unfold State.removeReason
  dsimp only
  split
  · exact .refl _
  · split
    · split
      · exact (setSec_onlySections _ _ _).trans (enterState_onlySections _ _ _ _)
      · exact .refl _
    · exact (setSec_onlySections _ _ _).trans (report_onlySections _ _)

theorem takeNotice_onlySections (s : State) (n : SteamNotice) : OnlySections s (s.takeNotice n) := by
  unfold State.takeNotice
  split
  · split
    · exact enterState_onlySections _ _ _ _
    · split
      · exact removeReason_onlySections _ _ _ _
      · exact hand_onlySections _ _
  · exact addReason_onlySections _ _ _
  · exact removeReason_onlySections _ _ _ _

theorem notices_onlySections (ns : List SteamNotice) (s : State) :
    OnlySections s (ns.foldl State.takeNotice s) := by
  induction ns generalizing s with
  | nil => exact .refl _
  | cons n ns ih => exact (takeNotice_onlySections _ _).trans (ih _)

/-! ### Cascades -/

/-- A property that the model's own bookkeeping does not bear on, and that every delivery keeps, is
kept by a whole cascade. -/
theorem settle_induct {P : State → Prop}
    (book : ∀ (s : State) (w : List Delivery) (o : List Nat) (d : Nat), P s →
      P { s with work := w, order := o, drawn := d })
    (run : ∀ (s : State) (d : Delivery), P s → P (s.runDelivery d)) (s : State) (h : P s) :
    P s.settle := by
  have draws : ∀ (n : Nat) (s : State), P s → P (s.draw n).2 := by
    intro n s h
    unfold State.draw
    split
    · exact h
    · split
      · exact book s s.work _ s.drawn h
      · exact book s s.work s.order _ h
  have one : ∀ s : State, P s → P s.takeOne := by
    intro s h
    unfold State.takeOne
    dsimp only
    split
    · exact h
    · split
      · exact h
      · exact run _ _ (book _ _ (s.draw _).2.order (s.draw _).2.drawn (draws _ _ h))
  have all : ∀ (n : Nat) (s : State), P s → P (s.settleFor n) := by
    intro n
    induction n with
    | zero => intro s h; exact h
    | succ n ih =>
      intro s h
      unfold State.settleFor
      split
      · exact h
      · exact ih _ (one _ h)
  exact all _ _ h

/-- A choice draws from the model's own fields alone. -/
theorem draw_eq (n : Nat) (s : State) :
    (s.draw n).2 = { s with order := (s.draw n).2.order, drawn := (s.draw n).2.drawn } := by
  unfold State.draw
  split
  · rfl
  · split <;> rfl

/-- A property that each delivery keeps, as the first for its receiver is taken from the deliveries
waiting, is kept by a whole cascade. -/
theorem settle_first {P : State → Prop}
    (take : ∀ (s : State) (d : Delivery) (a b : List Delivery) (o : List Nat) (n : Nat),
      s.work = a ++ d :: b → (∀ w ∈ a, w.receiver ≠ d.receiver) → P s →
      P (({ s with work := a ++ b, order := o, drawn := n } : State).runDelivery d))
    (s : State) (h : P s) : P s.settle := by
  have one : ∀ s : State, P s → P s.takeOne := by
    intro s h
    unfold State.takeOne
    dsimp only
    split
    · exact h
    · split
      · exact h
      · next r _ _ w e =>
        rw [draw_eq]
        obtain ⟨p, a, b, e, first⟩ := List.find?_eq_some_iff_append.1 e
        have p : w.receiver = r := by simpa using p
        have first : ∀ x ∈ a, x.receiver ≠ w.receiver := fun x m => by
          rw [p]; simpa using first x m
        have erased : s.work.erase w = a ++ b := by
          rw [e, List.erase_append_right _ (fun m => first w m rfl), List.erase_cons_head]
        rw [erased]
        exact take s w a b _ _ e first h
  have all : ∀ (n : Nat) (s : State), P s → P (s.settleFor n) := by
    intro n
    induction n with
    | zero => intro s h; exact h
    | succ n ih =>
      intro s h
      unfold State.settleFor
      split
      · exact h
      · exact ih _ (one _ h)
  exact all _ _ h

/-- A property that each delivery keeps, as it is taken from the deliveries waiting, is kept by a whole
cascade. -/
theorem settle_take {P : State → Prop}
    (take : ∀ (s : State) (d : Delivery) (o : List Nat) (n : Nat), d ∈ s.work → P s →
      P (({ s with work := s.work.erase d, order := o, drawn := n } : State).runDelivery d))
    (s : State) (h : P s) : P s.settle := by
  refine settle_first (fun s d a b o n e first k => ?_) s h
  have x := take s d o n (by rw [e]; simp) k
  rwa [e, List.erase_append_right _ (fun m => first d m rfl), List.erase_cons_head] at x

theorem drawOnly_trans {s t u : State} (h : t = { s with order := t.order, drawn := t.drawn })
    (k : u = { t with order := u.order, drawn := u.drawn }) :
    u = { s with order := u.order, drawn := u.drawn } := by
  rw [k, h]

/-- A shuffle draws from the model's own fields alone. -/
theorem shuffleFuel_eq {α : Type} (n : Nat) (l : List α) (s : State) :
    (State.shuffleFuel n l s).2 =
      { s with order := (State.shuffleFuel n l s).2.order, drawn := (State.shuffleFuel n l s).2.drawn } := by
  induction n generalizing l s with
  | zero => rfl
  | succ n ih =>
    cases l with
    | nil => rfl
    | cons a l =>
      exact drawOnly_trans (draw_eq (l.length + 1) s) (ih _ _)

theorem shuffle_eq {α : Type} (l : List α) (s : State) :
    (State.shuffle l s).2 =
      { s with order := (State.shuffle l s).2.order, drawn := (State.shuffle l s).2.drawn } :=
  shuffleFuel_eq _ _ _

/-- A draw among `n` choices, one or more, is one of them. -/
theorem draw_lt {n : Nat} (h : 0 < n) (s : State) : (s.draw n).1 < n := by
  unfold State.draw
  split
  · exact h
  · split <;> exact Nat.mod_lt _ h

/-- A shuffle is a rearrangement. -/
theorem shuffleFuel_perm {α : Type} (n : Nat) (l : List α) (s : State) (h : l.length ≤ n) :
    (State.shuffleFuel n l s).1.Perm l := by
  induction n generalizing l s with
  | zero => exact List.Perm.refl _
  | succ n ih =>
    cases l with
    | nil => exact List.Perm.refl _
    | cons a l =>
      have hd : (s.draw (a :: l).length).1 < (a :: l).length := draw_lt (by simp) s
      have hlen : ((a :: l).eraseIdx (s.draw (a :: l).length).1).length ≤ n := by
        rw [List.length_eraseIdx_of_lt hd]; simp only [List.length_cons] at h ⊢; omega
      show (((a :: l)[(s.draw (a :: l).length).1]?.getD a) ::
        (State.shuffleFuel n ((a :: l).eraseIdx (s.draw (a :: l).length).1) _).1).Perm (a :: l)
      rw [List.getElem?_eq_getElem hd, Option.getD_some]
      exact ((ih _ _ hlen).cons _).trans (List.getElem_cons_eraseIdx_perm hd)

theorem shuffle_perm {α : Type} (l : List α) (s : State) : (State.shuffle l s).1.Perm l :=
  shuffleFuel_perm _ _ _ (Nat.le_refl _)

/-- With nothing handed on there is nothing to settle. -/
theorem settle_idle {s : State} (h : s.work = []) : s.settle = s := by
  unfold State.settle
  generalize Config.cascadeBound = n
  cases n <;> simp [State.settleFor, h]

/-! ### What reports and re-examinations hand on -/

/-- A report changes the pending set alone. -/
theorem report_eq (s : State) (k : ReportKey) :
    s.report k = { s with link := { s.link with reports := (s.report k).link.reports } } := by
  unfold State.report LinkPort.report
  split <;> rfl

/-- R163: what is pending after a report. -/
theorem mem_report (s : State) (k x : ReportKey) : x ∈ (s.report k).link.reports ↔
    x ∈ s.link.reports ∨ (x = k ∧ s.link.mask.allows k = true) := by
  unfold State.report LinkPort.report
  dsimp only
  split
  · next h => simp_all
  · next h =>
    simp only [Bool.and_eq_true, Bool.not_eq_true', not_and, Bool.not_eq_false, List.contains_iff_mem] at h
    exact ⟨.inl, by rintro (k | ⟨rfl, m⟩); exacts [k, by simpa using h m]⟩

theorem reportFold_spec (ks : List ReportKey) (s : State) :
    ks.foldl State.report s =
      { s with link := { s.link with reports := (ks.foldl State.report s).link.reports } } ∧
    ∀ x, x ∈ (ks.foldl State.report s).link.reports ↔
      x ∈ s.link.reports ∨ (x ∈ ks ∧ s.link.mask.allows x = true) := by
  induction ks generalizing s with
  | nil => exact ⟨rfl, fun x => by simp⟩
  | cons k ks ih =>
    obtain ⟨a, b⟩ := ih (s.report k)
    have m : (s.report k).link.mask = s.link.mask := by rw [report_eq]
    simp only [List.foldl_cons]
    refine ⟨?_, fun x => ?_⟩
    · generalize ks.foldl State.report (s.report k) = y at a
      rw [a, report_eq]
    · rw [b, mem_report, m, List.mem_cons]
      constructor
      · rintro ((h | ⟨rfl, h⟩) | ⟨h, k⟩)
        exacts [.inl h, .inr ⟨.inl rfl, h⟩, .inr ⟨.inr h, k⟩]
      · rintro (h | ⟨rfl | h, k⟩)
        exacts [.inl (.inl h), .inl (.inr ⟨rfl, k⟩), .inr ⟨h, k⟩]

/-- Reports in a free order change the pending set and the choices drawn alone. -/
theorem reportAll_eq (ks : List ReportKey) (s : State) :
    s.reportAll ks = { s with
      order := (s.reportAll ks).order, drawn := (s.reportAll ks).drawn
      link := { s.link with reports := (s.reportAll ks).link.reports } } := by
  unfold State.reportAll
  dsimp only
  rw [(reportFold_spec _ _).1, shuffle_eq]

/-- R163: what is pending after reports in a free order. -/
theorem mem_reportAll (ks : List ReportKey) (s : State) (x : ReportKey) :
    x ∈ (s.reportAll ks).link.reports ↔ x ∈ s.link.reports ∨ (x ∈ ks ∧ s.link.mask.allows x = true) := by
  unfold State.reportAll
  dsimp only
  rw [(reportFold_spec _ _).2, (shuffle_perm ks s).mem_iff, shuffle_eq]

theorem partakes_iff (st : SectionState) : st.partakes = true ↔ st ≠ .absent ∧ st ≠ .excluded := by
  cases st <;> simp [SectionState.partakes]

/-- The re-examinations that a change of the campaign hands on, one to each section that takes part. -/
theorem mem_partaking_looks (s : State) (w : Delivery) :
    w ∈ s.partaking.map (fun i => Delivery.reexamine i .other) ↔
      ∃ i, w = .reexamine i .other ∧ (s.sec i).state ≠ .absent ∧ (s.sec i).state ≠ .excluded := by
  have m : ∀ i : SectionId, i ∈ allIds 24 := by decide
  simp only [State.partaking, List.mem_map, List.mem_filter, m, true_and, partakes_iff]
  exact ⟨by rintro ⟨i, h, rfl⟩; exact ⟨i, rfl, h⟩, by rintro ⟨i, rfl, h⟩; exact ⟨i, h, rfl⟩⟩

end Sys2Proof.Machine
end

