-- ==== Sys2Proof/Laws/Frame.lean ====
section
/-! SUPPORT. The frame of a cascade, and the changes of a state that keep it. -/

namespace Sys2Proof.Machine

/-! ### Section records -/

theorem Section.sameSettings_refl (a : Section) : a.sameSettings a := by
  refine ⟨?_, ?_, ?_, ?_, ?_, ?_, ?_, ?_, ?_, ?_, ?_, ?_, ?_, ?_, ?_⟩ <;> rfl

theorem Section.sameSettings_trans {a b c : Section} (h : a.sameSettings b) (k : b.sameSettings c) :
    a.sameSettings c := by
  obtain ⟨h1, h2, h3, h4, h5, h6, h7, h8, h9, h10, h11, h12, h13, h14, h15⟩ := h
  obtain ⟨k1, k2, k3, k4, k5, k6, k7, k8, k9, k10, k11, k12, k13, k14, k15⟩ := k
  exact ⟨k1.trans h1, k2.trans h2, k3.trans h3, k4.trans h4, k5.trans h5, k6.trans h6, k7.trans h7,
    k8.trans h8, k9.trans h9, k10.trans h10, k11.trans h11, k12.trans h12, k13.trans h13,
    k14.trans h14, k15.trans h15⟩

theorem Section.sameSettings_entering (r : Section) (now : Nat) (dest : SectionState) (c : CaptureCause) :
    r.sameSettings (r.entering now dest c) := by
  refine ⟨?_, ?_, ?_, ?_, ?_, ?_, ?_, ?_, ?_, ?_, ?_, ?_, ?_, ?_, ?_⟩ <;> rfl

theorem Section.sameSettings_dropLift (r : Section) : r.sameSettings r.dropLift := by
  unfold Section.dropLift
  split
  · refine ⟨?_, ?_, ?_, ?_, ?_, ?_, ?_, ?_, ?_, ?_, ?_, ?_, ?_, ?_, ?_⟩ <;> rfl
  · exact Section.sameSettings_refl _

/-- The record of a section after a state entry. -/
theorem sec_enter (s : State) (i j : SectionId) (dest : SectionState) (c : CaptureCause) :
    (s.enter i dest c).sec j = if j = i then (s.sec i).entering s.now dest c else s.sec j :=
  Table.get_set _ _ _ _

/-- A change of section `i` alone keeps every setting if the record keeps its own. -/
theorem settings_setSec {s : State} {i : SectionId} {r : Section} (h : (s.sec i).sameSettings r)
    (j : SectionId) : (s.sec j).sameSettings ((s.setSec i r).sec j) := by
  rw [State.sec_setSec]
  split
  · next e => subst e; exact h
  · exact Section.sameSettings_refl _

/-! ### The frame as a relation -/

namespace CascadeFrame

theorem refl (s : State) : CascadeFrame s s := by
  constructor <;> first | rfl | exact fun i => Section.sameSettings_refl _ | simp

theorem trans {s t u : State} (h : CascadeFrame s t) (k : CascadeFrame t u) : CascadeFrame s u where
  powered := k.powered.trans h.powered
  scanner := k.scanner.trans h.scanner
  trips := k.trips.trans h.trips
  store := k.store.trans h.store
  pending := k.pending.trans h.pending
  link := by rw [k.link, h.link]
  polarity := ⟨k.polarity.1.trans h.polarity.1, k.polarity.2.1.trans h.polarity.2.1,
    k.polarity.2.2.trans h.polarity.2.2⟩
  clock := k.clock.trans h.clock
  requested := k.requested.trans h.requested
  supervision := k.supervision.trans h.supervision
  resume := k.resume.trans h.resume
  budget := k.budget.trans h.budget
  watch := k.watch.trans h.watch
  pool := ⟨k.pool.1.trans h.pool.1, k.pool.2.trans h.pool.2⟩
  units := fun u =>
    ⟨(k.units u).1.trans (h.units u).1, (k.units u).2.1.trans (h.units u).2.1,
      (k.units u).2.2.1.trans (h.units u).2.2.1, (k.units u).2.2.2.1.trans (h.units u).2.2.2.1,
      (k.units u).2.2.2.2.1.trans (h.units u).2.2.2.2.1,
      (k.units u).2.2.2.2.2.trans (h.units u).2.2.2.2.2⟩
  site := ⟨k.site.1.trans h.site.1, k.site.2.1.trans h.site.2.1, k.site.2.2.1.trans h.site.2.2.1,
    k.site.2.2.2.1.trans h.site.2.2.2.1, k.site.2.2.2.2.trans h.site.2.2.2.2⟩
  settings := fun i => Section.sameSettings_trans (h.settings i) (k.settings i)

/-- A change of section records that keeps the settings keeps the frame. -/
theorem ofSections {s t : State} (h : OnlySections s t)
    (k : ∀ i, (s.sec i).sameSettings (t.sec i)) : CascadeFrame s t where
  powered := h.powered
  scanner := h.scanner
  trips := h.trips
  store := h.store
  pending := h.pending
  link := h.link
  polarity := by rw [h.lines]; exact ⟨rfl, rfl, rfl⟩
  clock := by rw [h.campaign]
  requested := by rw [h.campaign]
  supervision := by rw [h.campaign]
  resume := by rw [h.campaign]
  budget := by rw [h.steam]
  watch := by rw [h.supervisor]
  pool := by rw [h.supervisor]; exact ⟨rfl, rfl⟩
  units := fun u => by rw [h.supervisor]; exact ⟨rfl, rfl, rfl, rfl, rfl, rfl⟩
  site := by rw [h.site]; exact ⟨rfl, rfl, rfl, rfl, rfl⟩
  settings := k

end CascadeFrame

/-! ### Section changes -/

theorem enter_frame (s : State) (i : SectionId) (dest : SectionState) (c : CaptureCause) :
    CascadeFrame s (s.enter i dest c) :=
  .ofSections (enter_onlySections _ _ _ _) (settings_setSec (Section.sameSettings_entering _ _ _ _))

theorem setSec_frame {s : State} {i : SectionId} {r : Section} (h : (s.sec i).sameSettings r) :
    CascadeFrame s (s.setSec i r) :=
  .ofSections (setSec_onlySections _ _ _) (settings_setSec h)

theorem report_frame (s : State) (k : ReportKey) : CascadeFrame s (s.report k) :=
  .ofSections (report_onlySections _ _) fun _ => Section.sameSettings_refl _

theorem handAll_frame (s : State) (ds : List Delivery) : CascadeFrame s (s.handAll ds) :=
  .ofSections (handAll_onlySections _ _) fun _ => Section.sameSettings_refl _

theorem insertHolds_frame (s : State) (i : SectionId) (rs : List HoldReason) :
    CascadeFrame s (s.insertHolds i rs) :=
  setSec_frame (by refine ⟨?_, ?_, ?_, ?_, ?_, ?_, ?_, ?_, ?_, ?_, ?_, ?_, ?_, ?_, ?_⟩ <;> rfl)

theorem setHolds_frame (s : State) (i : SectionId) (hs : List HoldReason) :
    CascadeFrame s (s.setSec i { s.sec i with holds := hs }) :=
  setSec_frame (by refine ⟨?_, ?_, ?_, ?_, ?_, ?_, ?_, ?_, ?_, ?_, ?_, ?_, ?_, ?_, ?_⟩ <;> rfl)

theorem holdWith_frame (s : State) (i : SectionId) (rs : List HoldReason) :
    CascadeFrame s (s.holdWith i rs) := (insertHolds_frame _ _ _).trans (enter_frame _ _ _ _)

/-! ### The steam allocator -/

theorem grantPass_hostBudget (now : Nat) (st : Steam) : (st.grantPass now).1.hostBudget = st.hostBudget := rfl

theorem withdraw_hostBudget (now : Nat) (i : SectionId) (st : Steam) :
    (st.withdraw now i).1.hostBudget = st.hostBudget := by
  unfold Steam.withdraw; split <;> rfl

theorem release_hostBudget (now : Nat) (i : SectionId) (st : Steam) :
    (st.release now i).1.hostBudget = st.hostBudget := by
  unfold Steam.release; split
  · rfl
  · exact withdraw_hostBudget _ _ _

theorem rebudget_hostBudget (now old : Nat) (st : Steam) :
    (st.rebudget now old).1.hostBudget = st.hostBudget := by
  unfold Steam.rebudget; split
  · rfl
  · split <;> rfl

theorem setCap_hostBudget (now : Nat) (g : GroupId) (c : Option Nat) (st : Steam) :
    (st.setCap now g c).1.hostBudget = st.hostBudget := rebudget_hostBudget _ _ _

theorem request_hostBudget (now : Nat) (i : SectionId) (d : Nat) (held : Bool) (st : Steam) :
    (st.request now i d held).1.hostBudget = st.hostBudget := by
  unfold Steam.request
  split
  · rfl
  · split
    · rfl
    · split <;> rfl

/-! ### The unit supervisor -/

/-- What a covering change, and the driving of run outputs, leave alone in the supervisor's record. -/
structure SameFaults (a b : UnitSupervisor) : Prop where
  watch : b.watch = a.watch
  reserve : b.reserve = a.reserve
  window : b.window = a.window
  units : ∀ u, (b.units.get u).condition = (a.units.get u).condition ∧
    (b.units.get u).faultActive = (a.units.get u).faultActive ∧
    (b.units.get u).window = (a.units.get u).window ∧
    (b.units.get u).role = (a.units.get u).role ∧
    (b.units.get u).cls = (a.units.get u).cls ∧
    (b.units.get u).sec = (a.units.get u).sec

namespace SameFaults

theorem refl (a : UnitSupervisor) : SameFaults a a := ⟨rfl, rfl, rfl, fun _ => ⟨rfl, rfl, rfl, rfl, rfl, rfl⟩⟩

theorem trans {a b c : UnitSupervisor} (h : SameFaults a b) (k : SameFaults b c) : SameFaults a c where
  watch := k.watch.trans h.watch
  reserve := k.reserve.trans h.reserve
  window := k.window.trans h.window
  units := fun u =>
    ⟨(k.units u).1.trans (h.units u).1, (k.units u).2.1.trans (h.units u).2.1,
      (k.units u).2.2.1.trans (h.units u).2.2.1, (k.units u).2.2.2.1.trans (h.units u).2.2.2.1,
      (k.units u).2.2.2.2.1.trans (h.units u).2.2.2.2.1,
      (k.units u).2.2.2.2.2.trans (h.units u).2.2.2.2.2⟩

theorem ofUnit {a : UnitSupervisor} {u : UnitId} {r : UnitRecord}
    (h : r.condition = (a.units.get u).condition ∧ r.faultActive = (a.units.get u).faultActive ∧
      r.window = (a.units.get u).window ∧ r.role = (a.units.get u).role ∧
      r.cls = (a.units.get u).cls ∧ r.sec = (a.units.get u).sec) : SameFaults a (a.setUnit u r) where
  watch := rfl
  reserve := rfl
  window := rfl
  units := fun v => by
    show ((a.units.set u r).get v).condition = _ ∧ _
    simp only [UnitSupervisor.setUnit, Table.get_set]
    split
    · next e => subst e; exact h
    · exact ⟨rfl, rfl, rfl, rfl, rfl, rfl⟩

theorem ofFold {β : Type} (f : UnitSupervisor → β → UnitSupervisor) (h : ∀ a x, SameFaults a (f a x))
    (l : List β) (a : UnitSupervisor) : SameFaults a (l.foldl f a) := by
  induction l generalizing a with
  | nil => exact refl _
  | cons x l ih => exact (h a x).trans (ih _)

end SameFaults

theorem assign_sameFaults (us : UnitSupervisor) (sp u : UnitId) : SameFaults us (us.assign sp u) := by
  unfold UnitSupervisor.assign
  dsimp only
  exact .trans (.ofUnit (u := u) (r := { us.units.get u with coveredBy := some sp })
    ⟨rfl, rfl, rfl, rfl, rfl, rfl⟩) (.ofUnit (u := sp) ⟨rfl, rfl, rfl, rfl, rfl, rfl⟩)

theorem uncover_sameFaults (us : UnitSupervisor) (sp u : UnitId) : SameFaults us (us.uncover sp u) := by
  unfold UnitSupervisor.uncover
  dsimp only
  exact .trans (.ofUnit (u := u) (r := { us.units.get u with coveredBy := none })
    ⟨rfl, rfl, rfl, rfl, rfl, rfl⟩) (.ofUnit (u := sp) ⟨rfl, rfl, rfl, rfl, rfl, rfl⟩)

theorem demands_sameFaults (us : UnitSupervisor) (ds : List SpareDemand) :
    SameFaults us { us with demands := ds } := ⟨rfl, rfl, rfl, fun _ => ⟨rfl, rfl, rfl, rfl, rfl, rfl⟩⟩

theorem requestCoverage_sameFaults (us : UnitSupervisor) (u : UnitId) :
    SameFaults us (us.requestCoverage u) := by
  unfold UnitSupervisor.requestCoverage
  split
  · exact assign_sameFaults _ _ _
  · exact demands_sameFaults _ _

theorem offer_sameFaults (us : UnitSupervisor) (sp : UnitId) : SameFaults us (us.offer sp) := by
  unfold UnitSupervisor.offer
  split
  · split
    · exact (demands_sameFaults _ _).trans (assign_sameFaults _ _ _)
    · exact .refl _
  · exact .refl _

theorem exclude_sameFaults (us : UnitSupervisor) (duty : List UnitId) : SameFaults us (us.exclude duty) := by
  unfold UnitSupervisor.exclude
  dsimp only
  refine .trans (.ofFold _ ?_ _ _) (.ofFold _ offer_sameFaults _ _)
  intro a u
  unfold UnitSupervisor.giveUp
  split
  · exact uncover_sameFaults _ _ _
  · exact demands_sameFaults _ _

theorem attend_sameFaults (us : UnitSupervisor) (u : UnitId) : SameFaults us (us.attend u) := by
  unfold UnitSupervisor.attend
  split
  · exact .refl _
  · exact requestCoverage_sameFaults _ _

theorem includeUnits_sameFaults (us : UnitSupervisor) (duty : List UnitId) :
    SameFaults us (us.includeUnits duty) := .ofFold _ attend_sameFaults _ _

theorem drive_sameFaults (secs : Table Section 24) (us : UnitSupervisor) (which : List UnitId) :
    SameFaults us (us.drive secs which) :=
  .ofFold (fun t u => t.setUnit u { t.units.get u with runOutput := t.runs secs u })
    (fun _ _ => .ofUnit ⟨rfl, rfl, rfl, rfl, rfl, rfl⟩) _ _

theorem order_frame (s : State) (o : List Nat) (d : Nat) :
    CascadeFrame s { s with order := o, drawn := d } := by
  constructor <;> first | rfl | exact fun i => Section.sameSettings_refl _ | simp

/-! ### The campaign controller -/

theorem campaign_frame {s : State} {c : Campaign} (h : c.clock = s.campaign.clock)
    (h2 : c.overlapRequested = s.campaign.overlapRequested)
    (h3 : c.supervisionLost = s.campaign.supervisionLost) (h4 : c.resume = s.campaign.resume) :
    CascadeFrame s { s with campaign := c } := by
  constructor <;> first | rfl | exact h | exact h2 | exact h3 | exact h4 |
    exact fun i => Section.sameSettings_refl _ | simp

theorem site_frame {s : State} {x : SiteService} (h : x.status = s.site.status ∧
    x.staging = s.site.staging ∧ x.siteWriting = s.site.siteWriting ∧ x.committed = s.site.committed ∧
    x.markRead = s.site.markRead) : CascadeFrame s { s with site := x } := by
  constructor <;> first | rfl | exact h | exact fun i => Section.sameSettings_refl _ | simp

theorem work_frame (s : State) (w : List Delivery) : CascadeFrame s { s with work := w } := by
  constructor <;> first | rfl | exact fun i => Section.sameSettings_refl _ | simp

theorem steam_frame {s : State} {st : Steam} (h : st.hostBudget = s.steam.hostBudget) :
    CascadeFrame s { s with steam := st } := by
  constructor <;> first | rfl | exact h | exact fun i => Section.sameSettings_refl _ | simp

theorem units_frame {s : State} {us : UnitSupervisor} (h : SameFaults s.supervisor us)
    (latch : Table Bool 48) :
    CascadeFrame s { s with supervisor := us, lines := { s.lines with runLatch := latch } } := by
  constructor <;> first | rfl | exact fun i => Section.sameSettings_refl _ | exact h.watch |
    exact ⟨h.reserve, h.window⟩ | exact h.units | simp

theorem requestMark_frame (s : State) (v : Mark) : CascadeFrame s (s.requestMark v) := by
  unfold State.requestMark SiteService.requestMark
  split
  · exact site_frame ⟨rfl, rfl, rfl, rfl, rfl⟩
  · exact site_frame ⟨rfl, rfl, rfl, rfl, rfl⟩

theorem dropLift_frame (s : State) : CascadeFrame s { s with sections := s.sections.map Section.dropLift } := by
  constructor <;> first | rfl | skip
  · exact ⟨rfl, rfl, rfl⟩
  · exact ⟨rfl, rfl⟩
  · exact fun _ => ⟨rfl, rfl, rfl, rfl, rfl, rfl⟩
  · exact ⟨rfl, rfl, rfl, rfl, rfl⟩
  intro i
  show (s.sec i).sameSettings ((s.sections.map Section.dropLift).get i)
  rw [Table.get_map]
  exact Section.sameSettings_dropLift _

end Sys2Proof.Machine
end

