-- ==== Sys2Proof/Laws/Steam.lean ====
section
/-! SUPPORT. Every change of the steam allocator keeps its law (R75). -/

namespace Sys2Proof.Machine

theorem claimSum_nil : claimSum [] = 0 := rfl

theorem claimSum_cons (c : Claim) (cs : List Claim) : claimSum (c :: cs) = c.demand + claimSum cs := rfl

theorem claimSum_append (a b : List Claim) : claimSum (a ++ b) = claimSum a + claimSum b := by
  simp [claimSum]

theorem claimSum_reverse (a : List Claim) : claimSum a.reverse = claimSum a := by
  simp [claimSum, List.sum_reverse]

theorem claimSum_since (now : Nat) (a : List Claim) :
    claimSum (a.map fun c => { c with since := now }) = claimSum a := by
  simp [claimSum, Function.comp_def]

theorem claimSum_filter (p : Claim → Bool) (a : List Claim) : claimSum (a.filter p) ≤ claimSum a := by
  induction a with
  | nil => simp
  | cons c cs ih =>
    rw [List.filter_cons, claimSum_cons]
    split
    · rw [claimSum_cons]; omega
    · omega

/-- The part of the law that holds whatever the budget: no section twice, and no empty demand. -/
def Steam.listed (st : Steam) : Prop :=
  ((st.claims ++ st.queue).map Claim.sec).Nodup ∧ ∀ c ∈ st.claims ++ st.queue, 1 ≤ c.demand

theorem Steam.law_iff (st : Steam) : st.law ↔ st.claimedSum ≤ st.effective ∧ st.listed := Iff.rfl

/-- `listed` depends on the two lists alone, and not on their order. -/
theorem Steam.listed_of_perm {a b : Steam} (h : a.listed) {l : List Claim}
    (k : ((b.claims ++ b.queue).map fun c => (c.sec, c.demand)).Perm (l.map fun c => (c.sec, c.demand)))
    (hl : l.Sublist (a.claims ++ a.queue)) : b.listed := by
  constructor
  · have h1 : (l.map Claim.sec).Nodup := (h.1).sublist (hl.map _)
    have k1 := k.map Prod.fst
    simp only [List.map_map, Function.comp_def] at k1
    exact k1.nodup_iff.2 h1
  · intro c hc
    have k2 : (c.sec, c.demand) ∈ l.map fun c => (c.sec, c.demand) :=
      k.subset (List.mem_map_of_mem hc)
    obtain ⟨d, hd, e⟩ := List.mem_map.1 k2
    have := h.2 d (hl.subset hd)
    simp only [Prod.mk.injEq] at e
    omega

/-! ### The grant pass (R82) -/

theorem grantable_append (room : Nat) (q : List Claim) :
    (grantable room q).1 ++ (grantable room q).2 = q := by
  induction q generalizing room with
  | nil => rfl
  | cons c q ih =>
    unfold grantable
    split
    · simp [ih]
    · rfl

theorem grantable_sum (room : Nat) (q : List Claim) : claimSum (grantable room q).1 ≤ room := by
  induction q generalizing room with
  | nil => simp [grantable, claimSum_nil]
  | cons c q ih =>
    unfold grantable
    split
    · have := ih (room - c.demand)
      simp only [claimSum_cons]
      omega
    · simp [claimSum_nil]

/-- A grant pass stops at a head that does not fit. -/
theorem grantable_head (room : Nat) (q : List Claim) (c : Claim) (rest : List Claim)
    (h : (grantable room q).2 = c :: rest) : room < claimSum (grantable room q).1 + c.demand := by
  induction q generalizing room with
  | nil => simp [grantable] at h
  | cons d q ih =>
    unfold grantable at h ⊢
    split
    · next hd =>
      rw [if_pos hd] at h
      have := ih _ h
      simp only [claimSum_cons]
      omega
    · next hd =>
      rw [if_neg hd] at h
      simp only [List.cons.injEq] at h
      rw [← h.1, claimSum_nil]
      omega

theorem grantPass_law (now : Nat) {st : Steam} (h : st.law) : (st.grantPass now).1.law := by
  constructor
  · show claimSum (st.claims ++ _) ≤ st.effective
    rw [claimSum_append, claimSum_since]
    have := grantable_sum (st.effective - st.claimedSum) st.queue
    have := h.1
    unfold Steam.claimedSum at *
    omega
  · refine Steam.listed_of_perm h.2 (l := st.claims ++ st.queue) ?_ (List.Sublist.refl _)
    have e := grantable_append (st.effective - st.claimedSum) st.queue
    have e2 : (((st.grantPass now).1.claims ++ (st.grantPass now).1.queue).map fun c => (c.sec, c.demand)) =
        ((st.claims ++ ((grantable (st.effective - st.claimedSum) st.queue).1 ++
          (grantable (st.effective - st.claimedSum) st.queue).2)).map fun c => (c.sec, c.demand)) := by
      simp [Steam.grantPass, Function.comp_def]
    rw [e2, e]

/-! ### Sheds (R87) and changes of the budget (R80) -/

theorem shedNewest_append (budget : Nat) (l : List Claim) :
    (shedNewest budget l).1 ++ (shedNewest budget l).2 = l := by
  induction l with
  | nil => rfl
  | cons c l ih =>
    unfold shedNewest
    split
    · simp [ih]
    · rfl

theorem shedNewest_sum (budget : Nat) (l : List Claim) : claimSum (shedNewest budget l).2 ≤ budget := by
  induction l with
  | nil => simp [shedNewest, claimSum_nil]
  | cons c l ih =>
    unfold shedNewest
    split
    · exact ih
    · next h => exact Nat.not_lt.1 h

/-- The record a shed leaves before its grant pass. -/
theorem shed_listed (now : Nat) {st : Steam} (h : st.listed) : Steam.listed { st with
    claims := (shedNewest st.effective st.claims.reverse).2.reverse
    queue := st.queue ++ (shedNewest st.effective st.claims.reverse).1.map
      (fun c => { c with since := now }) } := by
  · refine Steam.listed_of_perm h (l := st.claims ++ st.queue) ?_ (List.Sublist.refl _)
    have e := congrArg List.reverse (shedNewest_append st.effective st.claims.reverse)
    simp only [List.reverse_append, List.reverse_reverse] at e
    simp only [List.map_append, List.map_map, Function.comp_def]
    generalize (shedNewest st.effective st.claims.reverse).1 = x at *
    generalize (shedNewest st.effective st.claims.reverse).2 = y at *
    rw [← e, List.map_append, List.append_assoc]
    refine List.Perm.append_left _ ?_
    refine List.perm_append_comm.trans (List.Perm.append_right _ ?_)
    exact (List.reverse_perm _).symm.map _

theorem shed_law (now : Nat) {st : Steam} (h : st.listed) : (st.shed now).1.law := by
  refine grantPass_law now ⟨?_, shed_listed now h⟩
  show claimSum (shedNewest st.effective st.claims.reverse).2.reverse ≤ st.effective
  rw [claimSum_reverse]
  exact shedNewest_sum _ _

theorem rebudget_law (now old : Nat) {st : Steam} (h : st.listed) : (st.rebudget now old).1.law := by
  unfold Steam.rebudget
  split
  · exact shed_law now h
  · next k =>
    split
    · exact grantPass_law now ⟨Nat.not_lt.1 k, h⟩
    · exact ⟨Nat.not_lt.1 k, h⟩

theorem setHost_law (now budget : Nat) {st : Steam} (h : st.law) : (st.setHost now budget).1.law :=
  rebudget_law now _ (st := { st with hostBudget := budget }) h.2

theorem setCap_law (now : Nat) (g : GroupId) (c : Option Nat) {st : Steam} (h : st.law) :
    (st.setCap now g c).1.law :=
  rebudget_law now _ (st := { st with caps := st.caps.set g c }) h.2

/-! ### Releases, withdrawals and requests (R81, R84, R85, R86) -/

theorem filtered_law {st : Steam} (h : st.law) (p q : Claim → Bool) :
    Steam.law { st with claims := st.claims.filter p, queue := st.queue.filter q } := by
  constructor
  · exact (claimSum_filter _ _).trans h.1
  · exact Steam.listed_of_perm h.2 (List.Perm.refl _)
      (List.Sublist.append List.filter_sublist List.filter_sublist)

theorem withdraw_law (now : Nat) (i : SectionId) {st : Steam} (h : st.law) :
    (st.withdraw now i).1.law := by
  unfold Steam.withdraw
  split
  · refine grantPass_law now ?_
    have := filtered_law h (fun _ => true) (fun c => c.sec != i)
    simpa [withoutClaim] using this
  · exact h

theorem release_law (now : Nat) (i : SectionId) {st : Steam} (h : st.law) :
    (st.release now i).1.law := by
  unfold Steam.release
  split
  · refine grantPass_law now ?_
    have := filtered_law h (fun c => c.sec != i) (fun _ => true)
    simpa [withoutClaim] using this
  · exact withdraw_law now i h

theorem mapped_law (now : Nat) (secs : List SectionId) {st : Steam} (h : st.law) :
    (st.mapped now secs).1.law := by
  unfold Steam.mapped
  dsimp only
  split
  · exact grantPass_law now (filtered_law h _ _)
  · exact h

theorem not_mem_of_not_hasClaim {i : SectionId} {cs : List Claim} (h : hasClaim i cs = false) :
    i ∉ cs.map Claim.sec := by
  intro k
  obtain ⟨c, hc, e⟩ := List.mem_map.1 k
  have : hasClaim i cs = true := List.any_eq_true.2 ⟨c, hc, by simp [e]⟩
  rw [h] at this
  exact absurd this (by decide)

theorem request_law (now : Nat) (i : SectionId) (d : Nat) (held : Bool) {st : Steam} (h : st.law) :
    (st.request now i d held).1.law := by
  unfold Steam.request
  split
  · exact h
  · next k =>
    simp only [Bool.or_eq_true, not_or, Bool.not_eq_true] at k
    have n1 := not_mem_of_not_hasClaim k.1
    have n2 := not_mem_of_not_hasClaim k.2
    split
    · exact h
    · next hd =>
      split
      · next r =>
        simp only [Bool.and_eq_true, List.isEmpty_iff, decide_eq_true_eq] at r
        refine ⟨?_, ?_, ?_⟩
        · show claimSum (st.claims ++ _) ≤ st.effective
          rw [claimSum_append, claimSum_cons, claimSum_nil]
          show claimSum st.claims + (d + 0) ≤ st.effective
          have := h.1
          unfold Steam.claimedSum at *
          omega
        · have := h.2.1
          simp only [r.1, List.append_nil, List.map_append, List.map_cons, List.map_nil] at this ⊢
          rw [List.nodup_append]
          refine ⟨this, List.nodup_singleton _, ?_⟩
          intro a ha b hb e
          simp only [List.mem_singleton] at hb
          subst e hb
          exact n1 ha
        · intro c hc
          simp only [r.1, List.append_nil, List.mem_append, List.mem_singleton] at hc
          rcases hc with hc | hc
          · exact h.2.2 c (List.mem_append_left _ hc)
          · subst hc; show 1 ≤ d; omega
      · refine ⟨h.1, ?_, ?_⟩
        · have := h.2.1
          show ((st.claims ++ (st.queue ++ [_])).map Claim.sec).Nodup
          rw [← List.append_assoc, List.map_append, List.nodup_append]
          refine ⟨this, List.nodup_singleton _, ?_⟩
          intro a ha b hb e
          simp only [List.map_cons, List.map_nil, List.mem_singleton] at hb
          subst e hb
          rw [List.map_append] at ha
          rcases List.mem_append.1 ha with ha | ha
          · exact n1 ha
          · exact n2 ha
        · intro c hc
          change c ∈ st.claims ++ (st.queue ++ [_]) at hc
          rw [← List.append_assoc] at hc
          rcases List.mem_append.1 hc with hc | hc
          · exact h.2.2 c hc
          · simp only [List.mem_singleton] at hc
            subst hc; show 1 ≤ d; omega

end Sys2Proof.Machine
end

