-- ==== Sys2Proof/Laws/Moves.lean ====
section
/-! SUPPORT. The few moves that every delivery, and so every cascade, is made of. A property that each
move keeps is kept by every cascade. -/

namespace Sys2Proof.Machine

/-- The entries of a state that a cascade makes outside HELD. -/
structure Enters (s : State) (i : SectionId) (dest : SectionState) : Prop where
  notHeld : (s.sec i).state ≠ .held
  notAbsent : (s.sec i).state ≠ .absent
  destNotHeld : dest ≠ .held
  destNotAbsent : dest ≠ .absent
  closed : s.campaign.state = .closed → dest.working = true → (s.sec i).state.working = true

/-- A hold set that loses some of its reasons, but not its last and not RESTART. -/
structure Keeps (old new : List HoldReason) : Prop where
  some : new ≠ []
  sublist : new.Sublist old
  restart : HoldReason.restart ∈ new ↔ HoldReason.restart ∈ old

theorem Keeps.subset {old new : List HoldReason} (h : Keeps old new) : new ⊆ old := h.sublist.subset

/-- One move of a cascade. -/
inductive Move : State → State → Prop
  | work (s : State) (w : List Delivery) : Move s { s with work := w }
  | order (s : State) (o : List Nat) (d : Nat) : Move s { s with order := o, drawn := d }
  | report (s : State) (k : ReportKey) : Move s (s.report k)
  | enter (s : State) (i : SectionId) (dest : SectionState) (c : CaptureCause) (h : Enters s i dest) :
      Move s (s.enter i dest c)
  | hold (s : State) (i : SectionId) (rs : List HoldReason) (h : (s.sec i).state.working = true)
      (some : rs ≠ []) (restart : HoldReason.restart ∉ rs) : Move s (s.holdWith i rs)
  | gain (s : State) (i : SectionId) (r : HoldReason) (h : (s.sec i).state = .held)
      (restart : r ≠ .restart) : Move s (s.insertHolds i [r])
  | drop (s : State) (i : SectionId) (hs : List HoldReason) (h : Keeps (s.sec i).holds hs) :
      Move s (s.setSec i { s.sec i with holds := hs })
  | leave (s : State) (i : SectionId) (back : SectionState) (c : CaptureCause)
      (h : (s.sec i).holds ≠ []) (k : (s.sec i).heldFrom = some back) :
      Move s ((s.setSec i { s.sec i with holds := [] }).enter i back c)
  | steam (s : State) (st : Steam) (h : st.hostBudget = s.steam.hostBudget)
      (law : s.steam.law → st.law) : Move s { s with steam := st }
  | units (s : State) (us : UnitSupervisor) (h : SameFaults s.supervisor us) :
      Move s { s with
        supervisor := us
        lines := { s.lines with
          runLatch := Table.ofFn fun u => (s.lines.runPolarity.get u).level (us.units.get u).runOutput } }
  | supply (s : State) (free reserve : Nat) :
      Move s { s with campaign := { s.campaign with
        freeSpares := free
        spareReserve := reserve
        overlapEffective := s.campaign.overlapRequested && decide (reserve < free) } }
  | close (s : State) (h : s.campaign.state = .windingDown) (k : s.finished = true) :
      Move s (({ s with
        campaign := { s.campaign with
          state := .closed, lock := false, pendingMark := s.campaign.pendingMark.map fun _ => .closed }
        sections := s.sections.map Section.dropLift } : State).requestMark .closed)

/-- Any number of moves. -/
def Moves : State → State → Prop := Relation.ReflTransGen Move

namespace Moves

theorem refl (s : State) : Moves s s := Relation.ReflTransGen.refl

theorem trans {s t u : State} (h : Moves s t) (k : Moves t u) : Moves s u :=
  Relation.ReflTransGen.trans h k

theorem one {s t : State} (h : Move s t) : Moves s t := Relation.ReflTransGen.single h

/-- A property that every move keeps is kept by any number of them. -/
theorem keep {P : State → Prop} (step : ∀ s t, Move s t → P s → P t) {s t : State} (h : Moves s t)
    (p : P s) : P t := by
  induction h with
  | refl => exact p
  | tail _ m ih => exact step _ _ m ih

theorem fold {β : Type} {f : State → β → State} (h : ∀ s b, Moves s (f s b)) (l : List β) (s : State) :
    Moves s (l.foldl f s) := by
  induction l generalizing s with
  | nil => exact refl _
  | cons b l ih => exact (h s b).trans (ih _)

end Moves

/-! ### Reports, deliveries and free orders -/

theorem report_moves (s : State) (k : ReportKey) : Moves s (s.report k) := .one (.report s k)

theorem hand_moves (s : State) (d : Delivery) : Moves s (s.hand d) := .one (.work s _)

theorem handAll_moves (s : State) (ds : List Delivery) : Moves s (s.handAll ds) := .one (.work s _)

theorem reportAll_moves (ks : List ReportKey) (s : State) : Moves s (State.reportAll ks s) := by
  unfold State.reportAll
  dsimp only
  refine .trans ?_ (Moves.fold (fun s k => report_moves s k) _ _)
  rw [shuffle_eq]
  exact .one (.order s _ _)

/-! ### Sections -/

theorem entryReasons_restart (s : State) (i : SectionId) (dest : SectionState) :
    HoldReason.restart ∉ s.entryReasons i dest := by
  unfold State.entryReasons
  simp only [List.mem_append, not_or]
  refine ⟨⟨?_, ?_⟩, ?_⟩ <;> split <;> simp

/-- A state entered, and HELD from it where the cause of a hold stands. -/
theorem enterState_split (s : State) (i : SectionId) (dest : SectionState) (c : CaptureCause) :
    Moves (s.enter i dest c) (s.enterState i dest c) := by
  unfold State.enterState
  dsimp only
  split
  · next h =>
    simp only [Bool.and_eq_true, Bool.not_eq_true', List.isEmpty_eq_false_iff] at h
    refine .one (.hold _ i _ ?_ h.2 (entryReasons_restart _ _ _))
    rw [sec_enter, if_pos rfl]
    exact h.1
  · exact .refl _

theorem enterState_moves {s : State} {i : SectionId} {dest : SectionState} (c : CaptureCause)
    (h : Enters s i dest) : Moves s (s.enterState i dest c) :=
  (Moves.one (.enter s i dest c h)).trans (enterState_split _ _ _ _)

theorem takes_working {r : Section} {x : HoldReason} (h : r.takes x = true) :
    (r.state.working = true ∨ r.state = .held) ∧ x ≠ .restart := by
  rcases r with ⟨_, _, _, _, _, _, st, _, _, _, _, _, _, _, _, _, _, _, _, _, _, _, _, _⟩
  cases x <;> cases st <;> simp_all [Section.takes, SectionState.working]

theorem addReason_moves (s : State) (i : SectionId) (r : HoldReason) : Moves s (s.addReason i r) := by
  unfold State.addReason
  dsimp only
  split
  · exact .refl _
  · next h =>
    simp only [Bool.or_eq_true, Bool.not_eq_true', not_or, Bool.not_eq_false, Bool.not_eq_true] at h
    have k := takes_working h.1
    split
    · next e => exact (Moves.one (.gain s i r e k.2)).trans (report_moves _ _)
    · next e =>
      refine .one (.hold s i [r] (k.1.resolve_right e) (by simp) ?_)
      simp only [List.mem_singleton]
      exact fun e => k.2 e.symm

theorem mem_removeFrom {r x : HoldReason} {hs : List HoldReason} :
    x ∈ removeFrom r hs ↔ x ∈ hs ∧ x ≠ r := by
  simp [removeFrom]

theorem removeReason_moves (s : State) (i : SectionId) {r : HoldReason} (c : CaptureCause)
    (hr : r ≠ .restart) : Moves s (s.removeReason i r c) := by
  unfold State.removeReason
  dsimp only
  split
  · exact .refl _
  · next h =>
    split
    · split
      · next back e =>
        refine .trans (.one (.leave s i back c ?_ e)) (enterState_split _ _ _ _)
        intro n
        simp [n] at h
      · exact .refl _
    · next k =>
      refine .trans (.one (.drop s i _ ⟨?_, ?_, ?_⟩)) (report_moves _ _)
      · simpa using k
      · exact List.filter_sublist
      · rw [mem_removeFrom]
        exact ⟨fun h => h.1, fun h => ⟨h, fun e => hr e.symm⟩⟩

/-- The steps out of a state start and end outside HELD and ABSENT. -/
theorem nextStep_spec {cls : SectionClass} {st dest : SectionState} (h : nextStep cls st = some dest) :
    st ≠ .held ∧ st ≠ .absent ∧ dest ≠ .held ∧ dest ≠ .absent ∧ (st.working = true ∨ st = .cold) := by
  cases cls <;> cases st <;> simp_all [nextStep, SectionState.working] <;> subst h <;> simp

/-- A section leaves COLD in an OPEN campaign only. -/
theorem failing_cold {s : State} {i : SectionId} (h : s.failing i = []) (k : (s.sec i).state = .cold) :
    s.campaign.state = .opened := by
  unfold State.failing at h
  dsimp only at h
  rw [k] at h
  cases e : (s.sec i).cls <;> rw [e] at h <;>
    simp only [unmet, List.append_eq_nil_iff, ite_eq_left_iff, reduceCtorEq] at h <;> simp_all

theorem enters_of_permit {s : State} {i : SectionId} {dest : SectionState}
    (h : nextStep (s.sec i).cls (s.sec i).state = some dest) (k : s.failing i = []) : Enters s i dest := by
  have n := nextStep_spec h
  refine ⟨n.1, n.2.1, n.2.2.1, n.2.2.2.1, fun e _ => n.2.2.2.2.resolve_right fun f => ?_⟩
  have := failing_cold k f
  rw [e] at this
  exact absurd this (by decide)

/-! ### The steam allocator -/

theorem takeNotice_moves (s : State) (n : SteamNotice) : Moves s (s.takeNotice n) := by
  unfold State.takeNotice
  split
  · split
    · next h => exact enterState_moves _ ⟨by simp [h], by simp [h], by simp, by simp, by simp [h, SectionState.working]⟩
    · split
      · exact removeReason_moves _ _ _ (by simp)
      · exact hand_moves _ _
  · exact addReason_moves _ _ _
  · exact removeReason_moves _ _ _ (by simp)

theorem putSteam_moves {s : State} {st : Steam} (h : st.hostBudget = s.steam.hostBudget)
    (law : s.steam.law → st.law) : Moves s (s.putSteam st) := by
  unfold State.putSteam
  split
  · exact .refl _
  · exact (Moves.one (.steam s st h law)).trans (report_moves _ _)

theorem steamChange_moves {s : State} {f : Steam → Steam × List SteamNotice}
    (h : (f s.steam).1.hostBudget = s.steam.hostBudget) (law : s.steam.law → (f s.steam).1.law) :
    Moves s (s.steamChange f) :=
  (putSteam_moves h law).trans (Moves.fold takeNotice_moves _ _)

theorem fillDoneRequest_moves (s : State) (i : SectionId) : Moves s (s.fillDoneRequest i) := by
  unfold State.fillDoneRequest
  split
  · exact steamChange_moves (request_hostBudget _ _ _ _ _) (request_law _ _ _ _)
  · exact .refl _

theorem reexamine_moves (s : State) (i : SectionId) (why : Why) : Moves s (s.reexamine i why) := by
  unfold State.reexamine
  dsimp only
  split
  · next dest h =>
    split
    · next k => exact enterState_moves _ (enters_of_permit h k.2.1)
    · exact fillDoneRequest_moves _ _
  · exact .refl _

/-! ### The unit supervisor and the campaign controller -/

theorem putUnits_moves {s : State} {us : UnitSupervisor} (h : SameFaults s.supervisor us) :
    Moves s (s.putUnits us) := by
  unfold State.putUnits
  dsimp only
  refine .trans ?_ (reportAll_moves _ _)
  refine .trans ?_ (handAll_moves _ _)
  exact .one (.units s { us with short := _ } ⟨h.watch, h.reserve, h.window, h.units⟩)

theorem supervise_moves {s : State} {f : UnitSupervisor → UnitSupervisor}
    (h : SameFaults s.supervisor (f s.supervisor)) : Moves s (s.supervise f) :=
  putUnits_moves (h.trans (drive_sameFaults _ _ _))

theorem runDemand_moves (s : State) (i : SectionId) : Moves s (s.runDemand i) :=
  putUnits_moves (drive_sameFaults _ _ _)

theorem takeRunDemand_moves (s : State) (i : SectionId) : Moves s (s.takeRunDemand i) :=
  (Moves.one (.work s (s.work.erase (.runDemand i)))).trans (runDemand_moves _ i)

theorem takeRunDemands_moves (s : State) : Moves s s.takeRunDemands := .fold takeRunDemand_moves _ _

theorem takeSupply_moves (s : State) (free reserve : Nat) : Moves s (s.takeSupply free reserve) := by
  have m := Moves.one (Move.supply s free reserve)
  unfold State.takeSupply State.recomputeOverlap Campaign.overlapDue
  dsimp only
  split
  · next h => rw [← h] at m; exact m
  · exact (m.trans (report_moves _ _)).trans (handAll_moves _ _)

theorem closingTest_moves (s : State) : Moves s s.closingTest := by
  unfold State.closingTest
  split
  · next h =>
    unfold State.closeNow State.reexamineAll
    dsimp only
    refine .trans ?_ (handAll_moves _ _)
    refine .trans ?_ (report_moves _ _)
    exact .one (.close s h.1 h.2)
  · exact .refl _

/-! ### Deliveries and cascades -/

theorem runDelivery_moves (s : State) (d : Delivery) : Moves s (s.runDelivery d) := by
  unfold State.runDelivery
  split
  · exact reexamine_moves _ _ _
  · split
    · exact .refl _
    · exact addReason_moves _ _ _
  · split
    · exact .refl _
    · next h => exact removeReason_moves _ _ _ fun e => h (by rw [e]; rfl)
  · exact steamChange_moves (release_hostBudget _ _ _) (release_law _ _)
  · exact steamChange_moves (withdraw_hostBudget _ _ _) (withdraw_law _ _)
  · exact steamChange_moves (setCap_hostBudget _ _ _ _) (setCap_law _ _ _)
  · exact runDemand_moves _ _
  · split
    · exact .refl _
    · exact supervise_moves (exclude_sameFaults _ _)
  · split
    · exact supervise_moves (includeUnits_sameFaults _ _)
    · exact .refl _
  · exact takeSupply_moves _ _ _
  · exact closingTest_moves _

/-- Every cascade is made of moves. -/
theorem settle_moves (s : State) : Moves s s.settle := by
  refine settle_induct (P := fun t => Moves s t) ?_ ?_ s (.refl s)
  · intro t w o d h
    exact (h.trans (.one (.work t w))).trans (.one (.order _ o d))
  · intro t d h
    exact h.trans (runDelivery_moves _ _)

end Sys2Proof.Machine
end

