-- ==== Sys2Proof/Laws/Kept.lean ====
section
/-! SUPPORT. Which laws of the device every move keeps, and so every cascade. -/

namespace Sys2Proof.Machine

/-! ### Membership in hold sets -/

theorem mem_insertReason {r x : HoldReason} {hs : List HoldReason} :
    x ∈ insertReason r hs ↔ x = r ∨ x ∈ hs := by
  induction hs with
  | nil => simp [insertReason]
  | cons y ys ih =>
    unfold insertReason
    split
    · next e => subst e; simp
    · split
      · simp
      · simp only [List.mem_cons, ih]; tauto

theorem mem_insertAll {x : HoldReason} {rs hs : List HoldReason} :
    x ∈ rs.foldr insertReason hs ↔ x ∈ rs ∨ x ∈ hs := by
  induction rs with
  | nil => simp
  | cons r rs ih => simp only [List.foldr_cons, mem_insertReason, ih, List.mem_cons]; tauto

/-! ### The order of hold sets (R94) -/

/-- R94: no two reasons have one place in the order. -/
theorem rank_injective {a b : HoldReason} (h : a.rank = b.rank) : a = b := by
  cases a <;> cases b <;> simp only [HoldReason.rank] at h <;>
    first
      | rfl
      | omega
      | exact congrArg _ (Fin.ext (by omega))

theorem ordered_insertReason {r : HoldReason} {hs : List HoldReason} (h : HoldsOrdered hs) :
    HoldsOrdered (insertReason r hs) := by
  induction hs with
  | nil => exact List.pairwise_singleton _ _
  | cons x xs ih =>
    obtain ⟨first, rest⟩ := List.pairwise_cons.1 h
    unfold insertReason
    split
    · exact h
    · next n =>
      split
      · next lt =>
        refine List.pairwise_cons.2 ⟨fun y m => ?_, h⟩
        rcases List.mem_cons.1 m with rfl | m
        · exact lt
        · exact Nat.lt_trans lt (first y m)
      · next ge =>
        refine List.pairwise_cons.2 ⟨fun y m => ?_, ih rest⟩
        rcases mem_insertReason.1 m with rfl | m
        · have : x.rank ≠ y.rank := fun e => n (rank_injective e)
          omega
        · exact first y m

theorem ordered_insertAll {rs hs : List HoldReason} (h : HoldsOrdered hs) :
    HoldsOrdered (rs.foldr insertReason hs) := by
  induction rs with
  | nil => exact h
  | cons r rs ih => exact ordered_insertReason ih

/-- R94: no two equal reasons in a hold set that stands in order. -/
theorem HoldsOrdered.nodup {hs : List HoldReason} (h : HoldsOrdered hs) : hs.Nodup :=
  h.imp fun lt e => absurd lt (by rw [e]; exact Nat.lt_irrefl _)

/-! ### The record of a section after each move -/

theorem sec_insertHolds (s : State) (i j : SectionId) (rs : List HoldReason) :
    (s.insertHolds i rs).sec j =
      if j = i then { s.sec i with holds := rs.foldr insertReason (s.sec i).holds } else s.sec j :=
  Table.get_set _ _ _ _

theorem sec_holdWith (s : State) (i j : SectionId) (rs : List HoldReason) :
    (s.holdWith i rs).sec j =
      if j = i then
        { (s.sec i).entering s.now .held .hold with holds := rs.foldr insertReason (s.sec i).holds }
      else s.sec j := by
  unfold State.holdWith
  rw [sec_enter]
  split
  · next e => rw [sec_insertHolds, if_pos rfl]; rfl
  · next e => rw [sec_insertHolds, if_neg e]

theorem sec_leave (s : State) (i j : SectionId) (back : SectionState) (c : CaptureCause) :
    ((s.setSec i { s.sec i with holds := [] }).enter i back c).sec j =
      if j = i then { (s.sec i).entering s.now back c with holds := [] } else s.sec j := by
  rw [sec_enter]
  split
  · next e => rw [State.sec_setSec, if_pos rfl]; rfl
  · next e => rw [State.sec_setSec, if_neg e]

theorem sec_close (s : State) (c : Campaign) (v : Mark) (j : SectionId) :
    (({ s with campaign := c, sections := s.sections.map Section.dropLift } : State).requestMark v).sec j =
      (s.sec j).dropLift := by
  unfold State.requestMark State.sec
  simp

/-- A property of a section record that no move breaks holds of every record after a cascade. The four
cases are the ways a move writes a record: an entry, a hold, a change of the hold set, and a leaving. -/
theorem Move.sections {Q : Section → Prop} {s t : State} (m : Move s t)
    (enter : ∀ i dest c, Enters s i dest → Q (s.sec i) → Q ((s.sec i).entering s.now dest c))
    (hold : ∀ i rs, (s.sec i).state.working = true → rs ≠ [] → HoldReason.restart ∉ rs → Q (s.sec i) →
      Q { (s.sec i).entering s.now .held .hold with holds := rs.foldr insertReason (s.sec i).holds })
    (gain : ∀ i r, (s.sec i).state = .held → r ≠ .restart → Q (s.sec i) →
      Q { s.sec i with holds := insertReason r (s.sec i).holds })
    (drop : ∀ i hs, Keeps (s.sec i).holds hs → Q (s.sec i) → Q { s.sec i with holds := hs })
    (leave : ∀ i back c, (s.sec i).holds ≠ [] → (s.sec i).heldFrom = some back → Q (s.sec i) →
      Q { (s.sec i).entering s.now back c with holds := [] })
    (lift : ∀ i, Q (s.sec i) → Q (s.sec i).dropLift) (h : ∀ i, Q (s.sec i)) : ∀ i, Q (t.sec i) := by
  intro j
  cases m with
  | work => exact h j
  | order => exact h j
  | report => exact h j
  | enter i dest c e =>
    rw [sec_enter]
    split
    · next k => exact enter i dest c e (h i)
    · exact h j
  | hold i rs a b c =>
    rw [sec_holdWith]
    split
    · exact hold i rs a b c (h i)
    · exact h j
  | gain i r a b =>
    rw [sec_insertHolds]
    split
    · exact gain i r a b (h i)
    · exact h j
  | drop i hs a =>
    rw [State.sec_setSec]
    split
    · exact drop i hs a (h i)
    · exact h j
  | leave i back c a b =>
    rw [sec_leave]
    split
    · exact leave i back c a b (h i)
    · exact h j
  | steam => exact h j
  | units => exact h j
  | supply => exact h j
  | close => rw [sec_close]; exact lift j (h j)

/-! ### Hold sets and deadlines (R63, R94) -/

theorem Section.dropLift_eq (r : Section) : ∃ b, r.dropLift = { r with ceilingLifted := b } := by
  unfold Section.dropLift
  split
  · exact ⟨false, rfl⟩
  · exact ⟨r.ceilingLifted, rfl⟩

theorem holdLaw_entering {r : Section} (h : r.holdLaw) (k : r.state ≠ .held) {dest : SectionState}
    (d : dest ≠ .held) (now : Nat) (c : CaptureCause) : (r.entering now dest c).holdLaw := by
  have e : r.holds = [] := by
    by_contra n
    exact k (h.1.2 n)
  refine ⟨?_, ?_, ?_, ?_⟩
  · simp [Section.entering, d, e]
  · simp [Section.entering, d]
  · simp [Section.entering, d]
  · simp [Section.entering, d]

theorem SectionState.working_ne_held {st : SectionState} (h : st.working = true) : st ≠ .held := by
  intro e; subst e; exact absurd h (by decide)

theorem move_holdLaw {s t : State} (m : Move s t) : s.holdLaw → t.holdLaw := by
  refine m.sections (Q := Section.holdLaw) ?_ ?_ ?_ ?_ ?_ ?_
  · intro i dest c e h
    exact holdLaw_entering h e.notHeld e.destNotHeld _ _
  · intro i rs w n r h
    have k := SectionState.working_ne_held w
    have e : (s.sec i).holds = [] := by
      by_contra n
      exact k (h.1.2 n)
    have x : ∀ x, x ∈ rs.foldr insertReason (s.sec i).holds ↔ x ∈ rs := by
      intro x; rw [mem_insertAll, e]; simp
    have ne : rs.foldr insertReason (s.sec i).holds ≠ [] := by
      obtain ⟨y, hy⟩ := List.exists_mem_of_ne_nil rs n
      exact List.ne_nil_of_mem ((x y).2 hy)
    refine ⟨?_, ?_, ?_, ?_⟩
    · simp [Section.entering, ne]
    · simp [Section.entering]
    · simp [Section.entering, x, r]
    · simp [Section.entering, k]
  · intro i r e n h
    refine ⟨?_, ?_, ?_, h.2.2.2⟩
    · show (s.sec i).state = .held ↔ insertReason r _ ≠ []
      refine ⟨fun _ => List.ne_nil_of_mem (mem_insertReason.2 (Or.inl rfl)), fun _ => e⟩
    · exact h.2.1
    · intro q
      show _ ↔ HoldReason.restart ∈ insertReason r _
      rw [mem_insertReason, h.2.2.1 q]
      exact ⟨Or.inr, fun o => o.resolve_left fun f => n f.symm⟩
  · intro i hs k h
    refine ⟨?_, h.2.1, ?_, h.2.2.2⟩
    · show (s.sec i).state = .held ↔ hs ≠ []
      rw [h.1]
      refine ⟨fun _ => k.some, fun _ n => ?_⟩
      have := k.subset
      rw [n] at this
      exact k.some (List.subset_nil.1 this)
    · intro q
      show _ ↔ HoldReason.restart ∈ hs
      rw [h.2.2.1 q, k.restart]
  · intro i back c n b h
    have d : back ≠ .held := fun e => h.2.2.2 (by rw [b, e])
    refine ⟨?_, ?_, ?_, ?_⟩ <;> simp [Section.entering, d]
  · intro i h
    obtain ⟨b, e⟩ := (s.sec i).dropLift_eq
    rw [e]
    exact h

/-- R94: a move keeps the order of the hold sets. -/
theorem move_holdOrderLaw {s t : State} (m : Move s t) : s.holdOrderLaw → t.holdOrderLaw := by
  refine m.sections (Q := fun r => HoldsOrdered r.holds) ?_ ?_ ?_ ?_ ?_ ?_
  · exact fun _ _ _ _ h => h
  · exact fun _ _ _ _ _ h => ordered_insertAll h
  · exact fun _ _ _ _ h => ordered_insertReason h
  · exact fun _ _ k h => h.sublist k.sublist
  · exact fun _ _ _ _ _ _ => List.Pairwise.nil
  · intro i h
    obtain ⟨b, e⟩ := (s.sec i).dropLift_eq
    rw [e]
    exact h

theorem move_deadlineLaw {s t : State} (m : Move s t) : s.deadlineLaw → t.deadlineLaw := by
  refine m.sections (Q := fun r => r.deadline.isSome = true ↔ r.state = .conditioning) ?_ ?_ ?_ ?_ ?_ ?_
  · intro i dest c _ _
    by_cases h : dest = .conditioning <;> simp [Section.entering, h]
  · intro i rs _ _ _ _
    simp [Section.entering]
  · intro i r _ _ h; exact h
  · intro i hs _ h; exact h
  · intro i back c _ _ _
    by_cases h : back = .conditioning <;> simp [Section.entering, h]
  · intro i h
    obtain ⟨b, e⟩ := (s.sec i).dropLift_eq
    rw [e]
    exact h

/-! ### Fields that a move leaves alone -/

theorem enter_campaign (s : State) (i : SectionId) (dest : SectionState) (c : CaptureCause) :
    (s.enter i dest c).campaign = s.campaign := (enter_onlySections s i dest c).campaign

/-- What a move may do to the campaign record. -/
theorem Move.campaign {s t : State} (m : Move s t) :
    t.campaign = s.campaign ∨
    (∃ f r, t.campaign = { s.campaign with
      freeSpares := f, spareReserve := r
      overlapEffective := s.campaign.overlapRequested && decide (r < f) }) ∨
    (s.campaign.state = .windingDown ∧ s.finished = true ∧ t.campaign = { s.campaign with
      state := .closed, lock := false, pendingMark := s.campaign.pendingMark.map fun _ => .closed }) := by
  cases m with
  | supply f r => exact .inr (.inl ⟨f, r, rfl⟩)
  | close h k => exact .inr (.inr ⟨h, k, by unfold State.requestMark; rfl⟩)
  | _ => exact .inl rfl

/-- What a move may do to the steam allocator's record. -/
theorem move_steamLaw {s t : State} (m : Move s t) : s.steamLaw → t.steamLaw := by
  intro h
  cases m with
  | steam st _ law => exact law h
  | _ => exact h

/-- Every move keeps the frame of a cascade. -/
theorem Move.frame {s t : State} (m : Move s t) : CascadeFrame s t := by
  cases m with
  | work w => exact work_frame s w
  | order o d => exact order_frame s o d
  | report k => exact report_frame s k
  | enter i dest c _ => exact enter_frame s i dest c
  | hold i rs _ _ _ => exact holdWith_frame s i rs
  | gain i r _ _ => exact insertHolds_frame s i [r]
  | drop i hs _ => exact setHolds_frame s i hs
  | leave i back c _ _ => exact (setHolds_frame s i []).trans (enter_frame _ _ _ _)
  | steam st h _ => exact steam_frame h
  | units us h => exact units_frame h _
  | supply f r => exact campaign_frame rfl rfl rfl rfl
  | close h k =>
    refine .trans ?_ (requestMark_frame _ _)
    refine .trans (t := { s with sections := s.sections.map Section.dropLift }) (dropLift_frame s) ?_
    exact campaign_frame rfl rfl rfl rfl

theorem Moves.frame {s t : State} (m : Moves s t) : CascadeFrame s t :=
  m.keep (P := fun t => CascadeFrame s t) (fun _ _ m h => h.trans m.frame) (.refl s)

/-- What a cascade leaves alone. -/
theorem settle_frame (s : State) : CascadeFrame s s.settle := (settle_moves s).frame

/-! ### Outputs (R4, R5, R129) -/

theorem lines_enter (s : State) (i : SectionId) (dest : SectionState) (c : CaptureCause) :
    (s.enter i dest c).lines = { s.lines with routeLatch := (s.lines.routeLatch.set i
      ((s.lines.routePolarity.get i).drive dest.intake (dest.discharge (s.sec i).phase))) } := by
  have e : ∀ r : Section, ((s.setSec i r).driveRoutes i).lines = { s.lines with
      routeLatch := (s.lines.routeLatch.set i ((s.lines.routePolarity.get i).drive r.intake r.discharge)) } := by
    intro r
    unfold State.driveRoutes
    rw [State.sec_setSec, if_pos rfl]
    rfl
  exact e _

theorem outputLaw_enter {s : State} (h : s.outputLaw) (i : SectionId) (dest : SectionState)
    (c : CaptureCause) : (s.enter i dest c).outputLaw := by
  obtain ⟨h1, h2, h3⟩ := h
  refine ⟨?_, ?_, ?_⟩
  · intro j
    rw [sec_enter]
    split
    · exact ⟨rfl, rfl⟩
    · exact h1 j
  · intro j
    rw [lines_enter, sec_enter]
    show (s.lines.routeLatch.set i _).get j = _
    rw [Table.get_set]
    split
    · next e => subst e; rfl
    · exact h2 j
  · intro u
    rw [lines_enter]
    show _ = (s.lines.runPolarity.get u).level
      (((s.enter i dest c).supervisor).units.get u).runOutput
    rw [(enter_onlySections s i dest c).supervisor]
    exact h3 u

/-- A change of the hold set alone keeps the law of the outputs. -/
theorem outputLaw_setSec {s : State} (h : s.outputLaw) (i : SectionId) {r : Section}
    (a : r.intake = (s.sec i).intake) (b : r.discharge = (s.sec i).discharge) (c : r.state = (s.sec i).state)
    (d : r.phase = (s.sec i).phase) : (s.setSec i r).outputLaw := by
  obtain ⟨h1, h2, h3⟩ := h
  refine ⟨?_, ?_, h3⟩
  · intro j
    rw [State.sec_setSec]
    split
    · next e =>
      have := h1 i
      exact ⟨by rw [a, c]; exact this.1, by rw [b, c, d]; exact this.2⟩
    · exact h1 j
  · intro j
    rw [State.sec_setSec]
    split
    · next e =>
      subst e
      have := h2 j
      rw [a, b]
      exact this
    · exact h2 j

theorem outputLaw_insertHolds {s : State} (h : s.outputLaw) (i : SectionId) (rs : List HoldReason) :
    (s.insertHolds i rs).outputLaw := outputLaw_setSec h i rfl rfl rfl rfl

theorem outputLaw_holdWith {s : State} (h : s.outputLaw) (i : SectionId) (rs : List HoldReason) :
    (s.holdWith i rs).outputLaw := outputLaw_enter (outputLaw_insertHolds h i rs) _ _ _

theorem move_outputLaw {s t : State} (m : Move s t) (h : s.outputLaw) : t.outputLaw := by
  cases m with
  | work => exact h
  | order => exact h
  | report => exact h
  | enter i dest c _ => exact outputLaw_enter h _ _ _
  | hold i rs _ _ _ => exact outputLaw_holdWith h _ _
  | gain i r _ _ => exact outputLaw_insertHolds h _ _
  | drop i hs _ => exact outputLaw_setSec h i rfl rfl rfl rfl
  | leave i back c _ _ =>
    exact outputLaw_enter (outputLaw_setSec (r := { s.sec i with holds := [] }) h i rfl rfl rfl rfl) _ _ _
  | steam => exact h
  | units us _ =>
    refine ⟨h.1, h.2.1, fun u => ?_⟩
    show (Table.ofFn _).get u = _
    rw [Table.get_ofFn]
  | supply => exact h
  | close =>
    refine ⟨fun i => ?_, fun i => ?_, ?_⟩
    · rw [sec_close]
      obtain ⟨b, e⟩ := (s.sec i).dropLift_eq
      rw [e]
      exact h.1 i
    · rw [sec_close]
      obtain ⟨b, e⟩ := (s.sec i).dropLift_eq
      rw [e]
      exact h.2.1 i
    · exact h.2.2

/-! ### The campaign (R13, R17, R24, R25, R29, R47) -/

theorem move_overlapLaw {s t : State} (m : Move s t) (h : s.overlapLaw) : t.overlapLaw := by
  unfold State.overlapLaw at *
  rcases m.campaign with e | ⟨f, r, e⟩ | ⟨_, _, e⟩
  · rw [e]; exact h
  · rw [e]; simp
  · rw [e]; exact h

theorem move_campaignLaw {s t : State} (m : Move s t) (h : s.campaignLaw) : t.campaignLaw := by
  unfold State.campaignLaw at *
  rcases m.campaign with e | ⟨f, r, e⟩ | ⟨k, _, e⟩
  · rw [e]; exact h
  · rw [e]; exact h
  · rw [e]
    rw [k] at h
    simpa using h.2

theorem move_clockLaw {s t : State} (m : Move s t) (h : s.clockLaw) : t.clockLaw := by
  have e := m.frame.clock
  refine ⟨by rw [e]; exact h.1, ?_⟩
  rw [e]
  refine m.sections (Q := fun r => r.enteredAt ≤ s.campaign.clock ∧ r.phaseSince ≤ s.campaign.clock)
    ?_ ?_ ?_ ?_ ?_ ?_ h.2
  · intro i dest c _ k; exact ⟨Nat.le_refl _, k.2⟩
  · intro i rs _ _ _ k; exact ⟨Nat.le_refl _, k.2⟩
  · intro i r _ _ k; exact k
  · intro i hs _ k; exact k
  · intro i back c _ _ k; exact ⟨Nat.le_refl _, k.2⟩
  · intro i k
    obtain ⟨b, e⟩ := (s.sec i).dropLift_eq
    rw [e]
    exact k

/-! ### Fitted slots and CLOSED campaigns (R10, R22) -/

theorem move_fittedLaw {s t : State} (m : Move s t) (hold : s.holdLaw) (h : s.fittedLaw) :
    t.fittedLaw := by
  have key := m.sections (Q := fun r => r.holdLaw ∧ (r.state = .absent ↔ r.fitted = false) ∧
    r.heldFrom ≠ some .absent) ?_ ?_ ?_ ?_ ?_ ?_ (fun i => ⟨hold i, h i⟩)
  · exact fun i => (key i).2
  · intro i dest c e k
    refine ⟨holdLaw_entering k.1 e.notHeld e.destNotHeld _ _, ?_, ?_⟩
    · have f : (s.sec i).fitted ≠ false := fun f => e.notAbsent (k.2.1.2 f)
      simp only [Section.entering, e.destNotAbsent, false_iff]
      exact f
    · simp [Section.entering, e.destNotHeld]
  · intro i rs w n r k
    have a : (s.sec i).state ≠ .absent := by
      intro e; rw [e] at w; exact absurd w (by decide)
    have law : Section.holdLaw { (s.sec i).entering s.now .held .hold with
        holds := rs.foldr insertReason (s.sec i).holds } := by
      have := move_holdLaw (Move.hold s i rs w n r) hold i
      rw [sec_holdWith, if_pos rfl] at this
      exact this
    refine ⟨law, ?_, ?_⟩
    · have f : (s.sec i).fitted ≠ false := fun f => a (k.2.1.2 f)
      simp only [Section.entering, reduceCtorEq, false_iff]
      exact f
    · simp [Section.entering, a]
  · intro i r e n k
    have := move_holdLaw (Move.gain s i r e n) hold i
    rw [sec_insertHolds, if_pos rfl] at this
    exact ⟨this, k.2⟩
  · intro i hs e k
    have := move_holdLaw (Move.drop s i hs e) hold i
    rw [State.sec_setSec, if_pos rfl] at this
    exact ⟨this, k.2⟩
  · intro i back c e b k
    have law := move_holdLaw (Move.leave s i back c e b) hold i
    rw [sec_leave, if_pos rfl] at law
    have d : back ≠ .absent := fun e => k.2.2 (by rw [b, e])
    have a : (s.sec i).state ≠ .absent := by
      intro x
      have := (hold i).1.2 e
      rw [x] at this
      exact absurd this (by decide)
    have d2 : back ≠ .held := fun e => k.1.2.2.2 (by rw [b, e])
    refine ⟨law, ?_, ?_⟩
    · have f : (s.sec i).fitted ≠ false := fun f => a (k.2.1.2 f)
      simp only [Section.entering, d, false_iff]
      exact f
    · simp [Section.entering, d2]
  · intro i k
    obtain ⟨b, e⟩ := (s.sec i).dropLift_eq
    rw [e]
    exact k

/-- A move leaves the campaign state as it is, or closes a campaign that has finished. -/
theorem Move.campaignState {s t : State} (m : Move s t) : t.campaign.state = s.campaign.state ∨
    (s.finished = true ∧ ∀ i, t.sec i = (s.sec i).dropLift) := by
  cases m with
  | close h k => exact .inr ⟨k, fun i => sec_close s _ _ i⟩
  | _ => exact .inl rfl

theorem move_closedLaw {s t : State} (m : Move s t) (hold : s.holdLaw) (fit : s.fittedLaw)
    (h : s.closedLaw) : t.closedLaw := by
  intro closed
  rcases m.campaignState with e | ⟨fin, sec⟩
  · have c : s.campaign.state = .closed := by rw [e] at closed; exact closed
    have k := h c
    refine m.sections (Q := fun r => r.state.working = false ∧ r.state ≠ .held) ?_ ?_ ?_ ?_ ?_ ?_ k
    · intro i dest _ en q
      refine ⟨?_, en.destNotHeld⟩
      by_contra w
      have := en.closed c (Bool.not_eq_false _ ▸ w)
      rw [q.1] at this
      exact absurd this (by decide)
    · intro i rs w _ _ q
      rw [q.1] at w
      exact absurd w (by decide)
    · intro i r e _ q
      exact absurd e q.2
    · intro i hs _ q; exact q
    · intro i back _ n _ q
      exact absurd ((hold i).1.2 n) q.2
    · intro i q
      obtain ⟨b, e⟩ := (s.sec i).dropLift_eq
      rw [e]
      exact q
  · intro i
    rw [sec]
    obtain ⟨b, e2⟩ := (s.sec i).dropLift_eq
    rw [e2]
    have q := List.all_eq_true.1 fin i (List.mem_finRange i)
    simp only [Bool.or_eq_true, Bool.not_eq_true', beq_iff_eq] at q
    show (s.sec i).state.working = false ∧ (s.sec i).state ≠ .held
    rcases q with (q | q) | q
    · rw [(fit i).1.2 q]; exact ⟨rfl, by decide⟩
    · rw [q]; exact ⟨rfl, by decide⟩
    · rw [q]; exact ⟨rfl, by decide⟩

/-! ### The watch list, the trip groups and the link port -/

theorem move_watchLaw {s t : State} (m : Move s t) (h : s.watchLaw) : t.watchLaw := by
  have f := m.frame
  unfold State.watchLaw UnitSupervisor.watchLaw at *
  rw [f.watch]
  exact ⟨h.1, h.2.1, fun u hu => by rw [(f.units u).1]; exact h.2.2 u hu⟩

theorem move_tripLaw {s t : State} (m : Move s t) (h : s.tripLaw) : t.tripLaw := by
  unfold State.tripLaw State.group at *
  rw [m.frame.trips]
  exact h

theorem move_portLaw {s t : State} (m : Move s t) (h : s.portLaw) : t.portLaw := by
  unfold State.portLaw at *
  rw [m.frame.link]
  exact h

theorem report_nodup {l : LinkPort} (k : ReportKey) (h : l.reports.Nodup) : (l.report k).reports.Nodup := by
  unfold LinkPort.report
  split
  · next e =>
    simp only [Bool.and_eq_true, Bool.not_eq_true', List.contains_eq_mem, decide_eq_false_iff_not] at e
    rw [List.nodup_append]
    refine ⟨h, List.nodup_singleton _, ?_⟩
    intro a ha b hb q
    simp only [List.mem_singleton] at hb
    subst q hb
    exact e.2 ha
  · exact h

theorem report_subset (l : LinkPort) (k : ReportKey) : l.reports ⊆ (l.report k).reports := by
  unfold LinkPort.report
  split
  · exact List.subset_append_left _ _
  · exact List.Subset.refl _

/-- What a move does to the pending set: nothing, or one entry handed to it. -/
theorem Move.reports {s t : State} (m : Move s t) : t.link = s.link ∨ ∃ k, t.link = s.link.report k := by
  cases m with
  | report k => exact .inr ⟨k, rfl⟩
  | enter i dest c _ => exact .inr ⟨_, rfl⟩
  | hold i rs _ _ _ => exact .inr ⟨_, rfl⟩
  | leave i back c _ _ => exact .inr ⟨_, rfl⟩
  | _ => exact .inl rfl

theorem move_reportsOnce {s t : State} (m : Move s t) (h : s.reportsOnce) : t.reportsOnce := by
  unfold State.reportsOnce at *
  rcases m.reports with e | ⟨k, e⟩
  · rw [e]; exact h
  · rw [e]; exact report_nodup _ h

/-- A cascade takes no entry out of the pending set. -/
theorem Moves.reports {s t : State} (m : Moves s t) : s.link.reports ⊆ t.link.reports :=
  m.keep (P := fun t => s.link.reports ⊆ t.link.reports) (fun _ _ m h => by
    rcases m.reports with e | ⟨k, e⟩
    · rw [e]; exact h
    · rw [e]; exact List.Subset.trans h (report_subset _ _)) (List.Subset.refl _)

end Sys2Proof.Machine
end

