-- ==== Sys2Proof/Laws/Claims.lean ====
section
/-! SUPPORT. The law of the claim list and the wait queue (R76): what each operation of the section table
and of the steam allocator does to it. -/

namespace Sys2Proof.Machine

/-! ### One section's part of the law -/

namespace Section

variable {r r' : Section} {c q rel wd rel' wd' : Prop}

theorem holds_nil (h : r.holdLaw) (k : r.state ≠ .held) : r.holds = [] := by
  by_contra n
  exact k (h.1.2 n)

theorem steam_ne_held {st : SectionState} (h : st.steamState = true) : st ≠ .held := by
  intro e; rw [e] at h; exact absurd h (by decide)

/-- A record in the same state and held for the same reasons keeps its part, whatever deliveries join. -/
theorem claimLaw_same (h : r.claimLaw c q rel wd) (e1 : r'.state = r.state) (e2 : r'.holds = r.holds)
    (e3 : r'.heldFrom = r.heldFrom) (a : rel → rel') (b : wd → wd') : r'.claimLaw c q rel' wd' := by
  unfold claimLaw heldSteaming at *
  rw [e1, e2, e3]
  exact ⟨fun x => (h.1 x).imp_left a, fun x => (h.2.1 x).imp a (Or.imp_right (Or.imp_right (And.imp_left b))),
    h.2.2⟩

/-- A section outside HELD enters another state, by a step of its own or of the mapping. -/
theorem claimLaw_entering (h : r.claimLaw c q rel wd) (hold : r.holdLaw) (k : r.state ≠ .held)
    {dest : SectionState} (now : Nat) (cause : CaptureCause) (a : rel → rel') (b : wd → wd')
    (s : r.state.steamState = true → dest.steamState = true ∨ rel')
    (f : r.state = .filling → dest = .filling ∨ rel') :
    (r.entering now dest cause).claimLaw c q rel' wd' := by
  have e := holds_nil hold k
  refine ⟨fun x => ?_, fun x => ?_, fun x => absurd x (by simp [Section.entering, e])⟩
  · rcases h.1 x with y | y | y
    · exact .inl (a y)
    · exact (s y).elim (fun z => .inr (.inl z)) .inl
    · exact absurd y.1.1 k
  · rcases h.2.1 x with y | y | y | y
    · exact .inl (a y)
    · exact (f y).elim (fun z => .inr (.inl z)) .inl
    · exact absurd y.1.1 k
    · exact .inr (.inr (.inr ⟨b y.1, by simp [Section.entering, e]⟩))

/-- A section in a working state is held from it, for reasons other than STEAM. -/
theorem claimLaw_held (h : r.claimLaw c q rel wd) (k : r.state ≠ .held)
    (e1 : r'.state = .held) (e2 : r'.heldFrom = some r.state) (e3 : HoldReason.steam ∉ r'.holds)
    (a : rel → rel') (b : wd → wd') (f : r.state = .filling → q → wd') : r'.claimLaw c q rel' wd' := by
  refine ⟨fun x => ?_, fun x => ?_, fun x => absurd x e3⟩
  · rcases h.1 x with y | y | y
    · exact .inl (a y)
    · exact .inr (.inr ⟨⟨e1, _, e2, y⟩, e3⟩)
    · exact absurd y.1.1 k
  · rcases h.2.1 x with y | y | y | y
    · exact .inl (a y)
    · exact .inr (.inr (.inr ⟨f y x, e3⟩))
    · exact absurd y.1.1 k
    · exact .inr (.inr (.inr ⟨b y.1, e3⟩))

/-- A HELD section gains or loses reasons other than STEAM, and stays HELD. -/
theorem claimLaw_reasons (h : r.claimLaw c q rel wd) (e1 : r'.state = r.state)
    (e2 : HoldReason.steam ∈ r'.holds ↔ HoldReason.steam ∈ r.holds) (e3 : r'.heldFrom = r.heldFrom)
    (a : rel → rel') (b : wd → wd') : r'.claimLaw c q rel' wd' := by
  unfold claimLaw heldSteaming at *
  rw [e1, e2, e3]
  exact ⟨fun x => (h.1 x).imp_left a, fun x => (h.2.1 x).imp a (Or.imp_right (Or.imp_right (And.imp_left b))),
    h.2.2⟩

/-- A HELD section without STEAM goes back to the state it was held from. -/
theorem claimLaw_leaving (h : r.claimLaw c q rel wd) (k : r.state = .held)
    {back : SectionState} (from_ : r.heldFrom = some back) (n : HoldReason.steam ∉ r.holds)
    (e1 : r'.state = back) (e2 : r'.holds = []) (a : rel → rel') (b : wd → wd') :
    r'.claimLaw c q rel' wd' := by
  refine ⟨fun x => ?_, fun x => ?_, fun x => absurd x (by simp [e2])⟩
  · rcases h.1 x with y | y | y
    · exact .inl (a y)
    · exact absurd k (steam_ne_held y)
    · obtain ⟨_, z, e, w⟩ := y.1
      rw [from_, Option.some.injEq] at e
      subst e
      exact .inr (.inl (by rw [e1]; exact w))
  · rcases h.2.1 x with y | y | y | y
    · exact .inl (a y)
    · rw [k] at y; exact absurd y (by decide)
    · exact absurd y.2 n
    · exact .inr (.inr (.inr ⟨b y.1, by simp [e2]⟩))

end Section

/-! ### The section table's operations -/

/-- Every section's part of the law holds by the lists of the allocator's record `st`. -/
def State.claimsAs (s : State) (st : Steam) : Prop := ∀ i, s.claimAt st i

theorem State.claimLaw_iff (s : State) : s.claimLaw ↔ s.claimsAs s.steam := Iff.rfl

/-- A section whose state and hold set stand keeps its part. -/
theorem claimAt_same {s t : State} {st : Steam} {i : SectionId} (h : s.claimAt st i)
    (e1 : (t.sec i).state = (s.sec i).state) (e2 : (t.sec i).holds = (s.sec i).holds)
    (e3 : (t.sec i).heldFrom = (s.sec i).heldFrom) (w : s.work ⊆ t.work) : t.claimAt st i :=
  Section.claimLaw_same h e1 e2 e3 (fun x => w x) (fun x => w x)

theorem claimAt_of_sec {s t : State} {st : Steam} {i : SectionId} (h : s.claimAt st i)
    (e : t.sec i = s.sec i) (w : s.work ⊆ t.work) : t.claimAt st i :=
  claimAt_same h (by rw [e]) (by rw [e]) (by rw [e]) w

theorem work_enter (s : State) (i : SectionId) (dest : SectionState) (c : CaptureCause) :
    s.work ⊆ (s.enter i dest c).work := List.subset_append_left _ _

/-- What an entry hands on, by the record as it stands after it. -/
theorem announce_enter (s : State) (i : SectionId) (dest : SectionState) (c : CaptureCause) :
    ∃ t : State, (s.enter i dest c).work = s.work ++ t.announcements i (s.sec i).state ∧
      t.sec i = (s.sec i).entering s.now dest c ∧ t.steam = s.steam ∧ t.campaign = s.campaign :=
  ⟨_, rfl, Table.get_set_self _ _ _, rfl, rfl⟩

theorem release_announced {s : State} {i : SectionId} (old : SectionState)
    (h : (s.sec i).state = .draining ∨ (s.sec i).state = .laidUp) :
    .releaseClaim i ∈ s.announcements i old := by
  unfold State.announcements
  dsimp only
  rw [if_pos h]
  simp

theorem withdraw_announced {s : State} {i : SectionId} (h : (s.sec i).state = .held)
    (q : hasClaim i s.steam.queue = true) : .withdrawClaim i ∈ s.announcements i .filling := by
  unfold State.announcements
  dsimp only
  simp [h, q]

theorem release_enter (s : State) (i : SectionId) {dest : SectionState} (c : CaptureCause)
    (h : dest = .draining ∨ dest = .laidUp) : .releaseClaim i ∈ (s.enter i dest c).work := by
  obtain ⟨t, e, r, _⟩ := announce_enter s i dest c
  rw [e]
  exact List.mem_append_right _ (release_announced _ (by rw [r]; exact h))

theorem withdraw_holdWith (s : State) (i : SectionId) (rs : List HoldReason)
    (h : (s.sec i).state = .filling) (q : hasClaim i s.steam.queue = true) :
    .withdrawClaim i ∈ (s.holdWith i rs).work := by
  obtain ⟨t, e, r, st, _⟩ := announce_enter (s.insertHolds i rs) i .held .hold
  have o : ((s.insertHolds i rs).sec i).state = .filling := by
    rw [sec_insertHolds, if_pos rfl]; exact h
  rw [o] at e
  unfold State.holdWith
  rw [e]
  exact List.mem_append_right _ (withdraw_announced (by rw [r]; rfl) (by rw [st]; exact q))

/-- Every section's part of the law is carried over, and the allocator's record stands. -/
structure Carries (s t : State) : Prop where
  steam : t.steam = s.steam
  keeps : ∀ i, s.claimAt s.steam i → t.claimAt s.steam i

namespace Carries

theorem refl (s : State) : Carries s s := ⟨rfl, fun _ h => h⟩

theorem trans {s t u : State} (h : Carries s t) (k : Carries t u) : Carries s u :=
  ⟨k.steam.trans h.steam, fun i x => by
    have := k.keeps i
    rw [h.steam] at this
    exact this (h.keeps i x)⟩

theorem law {s t : State} (h : Carries s t) (k : s.claimLaw) : t.claimLaw := by
  intro i
  rw [h.steam]
  exact h.keeps i (k i)

/-- Sections whose states and hold sets stand, and deliveries that join. -/
theorem same {s t : State} (e : t.steam = s.steam) (w : s.work ⊆ t.work)
    (h : ∀ i, (t.sec i).state = (s.sec i).state ∧ (t.sec i).holds = (s.sec i).holds ∧
      (t.sec i).heldFrom = (s.sec i).heldFrom) : Carries s t :=
  ⟨e, fun i x => claimAt_same x (h i).1 (h i).2.1 (h i).2.2 w⟩

/-- One section changes, and deliveries join. -/
theorem one {s t : State} {i : SectionId} (e : t.steam = s.steam) (w : s.work ⊆ t.work)
    (others : ∀ j, j ≠ i → t.sec j = s.sec j) (own : s.claimAt s.steam i → t.claimAt s.steam i) :
    Carries s t := by
  refine ⟨e, fun j x => ?_⟩
  by_cases k : j = i
  · subst k; exact own x
  · exact claimAt_of_sec x (others j k) w

end Carries

/-- A section outside HELD enters a state. -/
theorem enter_claims {s : State} {i : SectionId} {dest : SectionState} (c : CaptureCause)
    (hold : (s.sec i).holdLaw) (k : (s.sec i).state ≠ .held)
    (a : (s.sec i).state.steamState = true → dest.steamState = true ∨ dest = .draining ∨ dest = .laidUp)
    (b : (s.sec i).state = .filling → dest = .filling ∨ dest = .draining ∨ dest = .laidUp) :
    Carries s (s.enter i dest c) := by
  refine .one (i := i) rfl (work_enter _ _ _ _) (fun j e => by rw [sec_enter, if_neg e]) fun h => ?_
  unfold State.claimAt
  rw [sec_enter, if_pos rfl]
  exact Section.claimLaw_entering h hold k _ _ (fun x => work_enter _ _ _ _ x)
    (fun x => work_enter _ _ _ _ x) (fun x => (a x).imp_right (release_enter s i c))
    (fun x => (b x).imp_right (release_enter s i c))

theorem work_holdWith (s : State) (i : SectionId) (rs : List HoldReason) : s.work ⊆ (s.holdWith i rs).work :=
  work_enter (s.insertHolds i rs) i .held .hold

/-- A section in a working state is held for reasons other than STEAM. -/
theorem holdWith_claims {s : State} {i : SectionId} {rs : List HoldReason} (hold : (s.sec i).holdLaw)
    (k : (s.sec i).state.working = true) (n : HoldReason.steam ∉ rs) : Carries s (s.holdWith i rs) := by
  have w := work_holdWith s i rs
  have ne := SectionState.working_ne_held k
  refine .one (i := i) (holdWith_onlySections _ _ _).steam w
    (fun j e => by rw [sec_holdWith, if_neg e]) fun h => ?_
  unfold State.claimAt
  rw [sec_holdWith, if_pos rfl]
  have d := withdraw_holdWith s i rs
  generalize (s.holdWith i rs).work = u at w d ⊢
  refine Section.claimLaw_held h ne rfl rfl ?_ (@w _) (@w _) d
  show _ ∉ rs.foldr insertReason _
  rw [mem_insertAll, Section.holds_nil hold ne]
  simp [n]

theorem entryReasons_steam (s : State) (i : SectionId) (dest : SectionState) :
    HoldReason.steam ∉ s.entryReasons i dest := by
  unfold State.entryReasons
  simp only [List.mem_append, not_or]
  refine ⟨⟨?_, ?_⟩, ?_⟩ <;> split <;> simp

/-- The second half of a state entry (R101). -/
theorem split_claims {s : State} {i : SectionId} {dest : SectionState} (c : CaptureCause)
    (hold : ((s.enter i dest c).sec i).holdLaw) : Carries (s.enter i dest c) (s.enterState i dest c) := by
  unfold State.enterState
  dsimp only
  split
  · next k =>
    simp only [Bool.and_eq_true] at k
    refine holdWith_claims hold ?_ (entryReasons_steam _ _ _)
    rw [sec_enter, if_pos rfl]
    exact k.1
  · exact .refl _

theorem enterState_claims {s : State} {i : SectionId} {dest : SectionState} (c : CaptureCause)
    (hold : s.holdLaw) (m : Enters s i dest)
    (a : (s.sec i).state.steamState = true → dest.steamState = true ∨ dest = .draining ∨ dest = .laidUp)
    (b : (s.sec i).state = .filling → dest = .filling ∨ dest = .draining ∨ dest = .laidUp) :
    Carries s (s.enterState i dest c) :=
  (enter_claims c (hold i) m.notHeld a b).trans (split_claims c (move_holdLaw (.enter s i dest c m) hold i))

theorem handAll_claims (s : State) (ds : List Delivery) : Carries s (s.handAll ds) :=
  .same rfl (List.subset_append_left _ _) fun _ => ⟨rfl, rfl, rfl⟩

theorem report_claims (s : State) (k : ReportKey) : Carries s (s.report k) :=
  .same rfl (List.Subset.refl _) fun _ => ⟨rfl, rfl, rfl⟩

/-- Reasons other than STEAM join a hold set, in the record alone. -/
theorem insertHolds_claims {s : State} {i : SectionId} {rs : List HoldReason} (n : HoldReason.steam ∉ rs) :
    Carries s (s.insertHolds i rs) := by
  refine .one (i := i) rfl (List.Subset.refl _) (fun j e => by rw [sec_insertHolds, if_neg e]) fun h => ?_
  refine Section.claimLaw_reasons h ?_ ?_ ?_ (fun x => x) (fun x => x)
  · rw [sec_insertHolds, if_pos rfl]
  · rw [sec_insertHolds, if_pos rfl]
    show _ ∈ rs.foldr insertReason _ ↔ _
    rw [mem_insertAll]
    simp [n]
  · rw [sec_insertHolds, if_pos rfl]

/-- A reason other than STEAM is added (R96, R97). -/
theorem addReason_claims {s : State} (i : SectionId) {r : HoldReason} (hold : s.holdLaw)
    (n : r ≠ .steam) : Carries s (s.addReason i r) := by
  have n' : HoldReason.steam ∉ [r] := by simpa using n.symm
  unfold State.addReason
  dsimp only
  split
  · exact .refl _
  · next x =>
    simp only [Bool.or_eq_true, Bool.not_eq_true', not_or, Bool.not_eq_false, Bool.not_eq_true] at x
    split
    · exact (insertHolds_claims n').trans (report_claims _ _)
    · next e => exact holdWith_claims (hold i) ((takes_working x.1).1.resolve_right e) n'

/-- A section's hold set changes by reasons other than STEAM. -/
theorem setHolds_claims {s : State} {i : SectionId} {hs : List HoldReason}
    (k : HoldReason.steam ∈ hs ↔ HoldReason.steam ∈ (s.sec i).holds) :
    Carries s (s.setSec i { s.sec i with holds := hs }) := by
  refine .one (i := i) rfl (List.Subset.refl _) (fun j e => by rw [State.sec_setSec, if_neg e]) fun h => ?_
  refine Section.claimLaw_reasons h ?_ ?_ ?_ (fun x => x) (fun x => x)
  all_goals rw [State.sec_setSec, if_pos rfl]
  exact k

/-- A section without STEAM leaves HELD (R99). -/
theorem leave_claims {s : State} {i : SectionId} {back : SectionState} (c : CaptureCause)
    (held : (s.sec i).state = .held) (n : HoldReason.steam ∉ (s.sec i).holds)
    (k : (s.sec i).heldFrom = some back) (d : back ≠ .held) :
    Carries s ((s.setSec i { s.sec i with holds := [] }).enterState i back c) := by
  refine .trans ?_ (split_claims c (i := i) (dest := back) ?_)
  · have w : s.work ⊆ ((s.setSec i { s.sec i with holds := [] }).enter i back c).work :=
      work_enter (s.setSec i { s.sec i with holds := [] }) i back c
    refine .one (i := i) rfl w (fun j e => by rw [sec_leave, if_neg e]) fun h => ?_
    unfold State.claimAt
    rw [sec_leave, if_pos rfl]
    generalize (State.enter _ i back c).work = u at w ⊢
    exact Section.claimLaw_leaving h held k n rfl rfl (@w _) (@w _)
  · rw [sec_leave, if_pos rfl]
    refine ⟨?_, ?_, ?_, ?_⟩ <;> simp [Section.entering, d]

/-- A reason other than STEAM is removed (R97, R99). -/
theorem removeReason_carries {s : State} (i : SectionId) {r : HoldReason} (c : CaptureCause)
    (held : (s.sec i).holds ≠ [] → (s.sec i).state = .held) (d : (s.sec i).heldFrom ≠ some .held)
    (n : r ≠ .steam) : Carries s (s.removeReason i r c) := by
  unfold State.removeReason
  dsimp only
  split
  · exact .refl _
  · next x =>
    simp only [Bool.not_eq_true', List.contains_eq_mem, decide_eq_false_iff_not, not_not] at x
    split
    · next last =>
      split
      · next back e =>
        refine leave_claims c (held (List.ne_nil_of_mem x)) (fun m => ?_) e fun q => d (by rw [e, q])
        have : HoldReason.steam ∈ removeFrom r (s.sec i).holds := mem_removeFrom.2 ⟨m, n.symm⟩
        rw [List.isEmpty_iff.1 last] at this
        exact absurd this (by simp)
      · exact .refl _
    · refine (setHolds_claims ?_).trans (report_claims _ _)
      rw [mem_removeFrom]
      exact ⟨fun x => x.1, fun x => ⟨x, n.symm⟩⟩

theorem removeReason_claims {s : State} (i : SectionId) {r : HoldReason} (c : CaptureCause)
    (hold : s.holdLaw) (n : r ≠ .steam) : Carries s (s.removeReason i r c) :=
  removeReason_carries i c (hold i).1.2 (hold i).2.2.2 n

/-! ### The allocator's notices -/

theorem sec_enterState_ne (s : State) {i j : SectionId} (h : j ≠ i) (dest : SectionState)
    (c : CaptureCause) : (s.enterState i dest c).sec j = s.sec j := by
  unfold State.enterState
  dsimp only
  split
  · rw [sec_holdWith, if_neg h, sec_enter, if_neg h]
  · rw [sec_enter, if_neg h]

theorem work_enterState (s : State) (i : SectionId) (dest : SectionState) (c : CaptureCause) :
    s.work ⊆ (s.enterState i dest c).work := by
  unfold State.enterState
  dsimp only
  split
  · exact List.Subset.trans (work_enter s i dest c) (work_holdWith _ _ _)
  · exact work_enter s i dest c

theorem sec_addReason_ne (s : State) {i j : SectionId} (h : j ≠ i) (r : HoldReason) :
    (s.addReason i r).sec j = s.sec j := by
  unfold State.addReason
  dsimp only
  split
  · rfl
  · split
    · show (s.insertHolds i [r]).sec j = s.sec j
      rw [sec_insertHolds, if_neg h]
    · rw [sec_holdWith, if_neg h]

theorem work_addReason (s : State) (i : SectionId) (r : HoldReason) : s.work ⊆ (s.addReason i r).work := by
  unfold State.addReason
  dsimp only
  split
  · exact List.Subset.refl _
  · split
    · exact List.Subset.refl _
    · exact work_holdWith _ _ _

theorem sec_removeReason_ne (s : State) {i j : SectionId} (h : j ≠ i) (r : HoldReason) (c : CaptureCause) :
    (s.removeReason i r c).sec j = s.sec j := by
  unfold State.removeReason
  dsimp only
  split
  · rfl
  · split
    · split
      · rw [sec_enterState_ne _ h, State.sec_setSec, if_neg h]
      · rfl
    · show (s.setSec i _).sec j = s.sec j
      rw [State.sec_setSec, if_neg h]

theorem work_removeReason (s : State) (i : SectionId) (r : HoldReason) (c : CaptureCause) :
    s.work ⊆ (s.removeReason i r c).work := by
  unfold State.removeReason
  dsimp only
  split
  · exact List.Subset.refl _
  · split
    · split
      · next back _ => exact work_enterState (s.setSec i { s.sec i with holds := [] }) i back c
      · exact List.Subset.refl _
    · exact List.Subset.refl _

/-- The section a notice is for. -/
def SteamNotice.sec : SteamNotice → SectionId
  | .grant i => i
  | .steam i => i
  | .lift i => i

theorem sec_takeNotice_ne (s : State) {n : SteamNotice} {j : SectionId} (h : j ≠ n.sec) :
    (s.takeNotice n).sec j = s.sec j := by
  unfold State.takeNotice
  split
  · split
    · exact sec_enterState_ne s h _ _
    · split
      · exact sec_removeReason_ne s h _ _
      · rfl
  · exact sec_addReason_ne s h _
  · exact sec_removeReason_ne s h _ _

theorem work_takeNotice (s : State) (n : SteamNotice) : s.work ⊆ (s.takeNotice n).work := by
  unfold State.takeNotice
  split
  · split
    · exact work_enterState _ _ _ _
    · split
      · exact work_removeReason _ _ _ _
      · exact List.subset_append_left _ _
  · exact work_addReason _ _ _
  · exact work_removeReason _ _ _ _

/-- A section that holds no reason enters a state, and is held from it at most. -/
theorem enterState_record {s : State} {i : SectionId} (dest : SectionState) (c : CaptureCause)
    (h : (s.sec i).holds = []) : HoldReason.steam ∉ ((s.enterState i dest c).sec i).holds ∧
      (((s.enterState i dest c).sec i).state = dest ∨
        (((s.enterState i dest c).sec i).state = .held ∧
          ((s.enterState i dest c).sec i).heldFrom = some dest)) := by
  unfold State.enterState
  dsimp only
  split
  · rw [sec_holdWith, if_pos rfl]
    refine ⟨?_, .inr ⟨rfl, ?_⟩⟩
    · show _ ∉ List.foldr insertReason ((s.enter i dest c).sec i).holds _
      rw [mem_insertAll, sec_enter, if_pos rfl]
      simp only [not_or]
      exact ⟨entryReasons_steam _ _ _, by simp [Section.entering, h]⟩
    · show some ((s.enter i dest c).sec i).state = some dest
      rw [sec_enter, if_pos rfl]
      rfl
  · rw [sec_enter, if_pos rfl]
    exact ⟨by simp [Section.entering, h], .inl rfl⟩

/-- The removal of STEAM: the section keeps the state it is held from, or goes back to it. -/
theorem removeSteam_record {s : State} {i : SectionId} (c : CaptureCause) (h : (s.sec i).holdLaw)
    (m : HoldReason.steam ∈ (s.sec i).holds) :
    HoldReason.steam ∉ ((s.removeReason i .steam c).sec i).holds ∧
      ∀ back, (s.sec i).heldFrom = some back →
        ((s.removeReason i .steam c).sec i).state = back ∨
        (((s.removeReason i .steam c).sec i).state = .held ∧
          ((s.removeReason i .steam c).sec i).heldFrom = some back) := by
  have held : (s.sec i).state = .held := h.1.2 (List.ne_nil_of_mem m)
  unfold State.removeReason
  dsimp only
  rw [if_neg (by simpa using m)]
  split
  · next last =>
    have only : ∀ x ∈ (s.sec i).holds, x = .steam := by
      intro x hx
      by_contra n
      have : x ∈ removeFrom .steam (s.sec i).holds := mem_removeFrom.2 ⟨hx, n⟩
      rw [List.isEmpty_iff.1 last] at this
      exact absurd this (by simp)
    split
    · next back e =>
      have k := enterState_record (s := s.setSec i { s.sec i with holds := [] }) (i := i) back c
        (by rw [State.sec_setSec, if_pos rfl])
      refine ⟨k.1, fun b eb => ?_⟩
      rw [e, Option.some.injEq] at eb
      subst eb
      exact k.2
    · next e =>
      exact absurd (only _ ((h.2.2.1 held).1 e)) (by simp)
  · show _ ∉ ((s.setSec i _).sec i).holds ∧ _
    refine ⟨?_, fun back e => .inr ?_⟩
    · rw [State.sec_setSec, if_pos rfl]
      show _ ∉ removeFrom .steam (s.sec i).holds
      rw [mem_removeFrom]
      simp
    · show ((s.setSec i _).sec i).state = .held ∧ ((s.setSec i _).sec i).heldFrom = some back
      rw [State.sec_setSec, if_pos rfl]
      exact ⟨held, e⟩

theorem Section.claimLaw_steaming {r : Section} {c q rel wd : Prop} (n : HoldReason.steam ∉ r.holds)
    (nq : ¬ q) (h : c → rel ∨ r.state.steamState = true ∨ r.heldSteaming) : r.claimLaw c q rel wd :=
  ⟨fun x => (h x).imp_right (Or.imp_right fun y => ⟨y, n⟩), fun x => absurd x nq, fun x => absurd x n⟩

/-- One notice, from lists `a` to lists `b` that differ for its section alone. -/
theorem notice_claims {s : State} {a b : Steam} {n : SteamNotice} (h : ∀ j, j ≠ n.sec → s.claimAt a j)
    (others : ∀ j, j ≠ n.sec →
      hasClaim j b.claims = hasClaim j a.claims ∧ hasClaim j b.queue = hasClaim j a.queue)
    (own : (s.takeNotice n).claimAt b n.sec) : (s.takeNotice n).claimsAs b := by
  intro j
  by_cases e : j = n.sec
  · rw [e]; exact own
  · have k := claimAt_of_sec (h j e) (sec_takeNotice_ne s e) (work_takeNotice s n)
    unfold State.claimAt at *
    rw [(others j e).1, (others j e).2]
    exact k

/-- A grant, to a section that is not on the wait queue after it (R83). -/
theorem grant_claims {s : State} {a b : Steam} {i : SectionId} (hold : s.holdLaw) (h : s.claimsAs a)
    (others : ∀ j, j ≠ i →
      hasClaim j b.claims = hasClaim j a.claims ∧ hasClaim j b.queue = hasClaim j a.queue)
    (nq : hasClaim i b.queue = false) : (s.takeNotice (.grant i)).claimsAs b := by
  refine notice_claims (n := .grant i) (fun j _ => h j) others ?_
  show (s.takeNotice (.grant i)).claimAt b i
  have w := work_takeNotice s (.grant i)
  have given : (s.sec i).state ≠ .filling → ¬ (s.sec i).holds.contains .steam = true →
      .releaseClaim i ∈ (s.takeNotice (.grant i)).work := by
    intro f m
    unfold State.takeNotice
    dsimp only
    rw [if_neg f, if_neg m]
    exact List.mem_append_right _ List.mem_cons_self
  unfold State.claimAt
  generalize (s.takeNotice (.grant i)).work = u at w given ⊢
  have own := h i
  unfold State.takeNotice
  dsimp only
  split
  · next f =>
    have k := enterState_record (s := s) (i := i) .conditioning .grant
      (Section.holds_nil (hold i) (by rw [f]; decide))
    refine Section.claimLaw_steaming k.1 (by rw [nq]; decide) fun _ => .inr ?_
    rcases k.2 with e | e
    · exact .inl (by rw [e]; rfl)
    · exact .inr ⟨e.1, _, e.2, rfl⟩
  · next f =>
    split
    · next m =>
      have m' : HoldReason.steam ∈ (s.sec i).holds := by simpa using m
      have k := removeSteam_record (i := i) .grant (hold i) m'
      refine Section.claimLaw_steaming k.1 (by rw [nq]; decide) fun _ => ?_
      rcases own.2.1 (own.2.2 m') with e | e | e | e
      · exact .inl (w e)
      · exact absurd e f
      · obtain ⟨_, back, e, st⟩ := e.1
        refine .inr ?_
        rcases k.2 back e with x | x
        · exact .inl (by rw [x]; exact st)
        · exact .inr ⟨x.1, _, x.2, st⟩
      · exact absurd m' e.2
    · next m =>
      have m' : HoldReason.steam ∉ (s.sec i).holds := by simpa using m
      exact Section.claimLaw_steaming m' (by rw [nq]; decide) fun _ => .inl (given f m)

/-- A STEAM reason, to a section whose claim has been shed (R87). -/
theorem steam_claims {s : State} {a b : Steam} {i : SectionId} (h : s.claimsAs a)
    (others : ∀ j, j ≠ i →
      hasClaim j b.claims = hasClaim j a.claims ∧ hasClaim j b.queue = hasClaim j a.queue)
    (c : hasClaim i a.claims = true) (nq : hasClaim i a.queue = false)
    (nc : hasClaim i b.claims = false) (q : hasClaim i b.queue = true) :
    (s.takeNotice (.steam i)).claimsAs b := by
  refine notice_claims (n := .steam i) (fun j _ => h j) others ?_
  show (s.addReason i .steam).claimAt b i
  have w := work_addReason s i .steam
  unfold State.claimAt
  generalize (s.addReason i .steam).work = u at w ⊢
  have own := (h i).1 c
  have ns : HoldReason.steam ∉ (s.sec i).holds := fun m => by
    have := (h i).2.2 m
    rw [nq] at this
    exact absurd this (by decide)
  refine ⟨fun x => absurd x (by rw [nc]; decide), fun _ => ?_, fun _ => q⟩
  rcases own with e | e | e
  · exact .inl (w e)
  · refine .inr (.inr (.inl ?_))
    have wk : (s.sec i).state.working = true := by
      cases st : (s.sec i).state <;> rw [st] at e <;> first | rfl | exact absurd e (by decide)
    have ne := SectionState.working_ne_held wk
    unfold State.addReason
    dsimp only
    rw [if_neg (by simp [ns, Section.takes, wk]), if_neg ne, sec_holdWith, if_pos rfl]
    exact ⟨⟨rfl, _, rfl, e⟩, mem_insertAll.2 (.inl List.mem_cons_self)⟩
  · refine .inr (.inr (.inl ?_))
    unfold State.addReason
    dsimp only
    rw [if_neg (by simp [ns, Section.takes, e.1.1]), if_pos e.1.1]
    show ((s.insertHolds i [.steam]).sec i).heldSteaming ∧ _ ∈ ((s.insertHolds i [.steam]).sec i).holds
    rw [sec_insertHolds, if_pos rfl]
    exact ⟨e.1, mem_insertAll.2 (.inl List.mem_cons_self)⟩

/-! ### The allocator's changes -/

/-- The law carries over from lists `a` to lists `b` as these notices are taken. -/
def Steam.tells (a b : Steam) (ns : List SteamNotice) : Prop :=
  ∀ s : State, s.holdLaw → s.claimsAs a → (ns.foldl State.takeNotice s).claimsAs b

namespace Steam.tells

theorem refl (a : Steam) : a.tells a [] := fun _ _ h => h

theorem trans {a b c : Steam} {ns ms : List SteamNotice} (h : a.tells b ns) (k : b.tells c ms) :
    a.tells c (ns ++ ms) := by
  intro s hold x
  rw [List.foldl_append]
  exact k _ ((Moves.fold takeNotice_moves ns s).keep (fun _ _ => move_holdLaw) hold) (h s hold x)

theorem cons {a b c : Steam} {n : SteamNotice} {ns : List SteamNotice} (h : a.tells b [n])
    (k : b.tells c ns) : a.tells c (n :: ns) := h.trans k

/-- Claims released without a notice (R84). -/
theorem silent {a b : Steam} (c : ∀ i, hasClaim i b.claims = true → hasClaim i a.claims = true)
    (q : ∀ i, hasClaim i b.queue = hasClaim i a.queue) : a.tells b [] := by
  intro s _ h i
  have k := h i
  unfold State.claimAt at *
  rw [q]
  exact ⟨fun x => k.1 (c i x), k.2⟩

end Steam.tells

theorem hasClaim_iff {i : SectionId} {cs : List Claim} : hasClaim i cs = true ↔ i ∈ cs.map Claim.sec := by
  unfold hasClaim
  rw [List.any_eq_true, List.mem_map]
  simp

theorem hasClaim_append (i : SectionId) (a b : List Claim) :
    hasClaim i (a ++ b) = (hasClaim i a || hasClaim i b) := List.any_append

theorem hasClaim_cons (i : SectionId) (c : Claim) (cs : List Claim) :
    hasClaim i (c :: cs) = (c.sec == i || hasClaim i cs) := rfl

theorem hasClaim_false {i : SectionId} {cs : List Claim} :
    hasClaim i cs = false ↔ i ∉ cs.map Claim.sec := by
  rw [← hasClaim_iff, Bool.not_eq_true]

/-- The lists of a record, by the sections that stand on them. -/
theorem claimsAs_congr {s : State} {a b : Steam} (h : s.claimsAs a)
    (e : ∀ i, hasClaim i b.claims = hasClaim i a.claims ∧ hasClaim i b.queue = hasClaim i a.queue) :
    s.claimsAs b := by
  intro i
  have k := h i
  unfold State.claimAt at *
  rw [(e i).1, (e i).2]
  exact k

/-- Claims taken from the head of the queue and granted in turn. -/
theorem granted_tells (now : Nat) (g : List Claim) : ∀ (a : Steam) (rest : List Claim),
    a.queue = g ++ rest → (a.queue.map Claim.sec).Nodup →
    a.tells { a with claims := a.claims ++ g.map (fun c => { c with since := now }), queue := rest }
      (g.map fun c => .grant c.sec) := by
  induction g with
  | nil =>
    intro a rest e _ s _ h
    refine claimsAs_congr h fun i => ?_
    rw [e]
    simp
  | cons c g ih =>
    intro a rest e nodup
    have n : ((c :: (g ++ rest)).map Claim.sec).Nodup := by rw [e] at nodup; exact nodup
    have first : a.tells { a with claims := a.claims ++ [{ c with since := now }], queue := g ++ rest }
        [.grant c.sec] := by
      intro s hold h
      refine grant_claims hold h (fun j ne => ?_) ?_
      · rw [e]
        have q : (c.sec == j) = false := by simp [ne.symm]
        simp only [hasClaim_append, hasClaim_cons, List.cons_append, q, Bool.false_or]
        simp [hasClaim]
      · rw [hasClaim_false]
        exact (List.nodup_cons.1 n).1
    have second := ih { a with claims := a.claims ++ [{ c with since := now }], queue := g ++ rest } rest rfl
      (List.nodup_cons.1 n).2
    have all := first.trans second
    simp only [List.append_assoc, List.cons_append, List.nil_append] at all
    exact all

theorem grantPass_tells (now : Nat) {st : Steam} (h : (st.queue.map Claim.sec).Nodup) :
    st.tells (st.grantPass now).1 (st.grantPass now).2 :=
  granted_tells now _ st _ (grantable_append _ _).symm h

theorem Steam.listed_queue {st : Steam} (h : st.listed) : (st.queue.map Claim.sec).Nodup := by
  have := h.1
  rw [List.map_append] at this
  exact (List.nodup_append.1 this).2.1

/-- Claims taken from the newest end of the claim list and put at the tail of the queue in turn. -/
theorem shed_tells_aux (now : Nat) (taken : List Claim) : ∀ (a : Steam) (kept : List Claim),
    a.claims.reverse = taken ++ kept → a.listed →
    a.tells { a with
        claims := kept.reverse, queue := a.queue ++ taken.map (fun c => { c with since := now }) }
      (taken.map fun c => .steam c.sec) := by
  induction taken with
  | nil =>
    intro a kept e _ s _ h
    refine claimsAs_congr h fun i => ?_
    have : kept.reverse = a.claims := by rw [← List.reverse_reverse a.claims, e]; simp
    dsimp only
    rw [this]
    simp
  | cons c taken ih =>
    intro a kept e listed
    have ec : a.claims = (taken ++ kept).reverse ++ [c] := by
      rw [← List.reverse_reverse a.claims, e]; simp
    have nodup := listed.1
    rw [ec, List.append_assoc, List.map_append, List.map_append, List.nodup_append] at nodup
    obtain ⟨n1, n2, n3⟩ := nodup
    have nc : hasClaim c.sec (taken ++ kept).reverse = false := by
      rw [hasClaim_false]
      intro m
      exact n3 _ m c.sec (by simp) rfl
    have nq : hasClaim c.sec a.queue = false := by
      rw [hasClaim_false]
      intro m
      simp only [List.map_cons, List.map_nil, List.singleton_append] at n2
      exact (List.nodup_cons.1 n2).1 m
    have first : a.tells { a with
        claims := (taken ++ kept).reverse, queue := a.queue ++ [{ c with since := now }] }
        [.steam c.sec] := by
      intro s _ h
      refine steam_claims h (fun j ne => ?_) ?_ nq nc ?_
      · have q : (c.sec == j) = false := by simp [ne.symm]
        dsimp only
        rw [ec]
        simp only [hasClaim_append, hasClaim_cons, q, Bool.false_or]
        simp [hasClaim]
      · rw [ec, hasClaim_append, hasClaim_cons]; simp
      · dsimp only
        rw [hasClaim_append, hasClaim_cons]; simp
    have second := ih { a with
        claims := (taken ++ kept).reverse, queue := a.queue ++ [{ c with since := now }] } kept (by simp) (by
      refine Steam.listed_of_perm listed (l := a.claims ++ a.queue) ?_ (List.Sublist.refl _)
      rw [ec]
      simp only [List.map_append, List.map_cons, List.map_nil, List.append_assoc]
      exact List.Perm.append_left _ (List.perm_append_comm))
    have all := first.trans second
    simp only [List.append_assoc, List.cons_append, List.nil_append] at all
    exact all

theorem shed_tells (now : Nat) {st : Steam} (h : st.listed) : st.tells (st.shed now).1 (st.shed now).2 := by
  refine (shed_tells_aux now (shedNewest st.effective st.claims.reverse).1 st
    (shedNewest st.effective st.claims.reverse).2 (shedNewest_append _ _).symm h).trans
    (grantPass_tells now ?_)
  have := shed_listed now h
  exact Steam.listed_queue this

theorem rebudget_tells (now old : Nat) {st : Steam} (h : st.listed) :
    st.tells (st.rebudget now old).1 (st.rebudget now old).2 := by
  unfold Steam.rebudget
  split
  · exact shed_tells now h
  · split
    · exact grantPass_tells now (Steam.listed_queue h)
    · exact .refl _

theorem setHost_tells (now budget : Nat) {st : Steam} (h : st.law) :
    st.tells (st.setHost now budget).1 (st.setHost now budget).2 :=
  rebudget_tells now _ (st := { st with hostBudget := budget }) h.2

theorem setCap_tells (now : Nat) (g : GroupId) (c : Option Nat) {st : Steam} (h : st.law) :
    st.tells (st.setCap now g c).1 (st.setCap now g c).2 :=
  rebudget_tells now _ (st := { st with caps := st.caps.set g c }) h.2

/-! ### A change of the allocator's record, with its notices -/

theorem steam_putSteam (s : State) (st : Steam) : (s.putSteam st).steam = st := by
  unfold State.putSteam
  split
  · next e => exact e.symm
  · rfl

theorem sec_putSteam (s : State) (st : Steam) (i : SectionId) : (s.putSteam st).sec i = s.sec i := by
  unfold State.putSteam
  split <;> rfl

theorem work_putSteam (s : State) (st : Steam) : (s.putSteam st).work = s.work := by
  unfold State.putSteam
  split <;> rfl

theorem claimAt_putSteam {s : State} (st a : Steam) {i : SectionId} (h : s.claimAt a i) :
    (s.putSteam st).claimAt a i :=
  claimAt_of_sec h (sec_putSteam _ _ _) (by rw [work_putSteam]; exact List.Subset.refl _)

theorem holdLaw_putSteam {s : State} (st : Steam) (h : s.holdLaw) : (s.putSteam st).holdLaw := by
  intro i
  rw [sec_putSteam]
  exact h i

/-- The lists `b` that the law holds by before the notices, and what the notices make of them. -/
theorem steamChange_claims {s : State} {f : Steam → Steam × List SteamNotice} {b : Steam}
    (hold : s.holdLaw) (h : s.claimsAs b) (k : b.tells (f s.steam).1 (f s.steam).2) :
    (s.steamChange f).claimLaw := by
  unfold State.steamChange
  rw [State.claimLaw_iff, (notices_onlySections _ _).steam, steam_putSteam]
  exact k _ (holdLaw_putSteam _ hold) fun i => claimAt_putSteam _ _ (h i)

theorem hasClaim_filter (i : SectionId) (p : SectionId → Bool) (cs : List Claim) :
    hasClaim i (cs.filter fun c => p c.sec) = (hasClaim i cs && p i) := by
  unfold hasClaim
  induction cs with
  | nil => rfl
  | cons c cs ih =>
    rw [List.filter_cons]
    by_cases e : c.sec = i
    · subst e
      cases q : p c.sec
      · simp only [Bool.false_eq_true, if_false, ih, q, Bool.and_false]
      · simp
    · have n : (c.sec == i) = false := by simp [e]
      split
      · rw [List.any_cons, n, Bool.false_or, List.any_cons, n, Bool.false_or, ih]
      · rw [ih, List.any_cons, n, Bool.false_or]

theorem hasClaim_withoutClaim (i j : SectionId) (cs : List Claim) :
    hasClaim i (withoutClaim j cs) = (hasClaim i cs && i != j) := hasClaim_filter i (fun k => k != j) cs

theorem Steam.law_disjoint {st : Steam} (h : st.law) {i : SectionId} (c : hasClaim i st.claims = true) :
    hasClaim i st.queue = false := by
  rw [hasClaim_false]
  intro m
  have n := h.2.1
  rw [List.map_append, List.nodup_append] at n
  exact n.2.2 _ (hasClaim_iff.1 c) _ m rfl

/-- STEAM lifted from each of these sections, which are on neither list `b`. -/
theorem lifts_claims (ls : List SectionId) : ∀ (s : State) (b : Steam), s.holdLaw →
    (∀ j, j ∉ ls → s.claimAt b j) →
    (∀ j ∈ ls, hasClaim j b.claims = false ∧ hasClaim j b.queue = false) →
    ((ls.map SteamNotice.lift).foldl State.takeNotice s).claimsAs b := by
  induction ls with
  | nil => exact fun s b _ h _ j => h j (by simp)
  | cons i ls ih =>
    intro s b hold h out
    have o := out i List.mem_cons_self
    refine ih (s.takeNotice (.lift i)) b ((takeNotice_moves s _).keep (fun _ _ => move_holdLaw) hold)
      (fun j nj => ?_) fun j hj => out j (List.mem_cons_of_mem _ hj)
    by_cases e : j = i
    · subst e
      have own : (s.takeNotice (.lift j)).claimAt b j := by
        refine Section.claimLaw_steaming ?_ (by rw [o.2]; decide) fun x => absurd x (by rw [o.1]; decide)
        show _ ∉ ((s.removeReason j .steam .release).sec j).holds
        by_cases m : HoldReason.steam ∈ (s.sec j).holds
        · exact (removeSteam_record .release (hold j) m).1
        · unfold State.removeReason
          dsimp only
          rw [if_pos (by simpa using m)]
          exact m
      exact own
    · exact claimAt_of_sec (h j (by simp [e, nj])) (sec_takeNotice_ne s (n := .lift i) e)
        (work_takeNotice s _)

/-- STEAM lifted from these sections as they leave the lists, then a grant pass (R85, R86). -/
theorem liftPass_claims {s : State} {f : Steam → Steam × List SteamNotice} {b : Steam} (now : Nat)
    (ls : List SectionId) (e : f s.steam = b.thenPass now (ls.map .lift)) (hold : s.holdLaw)
    (nodup : (b.queue.map Claim.sec).Nodup) (h : ∀ j, j ∉ ls → s.claimAt b j)
    (out : ∀ j ∈ ls, hasClaim j b.claims = false ∧ hasClaim j b.queue = false) :
    (s.steamChange f).claimLaw := by
  unfold State.steamChange
  rw [State.claimLaw_iff, (notices_onlySections _ _).steam, steam_putSteam, e]
  unfold Steam.thenPass
  dsimp only
  rw [List.foldl_append]
  have hold' := holdLaw_putSteam (b.grantPass now).1 hold
  exact grantPass_tells now nodup _
    ((Moves.fold takeNotice_moves _ _).keep (fun _ _ => move_holdLaw) hold')
    (lifts_claims ls _ b hold' (fun j nj => claimAt_putSteam _ _ (h j nj)) out)

theorem queue_nodup {st : Steam} (h : st.law) : (st.queue.map Claim.sec).Nodup := Steam.listed_queue h.2

/-- A withdrawal, taken by the allocator; the law may be broken for its section (R85). -/
theorem withdraw_claims {s : State} {i : SectionId} (hold : s.holdLaw) (nodup : (s.steam.queue.map Claim.sec).Nodup)
    (h : ∀ j, j ≠ i → s.claimAt s.steam j)
    (own : hasClaim i s.steam.queue = false → s.claimAt s.steam i)
    (nc : hasClaim i s.steam.queue = true → hasClaim i s.steam.claims = false) :
    (s.steamChange (Steam.withdraw s.now i)).claimLaw := by
  by_cases q : hasClaim i s.steam.queue = true
  · refine liftPass_claims (b := { s.steam with queue := withoutClaim i s.steam.queue }) s.now [i] ?_ hold
      (nodup.sublist (List.filter_sublist.map _)) (fun j nj => ?_) (fun j hj => ?_)
    · unfold Steam.withdraw
      rw [if_pos q]
      rfl
    · have ne : j ≠ i := by simpa using nj
      have k := h j ne
      unfold State.claimAt at *
      rw [hasClaim_withoutClaim]
      simpa [ne] using k
    · rw [List.mem_singleton] at hj
      subst hj
      exact ⟨nc q, by rw [hasClaim_withoutClaim]; simp⟩
  · rw [Bool.not_eq_true] at q
    refine steamChange_claims (b := s.steam) hold (fun j => ?_) ?_
    · by_cases e : j = i
      · subst e; exact own q
      · exact h j e
    · unfold Steam.withdraw
      rw [if_neg (by simp [q])]
      exact .refl _

/-- A release, taken by the allocator; the law may be broken for its section (R84). -/
theorem release_claims {s : State} {i : SectionId} (hold : s.holdLaw) (law : s.steamLaw)
    (h : ∀ j, j ≠ i → s.claimAt s.steam j)
    (own : HoldReason.steam ∈ (s.sec i).holds → hasClaim i s.steam.queue = true) :
    (s.steamChange (Steam.release s.now i)).claimLaw := by
  by_cases c : hasClaim i s.steam.claims = true
  · have nq := Steam.law_disjoint law c
    refine steamChange_claims (b := { s.steam with claims := withoutClaim i s.steam.claims }) hold
      (fun j => ?_) ?_
    · by_cases e : j = i
      · subst e
        refine Section.claimLaw_steaming (fun m => ?_) (by dsimp only; rw [nq]; decide) fun x => ?_
        · have := own m
          rw [nq] at this
          exact absurd this (by decide)
        · rw [hasClaim_withoutClaim] at x
          simp at x
      · have k := h j e
        unfold State.claimAt at *
        rw [hasClaim_withoutClaim]
        simpa [e] using k
    · unfold Steam.release
      rw [if_pos c]
      exact grantPass_tells _ (show (s.steam.queue.map Claim.sec).Nodup from queue_nodup law)
  · have e : (s.steamChange (Steam.release s.now i)) = s.steamChange (Steam.withdraw s.now i) := by
      have : Steam.release s.now i s.steam = Steam.withdraw s.now i s.steam := by
        unfold Steam.release
        rw [if_neg c]
      unfold State.steamChange
      rw [this]
    rw [e]
    rw [Bool.not_eq_true] at c
    refine withdraw_claims hold (queue_nodup law) h (fun q => ?_) fun _ => c
    refine Section.claimLaw_steaming (fun m => ?_) (by rw [q]; decide) fun x => absurd x (by rw [c]; decide)
    have := own m
    rw [q] at this
    exact absurd this (by decide)

/-- The steam request of a FILLING section (R60, R81). -/
theorem request_claims {s : State} {i : SectionId} (d : Nat) (hold : s.holdLaw) (h : s.claimLaw)
    (f : (s.sec i).state = .filling) :
    (s.steamChange (Steam.request s.now i d false)).claimLaw := by
  by_cases c : (hasClaim i s.steam.claims || hasClaim i s.steam.queue) = true
  · refine steamChange_claims hold h ?_
    unfold Steam.request
    rw [if_pos c]
    exact .refl _
  · have n := c
    simp only [Bool.or_eq_true, not_or, Bool.not_eq_true] at n
    by_cases z : d = 0
    · refine steamChange_claims hold h ?_
      unfold Steam.request
      rw [if_neg c, if_pos z]
      intro t ht x
      exact grant_claims ht x (fun _ _ => ⟨rfl, rfl⟩) n.2
    · by_cases r : (s.steam.queue.isEmpty && decide (d ≤ s.steam.effective - s.steam.claimedSum)) = true
      · refine steamChange_claims hold h ?_
        unfold Steam.request
        rw [if_neg c, if_neg z, if_pos r]
        intro t ht x
        refine grant_claims ht x (fun j ne => ?_) n.2
        have q : (i == j) = false := by simp [ne.symm]
        simp only [hasClaim_append, hasClaim_cons, q, Bool.false_or]
        simp [hasClaim]
      · have ne := Section.holds_nil (hold i) (by rw [f]; decide)
        refine steamChange_claims (b := (Steam.request s.now i d false s.steam).1) hold (fun j => ?_) ?_
        · unfold Steam.request
          rw [if_neg c, if_neg z, if_neg r]
          by_cases e : j = i
          · subst e
            refine ⟨fun x => absurd x (by dsimp only; rw [n.1]; decide), fun _ => .inr (.inl f), fun m => ?_⟩
            rw [ne] at m
            exact absurd m (by simp)
          · have k := h j
            have q : (i == j) = false := by simp [Ne.symm e]
            unfold State.claimAt at *
            dsimp only
            rw [hasClaim_append, hasClaim_cons, q, Bool.false_or]
            simpa [hasClaim] using k
        · unfold Steam.request
          rw [if_neg c, if_neg z, if_neg r]
          exact .refl _

/-! ### Re-examinations and cascades -/

theorem fillDoneRequest_claims {s : State} (i : SectionId) (hold : s.holdLaw) (h : s.claimLaw) :
    (s.fillDoneRequest i).claimLaw := by
  unfold State.fillDoneRequest
  split
  · next k => exact request_claims _ hold h k.1
  · exact h

/-- The step out of FILLING is never permitted as it stands: it waits for its grant (R60). -/
theorem failing_filling {s : State} {i : SectionId} (k : (s.sec i).state = .filling) : s.failing i ≠ [] := by
  unfold State.failing
  dsimp only
  rw [k]
  cases (s.sec i).cls <;> simp [unmet]

theorem reexamine_claims {s : State} (i : SectionId) (why : Why) (hold : s.holdLaw) (h : s.claimLaw) :
    (s.reexamine i why).claimLaw := by
  unfold State.reexamine
  dsimp only
  split
  · next dest n =>
    split
    · next k =>
      refine (enterState_claims _ hold (enters_of_permit n k.2.1) (fun st => ?_) fun f => ?_).law h
      · revert n st
        cases (s.sec i).cls <;> cases (s.sec i).state <;>
          simp [nextStep, SectionState.steamState] <;> rintro rfl <;> simp
      · exact absurd k.2.1 (failing_filling f)
    · exact fillDoneRequest_claims i hold h
  · exact h

/-- The law without what is owed to section `i` by a release or a withdrawal on its way. -/
theorem claimAt_erase {s : State} {d : Delivery} {i : SectionId} (h : s.claimAt s.steam i)
    (r : d ≠ .releaseClaim i) (w : d ≠ .withdrawClaim i) (o : List Nat) (n : Nat) :
    ({ s with work := s.work.erase d, order := o, drawn := n } : State).claimAt s.steam i := by
  have e : ∀ x, x ≠ d → (x ∈ s.work → x ∈ s.work.erase d) := fun x ne m => (List.mem_erase_of_ne ne).2 m
  exact Section.claimLaw_same h rfl rfl rfl (e _ r.symm) (e _ w.symm)

theorem reportAll_claims (ks : List ReportKey) (s : State) : Carries s (s.reportAll ks) := by
  have fold : ∀ (l : List ReportKey) (t : State), Carries t (l.foldl State.report t) := by
    intro l
    induction l with
    | nil => exact fun t => .refl t
    | cons k l ih => exact fun t => (report_claims t k).trans (ih _)
  unfold State.reportAll
  dsimp only
  refine .trans ?_ (fold _ _)
  rw [shuffle_eq]
  exact .same rfl (List.Subset.refl _) fun _ => ⟨rfl, rfl, rfl⟩

theorem putUnits_claims (s : State) (us : UnitSupervisor) : Carries s (s.putUnits us) := by
  unfold State.putUnits
  dsimp only
  refine .trans ?_ (reportAll_claims _ _)
  exact .same rfl (List.subset_append_left _ _) fun _ => ⟨rfl, rfl, rfl⟩

theorem takeSupply_claims (s : State) (free reserve : Nat) : Carries s (s.takeSupply free reserve) := by
  unfold State.takeSupply State.recomputeOverlap
  dsimp only
  split
  · exact .same rfl (List.Subset.refl _) fun _ => ⟨rfl, rfl, rfl⟩
  · exact .same rfl (List.subset_append_left _ _) fun _ => ⟨rfl, rfl, rfl⟩

theorem closingTest_claims (s : State) : Carries s s.closingTest := by
  unfold State.closingTest
  split
  · refine .same rfl (List.subset_append_left _ _) fun i => ?_
    have e : s.closeNow.sec i = (s.sec i).dropLift := Table.get_map _ _ _
    obtain ⟨b, x⟩ := (s.sec i).dropLift_eq
    rw [e, x]
    exact ⟨rfl, rfl, rfl⟩
  · exact .refl _

/-- One delivery, as it is taken from those waiting, keeps the law. -/
theorem takeOne_claims (s : State) (d : Delivery) (o : List Nat) (n : Nat) (hold : s.holdLaw)
    (law : s.steamLaw) (h : s.claimLaw) :
    (({ s with work := s.work.erase d, order := o, drawn := n } : State).runDelivery d).claimLaw := by
  have rest : (∀ i, d ≠ .releaseClaim i ∧ d ≠ .withdrawClaim i) →
      ({ s with work := s.work.erase d, order := o, drawn := n } : State).claimLaw :=
    fun ne i => claimAt_erase (h i) (ne i).1 (ne i).2 o n
  have hold' : ({ s with work := s.work.erase d, order := o, drawn := n } : State).holdLaw := hold
  have law' : ({ s with work := s.work.erase d, order := o, drawn := n } : State).steamLaw := law
  cases d with
  | reexamine i why => exact reexamine_claims i why hold' (rest fun _ => ⟨by simp, by simp⟩)
  | addReason i r =>
    have k := rest fun _ => ⟨by simp, by simp⟩
    unfold State.runDelivery
    dsimp only
    split
    · exact k
    · next e => exact (addReason_claims i hold' fun x => e (by rw [x]; rfl)).law k
  | removeReason i r =>
    have k := rest fun _ => ⟨by simp, by simp⟩
    unfold State.runDelivery
    dsimp only
    split
    · exact k
    · next e => exact (removeReason_claims i _ hold' fun x => e (by rw [x]; rfl)).law k
  | releaseClaim i =>
    refine release_claims hold' law' (fun j ne => ?_) (h i).2.2
    exact claimAt_erase (h j) (by simpa using ne.symm) (by simp) o n
  | withdrawClaim i =>
    refine withdraw_claims hold' (queue_nodup law) (fun j ne => ?_) (fun q => ?_) fun q => ?_
    · exact claimAt_erase (h j) (by simp) (by simpa using ne.symm) o n
    · have k := h i
      unfold State.claimAt at *
      rw [q] at *
      refine ⟨fun x => (k.1 x).imp_left fun m => (List.mem_erase_of_ne (by simp)).2 m,
        fun x => absurd x (by decide), k.2.2⟩
    · rw [← Bool.not_eq_true]
      intro c
      have := Steam.law_disjoint law c
      rw [show hasClaim i s.steam.queue = true from q] at this
      exact absurd this (by decide)
  | cap g c =>
    exact steamChange_claims hold' (rest fun _ => ⟨by simp, by simp⟩) (setCap_tells _ _ _ law)
  | runDemand i => exact (putUnits_claims _ _).law (rest fun _ => ⟨by simp, by simp⟩)
  | unitsExcluded i =>
    have k := rest fun _ => ⟨by simp, by simp⟩
    unfold State.runDelivery
    dsimp only
    split
    · exact k
    · exact (putUnits_claims _ _).law k
  | unitsIncluded i =>
    have k := rest fun _ => ⟨by simp, by simp⟩
    unfold State.runDelivery
    dsimp only
    split
    · exact (putUnits_claims _ _).law k
    · exact k
  | spareSupply free reserve => exact (takeSupply_claims _ _ _).law (rest fun _ => ⟨by simp, by simp⟩)
  | closingTest => exact (closingTest_claims _).law (rest fun _ => ⟨by simp, by simp⟩)

/-- The three laws of the allocator and of the hold sets, kept together. -/
structure State.steamLaws (s : State) : Prop where
  hold : s.holdLaw
  steam : s.steamLaw
  claim : s.claimLaw

theorem Moves.steamLaws {s t : State} (h : Moves s t) (k : s.steamLaws) (c : t.claimLaw) : t.steamLaws :=
  ⟨h.keep (fun _ _ => move_holdLaw) k.hold, h.keep (fun _ _ => move_steamLaw) k.steam, c⟩

theorem settle_steamLaws {s : State} (h : s.steamLaws) : s.settle.steamLaws := by
  refine settle_take (P := State.steamLaws) (fun s d o n _ k => ?_) s h
  have m : Moves s { s with work := s.work.erase d, order := o, drawn := n } :=
    (Moves.one (.work s (s.work.erase d))).trans (.one (.order { s with work := s.work.erase d } o n))
  exact (m.trans (runDelivery_moves _ d)).steamLaws k (takeOne_claims s d o n k.hold k.steam k.claim)

/-! ### The mapping of CLOSE CAMPAIGN (R86, R112) -/

theorem windDownState_spec {cls : SectionClass} {p : Phase} {st : SectionState}
    (h : windDownState cls p st ≠ st) :
    windDownState cls p st ≠ .held ∧ windDownState cls p st ≠ .absent ∧ st ≠ .held ∧ st ≠ .absent ∧
      ((windDownState cls p st).working = true → st.working = true) := by
  cases cls <;> cases p <;> cases st <;> simp_all [windDownState, SectionState.working]

theorem mapped_keeps {s : State} (i : SectionId) (hold : s.holdLaw) :
    (s.mapSection i).steam = s.steam ∧ s.work ⊆ (s.mapSection i).work ∧
      (∀ j, j ≠ i → (s.mapSection i).sec j = s.sec j) ∧
      (HoldReason.steam ∈ ((s.mapSection i).sec i).holds → HoldReason.steam ∈ (s.sec i).holds) ∧
      ((s.sec i).mappedOff = false → s.claimAt s.steam i → (s.mapSection i).claimAt s.steam i) := by
  have enters : ∀ dest, windDownState (s.sec i).cls (s.sec i).phase (s.sec i).state = dest →
      dest ≠ (s.sec i).state → (s.enterState i dest .campaign).steam = s.steam ∧
        s.work ⊆ (s.enterState i dest .campaign).work ∧
        (∀ j, j ≠ i → (s.enterState i dest .campaign).sec j = s.sec j) ∧
        (HoldReason.steam ∈ ((s.enterState i dest .campaign).sec i).holds →
          HoldReason.steam ∈ (s.sec i).holds) ∧
        ((s.sec i).mappedOff = false → s.claimAt s.steam i →
          (s.enterState i dest .campaign).claimAt s.steam i) := by
    intro dest e n
    have k := windDownState_spec (cls := (s.sec i).cls) (p := (s.sec i).phase) (st := (s.sec i).state)
      (by rw [e]; exact n)
    rw [e] at k
    refine ⟨(enterState_onlySections _ _ _ _).steam, work_enterState _ _ _ _,
      fun j ne => sec_enterState_ne s ne _ _,
      fun m => absurd m (enterState_record dest .campaign (Section.holds_nil (hold i) k.2.2.1)).1,
      fun off h => ?_⟩
    refine (enterState_claims .campaign hold
      ⟨k.2.2.1, k.2.2.2.1, k.1, k.2.1, fun _ => k.2.2.2.2⟩ ?_ ?_).keeps i h
    all_goals
      subst e
      unfold Section.mappedOff at off
      revert off n
      cases (s.sec i).cls <;> cases (s.sec i).phase <;> cases (s.sec i).state <;>
        simp [windDownState, SectionState.steamState]
  have stay : s.steam = s.steam ∧ s.work ⊆ s.work ∧ (∀ j, j ≠ i → s.sec j = s.sec j) ∧
      (HoldReason.steam ∈ (s.sec i).holds → HoldReason.steam ∈ (s.sec i).holds) ∧
      ((s.sec i).mappedOff = false → s.claimAt s.steam i → s.claimAt s.steam i) :=
    ⟨rfl, List.Subset.refl _, fun _ _ => rfl, id, fun _ h => h⟩
  unfold State.mapSection
  dsimp only
  split
  · next held =>
    split
    · exact stay
    · next n =>
      have e : ∀ r, ((s.setSec i r).report (.sec i)).sec i = r := fun r => Table.get_set_self _ _ _
      refine ⟨rfl, List.Subset.refl _, fun j ne => ?_, ?_, fun off h => ?_⟩
      · show (s.setSec i _).sec j = s.sec j
        rw [State.sec_setSec, if_neg ne]
      · rw [e]; exact id
      · unfold State.claimAt at *
        rw [e]
        cases b : (s.sec i).heldFrom with
        | none => simp [b] at n
        | some old =>
          have st : ∀ {r : Section}, old.steamState = true →
              (windDownState (s.sec i).cls (s.sec i).phase old).steamState = true := by
            intro _ st
            unfold Section.mappedOff at off
            rw [b, if_pos held] at off
            revert off st
            cases (s.sec i).cls <;> cases (s.sec i).phase <;> cases old <;>
              simp [windDownState, SectionState.steamState]
          have steaming : (s.sec i).heldSteaming → Section.heldSteaming
              { s.sec i with heldFrom := some (windDownState (s.sec i).cls (s.sec i).phase old) } := by
            rintro ⟨a, x, c, d⟩
            rw [b, Option.some.injEq] at c
            subst c
            exact ⟨a, _, rfl, st (r := s.sec i) d⟩
          refine ⟨fun x => (h.1 x).imp_right (Or.imp_right fun y => ⟨steaming y.1, y.2⟩),
            fun x => (h.2.1 x).imp_right (Or.imp_right (Or.imp_left fun y => ⟨steaming y.1, y.2⟩)), h.2.2⟩
  all_goals first
    | exact stay
    | (split
       · exact stay
       · next n => exact enters _ rfl n)

theorem mapSection_holdLaw {s : State} (i : SectionId) (hold : s.holdLaw) : (s.mapSection i).holdLaw := by
  have enters : ∀ dest, windDownState (s.sec i).cls (s.sec i).phase (s.sec i).state = dest →
      dest ≠ (s.sec i).state → (s.enterState i dest .campaign).holdLaw := by
    intro dest e n
    have k := windDownState_spec (cls := (s.sec i).cls) (p := (s.sec i).phase) (st := (s.sec i).state)
      (by rw [e]; exact n)
    rw [e] at k
    exact (enterState_moves _ ⟨k.2.2.1, k.2.2.2.1, k.1, k.2.1, fun _ => k.2.2.2.2⟩).keep
      (fun _ _ => move_holdLaw) hold
  unfold State.mapSection
  dsimp only
  split
  · split
    · exact hold
    · next n =>
      cases b : (s.sec i).heldFrom with
      | none => simp [b] at n
      | some old =>
        intro j
        show ((s.setSec i _).sec j).holdLaw
        rw [State.sec_setSec]
        split
        · have k := hold i
          simp only [b, Option.map_some, Option.some.injEq] at n
          refine ⟨k.1, fun x => absurd (k.2.1 x) (by rw [b]; simp), fun x => ?_, ?_⟩
          · have := k.2.2.1 x
            rw [b] at this
            simpa using this
          · simpa using (windDownState_spec n).1
        · exact hold j
  all_goals first
    | exact hold
    | (split
       · exact hold
       · next n => exact enters _ rfl n)

/-- The mapping of every section, before the allocator's one change: the law may be broken for the
sections that the mapping sends off. -/
theorem mapFold_claims {z : State} (l : List SectionId) : ∀ s : State, l.Nodup → s.holdLaw →
    (∀ i ∈ l, s.sec i = z.sec i) →
    (∀ i, (z.sec i).mappedOff = false → s.claimAt s.steam i) →
    (∀ i, HoldReason.steam ∈ (s.sec i).holds → hasClaim i s.steam.queue = true) →
    (l.foldl State.mapSection s).steam = s.steam ∧ (l.foldl State.mapSection s).holdLaw ∧
      (∀ i, (z.sec i).mappedOff = false → (l.foldl State.mapSection s).claimAt s.steam i) ∧
      ∀ i, HoldReason.steam ∈ ((l.foldl State.mapSection s).sec i).holds →
        hasClaim i s.steam.queue = true := by
  induction l with
  | nil => exact fun s _ hold _ h q => ⟨rfl, hold, h, q⟩
  | cons i l ih =>
    intro s nodup hold same h q
    have n := List.nodup_cons.1 nodup
    obtain ⟨e, w, others, no, keeps⟩ := mapped_keeps i hold
    have k := ih (s.mapSection i) n.2 (mapSection_holdLaw i hold)
      (fun j hj => by
        rw [others j fun x => n.1 (x ▸ hj)]
        exact same j (List.mem_cons_of_mem _ hj))
      (fun j off => by
        rw [e]
        by_cases x : j = i
        · subst x
          refine keeps ?_ (h j off)
          rw [same j List.mem_cons_self]
          exact off
        · exact claimAt_of_sec (h j off) (others j x) w)
      (fun j m => by
        rw [e]
        by_cases x : j = i
        · subst x; exact q j (no m)
        · rw [others j x] at m; exact q j m)
    rw [e] at k
    exact k

theorem mapSections_claims {s : State} (k : s.steamLaws) : s.mapSections.claimLaw := by
  unfold State.mapSections
  dsimp only
  have e := shuffle_eq (allIds 24) s
  have p := shuffle_perm (allIds 24) s
  generalize State.shuffle (allIds 24) s = sh at e p
  have secs : ∀ i, sh.2.sec i = s.sec i := fun i => by rw [e]; rfl
  have st : sh.2.steam = s.steam := by rw [e]
  have work : sh.2.work = s.work := by rw [e]
  obtain ⟨f1, f2, f3, f4⟩ := mapFold_claims (z := s) sh.1 sh.2
    (p.nodup_iff.2 (List.nodup_finRange 24)) (fun i => by rw [secs]; exact k.hold i)
    (fun i _ => secs i)
    (fun i _ => by rw [st]; exact claimAt_of_sec (k.claim i) (secs i) (by rw [work]; exact List.Subset.refl _))
    (fun i m => by rw [st]; rw [secs] at m; exact (k.claim i).2.2 m)
  rw [st] at f1 f3 f4
  generalize sh.1.foldl State.mapSection sh.2 = t at f1 f2 f3 f4
  generalize hoff : (allIds 24).filter (fun i => (s.sec i).mappedOff) = off
  have memOff : ∀ i, i ∈ off ↔ (s.sec i).mappedOff = true := by
    intro i; rw [← hoff, List.mem_filter]; simp
  have notOff : ∀ i, i ∉ off → (s.sec i).mappedOff = false := by
    intro i h; rw [memOff, Bool.not_eq_true] at h; exact h
  have keeps : ∀ (cs : List Claim) (i : SectionId),
      hasClaim i (cs.filter fun c => !off.contains c.sec) = (hasClaim i cs && !off.contains i) :=
    fun cs i => hasClaim_filter i (fun j => !off.contains j) cs
  by_cases any : (off.any fun i => hasClaim i s.steam.claims || hasClaim i s.steam.queue) = true
  · refine liftPass_claims (b := { s.steam with
        claims := s.steam.claims.filter fun c => !off.contains c.sec
        queue := s.steam.queue.filter fun c => !off.contains c.sec }) s.now
      (off.filter fun i => hasClaim i s.steam.queue) ?_ f2 ?_ (fun j nj => ?_) (fun j hj => ?_)
    · unfold Steam.mapped
      rw [f1]
      dsimp only
      rw [if_pos any]
    · exact (queue_nodup k.steam).sublist (List.filter_sublist.map _)
    · by_cases o : j ∈ off
      · have nq : hasClaim j s.steam.queue = false := by
          rw [← Bool.not_eq_true]
          exact fun q => nj (List.mem_filter.2 ⟨o, q⟩)
        refine Section.claimLaw_steaming (fun m => ?_) ?_ fun x => ?_
        · have := f4 j m
          rw [nq] at this
          exact absurd this (by decide)
        · dsimp only; rw [keeps, nq]; simp
        · dsimp only at x; rw [keeps] at x; simp [o] at x
      · have x := f3 j (notOff j o)
        unfold State.claimAt at *
        dsimp only
        rw [keeps, keeps]
        simpa [o] using x
    · have o := (List.mem_filter.1 hj).1
      dsimp only
      rw [keeps, keeps]
      simp [o]
  · refine steamChange_claims (b := s.steam) f2 (fun j => ?_) ?_
    · by_cases o : j ∈ off
      · have out : hasClaim j s.steam.claims = false ∧ hasClaim j s.steam.queue = false := by
          have := fun q => any (List.any_eq_true.2 ⟨j, o, q⟩)
          simpa using this
        refine Section.claimLaw_steaming (fun m => ?_) (by rw [out.2]; decide)
          fun x => absurd x (by rw [out.1]; decide)
        have := f4 j m
        rw [out.2] at this
        exact absurd this (by decide)
      · exact f3 j (notOff j o)
    · unfold Steam.mapped
      rw [f1]
      dsimp only
      rw [if_neg any]
      exact .refl _

/-! ### ADOPT (R177) -/

/-- The steam request of an adoption, of a section to be held from a state that holds a claim. -/
theorem adoptSteam_claims {s : State} {i : SectionId} (h : s.claimLaw)
    (k : (s.sec i).heldSteaming) : (s.adoptSteam i).claimLaw := by
  unfold State.adoptSteam
  dsimp only
  by_cases c : (hasClaim i s.steam.claims || hasClaim i s.steam.queue) = true
  · have e : Steam.request s.now i (s.sec i).demand true s.steam = (s.steam, []) := by
      unfold Steam.request
      rw [if_pos c]
    rw [e]
    have p : s.putSteam s.steam = s := by unfold State.putSteam; rw [if_pos rfl]
    rw [p]
    exact h
  · have n := c
    simp only [Bool.or_eq_true, not_or, Bool.not_eq_true] at n
    have ns : HoldReason.steam ∉ (s.sec i).holds := fun m => by
      have := (h i).2.2 m
      rw [n.2] at this
      exact absurd this (by decide)
    by_cases z : (s.sec i).demand = 0
    · have e : Steam.request s.now i (s.sec i).demand true s.steam = (s.steam, [.grant i]) := by
        unfold Steam.request
        rw [if_neg c, if_pos z]
      rw [e]
      have p : s.putSteam s.steam = s := by unfold State.putSteam; rw [if_pos rfl]
      rw [p]
      exact h
    · by_cases r : (s.steam.queue.isEmpty &&
          decide ((s.sec i).demand ≤ s.steam.effective - s.steam.claimedSum)) = true
      · have e : Steam.request s.now i (s.sec i).demand true s.steam = ({ s.steam with
            claims := s.steam.claims ++ [{ sec := i, demand := (s.sec i).demand, since := s.now }] },
            [.grant i]) := by
          unfold Steam.request
          rw [if_neg c, if_neg z, if_pos r]
        rw [e]
        dsimp only
        rw [if_neg (by simp)]
        intro j
        rw [steam_putSteam]
        refine claimAt_putSteam _ _ ?_
        by_cases x : j = i
        · subst x
          refine Section.claimLaw_steaming ns (by dsimp only; rw [n.2]; decide) fun _ => .inr (.inr k)
        · have y := h j
          have q : (i == j) = false := by simp [Ne.symm x]
          unfold State.claimAt at *
          dsimp only
          rw [hasClaim_append, hasClaim_cons, q, Bool.false_or]
          simpa [hasClaim] using y
      · have e : Steam.request s.now i (s.sec i).demand true s.steam = ({ s.steam with
            queue := s.steam.queue ++ [{ sec := i, demand := (s.sec i).demand, since := s.now }] },
            [.steam i]) := by
          unfold Steam.request
          rw [if_neg c, if_neg z, if_neg r]
          simp
        rw [e]
        dsimp only
        rw [if_pos (by simp)]
        intro j
        show State.claimAt _ (State.insertHolds _ i _).steam j
        rw [(insertHolds_onlySections _ _ _).steam, steam_putSteam]
        by_cases x : j = i
        · subst x
          unfold State.claimAt
          rw [sec_insertHolds, if_pos rfl, sec_putSteam]
          refine ⟨fun y => absurd y (by dsimp only; rw [n.1]; decide), fun _ => .inr (.inr (.inl ⟨k, ?_⟩)),
            fun _ => ?_⟩
          · exact mem_insertAll.2 (.inl List.mem_cons_self)
          · dsimp only
            rw [hasClaim_append, hasClaim_cons]
            simp
        · refine claimAt_of_sec (s := s) ?_ ?_ ?_
          · have y := h j
            have q : (i == j) = false := by simp [Ne.symm x]
            unfold State.claimAt at *
            dsimp only
            rw [hasClaim_append, hasClaim_cons, q, Bool.false_or]
            simpa [hasClaim] using y
          · rw [sec_insertHolds, if_neg x, sec_putSteam]
          · show s.work ⊆ (s.putSteam _).work
            rw [work_putSteam]
            exact List.Subset.refl _

theorem adopt_claims {s : State} {i : SectionId} {st : SectionState} (k : s.steamLaws)
    (h : HoldReason.restart ∈ (s.sec i).holds) (d : st ≠ .held) : (s.adopt i st).claimLaw := by
  have held : (s.sec i).state = .held := (k.hold i).1.2 (List.ne_nil_of_mem h)
  have none_ : (s.sec i).heldFrom = none := ((k.hold i).2.2.1 held).2 h
  -- held-from named: no section held from nothing yet stands on a list by its state
  have named : Carries s (s.setSec i { s.sec i with heldFrom := some st }) := by
    refine .one (i := i) rfl (List.Subset.refl _) (fun j e => by rw [State.sec_setSec, if_neg e])
      fun x => ?_
    unfold State.claimAt
    rw [State.sec_setSec, if_pos rfl]
    have no : ¬ (s.sec i).heldSteaming := by
      rintro ⟨_, b, e, _⟩
      rw [none_] at e
      exact absurd e (by simp)
    refine ⟨fun y => ?_, fun y => ?_, x.2.2⟩
    · rcases x.1 y with z | z | z
      · exact .inl z
      · exact .inr (.inl z)
      · exact absurd z.1 no
    · rcases x.2.1 y with z | z | z | z
      · exact .inl z
      · exact .inr (.inl z)
      · exact absurd z.1 no
      · exact .inr (.inr (.inr z))
  unfold State.adopt
  dsimp only
  -- the record once FULL has been added
  have pressed : ∀ t, t = (if st.passesLiquor then
      (s.setSec i { s.sec i with heldFrom := some st }).insertHolds i
        ((((s.setSec i { s.sec i with heldFrom := some st }).downstreamOf i).filter
          (s.setSec i { s.sec i with heldFrom := some st }).full).map .full)
      else s.setSec i { s.sec i with heldFrom := some st }) →
      Carries s t ∧ (t.sec i).state = .held ∧ (t.sec i).heldFrom = some st := by
    intro t e
    subst e
    split
    · refine ⟨named.trans (insertHolds_claims (by simp)), ?_, ?_⟩ <;>
        rw [sec_insertHolds, if_pos rfl, State.sec_setSec, if_pos rfl]
      exact held
    · refine ⟨named, ?_, ?_⟩ <;> rw [State.sec_setSec, if_pos rfl]
      exact held
  generalize hp : (if st.passesLiquor then _ else _ : State) = p
  obtain ⟨c, e1, e2⟩ := pressed p hp.symm
  have last : ∀ t : State, t.claimLaw → (t.sec i).state = .held → (t.sec i).heldFrom = some st →
      (t.removeReason i .restart .restore).claimLaw := by
    intro t x a b
    exact (removeReason_carries i _ (fun _ => a) (by rw [b]; simpa using d) (by simp)).law x
  split
  · next q =>
    have x := adoptSteam_claims (c.law k.claim) ⟨e1, st, e2, q.1⟩
    have recs : (((p.adoptSteam i).sec i).state = .held) ∧ (((p.adoptSteam i).sec i).heldFrom = some st) := by
      unfold State.adoptSteam
      dsimp only
      split
      · rw [sec_insertHolds, if_pos rfl, sec_putSteam]; exact ⟨e1, e2⟩
      · rw [sec_putSteam]; exact ⟨e1, e2⟩
    exact last _ x recs.1 recs.2
  · exact last _ (c.law k.claim) e1 e2

end Sys2Proof.Machine
end

