-- ==== Sys2Proof/Laws/Pool.lean ====
section
/-! SUPPORT. The laws of the coverings, the demand queue and the run outputs (R129, R133): what each
operation of the unit supervisor does to them. -/

namespace Sys2Proof.Machine

/-! ### Units after each operation -/

theorem get_setUnit (us : UnitSupervisor) (u v : UnitId) (r : UnitRecord) :
    (us.setUnit u r).units.get v = if v = u then r else us.units.get v := Table.get_set _ _ _ _

/-- The fields of a unit record that no covering changes. -/
structure SameUnit (a b : UnitRecord) : Prop where
  role : b.role = a.role
  cls : b.cls = a.cls
  sec : b.sec = a.sec
  condition : b.condition = a.condition
  runOutput : b.runOutput = a.runOutput

theorem SameUnit.refl (a : UnitRecord) : SameUnit a a := by constructor <;> rfl

theorem SameUnit.trans {a b c : UnitRecord} (h : SameUnit a b) (k : SameUnit b c) : SameUnit a c :=
  ⟨k.role.trans h.role, k.cls.trans h.cls, k.sec.trans h.sec, k.condition.trans h.condition,
    k.runOutput.trans h.runOutput⟩

/-- What an operation on the coverings makes of two fields of every unit. -/
structure Covers (a b : UnitSupervisor) (covering coveredBy : UnitId → Option UnitId) : Prop where
  same : ∀ v, SameUnit (a.units.get v) (b.units.get v)
  covering : ∀ v, (b.units.get v).covering = covering v
  coveredBy : ∀ v, (b.units.get v).coveredBy = coveredBy v

theorem assign_covers (us : UnitSupervisor) (sp u : UnitId) : Covers us (us.assign sp u)
    (fun v => if v = sp then some u else (us.units.get v).covering)
    (fun v => if v = u then some sp else (us.units.get v).coveredBy) := by
  have e : ∀ v, (us.assign sp u).units.get v =
      if v = sp then { (us.setUnit u { us.units.get u with coveredBy := some sp }).units.get sp with
        covering := some u }
      else if v = u then { us.units.get u with coveredBy := some sp } else us.units.get v := by
    intro v
    unfold UnitSupervisor.assign
    dsimp only
    rw [get_setUnit, get_setUnit]
    split
    · next e => rw [← e]
    · rw [get_setUnit]
  refine ⟨fun v => ?_, fun v => ?_, fun v => ?_⟩ <;> rw [e] <;> try rw [get_setUnit]
  · split
    · next x => subst x; split <;> (next y => subst_vars; constructor <;> rfl)
    · split
      · next y => subst y; constructor <;> rfl
      · exact .refl _
  · split
    · rfl
    · split
      · next y => subst y; rfl
      · rfl
  · split
    · next x =>
      subst x
      split <;> rfl
    · split <;> rfl

theorem uncover_covers (us : UnitSupervisor) (sp u : UnitId) : Covers us (us.uncover sp u)
    (fun v => if v = sp then none else (us.units.get v).covering)
    (fun v => if v = u then none else (us.units.get v).coveredBy) := by
  have e : ∀ v, (us.uncover sp u).units.get v =
      if v = sp then { (us.setUnit u { us.units.get u with coveredBy := none }).units.get sp with
        covering := none }
      else if v = u then { us.units.get u with coveredBy := none } else us.units.get v := by
    intro v
    unfold UnitSupervisor.uncover
    dsimp only
    rw [get_setUnit, get_setUnit]
    split
    · next e => rw [← e]
    · rw [get_setUnit]
  refine ⟨fun v => ?_, fun v => ?_, fun v => ?_⟩ <;> rw [e] <;> try rw [get_setUnit]
  · split
    · next x => subst x; split <;> (next y => subst_vars; constructor <;> rfl)
    · split
      · next y => subst y; constructor <;> rfl
      · exact .refl _
  · split
    · rfl
    · split
      · next y => subst y; rfl
      · rfl
  · split
    · next x =>
      subst x
      split <;> rfl
    · split <;> rfl

/-! ### The law of the coverings, with a unit and some spares left out -/

theorem freeSpare_iff {r : UnitRecord} :
    r.freeSpare = true ↔ r.role = .spare ∧ r.condition = .healthy ∧ r.covering = none := by
  unfold UnitRecord.freeSpare
  simp [and_assoc]

/-- R133, but for the covering of unit `x`, and for free spares among `todo` that are still to be
offered. -/
structure UnitSupervisor.CoverBut (us : UnitSupervisor) (x : Option UnitId) (todo : List UnitId) : Prop where
  mutual_ : ∀ u sp, (us.units.get u).coveredBy = some sp ↔ (us.units.get sp).covering = some u
  pairs : ∀ u sp, (us.units.get u).coveredBy = some sp → some u ≠ x →
    (us.units.get u).role = .duty ∧ (us.units.get u).condition = .failed ∧
    (us.units.get sp).role = .spare ∧ (us.units.get sp).condition ≠ .failed
  once : (us.demands.map SpareDemand.unit).Nodup
  queue : ∀ d ∈ us.demands, (us.units.get d.unit).role = .duty ∧ (us.units.get d.unit).condition = .failed ∧
    (us.units.get d.unit).coveredBy = none ∧ d.cls = (us.units.get d.unit).cls
  idle : ∀ d ∈ us.demands, ∀ sp, sp ∉ todo → (us.units.get sp).freeSpare = true →
    (us.units.get sp).cls ≠ d.cls

theorem coverLaw_iff (us : UnitSupervisor) : us.coverLaw ↔ us.CoverBut none [] :=
  ⟨fun h => ⟨h.1, fun u sp c _ => h.2.1 u sp c, h.2.2.1, h.2.2.2.1, fun d hd sp _ => h.2.2.2.2 d hd sp⟩,
    fun h => ⟨h.mutual_, fun u sp c => h.pairs u sp c (by simp), h.once, h.queue,
      fun d hd sp => h.idle d hd sp (by simp)⟩⟩

namespace UnitSupervisor.CoverBut

variable {us : UnitSupervisor} {x : Option UnitId} {todo : List UnitId}

theorem mono {more : List UnitId} (h : us.CoverBut x todo) (k : todo ⊆ more) : us.CoverBut x more :=
  ⟨h.mutual_, h.pairs, h.once, h.queue, fun d hd sp n => h.idle d hd sp fun m => n (k m)⟩

/-- A free spare is assigned to a FAILED duty unit that nothing covers, off the queue. -/
theorem assign (h : us.CoverBut none todo) {sp u : UnitId} (free : (us.units.get sp).freeSpare = true)
    (role : (us.units.get u).role = .duty) (failed : (us.units.get u).condition = .failed)
    (bare : (us.units.get u).coveredBy = none) (off : ∀ d ∈ us.demands, d.unit ≠ u)
    {rest : List UnitId} (todo' : ∀ v ∈ todo, v = sp ∨ v ∈ rest) : (us.assign sp u).CoverBut none rest := by
  have c := assign_covers us sp u
  have f := freeSpare_iff.1 free
  have ne : sp ≠ u := fun e => by rw [e, role] at f; exact absurd f.1 (by decide)
  refine ⟨fun v w => ?_, fun v w k _ => ?_, h.once, fun d hd => ?_, fun d hd w n k => ?_⟩
  · rw [c.coveredBy, c.covering]
    split
    · next a =>
      subst a
      split
      · next b => subst b; simp
      · next b =>
        rw [← h.mutual_, bare]
        simp [Ne.symm b]
    · next a =>
      split
      · next b =>
        subst b
        rw [h.mutual_, f.2.2]
        simp [Ne.symm a]
      · exact h.mutual_ v w
  · rw [c.coveredBy] at k
    rw [(c.same v).role, (c.same v).condition, (c.same w).role, (c.same w).condition]
    split at k
    · next a =>
      subst a
      simp only [Option.some.injEq] at k
      subst k
      exact ⟨role, failed, f.1, by rw [f.2.1]; decide⟩
    · exact h.pairs v w k (by simp)
  · have q := h.queue d hd
    rw [(c.same _).role, (c.same _).condition, (c.same _).cls, c.coveredBy, if_neg (off d hd)]
    exact q
  · have fw := freeSpare_iff.1 k
    rw [(c.same w).role, (c.same w).condition, c.covering] at fw
    rw [(c.same w).cls]
    by_cases e : w = sp
    · rw [if_pos e] at fw; exact absurd fw.2.2 (by simp)
    · rw [if_neg e] at fw
      exact h.idle d hd w (fun m => (todo' w m).elim e n) (freeSpare_iff.2 fw)

/-- A covering ended, whose unit may be the one left out; its spare is to be offered. -/
theorem uncover (h : us.CoverBut x todo) {sp u : UnitId} (k : (us.units.get u).coveredBy = some sp)
    (hx : x = none ∨ x = some u) : (us.uncover sp u).CoverBut none (sp :: todo) := by
  have c := uncover_covers us sp u
  refine ⟨fun v w => ?_, fun v w j _ => ?_, h.once, fun d hd => ?_, fun d hd w n j => ?_⟩
  · rw [c.coveredBy, c.covering]
    split
    · next a =>
      subst a
      split
      · simp
      · next b =>
        rw [← h.mutual_, k]
        simp [Ne.symm b]
    · next a =>
      split
      · next b =>
        subst b
        have o := (h.mutual_ u w).1 k
        rw [h.mutual_, o]
        simp [Ne.symm a]
      · exact h.mutual_ v w
  · rw [c.coveredBy] at j
    rw [(c.same v).role, (c.same v).condition, (c.same w).role, (c.same w).condition]
    split at j
    · exact absurd j (by simp)
    · next a =>
      refine h.pairs v w j ?_
      rcases hx with e | e
      · rw [e]; simp
      · rw [e]; simpa using a
  · have q := h.queue d hd
    rw [(c.same _).role, (c.same _).condition, (c.same _).cls, c.coveredBy]
    refine ⟨q.1, q.2.1, ?_, q.2.2.2⟩
    split
    · rfl
    · exact q.2.2.1
  · have fw := freeSpare_iff.1 j
    rw [(c.same w).role, (c.same w).condition, c.covering] at fw
    rw [(c.same w).cls]
    simp only [List.mem_cons, not_or] at n
    rw [if_neg n.1] at fw
    exact h.idle d hd w n.2 (freeSpare_iff.2 fw)

theorem demands (h : us.CoverBut x todo) (ds : List SpareDemand) (sub : ds.Sublist us.demands) :
    UnitSupervisor.CoverBut { us with demands := ds } x todo :=
  ⟨h.mutual_, h.pairs, h.once.sublist (sub.map _), fun d hd => h.queue d (sub.subset hd),
    fun d hd => h.idle d (sub.subset hd)⟩

/-- A demand joins the queue, at either end, for a unit that no free spare of its class could serve. -/
theorem queued (h : us.CoverBut none todo) {u : UnitId} {ds : List SpareDemand}
    (perm : ds.Perm ({ unit := u, cls := (us.units.get u).cls } :: us.demands))
    (role : (us.units.get u).role = .duty) (failed : (us.units.get u).condition = .failed)
    (bare : (us.units.get u).coveredBy = none) (off : ∀ d ∈ us.demands, d.unit ≠ u)
    (none_ : ∀ sp, sp ∉ todo → (us.units.get sp).freeSpare = true →
      (us.units.get sp).cls ≠ (us.units.get u).cls) :
    UnitSupervisor.CoverBut { us with demands := ds } none todo := by
  refine ⟨h.mutual_, h.pairs, ?_, fun d hd => ?_, fun d hd sp n f => ?_⟩
  · refine (perm.map SpareDemand.unit).nodup_iff.2 (List.nodup_cons.2 ⟨fun m => ?_, h.once⟩)
    obtain ⟨d, hd, e⟩ := List.mem_map.1 m
    exact off d hd e
  · rcases List.mem_cons.1 (perm.mem_iff.1 hd) with e | e
    · subst e; exact ⟨role, failed, bare, rfl⟩
    · exact h.queue d e
  · rcases List.mem_cons.1 (perm.mem_iff.1 hd) with e | e
    · subst e; exact none_ sp n f
    · exact h.idle d e sp n f

end UnitSupervisor.CoverBut

/-! ### Which units are covered or queued -/

theorem queued_iff {us : UnitSupervisor} {u : UnitId} : us.queued u = true ↔ ∃ d ∈ us.demands, d.unit = u := by
  unfold UnitSupervisor.queued
  simp

theorem attended_iff {us : UnitSupervisor} {u : UnitId} :
    us.attended u = true ↔ (us.units.get u).coveredBy ≠ none ∨ ∃ d ∈ us.demands, d.unit = u := by
  unfold UnitSupervisor.attended
  rw [Bool.or_eq_true, queued_iff, Option.isSome_iff_ne_none]

theorem lowestFree_some {us : UnitSupervisor} {cls : Nat} {sp : UnitId} (h : us.lowestFree cls = some sp) :
    (us.units.get sp).freeSpare = true ∧ (us.units.get sp).cls = cls := by
  have := List.find?_some h
  simpa using this

theorem lowestFree_none {us : UnitSupervisor} {cls : Nat} (h : us.lowestFree cls = none) (sp : UnitId)
    (f : (us.units.get sp).freeSpare = true) : (us.units.get sp).cls ≠ cls := by
  have := List.find?_eq_none.1 h sp (List.mem_finRange _)
  simpa [f] using this

/-- What each covering operation keeps, and whom it attends to. -/
structure Attends (a b : UnitSupervisor) (who : UnitId → Prop) : Prop where
  same : ∀ v, SameUnit (a.units.get v) (b.units.get v)
  attended : ∀ v, b.attended v = true ↔ who v

/-- R134: coverage requested for a FAILED duty unit that is not attended. -/
theorem requestCoverage_law {us : UnitSupervisor} {u : UnitId} (h : us.coverLaw)
    (role : (us.units.get u).role = .duty) (failed : (us.units.get u).condition = .failed)
    (free : us.attended u = false) : (us.requestCoverage u).coverLaw := by
  rw [coverLaw_iff] at *
  have n : ¬ us.attended u = true := by rw [free]; decide
  rw [attended_iff] at n
  simp only [not_or, not_exists, not_and, ne_eq, not_not] at n
  unfold UnitSupervisor.requestCoverage
  split
  · next sp e => exact h.assign (lowestFree_some e).1 role failed n.1 n.2 (by simp)
  · next e =>
    exact h.queued List.perm_append_comm role failed n.1 n.2 fun sp _ f => lowestFree_none e sp f

theorem requestCoverage_attends (us : UnitSupervisor) (u : UnitId) :
    Attends us (us.requestCoverage u) fun v => v = u ∨ us.attended v = true := by
  unfold UnitSupervisor.requestCoverage
  split
  · next sp e =>
    have c := assign_covers us sp u
    refine ⟨c.same, fun v => ?_⟩
    rw [attended_iff, attended_iff, c.coveredBy]
    by_cases k : v = u
    · simp [k]
    · simp only [k, if_false, false_or]
      rfl
  · refine ⟨fun _ => .refl _, fun v => ?_⟩
    rw [attended_iff, attended_iff]
    simp only [List.mem_append, List.mem_singleton]
    constructor
    · rintro (k | ⟨d, k | k, e⟩)
      · exact .inr (.inl k)
      · exact .inr (.inr ⟨d, k, e⟩)
      · subst k; exact .inl e.symm
    · rintro (k | k | ⟨d, k, e⟩)
      · exact .inr ⟨_, .inr rfl, k.symm⟩
      · exact .inl k
      · exact .inr ⟨d, .inl k, e⟩

theorem mem_withoutDemand {u : UnitId} {d : SpareDemand} {ds : List SpareDemand} :
    d ∈ withoutDemand u ds ↔ d ∈ ds ∧ d.unit ≠ u := by
  unfold withoutDemand
  rw [List.mem_filter]
  simp

theorem withoutDemand_sublist (u : UnitId) (ds : List SpareDemand) : (withoutDemand u ds).Sublist ds :=
  List.filter_sublist

/-- R136: a spare offered to the queue. -/
theorem offer_law {us : UnitSupervisor} {sp : UnitId} {todo : List UnitId}
    (h : us.CoverBut none (sp :: todo)) : (us.offer sp).CoverBut none todo := by
  unfold UnitSupervisor.offer
  split
  · next f =>
    split
    · next d e =>
      have m := List.mem_of_find?_eq_some e
      have q := h.queue d m
      refine UnitSupervisor.CoverBut.assign (todo := sp :: todo)
        (h.demands _ (withoutDemand_sublist d.unit us.demands)) f q.1 q.2.1 q.2.2.1
        (fun x hx => (mem_withoutDemand.1 hx).2) (fun v hv => List.mem_cons.1 hv)
    · next e =>
      refine ⟨h.mutual_, h.pairs, h.once, h.queue, fun d hd v n k => ?_⟩
      by_cases x : v = sp
      · subst x
        have := List.find?_eq_none.1 e d hd
        simp only [beq_iff_eq] at this
        exact fun y => this y.symm
      · exact h.idle d hd v (by simp [x, n]) k
  · next f =>
    refine ⟨h.mutual_, h.pairs, h.once, h.queue, fun d hd v n k => ?_⟩
    by_cases x : v = sp
    · subst x; exact absurd k f
    · exact h.idle d hd v (by simp [x, n]) k

theorem offer_attends (us : UnitSupervisor) (sp : UnitId) :
    Attends us (us.offer sp) fun v => us.attended v = true := by
  unfold UnitSupervisor.offer
  split
  · split
    · next d e =>
      have m := List.mem_of_find?_eq_some e
      have c := assign_covers { us with demands := withoutDemand d.unit us.demands } sp d.unit
      refine ⟨c.same, fun v => ?_⟩
      rw [attended_iff, attended_iff, c.coveredBy]
      show _ ∨ (∃ x ∈ withoutDemand d.unit us.demands, x.unit = v) ↔ _
      by_cases k : v = d.unit
      · subst k
        simp only [if_true, ne_eq, reduceCtorEq, not_false_eq_true, true_or, true_iff]
        exact .inr ⟨d, m, rfl⟩
      · simp only [k, if_false]
        refine or_congr Iff.rfl ⟨fun ⟨x, hx, y⟩ => ⟨x, (mem_withoutDemand.1 hx).1, y⟩,
          fun ⟨x, hx, y⟩ => ⟨x, mem_withoutDemand.2 ⟨hx, by rw [y]; exact k⟩, y⟩⟩
    · exact ⟨fun _ => .refl _, fun _ => Iff.rfl⟩
  · exact ⟨fun _ => .refl _, fun _ => Iff.rfl⟩

/-! ### Changes of one unit's condition -/

/-- A unit's record with its condition, and fields that bear on no covering, changed. -/
structure Turned (a b : UnitRecord) : Prop where
  role : b.role = a.role
  cls : b.cls = a.cls
  sec : b.sec = a.sec
  runOutput : b.runOutput = a.runOutput
  covering : b.covering = a.covering
  coveredBy : b.coveredBy = a.coveredBy

namespace UnitSupervisor.CoverBut

variable {us : UnitSupervisor} {x x' : Option UnitId} {todo todo' : List UnitId}

/-- A free spare still to be offered that is free no longer. -/
theorem notFree (h : us.CoverBut x (sp :: todo)) (k : (us.units.get sp).freeSpare = false) :
    us.CoverBut x todo :=
  ⟨h.mutual_, h.pairs, h.once, h.queue, fun d hd v n f => by
    by_cases e : v = sp
    · subst e; rw [k] at f; exact absurd f (by decide)
    · exact h.idle d hd v (by simp [e, n]) f⟩

theorem record (h : us.CoverBut x todo) {u : UnitId} {r : UnitRecord} (t : Turned (us.units.get u) r)
    (pairs : ∀ v sp, (us.units.get v).coveredBy = some sp → some v ≠ x' →
      some v ≠ x ∧ (v = u → r.condition = .failed) ∧ (sp = u → r.condition ≠ .failed))
    (queue : (∃ d ∈ us.demands, d.unit = u) → r.condition = .failed)
    (idle : r.freeSpare = true → u ∈ todo' ∨ (us.units.get u).freeSpare = true) (sub : todo ⊆ todo')
    {b : UnitSupervisor} (e : b.units = (us.setUnit u r).units) (e' : b.demands = us.demands) :
    b.CoverBut x' todo' := by
  have g : ∀ v, b.units.get v = if v = u then r else us.units.get v := by
    intro v; rw [e]; exact get_setUnit us u v r
  have role : ∀ v, (b.units.get v).role = (us.units.get v).role := by
    intro v; rw [g]; split
    · next e => rw [e]; exact t.role
    · rfl
  have cls : ∀ v, (b.units.get v).cls = (us.units.get v).cls := by
    intro v; rw [g]; split
    · next e => rw [e]; exact t.cls
    · rfl
  have covering : ∀ v, (b.units.get v).covering = (us.units.get v).covering := by
    intro v; rw [g]; split
    · next e => rw [e]; exact t.covering
    · rfl
  have coveredBy : ∀ v, (b.units.get v).coveredBy = (us.units.get v).coveredBy := by
    intro v; rw [g]; split
    · next e => rw [e]; exact t.coveredBy
    · rfl
  refine ⟨fun v w => ?_, fun v w k n => ?_, by rw [e']; exact h.once, fun d hd => ?_, fun d hd w n f => ?_⟩
  · rw [coveredBy, covering]; exact h.mutual_ v w
  · rw [coveredBy] at k
    have p := pairs v w k n
    have q := h.pairs v w k p.1
    rw [role, role]
    refine ⟨q.1, ?_, q.2.2.1, ?_⟩
    · rw [g]; split
      · next a => exact p.2.1 a
      · exact q.2.1
    · rw [g]; split
      · next a => exact p.2.2 a
      · exact q.2.2.2
  · rw [e'] at hd
    have q := h.queue d hd
    rw [role, coveredBy, cls]
    refine ⟨q.1, ?_, q.2.2⟩
    rw [g]; split
    · next a => exact queue ⟨d, hd, a⟩
    · exact q.2.1
  · rw [e'] at hd
    rw [cls]
    by_cases a : w = u
    · rw [g, if_pos a] at f
      subst a
      rcases idle f with i | i
      · exact absurd i n
      · exact h.idle d hd w (fun m => n (sub m)) i
    · rw [g, if_neg a] at f
      exact h.idle d hd w (fun m => n (sub m)) f

end UnitSupervisor.CoverBut

/-- What a change of the supervisor's record keeps of every unit but its condition and covering. -/
def SameRoles (a b : UnitSupervisor) : Prop :=
  ∀ v, (b.units.get v).role = (a.units.get v).role ∧ (b.units.get v).cls = (a.units.get v).cls ∧
    (b.units.get v).sec = (a.units.get v).sec ∧ (b.units.get v).runOutput = (a.units.get v).runOutput

namespace SameRoles

theorem refl (a : UnitSupervisor) : SameRoles a a := fun _ => ⟨rfl, rfl, rfl, rfl⟩

theorem trans {a b c : UnitSupervisor} (h : SameRoles a b) (k : SameRoles b c) : SameRoles a c :=
  fun v => ⟨(k v).1.trans (h v).1, (k v).2.1.trans (h v).2.1, (k v).2.2.1.trans (h v).2.2.1,
    (k v).2.2.2.trans (h v).2.2.2⟩

theorem ofSame {a b : UnitSupervisor} (h : ∀ v, SameUnit (a.units.get v) (b.units.get v)) : SameRoles a b :=
  fun v => ⟨(h v).role, (h v).cls, (h v).sec, (h v).runOutput⟩

theorem ofRecord {a b : UnitSupervisor} {u : UnitId} {r : UnitRecord} (t : Turned (a.units.get u) r)
    (e : b.units = (a.setUnit u r).units) : SameRoles a b := by
  intro v
  rw [e, get_setUnit]
  split
  · next x => rw [x]; exact ⟨t.role, t.cls, t.sec, t.runOutput⟩
  · exact ⟨rfl, rfl, rfl, rfl⟩

end SameRoles

theorem attended_congr {a b : UnitSupervisor} (v : UnitId)
    (h : (b.units.get v).coveredBy = (a.units.get v).coveredBy) (k : b.demands = a.demands) :
    b.attended v = a.attended v := by
  unfold UnitSupervisor.attended UnitSupervisor.queued
  rw [h, k]

theorem attended_record {a b : UnitSupervisor} {u : UnitId} {r : UnitRecord} (t : Turned (a.units.get u) r)
    (e : b.units = (a.setUnit u r).units) (e' : b.demands = a.demands) (v : UnitId) :
    b.attended v = a.attended v := by
  refine attended_congr v ?_ e'
  rw [e, get_setUnit]
  split
  · next x => rw [x]; exact t.coveredBy
  · rfl

/-- What a change of the supervisor's record does to its law, its units and those attended. -/
structure PoolChange (a b : UnitSupervisor) (condition : UnitId → Condition) (who : UnitId → Prop) :
    Prop where
  law : b.coverLaw
  roles : SameRoles a b
  condition : ∀ v, (b.units.get v).condition = condition v
  attended : ∀ v, b.attended v = true ↔ who v

/-- The condition of every unit once unit `u` has turned to `c`. -/
def UnitSupervisor.turning (us : UnitSupervisor) (u : UnitId) (c : Condition) (v : UnitId) : Condition :=
  if v = u then c else (us.units.get v).condition

theorem condition_record {a b : UnitSupervisor} {u : UnitId} {r : UnitRecord}
    (e : b.units = (a.setUnit u r).units) (v : UnitId) :
    (b.units.get v).condition = a.turning u r.condition v := by
  rw [e, get_setUnit]
  unfold UnitSupervisor.turning
  split <;> rfl

theorem not_attended {us : UnitSupervisor} {u : UnitId} (h : us.coverLaw)
    (k : (us.units.get u).condition ≠ .failed) : us.attended u = false := by
  rw [← Bool.not_eq_true, attended_iff]
  rintro (m | ⟨d, hd, e⟩)
  · obtain ⟨sp, e⟩ := Option.ne_none_iff_exists'.1 m
    exact k (h.2.1 u sp e).2.1
  · subst e
    exact k (h.2.2.2.1 d hd).2.1

/-- R130, R134, R135: a unit that is not FAILED becomes FAILED. -/
theorem fail_change {us : UnitSupervisor} {u : UnitId} (secs : Table Section 24) (h : us.coverLaw)
    (k : (us.units.get u).condition ≠ .failed) (role : (us.units.get u).role ≠ .none) :
    PoolChange us (us.fail secs u) (us.turning u .failed) fun v =>
      us.attended v = true ∨
        (v = u ∧ (us.units.get u).role = .duty ∧ inService secs (us.units.get u).sec = true) := by
  have free := not_attended h k
  have law := (coverLaw_iff us).1 h
  have t : Turned (us.units.get u) { us.units.get u with condition := .failed, window := none } :=
    ⟨rfl, rfl, rfl, rfl, rfl, rfl⟩
  have bare : (us.units.get u).coveredBy = none := by
    rw [← Bool.not_eq_true, attended_iff] at free
    simp only [not_or, ne_eq, not_not] at free
    exact free.1
  unfold UnitSupervisor.fail
  dsimp only
  generalize hf : ({ us.setUnit u { us.units.get u with condition := .failed, window := none } with
    watch := us.watch.filter fun w => w != u } : UnitSupervisor) = f
  have eu : f.units = (us.setUnit u { us.units.get u with condition := .failed, window := none }).units := by
    rw [← hf]
  have ed : f.demands = us.demands := by rw [← hf]; rfl
  have own : f.units.get u = { us.units.get u with condition := .failed, window := none } := by
    rw [eu, get_setUnit, if_pos rfl]
  have roles : SameRoles us f := .ofRecord t eu
  have cond := condition_record (a := us) (b := f) eu
  have att := attended_record t eu ed
  split
  · next rd =>
    have law1 : f.coverLaw := (coverLaw_iff f).2 (law.record t (fun v sp c _ => ⟨by simp, fun _ => rfl, fun e => by
      have := (h.2.1 v sp c).2.2.1
      rw [e, rd] at this
      exact absurd this (by decide)⟩) (fun _ => rfl)
      (fun y => by have := freeSpare_iff.1 y; rw [rd] at this; exact absurd this.1 (by decide))
      (List.Subset.refl _) eu ed)
    split
    · next serve =>
      have a := requestCoverage_attends f u
      refine ⟨requestCoverage_law law1 (by rw [own]; exact rd) (by rw [own]) (by rw [att]; exact free),
        roles.trans (.ofSame a.same), fun v => by rw [(a.same v).condition, cond], fun v => ?_⟩
      rw [a.attended, att]
      simp [rd, serve, or_comm]
    · next serve =>
      refine ⟨law1, roles, cond, fun v => ?_⟩
      rw [att]
      simp [serve]
  · next d rs cv =>
    have law1 : f.CoverBut (some d) [] := law.record t (fun v sp c n => ⟨by simp, fun e => rfl, fun e => by
      subst e
      rw [h.1, cv] at c
      exact absurd c.symm n⟩) (fun _ => rfl)
      (fun y => by have := freeSpare_iff.1 y; exact absurd this.2.1 (by simp)) (List.Subset.refl _) eu ed
    have cvd : (f.units.get d).coveredBy = some u := by
      have m := (h.1 d u).2 cv
      have ne : d ≠ u := fun e => by
        have := (h.2.1 d u m).1
        rw [e, rs] at this
        exact absurd this (by decide)
      rw [eu, get_setUnit, if_neg ne]
      exact m
    have pair := h.2.1 d u ((h.1 d u).2 cv)
    have ne : d ≠ u := fun e => by rw [e, rs] at pair; exact absurd pair.1 (by decide)
    have getd : f.units.get d = us.units.get d := by rw [eu, get_setUnit, if_neg ne]
    have c := uncover_covers f u d
    have law2 : (f.uncover u d).CoverBut none [] := (law1.uncover cvd (.inr rfl)).notFree (by
      rw [← Bool.not_eq_true, freeSpare_iff, (c.same u).condition, own]
      simp)
    have offd : ∀ x ∈ (f.uncover u d).demands, x.unit ≠ d := by
      intro x hx e
      have : x ∈ us.demands := by rw [← ed]; exact hx
      have q := h.2.2.2.1 x this
      rw [e, (h.1 d u).2 cv] at q
      exact absurd q.2.2.1 (by simp)
    have rd : ((f.uncover u d).units.get d).role = .duty := by rw [(c.same d).role, getd]; exact pair.1
    have fd : ((f.uncover u d).units.get d).condition = .failed := by
      rw [(c.same d).condition, getd]; exact pair.2.1
    have bd : ((f.uncover u d).units.get d).coveredBy = none := by rw [c.coveredBy, if_pos rfl]
    have atd : us.attended d = true := attended_iff.2 (.inl (by rw [(h.1 d u).2 cv]; simp))
    unfold UnitSupervisor.dropCovering
    dsimp only
    split
    · next other e =>
      have c2 := assign_covers (f.uncover u d) other d
      refine ⟨(coverLaw_iff _).2 (law2.assign (lowestFree_some e).1 rd fd bd offd (by simp)),
        (roles.trans (.ofSame c.same)).trans (.ofSame c2.same),
        fun v => by rw [(c2.same v).condition, (c.same v).condition, cond], fun v => ?_⟩
      rw [attended_iff, c2.coveredBy, c.coveredBy]
      show _ ∨ (∃ x ∈ f.demands, x.unit = v) ↔ _
      by_cases ev : v = d
      · subst ev; simp [atd]
      · rw [if_neg ev, if_neg ev, ← att v, attended_iff]
        simp [rs]
    · next e =>
      refine ⟨(coverLaw_iff _).2 (law2.queued (List.Perm.refl _) rd fd bd offd
          fun sp _ fr => lowestFree_none e sp fr),
        roles.trans (.ofSame c.same), fun v => by rw [(c.same v).condition, cond], fun v => ?_⟩
      rw [attended_iff, c.coveredBy]
      show _ ∨ (∃ x ∈ _ :: f.demands, x.unit = v) ↔ _
      by_cases ev : v = d
      · subst ev; simp [atd]
      · rw [if_neg ev, ← att v, attended_iff]
        simp [rs, Ne.symm ev]
  · next rs cv =>
    refine ⟨(coverLaw_iff f).2 (law.record t (fun v sp c _ => ⟨by simp, fun _ => rfl, fun e => by
      subst e
      rw [h.1, cv] at c
      exact absurd c (by simp)⟩) (fun _ => rfl)
      (fun y => by have := freeSpare_iff.1 y; exact absurd this.2.1 (by simp)) (List.Subset.refl _) eu ed),
      roles, cond, fun v => ?_⟩
    rw [att]
    simp [rs]
  · next n => exact absurd n role

/-- `State.needLaw` of a supervisor's record, given the section table and the deliveries waiting. -/
def UnitSupervisor.needs (us : UnitSupervisor) (secs : Table Section 24) (work : List Delivery) : Prop :=
  ∀ u i, (us.units.get u).role = .duty → (us.units.get u).sec = some i →
    (us.units.get u).condition = .failed →
    ((secs.get i).state.partakes = true → us.attended u = true ∨ .unitsIncluded i ∈ work) ∧
    ((secs.get i).state.partakes = false → us.attended u = false ∨ .unitsExcluded i ∈ work)

theorem needLaw_iff (s : State) : s.needLaw ↔ s.supervisor.needs s.sections s.work := Iff.rfl

/-- A change of the supervisor's record that keeps its laws. -/
structure PoolKept (secs : Table Section 24) (a b : UnitSupervisor) : Prop where
  law : b.coverLaw
  roles : SameRoles a b
  needs : ∀ work, a.needs secs work → b.needs secs work

namespace PoolKept

variable {secs : Table Section 24} {a b c : UnitSupervisor}

theorem trans (h : PoolKept secs a b) (k : PoolKept secs b c) : PoolKept secs a c :=
  ⟨k.law, h.roles.trans k.roles, fun w n => k.needs w (h.needs w n)⟩

/-- Conditions and those attended stand. -/
theorem same (law : b.coverLaw) (roles : SameRoles a b)
    (cond : ∀ v, (b.units.get v).condition = .failed → (a.units.get v).condition = .failed)
    (att : ∀ v, b.attended v = a.attended v) : PoolKept secs a b := by
  refine ⟨law, roles, fun w n u i r s c => ?_⟩
  rw [(roles u).1] at r
  rw [(roles u).2.2.1] at s
  rw [att]
  exact n u i r s (cond u c)

end PoolKept

theorem fail_kept {us : UnitSupervisor} {u : UnitId} (secs : Table Section 24) (h : us.coverLaw)
    (k : (us.units.get u).condition ≠ .failed) (role : (us.units.get u).role ≠ .none) :
    PoolKept secs us (us.fail secs u) := by
  have c := fail_change secs h k role
  refine ⟨c.law, c.roles, fun w n v i r s f => ?_⟩
  rw [(c.roles v).1] at r
  rw [(c.roles v).2.2.1] at s
  rw [c.condition] at f
  unfold UnitSupervisor.turning at f
  by_cases e : v = u
  · subst e
    have free := not_attended h k
    refine ⟨fun p => .inl ((c.attended v).2 (.inr ⟨rfl, r, ?_⟩)), fun p => .inl ?_⟩
    · rw [s]; exact p
    · rw [← Bool.not_eq_true, c.attended, free]
      rintro (x | ⟨_, _, x⟩)
      · exact absurd x (by decide)
      · rw [s] at x
        unfold inService at x
        dsimp only at x
        rw [p] at x
        exact absurd x (by decide)
  · rw [if_neg e] at f
    have att : (us.fail secs u).attended v = us.attended v := by
      rw [Bool.eq_iff_iff, c.attended]
      simp [e]
    rw [att]
    exact n v i r s f

/-- R131: the end of a recovery window. -/
theorem windowOut_kept {us : UnitSupervisor} {u : UnitId} (secs : Table Section 24) (h : us.coverLaw)
    (k : (us.units.get u).windowOut = true) : PoolKept secs us (us.fail secs u) := by
  by_cases r : (us.units.get u).role = .none
  · have e : us.fail secs u = us := by
      unfold UnitSupervisor.fail
      dsimp only
      rw [r]
    rw [e]
    exact .same h (.refl _) (fun _ => id) fun _ => rfl
  · refine fail_kept secs h (fun f => ?_) r
    unfold UnitRecord.windowOut at k
    rw [f] at k
    exact absurd k (by simp)

/-- R130: the fault input marked, and any change of one unit that leaves its condition. -/
theorem marked_kept {us : UnitSupervisor} {u : UnitId} {r : UnitRecord} (secs : Table Section 24)
    (h : us.coverLaw) (t : Turned (us.units.get u) r) (c : r.condition = (us.units.get u).condition) :
    PoolKept secs us (us.setUnit u r) := by
  have law := (coverLaw_iff us).1 h
  refine .same ((coverLaw_iff _).2 (law.record t (fun v sp k _ => ⟨by simp, fun e => ?_, fun e => ?_⟩)
    (fun ⟨d, hd, e⟩ => ?_) (fun y => .inr ?_) (List.Subset.refl _) rfl rfl)) (.ofRecord t rfl)
    (fun v f => ?_) (attended_record t rfl rfl)
  · rw [c, ← e]; exact (h.2.1 v sp k).2.1
  · rw [c, ← e]; exact (h.2.1 v sp k).2.2.2
  · rw [c, ← e]; exact (h.2.2.2.1 d hd).2.1
  · rw [freeSpare_iff] at *
    rw [t.role, t.covering, c] at y
    exact y
  · rw [condition_record (a := us) rfl] at f
    unfold UnitSupervisor.turning at f
    split at f
    · next e => rw [e, ← c]; exact f
    · exact f

/-- R130: the fault input of a unit becomes ACTIVE. -/
theorem faultActive_kept {us : UnitSupervisor} (secs : Table Section 24) (u : UnitId) (h : us.coverLaw) :
    PoolKept secs us (us.faultActive secs u) := by
  have m := marked_kept (u := u) (r := { us.units.get u with faultActive := true }) secs h
    ⟨rfl, rfl, rfl, rfl, rfl, rfl⟩ rfl
  unfold UnitSupervisor.faultActive
  dsimp only
  generalize us.setUnit u { us.units.get u with faultActive := true } = b at m
  split
  · exact m
  · next k role =>
    split
    · refine m.trans ?_
      have law := (coverLaw_iff b).1 m.law
      have free : b.attended u = false := not_attended m.law (by rw [k]; decide)
      have t : Turned (b.units.get u) { b.units.get u with condition := .faultPending, window := some us.window } :=
        ⟨rfl, rfl, rfl, rfl, rfl, rfl⟩
      refine .same ((coverLaw_iff _).2 (law.record t (fun v sp c _ => ⟨by simp, fun e => ?_, fun _ => by simp⟩)
        (fun ⟨d, hd, e⟩ => ?_) (fun y => absurd (freeSpare_iff.1 y).2.1 (by simp)) (List.Subset.refl _) rfl rfl))
        (.ofRecord t rfl) (fun v f => ?_) (attended_record t rfl rfl)
      · have := (m.law.2.1 v sp c).2.1
        rw [e, k] at this
        exact absurd this (by decide)
      · have := (m.law.2.2.2.1 d hd).2.1
        rw [e, k] at this
        exact absurd this (by decide)
      · rw [condition_record (a := b) rfl] at f
        unfold UnitSupervisor.turning at f
        split at f
        · exact absurd f (by simp)
        · exact f
    · exact m.trans (fail_kept secs m.law (by rw [k]; decide) role)
  · exact m
  · exact m

/-- R136: a spare offered keeps the law, where it is the one free spare left to offer. -/
theorem offer_kept {us : UnitSupervisor} {sp : UnitId} (secs : Table Section 24)
    (h : us.CoverBut none [sp]) : PoolKept secs us (us.offer sp) := by
  have a := offer_attends us sp
  exact .same ((coverLaw_iff _).2 (offer_law h)) (.ofSame a.same)
    (fun v f => by rw [(a.same v).condition] at f; exact f)
    (fun v => by rw [Bool.eq_iff_iff, a.attended])

/-- R131: the fault input of a unit becomes INACTIVE. -/
theorem faultInactive_kept {us : UnitSupervisor} (secs : Table Section 24) (u : UnitId) (h : us.coverLaw) :
    PoolKept secs us (us.faultInactive u) := by
  have m := marked_kept (u := u) (r := { us.units.get u with faultActive := false }) secs h
    ⟨rfl, rfl, rfl, rfl, rfl, rfl⟩ rfl
  unfold UnitSupervisor.faultInactive
  dsimp only
  generalize us.setUnit u { us.units.get u with faultActive := false } = b at m
  split
  · exact m
  · next k role =>
    refine m.trans ?_
    have law := (coverLaw_iff b).1 m.law
    have t : Turned (b.units.get u) { b.units.get u with condition := .healthy, window := none } :=
      ⟨rfl, rfl, rfl, rfl, rfl, rfl⟩
    generalize hw : ({ b.setUnit u { b.units.get u with condition := .healthy, window := none } with
      watch := joinWatch u b.watch } : UnitSupervisor) = w
    have eu : w.units = (b.setUnit u { b.units.get u with condition := .healthy, window := none }).units := by
      rw [← hw]
    have ed : w.demands = b.demands := by rw [← hw]; rfl
    have but : w.CoverBut none [u] := law.record t (fun v sp c _ => ⟨by simp, fun e => by
        have := (m.law.2.1 v sp c).2.1
        rw [e, k] at this
        exact absurd this (by decide), fun _ => by simp⟩)
      (fun ⟨d, hd, e⟩ => by
        have := (m.law.2.2.2.1 d hd).2.1
        rw [e, k] at this
        exact absurd this (by decide)) (fun _ => .inl (by simp)) (by simp) eu ed
    have o := offer_kept secs but
    refine ⟨o.law, (SameRoles.ofRecord t eu).trans o.roles, fun work n => o.needs work ?_⟩
    intro v i r s f
    have roles := SameRoles.ofRecord (a := b) (b := w) t eu
    rw [(roles v).1] at r
    rw [(roles v).2.2.1] at s
    rw [attended_record t eu ed]
    refine n v i r s ?_
    rw [condition_record eu] at f
    unfold UnitSupervisor.turning at f
    split at f
    · exact absurd f (by simp)
    · exact f
  · exact m
  · exact m

/-- R137: a FAILED unit returned. -/
theorem giveBack_kept {us : UnitSupervisor} {u : UnitId} (secs : Table Section 24) (h : us.coverLaw)
    (k : (us.units.get u).condition = .failed) : PoolKept secs us (us.giveBack u) := by
  have law := (coverLaw_iff us).1 h
  have t : Turned (us.units.get u) { us.units.get u with condition := .healthy, window := none } :=
    ⟨rfl, rfl, rfl, rfl, rfl, rfl⟩
  unfold UnitSupervisor.giveBack
  dsimp only
  generalize hw : us.setUnit u { us.units.get u with condition := .healthy, window := none } = w
  have eu : w.units = (us.setUnit u { us.units.get u with condition := .healthy, window := none }).units := by
    rw [← hw]
  have ed : w.demands = us.demands := by rw [← hw]; rfl
  have roles : SameRoles us w := .ofRecord t eu
  have cond := condition_record (a := us) (b := w) eu
  have att := attended_record t eu ed
  have own : w.units.get u = { us.units.get u with condition := .healthy, window := none } := by
    rw [eu, get_setUnit, if_pos rfl]
  -- what is left to show of a record in which `u` is HEALTHY and the others are as attended as before
  have done : ∀ b : UnitSupervisor, b.coverLaw → SameRoles us b →
      (∀ v, (b.units.get v).condition = us.turning u .healthy v) →
      (∀ v, v ≠ u → b.attended v = us.attended v) → PoolKept secs us b := by
    intro b bl br bc ba
    refine ⟨bl, br, fun work n v i r s f => ?_⟩
    rw [(br v).1] at r
    rw [(br v).2.2.1] at s
    rw [bc] at f
    unfold UnitSupervisor.turning at f
    by_cases e : v = u
    · rw [if_pos e] at f; exact absurd f (by decide)
    · rw [if_neg e] at f
      rw [ba v e]
      exact n v i r s f
  split
  · next sp rd cv =>
    have pair := h.2.1 u sp cv
    have ne : sp ≠ u := fun e => by rw [e, rd] at pair; exact absurd pair.2.2.1 (by decide)
    have but : w.CoverBut (some u) [] := law.record t (fun v x c n => ⟨by simp, fun e => absurd (by rw [e]) n,
      fun _ => by simp⟩) (fun ⟨d, hd, e⟩ => by
        have := (h.2.2.2.1 d hd).2.2.1
        rw [e, cv] at this
        exact absurd this (by simp))
      (fun y => by have := freeSpare_iff.1 y; rw [rd] at this; exact absurd this.1 (by decide))
      (List.Subset.refl _) eu ed
    have cvw : (w.units.get u).coveredBy = some sp := by rw [own]; exact cv
    have c := uncover_covers w sp u
    have o := offer_attends (w.uncover sp u) sp
    refine done _ ((coverLaw_iff _).2 (offer_law (but.uncover cvw (.inr rfl))))
      (roles.trans ((SameRoles.ofSame c.same).trans (.ofSame o.same)))
      (fun v => by rw [(o.same v).condition, (c.same v).condition, cond]) fun v ne => ?_
    rw [Bool.eq_iff_iff, o.attended, ← att v]
    rw [attended_iff, attended_iff, c.coveredBy, if_neg ne]
    rfl
  · next rd cv =>
    have wd : UnitSupervisor.CoverBut { us with demands := withoutDemand u us.demands } none [] :=
      law.demands _ (withoutDemand_sublist _ _)
    have t' : Turned (({ us with demands := withoutDemand u us.demands } : UnitSupervisor).units.get u)
        { us.units.get u with condition := .healthy, window := none } := t
    have law1 : UnitSupervisor.coverLaw { w with demands := withoutDemand u w.demands } := by
      refine (coverLaw_iff _).2 (wd.record t' (fun v x c _ => ⟨by simp, fun e => ?_, fun _ => by simp⟩)
        (fun ⟨d, hd, e⟩ => absurd e (mem_withoutDemand.1 hd).2)
        (fun y => by have := freeSpare_iff.1 y; rw [rd] at this; exact absurd this.1 (by decide))
        (List.Subset.refl _) (by rw [eu]; rfl) (by rw [ed]))
      have c' : (us.units.get v).coveredBy = some x := c
      rw [e, cv] at c'
      exact absurd c' (by simp)
    refine done _ law1 roles cond fun v ne => ?_
    rw [← att v, Bool.eq_iff_iff, attended_iff, attended_iff]
    refine or_congr Iff.rfl ⟨fun ⟨x, hx, y⟩ => ⟨x, (mem_withoutDemand.1 hx).1, y⟩,
      fun ⟨x, hx, y⟩ => ⟨x, mem_withoutDemand.2 ⟨hx, by rw [y]; exact ne⟩, y⟩⟩
  · next rs =>
    have cov : (us.units.get u).covering = none := by
      cases c : (us.units.get u).covering with
      | none => rfl
      | some d =>
        have := (h.2.1 d u ((h.1 d u).2 c)).2.2.2
        exact absurd k this
    have but : w.CoverBut none [u] := law.record t (fun v x c _ => ⟨by simp, fun e => by
        have := (h.2.1 v x c).1
        rw [e, rs] at this
        exact absurd this (by decide), fun _ => by simp⟩)
      (fun ⟨d, hd, e⟩ => by
        have := (h.2.2.2.1 d hd).1
        rw [e, rs] at this
        exact absurd this (by decide)) (fun _ => .inl (by simp)) (by simp) eu ed
    have o := offer_attends w u
    refine done _ ((coverLaw_iff _).2 (offer_law but)) (roles.trans (.ofSame o.same))
      (fun v => by rw [(o.same v).condition, cond]) fun v _ => ?_
    rw [Bool.eq_iff_iff, o.attended, att]
  · exact ⟨h, .refl _, fun _ n => n⟩

/-! ### Exclusion and inclusion (R138) -/

theorem giveUp_law {us : UnitSupervisor} {u : UnitId} {todo : List UnitId} (h : us.CoverBut none todo)
    (k : ∀ sp, (us.units.get u).coveredBy = some sp → sp ∈ todo) :
    (us.giveUp u).CoverBut none todo := by
  unfold UnitSupervisor.giveUp
  split
  · next sp e =>
    refine (h.uncover e (.inl rfl)).mono fun v m => ?_
    rcases List.mem_cons.1 m with x | x
    · subst x; exact k v e
    · exact x
  · exact h.demands _ (withoutDemand_sublist _ _)

theorem giveUp_attends {us : UnitSupervisor} {todo : List UnitId} (u : UnitId) (h : us.CoverBut none todo) :
    Attends us (us.giveUp u) fun v => v ≠ u ∧ us.attended v = true := by
  unfold UnitSupervisor.giveUp
  split
  · next sp e =>
    have c := uncover_covers us sp u
    refine ⟨c.same, fun v => ?_⟩
    rw [attended_iff, attended_iff, c.coveredBy]
    show _ ∨ (∃ d ∈ us.demands, d.unit = v) ↔ _
    by_cases x : v = u
    · subst x
      simp only [if_true, ne_eq, not_true_eq_false, false_or, false_and, iff_false, not_exists, not_and]
      intro d hd y
      have := (h.queue d hd).2.2.1
      rw [y, e] at this
      exact absurd this (by simp)
    · simp [x]
  · next e =>
    refine ⟨fun _ => .refl _, fun v => ?_⟩
    rw [attended_iff, attended_iff]
    show _ ∨ (∃ d ∈ withoutDemand u us.demands, d.unit = v) ↔ _
    by_cases x : v = u
    · subst x
      simp only [e, ne_eq, not_true_eq_false, false_or, false_and, iff_false, not_exists, not_and]
      intro d hd
      exact (mem_withoutDemand.1 hd).2
    · constructor
      · rintro (y | ⟨d, hd, y⟩)
        · exact ⟨x, .inl y⟩
        · exact ⟨x, .inr ⟨d, (mem_withoutDemand.1 hd).1, y⟩⟩
      · rintro ⟨_, y | ⟨d, hd, y⟩⟩
        · exact .inl y
        · exact .inr ⟨d, mem_withoutDemand.2 ⟨hd, by rw [y]; exact x⟩, y⟩

theorem giveUp_covering (us : UnitSupervisor) (u v : UnitId) :
    ((us.giveUp u).units.get v).coveredBy = none ∨
      ((us.giveUp u).units.get v).coveredBy = (us.units.get v).coveredBy := by
  unfold UnitSupervisor.giveUp
  split
  · next sp e =>
    rw [(uncover_covers us sp u).coveredBy]
    split
    · exact .inl rfl
    · exact .inr rfl
  · exact .inr rfl

theorem giveUpFold_law (failed : List UnitId) (todo : List UnitId) : ∀ us : UnitSupervisor,
    us.CoverBut none todo → (∀ u ∈ failed, ∀ sp, (us.units.get u).coveredBy = some sp → sp ∈ todo) →
    (failed.foldl UnitSupervisor.giveUp us).CoverBut none todo ∧
      Attends us (failed.foldl UnitSupervisor.giveUp us) fun v => v ∉ failed ∧ us.attended v = true := by
  induction failed with
  | nil => exact fun us h _ => ⟨h, fun _ => .refl _, fun v => by simp⟩
  | cons u failed ih =>
    intro us h k
    have a := giveUp_attends u h
    obtain ⟨law, b⟩ := ih (us.giveUp u) (giveUp_law h (k u List.mem_cons_self)) (fun w hw sp e => by
      rcases giveUp_covering us u w with x | x
      · rw [x] at e; exact absurd e (by simp)
      · rw [x] at e; exact k w (List.mem_cons_of_mem _ hw) sp e)
    refine ⟨law, fun v => (a.same v).trans (b.same v), fun v => ?_⟩
    rw [List.foldl_cons, b.attended, a.attended, List.mem_cons]
    tauto

theorem offerFold_law (spares : List UnitId) : ∀ us : UnitSupervisor, us.CoverBut none spares →
    (spares.foldl UnitSupervisor.offer us).CoverBut none [] ∧
      Attends us (spares.foldl UnitSupervisor.offer us) fun v => us.attended v = true := by
  induction spares with
  | nil => exact fun us h => ⟨h, fun _ => .refl _, fun _ => Iff.rfl⟩
  | cons sp spares ih =>
    intro us h
    have a := offer_attends us sp
    obtain ⟨law, b⟩ := ih (us.offer sp) (offer_law h)
    exact ⟨law, fun v => (a.same v).trans (b.same v), fun v => by rw [List.foldl_cons, b.attended, a.attended]⟩

/-- R138: an exclusion leaves the FAILED duty units of the section unattended, and the others as they
were. -/
theorem exclude_law {us : UnitSupervisor} (duty : List UnitId) (h : us.coverLaw) :
    (us.exclude duty).coverLaw ∧
      Attends us (us.exclude duty) fun v => v ∉ us.failedOf duty ∧ us.attended v = true := by
  unfold UnitSupervisor.exclude
  dsimp only
  generalize hs : (allIds 48).filter (fun sp => match (us.units.get sp).covering with
    | some u => (us.failedOf duty).contains u
    | none => false) = spares
  have law := ((coverLaw_iff us).1 h).mono (List.nil_subset spares)
  have g := giveUpFold_law (us.failedOf duty) spares us law (fun u hu sp e => by
    rw [← hs, List.mem_filter]
    refine ⟨List.mem_finRange _, ?_⟩
    rw [(h.1 u sp).1 e]
    simpa using hu)
  obtain ⟨o, b⟩ := offerFold_law spares _ g.1
  exact ⟨(coverLaw_iff _).2 o, fun v => (g.2.same v).trans (b.same v),
    fun v => by rw [b.attended, g.2.attended]⟩

theorem attend_law {us : UnitSupervisor} {u : UnitId} (h : us.coverLaw)
    (role : (us.units.get u).role = .duty) (failed : (us.units.get u).condition = .failed) :
    (us.attend u).coverLaw ∧ Attends us (us.attend u) fun v => v = u ∨ us.attended v = true := by
  unfold UnitSupervisor.attend
  split
  · next k =>
    refine ⟨h, fun _ => .refl _, fun v => ⟨.inr, fun e => ?_⟩⟩
    rcases e with e | e
    · rw [e]; exact k
    · exact e
  · next k => exact ⟨requestCoverage_law h role failed (by simpa using k), requestCoverage_attends us u⟩

theorem attendFold_law (l : List UnitId) : ∀ us : UnitSupervisor, us.coverLaw →
    (∀ u ∈ l, (us.units.get u).role = .duty ∧ (us.units.get u).condition = .failed) →
    (l.foldl UnitSupervisor.attend us).coverLaw ∧
      Attends us (l.foldl UnitSupervisor.attend us) fun v => v ∈ l ∨ us.attended v = true := by
  induction l with
  | nil => exact fun us h _ => ⟨h, fun _ => .refl _, fun v => by simp⟩
  | cons u l ih =>
    intro us h k
    have f := k u List.mem_cons_self
    obtain ⟨law, a⟩ := attend_law h f.1 f.2
    obtain ⟨law2, b⟩ := ih (us.attend u) law (fun v hv => by
      have := k v (List.mem_cons_of_mem _ hv)
      rw [(a.same v).role, (a.same v).condition]
      exact this)
    refine ⟨law2, fun v => (a.same v).trans (b.same v), fun v => ?_⟩
    rw [List.foldl_cons, b.attended, a.attended, List.mem_cons]
    tauto

theorem mem_failedOf {us : UnitSupervisor} {duty : List UnitId} {u : UnitId} :
    u ∈ us.failedOf duty ↔ u ∈ duty ∧ (us.units.get u).condition = .failed := by
  unfold UnitSupervisor.failedOf
  rw [List.mem_filter]
  simp

/-- R138: an inclusion attends to the FAILED duty units of the section. -/
theorem includeUnits_law {us : UnitSupervisor} (duty : List UnitId) (h : us.coverLaw)
    (role : ∀ u ∈ duty, (us.units.get u).role = .duty) : (us.includeUnits duty).coverLaw ∧
      Attends us (us.includeUnits duty) fun v => v ∈ us.failedOf duty ∨ us.attended v = true :=
  attendFold_law _ us h fun u hu => ⟨role u (mem_failedOf.1 hu).1, (mem_failedOf.1 hu).2⟩

/-! ### Run outputs (R129) -/

/-- Whether a section in a table calls for running units. -/
def callsFor (secs : Table Section 24) : Option SectionId → Bool
  | some i => (secs.get i).state.runsUnits
  | none => false

theorem runs_eq (secs : Table Section 24) (us : UnitSupervisor) (u : UnitId) :
    us.runs secs u = ((us.units.get u).condition != .failed && callsFor secs (us.serves u)) := by
  unfold UnitSupervisor.runs UnitSupervisor.serves callsFor
  dsimp only
  cases (us.units.get u).role with
  | none => rfl
  | duty => rfl
  | spare => cases (us.units.get u).covering <;> rfl

theorem serves_congr {a b : UnitSupervisor} {u : UnitId} (role : (b.units.get u).role = (a.units.get u).role)
    (covering : (b.units.get u).covering = (a.units.get u).covering)
    (sec : ∀ v, (b.units.get v).sec = (a.units.get v).sec) : b.serves u = a.serves u := by
  unfold UnitSupervisor.serves
  rw [role, covering]
  cases (a.units.get u).role with
  | none => rfl
  | duty => exact sec u
  | spare =>
    cases (a.units.get u).covering with
    | none => rfl
    | some d => exact sec d

/-- What R129 calls for does not depend on the run outputs themselves. -/
theorem runs_setOutput (secs : Table Section 24) (us : UnitSupervisor) (u w : UnitId) (b : Bool) :
    (us.setUnit u { us.units.get u with runOutput := b }).runs secs w = us.runs secs w := by
  have g := fun x => get_setUnit us u x { us.units.get u with runOutput := b }
  rw [runs_eq, runs_eq]
  have e : (us.setUnit u { us.units.get u with runOutput := b }).serves w = us.serves w := by
    refine serves_congr ?_ ?_ fun x => ?_ <;> rw [g] <;> split <;> first | rfl | (next y => rw [y])
  rw [e, g]
  split
  · next y => rw [y]
  · rfl

/-- Run outputs driven: the driven units' outputs are those R129 calls for, and nothing else changes. -/
theorem get_drive (secs : Table Section 24) (which : List UnitId) : ∀ (us : UnitSupervisor) (v : UnitId),
    (us.drive secs which).units.get v =
      if v ∈ which then { us.units.get v with runOutput := us.runs secs v } else us.units.get v := by
  unfold UnitSupervisor.drive
  induction which with
  | nil => intro us v; simp
  | cons u l ih =>
    intro us v
    rw [List.foldl_cons, ih, runs_setOutput, get_setUnit]
    by_cases e : v = u
    · subst e
      simp
    · simp [e]

theorem drive_same (secs : Table Section 24) (us : UnitSupervisor) (which : List UnitId) (v : UnitId) :
    ((us.drive secs which).units.get v).role = (us.units.get v).role ∧
      ((us.drive secs which).units.get v).cls = (us.units.get v).cls ∧
      ((us.drive secs which).units.get v).sec = (us.units.get v).sec ∧
      ((us.drive secs which).units.get v).condition = (us.units.get v).condition ∧
      ((us.drive secs which).units.get v).covering = (us.units.get v).covering ∧
      ((us.drive secs which).units.get v).coveredBy = (us.units.get v).coveredBy := by
  rw [get_drive]
  split <;> exact ⟨rfl, rfl, rfl, rfl, rfl, rfl⟩

theorem demands_drive (secs : Table Section 24) (us : UnitSupervisor) (which : List UnitId) :
    (us.drive secs which).demands = us.demands := by
  unfold UnitSupervisor.drive
  induction which generalizing us with
  | nil => rfl
  | cons u l ih => rw [List.foldl_cons, ih]; rfl

theorem coverLaw_congr {a b : UnitSupervisor} (h : a.coverLaw) (d : b.demands = a.demands)
    (e : ∀ v, (b.units.get v).role = (a.units.get v).role ∧ (b.units.get v).cls = (a.units.get v).cls ∧
      (b.units.get v).condition = (a.units.get v).condition ∧
      (b.units.get v).covering = (a.units.get v).covering ∧
      (b.units.get v).coveredBy = (a.units.get v).coveredBy) : b.coverLaw := by
  unfold UnitSupervisor.coverLaw at *
  simp only [freeSpare_iff] at *
  simp only [d, fun v => (e v).1, fun v => (e v).2.1, fun v => (e v).2.2.1, fun v => (e v).2.2.2.1,
    fun v => (e v).2.2.2.2]
  exact h

/-! ### Changes of a state that leave the pool alone -/

/-- A unit record with the fields that the laws of the pool speak of as they were. -/
structure SameCover (a b : UnitRecord) : Prop where
  role : b.role = a.role
  cls : b.cls = a.cls
  sec : b.sec = a.sec
  condition : b.condition = a.condition
  covering : b.covering = a.covering
  coveredBy : b.coveredBy = a.coveredBy
  runOutput : b.runOutput = a.runOutput

theorem SameCover.refl (a : UnitRecord) : SameCover a a := by constructor <;> rfl

theorem SameCover.trans {a b c : UnitRecord} (h : SameCover a b) (k : SameCover b c) : SameCover a c :=
  ⟨k.role.trans h.role, k.cls.trans h.cls, k.sec.trans h.sec, k.condition.trans h.condition,
    k.covering.trans h.covering, k.coveredBy.trans h.coveredBy, k.runOutput.trans h.runOutput⟩

/-- The units and the queue stand, deliveries join, and a section that enters a state, or goes in or out
of service, has handed on what the supervisor needs to know of it. -/
structure PoolQuiet (s t : State) : Prop where
  units : ∀ u, SameCover (s.supervisor.units.get u) (t.supervisor.units.get u)
  demands : t.supervisor.demands = s.supervisor.demands
  work : s.work ⊆ t.work
  duty : ∀ i, (t.sec i).dutyUnits = (s.sec i).dutyUnits
  service : ∀ i, (t.sec i).state.partakes = (s.sec i).state.partakes ∨
    ((t.sec i).state.partakes = false ∧ .unitsExcluded i ∈ t.work) ∨
    ((t.sec i).state.partakes = true ∧ .unitsIncluded i ∈ t.work)
  state : ∀ i, (t.sec i).state = (s.sec i).state ∨ .runDemand i ∈ t.work ∨ (t.sec i).dutyUnits = []
  held : ∀ i, (t.sec i).heldFrom = (s.sec i).heldFrom ∨ (t.sec i).heldInService

namespace PoolQuiet

theorem refl (s : State) : PoolQuiet s s :=
  ⟨fun _ => .refl _, rfl, List.Subset.refl _, fun _ => rfl, fun _ => .inl rfl, fun _ => .inl rfl,
    fun _ => .inl rfl⟩

theorem trans {s t u : State} (h : PoolQuiet s t) (k : PoolQuiet t u) : PoolQuiet s u := by
  refine ⟨fun v => (h.units v).trans (k.units v), k.demands.trans h.demands,
    List.Subset.trans h.work k.work, fun i => (k.duty i).trans (h.duty i), fun i => ?_, fun i => ?_,
    fun i => ?_⟩
  · rcases k.service i with e | e | e
    · rw [e]
      exact (h.service i).imp_right (Or.imp (fun x => ⟨x.1, k.work x.2⟩) (fun x => ⟨x.1, k.work x.2⟩))
    · exact .inr (.inl e)
    · exact .inr (.inr e)
  · rcases k.state i with e | e | e
    · rcases h.state i with f | f | f
      · exact .inl (e.trans f)
      · exact .inr (.inl (k.work f))
      · exact .inr (.inr (by rw [k.duty]; exact f))
    · exact .inr (.inl e)
    · exact .inr (.inr e)
  · rcases k.held i with e | e
    · rcases h.held i with f | f
      · exact .inl (e.trans f)
      · refine .inr fun back x => f back (by rw [← e]; exact x)
    · exact .inr e

/-- Sections whose states and duty units stand, the supervisor's record as it was, and deliveries that
join. -/
theorem same {s t : State} (e : t.supervisor = s.supervisor) (w : s.work ⊆ t.work)
    (h : ∀ i, (t.sec i).state = (s.sec i).state ∧ (t.sec i).dutyUnits = (s.sec i).dutyUnits ∧
      (t.sec i).heldFrom = (s.sec i).heldFrom) : PoolQuiet s t :=
  ⟨fun u => by rw [e]; exact .refl _, by rw [e], w, fun i => (h i).2.1, fun i => .inl (by rw [(h i).1]),
    fun i => .inl (h i).1, fun i => .inl (h i).2.2⟩

theorem attended {s t : State} (h : PoolQuiet s t) (u : UnitId) :
    t.supervisor.attended u = s.supervisor.attended u :=
  attended_congr u (h.units u).coveredBy h.demands

theorem serves {s t : State} (h : PoolQuiet s t) (u : UnitId) :
    t.supervisor.serves u = s.supervisor.serves u :=
  serves_congr (h.units u).role (h.units u).covering fun v => (h.units v).sec

end PoolQuiet

/-- The section a unit runs for has a DUTY unit. -/
theorem serves_duty {s : State} (duty : s.dutyLaw) (law : s.supervisor.coverLaw) {u : UnitId} {i : SectionId}
    (h : s.supervisor.serves u = some i) : ∃ d ∈ (s.sec i).dutyUnits,
      u = d ∨ (s.supervisor.units.get d).coveredBy = some u := by
  unfold UnitSupervisor.serves at h
  cases r : (s.supervisor.units.get u).role with
  | none => rw [r] at h; exact absurd h (by simp)
  | duty =>
    rw [r] at h
    exact ⟨u, (duty.1 i u).2 ⟨r, h⟩, .inl rfl⟩
  | spare =>
    rw [r] at h
    cases c : (s.supervisor.units.get u).covering with
    | none => rw [c] at h; exact absurd h (by simp)
    | some d =>
      rw [c] at h
      have k := (law.1 d u).2 c
      exact ⟨d, (duty.1 i d).2 ⟨(law.2.1 d u k).1, h⟩, .inr k⟩

/-- The laws of the pool are kept by every change that leaves the pool alone. -/
theorem PoolQuiet.poolLaw {s t : State} (h : PoolQuiet s t) (k : s.poolLaw) : t.poolLaw := by
  obtain ⟨service, duty, law, need, run⟩ := k
  refine ⟨fun i => ?_, ⟨fun i u => ?_, fun u r => ?_⟩, ?_, fun u i r e f => ?_, fun u => ?_⟩
  · rcases h.held i with e | e
    · intro back x
      exact service i back (by rw [← e]; exact x)
    · exact e
  · rw [h.duty, (h.units u).role, (h.units u).sec]; exact duty.1 i u
  · rw [(h.units u).role] at r
    rw [(h.units u).sec]
    exact duty.2 u r
  · exact coverLaw_congr law h.demands fun v => ⟨(h.units v).role, (h.units v).cls, (h.units v).condition,
      (h.units v).covering, (h.units v).coveredBy⟩
  · rw [(h.units u).role] at r
    rw [(h.units u).sec] at e
    rw [(h.units u).condition] at f
    have n := need u i r e f
    rw [h.attended]
    rcases h.service i with p | p | p
    · rw [p]
      exact ⟨fun x => (n.1 x).imp_right (@h.work _), fun x => (n.2 x).imp_right (@h.work _)⟩
    · exact ⟨fun x => absurd x (by rw [p.1]; decide), fun _ => .inr p.2⟩
    · exact ⟨fun _ => .inr p.2, fun x => absurd x (by rw [p.1]; decide)⟩
  · rw [(h.units u).runOutput, h.serves]
    rcases run u with e | ⟨i, e, w⟩
    · rw [runs_eq] at e ⊢
      rw [(h.units u).condition, h.serves]
      cases sv : s.supervisor.serves u with
      | none => rw [sv] at e; exact .inl e
      | some i =>
        rw [sv] at e
        rcases h.state i with x | x | x
        · refine .inl (e.trans ?_)
          show (_ && (s.sec i).state.runsUnits) = (_ && (t.sec i).state.runsUnits)
          rw [x]
        · exact .inr ⟨i, rfl, x⟩
        · obtain ⟨d, hd, _⟩ := serves_duty duty law sv
          rw [h.duty] at x
          rw [x] at hd
          exact absurd hd (by simp)
    · exact .inr ⟨i, e, h.work w⟩

theorem report_quiet (s : State) (k : ReportKey) : PoolQuiet s (s.report k) :=
  .same rfl (List.Subset.refl _) fun _ => ⟨rfl, rfl, rfl⟩

theorem handAll_quiet (s : State) (ds : List Delivery) : PoolQuiet s (s.handAll ds) :=
  .same rfl (List.subset_append_left _ _) fun _ => ⟨rfl, rfl, rfl⟩

theorem reportAll_quiet (ks : List ReportKey) (s : State) : PoolQuiet s (s.reportAll ks) := by
  have fold : ∀ (l : List ReportKey) (t : State), PoolQuiet t (l.foldl State.report t) := by
    intro l
    induction l with
    | nil => exact fun t => .refl t
    | cons k l ih => exact fun t => (report_quiet t k).trans (ih _)
  unfold State.reportAll
  dsimp only
  refine .trans ?_ (fold _ _)
  rw [shuffle_eq]
  exact .same rfl (List.Subset.refl _) fun _ => ⟨rfl, rfl, rfl⟩

/-! ### Changes of the pool -/

/-- The supervisor's new record, where the laws hold of it. -/
theorem putUnits_pool {s : State} {us : UnitSupervisor} (h : ({ s with supervisor := us } : State).poolLaw) :
    (s.putUnits us).poolLaw := by
  unfold State.putUnits
  dsimp only
  refine PoolQuiet.poolLaw ?_ h
  refine .trans ?_ (reportAll_quiet _ _)
  exact ⟨fun _ => .refl _, rfl, List.subset_append_left _ _, fun _ => rfl, fun _ => .inl rfl,
    fun _ => .inl rfl, fun _ => .inl rfl⟩

/-- A change of the supervisor's record that keeps its laws, with the run outputs it re-evaluates. -/
theorem supervise_pool {s : State} {f : UnitSupervisor → UnitSupervisor}
    (service : s.serviceLaw) (duty : s.dutyLaw) (run : s.runLaw)
    (law : (f s.supervisor).coverLaw) (roles : SameRoles s.supervisor (f s.supervisor))
    (needs : (f s.supervisor).needs s.sections s.work) : (s.supervise f).poolLaw := by
  unfold State.supervise
  dsimp only
  generalize f s.supervisor = new at law roles needs
  generalize hm : s.supervisor.moved new = moved
  have d := drive_same s.sections new moved
  refine putUnits_pool ⟨service, ⟨fun i u => ?_, fun u r => ?_⟩, ?_, fun u i r e c => ?_, fun u => ?_⟩
  · show _ ↔ ((new.drive s.sections moved).units.get u).role = .duty ∧
      ((new.drive s.sections moved).units.get u).sec = some i
    rw [(d u).1, (d u).2.2.1, (roles u).1, (roles u).2.2.1]
    exact duty.1 i u
  · have r' : ((new.drive s.sections moved).units.get u).role = .duty := r
    show ∃ i, ((new.drive s.sections moved).units.get u).sec = some i
    rw [(d u).1, (roles u).1] at r'
    rw [(d u).2.2.1, (roles u).2.2.1]
    exact duty.2 u r'
  · exact coverLaw_congr law (demands_drive _ _ _) fun v =>
      ⟨(d v).1, (d v).2.1, (d v).2.2.2.1, (d v).2.2.2.2.1, (d v).2.2.2.2.2⟩
  · have r' : ((new.drive s.sections moved).units.get u).role = .duty := r
    have e' : ((new.drive s.sections moved).units.get u).sec = some i := e
    have c' : ((new.drive s.sections moved).units.get u).condition = .failed := c
    rw [(d u).1] at r'
    rw [(d u).2.2.1] at e'
    rw [(d u).2.2.2.1] at c'
    show (_ → (new.drive s.sections moved).attended u = true ∨ _) ∧
      (_ → (new.drive s.sections moved).attended u = false ∨ _)
    rw [attended_congr u (d u).2.2.2.2.2 (demands_drive _ _ _)]
    exact needs u i r' e' c'
  · show ((new.drive s.sections moved).units.get u).runOutput =
        (new.drive s.sections moved).runs s.sections u ∨
      ∃ i, (new.drive s.sections moved).serves u = some i ∧ .runDemand i ∈ s.work
    have sv : (new.drive s.sections moved).serves u = new.serves u :=
      serves_congr (d u).1 (d u).2.2.2.2.1 fun v => (d v).2.2.1
    have rn : (new.drive s.sections moved).runs s.sections u = new.runs s.sections u := by
      rw [runs_eq, runs_eq, sv, (d u).2.2.2.1]
    rw [rn, sv, get_drive]
    by_cases m : u ∈ moved
    · rw [if_pos m]; exact .inl rfl
    · rw [if_neg m, (roles u).2.2.2]
      have still : (s.supervisor.units.get u).condition = (new.units.get u).condition ∧
          (s.supervisor.units.get u).covering = (new.units.get u).covering := by
        rw [← hm] at m
        unfold UnitSupervisor.moved at m
        rw [List.mem_filter] at m
        simp only [List.mem_finRange, true_and, Bool.or_eq_true, bne_iff_ne, ne_eq, not_or, not_not] at m
        exact ⟨m.1.1, m.1.2⟩
      have sv2 : new.serves u = s.supervisor.serves u :=
        serves_congr (roles u).1 still.2.symm fun v => (roles v).2.2.1
      rw [runs_eq, sv2, ← still.1]
      have := run u
      rw [runs_eq] at this
      exact this

theorem kept_pool {s : State} {f : UnitSupervisor → UnitSupervisor} (h : s.poolLaw)
    (k : PoolKept s.sections s.supervisor (f s.supervisor)) : (s.supervise f).poolLaw :=
  supervise_pool h.1 h.2.1 h.2.2.2.2 k.law k.roles (k.needs _ h.2.2.2.1)

/-! ### Sections that enter states -/

theorem dutyUnits_entering (r : Section) (now : Nat) (dest : SectionState) (c : CaptureCause) :
    (r.entering now dest c).dutyUnits = r.dutyUnits := rfl

theorem demand_announced {s : State} {i : SectionId} (old : SectionState) (h : (s.sec i).dutyUnits ≠ []) :
    .runDemand i ∈ s.announcements i old := by
  unfold State.announcements
  dsimp only
  have e : (s.sec i).dutyUnits.isEmpty = false := by simpa using h
  rw [e]
  simp

theorem runDemand_enter (s : State) (i : SectionId) (dest : SectionState) (c : CaptureCause) :
    .runDemand i ∈ (s.enter i dest c).work ∨ (s.sec i).dutyUnits = [] := by
  by_cases e : (s.sec i).dutyUnits = []
  · exact .inr e
  · obtain ⟨t, w, r, _⟩ := announce_enter s i dest c
    rw [w]
    exact .inl (List.mem_append_right _ (demand_announced _ (by rw [r]; exact e)))

/-- One section changes with its duty units and service as they were, having handed its run demand. -/
theorem PoolQuiet.one {s t : State} {i : SectionId} (e : t.supervisor = s.supervisor) (w : s.work ⊆ t.work)
    (others : ∀ j, j ≠ i → t.sec j = s.sec j) (duty : (t.sec i).dutyUnits = (s.sec i).dutyUnits)
    (service : (t.sec i).state.partakes = (s.sec i).state.partakes ∨
      ((t.sec i).state.partakes = false ∧ .unitsExcluded i ∈ t.work) ∨
      ((t.sec i).state.partakes = true ∧ .unitsIncluded i ∈ t.work))
    (state : (t.sec i).state = (s.sec i).state ∨ .runDemand i ∈ t.work ∨ (s.sec i).dutyUnits = [])
    (held : (t.sec i).heldFrom = (s.sec i).heldFrom ∨ (t.sec i).heldInService) :
    PoolQuiet s t := by
  refine ⟨fun u => by rw [e]; exact .refl _, by rw [e], w, fun j => ?_, fun j => ?_, fun j => ?_, fun j => ?_⟩
  · by_cases x : j = i
    · rw [x]; exact duty
    · rw [others j x]
  · by_cases x : j = i
    · rw [x]; exact service
    · rw [others j x]; exact .inl rfl
  · by_cases x : j = i
    · rw [x, duty]; exact state
    · rw [others j x]; exact .inl rfl
  · by_cases x : j = i
    · rw [x]; exact held
    · rw [others j x]; exact .inl rfl

theorem heldInService_entering {r : Section} {dest : SectionState} (h : dest.partakes = r.state.partakes)
    (now : Nat) (c : CaptureCause) : (r.entering now dest c).heldInService := by
  intro back e
  unfold Section.entering at e
  dsimp only at e
  split at e
  · next d =>
    rw [Option.some.injEq] at e
    rw [← e, ← h, d]
    rfl
  · exact absurd e (by simp)

theorem enter_quiet {s : State} {i : SectionId} {dest : SectionState} (c : CaptureCause)
    (h : dest.partakes = (s.sec i).state.partakes) : PoolQuiet s (s.enter i dest c) := by
  refine .one (i := i) rfl (work_enter _ _ _ _) (fun j e => by rw [sec_enter, if_neg e]) ?_ (.inl ?_)
    (.inr (runDemand_enter s i dest c)) (.inr ?_)
  all_goals rw [sec_enter, if_pos rfl]
  · rfl
  · exact h
  · exact heldInService_entering h _ _

theorem working_partakes {st : SectionState} (h : st.working = true) : st.partakes = true := by
  cases st <;> first | rfl | exact absurd h (by decide)

theorem setSec_quiet {s : State} {i : SectionId} {r : Section} (a : r.state = (s.sec i).state)
    (b : r.dutyUnits = (s.sec i).dutyUnits) (c : r.heldFrom = (s.sec i).heldFrom ∨ r.heldInService) :
    PoolQuiet s (s.setSec i r) := by
  refine .one (i := i) rfl (List.Subset.refl _) (fun j e => by rw [State.sec_setSec, if_neg e]) ?_ (.inl ?_)
    (.inl ?_) ?_
  all_goals rw [State.sec_setSec, if_pos rfl]
  · exact b
  · rw [a]
  · exact a
  · exact c

theorem insertHolds_quiet (s : State) (i : SectionId) (rs : List HoldReason) :
    PoolQuiet s (s.insertHolds i rs) := setSec_quiet rfl rfl (.inl rfl)

theorem holdWith_quiet {s : State} {i : SectionId} (rs : List HoldReason)
    (h : (s.sec i).state.working = true) : PoolQuiet s (s.holdWith i rs) := by
  refine (insertHolds_quiet s i rs).trans (enter_quiet _ ?_)
  rw [sec_insertHolds, if_pos rfl, working_partakes h]
  rfl

theorem split_quiet (s : State) (i : SectionId) (dest : SectionState) (c : CaptureCause) :
    PoolQuiet (s.enter i dest c) (s.enterState i dest c) := by
  unfold State.enterState
  dsimp only
  split
  · next k =>
    simp only [Bool.and_eq_true] at k
    refine holdWith_quiet _ ?_
    rw [sec_enter, if_pos rfl]
    exact k.1
  · exact .refl _

theorem enterState_quiet {s : State} {i : SectionId} {dest : SectionState} (c : CaptureCause)
    (h : dest.partakes = (s.sec i).state.partakes) : PoolQuiet s (s.enterState i dest c) :=
  (enter_quiet c h).trans (split_quiet _ _ _ _)

theorem addReason_quiet (s : State) (i : SectionId) (r : HoldReason) : PoolQuiet s (s.addReason i r) := by
  unfold State.addReason
  dsimp only
  split
  · exact .refl _
  · next x =>
    simp only [Bool.or_eq_true, Bool.not_eq_true', not_or, Bool.not_eq_false, Bool.not_eq_true] at x
    split
    · exact (insertHolds_quiet _ _ _).trans (report_quiet _ _)
    · next e => exact holdWith_quiet _ ((takes_working x.1).1.resolve_right e)

theorem removeReason_quiet {s : State} {i : SectionId} (r : HoldReason) (c : CaptureCause)
    (held : (s.sec i).holds ≠ [] → (s.sec i).state = .held) (k : (s.sec i).heldInService) :
    PoolQuiet s (s.removeReason i r c) := by
  unfold State.removeReason
  dsimp only
  split
  · exact .refl _
  · next x =>
    simp only [Bool.not_eq_true', List.contains_eq_mem, decide_eq_false_iff_not, not_not] at x
    split
    · split
      · next back e =>
        refine .trans (setSec_quiet (r := { s.sec i with holds := [] }) rfl rfl (.inl rfl))
          (enterState_quiet c ?_)
        rw [State.sec_setSec, if_pos rfl]
        show _ = (s.sec i).state.partakes
        rw [held (List.ne_nil_of_mem x), k back e]
        rfl
      · exact .refl _
    · exact (setSec_quiet (r := { s.sec i with holds := removeFrom r (s.sec i).holds }) rfl rfl
        (.inl rfl)).trans (report_quiet _ _)

end Sys2Proof.Machine
end

