-- ==== Sys2Proof/Laws/Lawful.lean ====
section
/-! SUPPORT. The laws of the pool and of the allocator along a cascade and along the changes that orders
and events make (R76, R129, R133). -/

namespace Sys2Proof.Machine

/-! ### Changes of a cascade that leave the pool alone -/

theorem PoolQuiet.serviceLaw {s t : State} (h : PoolQuiet s t) (k : s.serviceLaw) : t.serviceLaw := by
  intro i
  rcases h.held i with e | e
  · intro back x
    exact k i back (by rw [← e]; exact x)
  · exact e

theorem takeNotice_quiet {s : State} (n : SteamNotice) (hold : s.holdLaw) (service : s.serviceLaw) :
    PoolQuiet s (s.takeNotice n) := by
  have removes : ∀ i c, PoolQuiet s (s.removeReason i .steam c) := fun i c =>
    removeReason_quiet _ _ (hold i).1.2 (service i)
  unfold State.takeNotice
  split
  · split
    · next h => exact enterState_quiet _ (by rw [h]; rfl)
    · split
      · exact removes _ _
      · exact handAll_quiet s [_]
  · exact addReason_quiet _ _ _
  · exact removes _ _

theorem notices_quiet (ns : List SteamNotice) : ∀ s : State, s.holdLaw → s.serviceLaw →
    PoolQuiet s (ns.foldl State.takeNotice s) := by
  induction ns with
  | nil => exact fun s _ _ => .refl s
  | cons n ns ih =>
    intro s hold service
    have q := takeNotice_quiet n hold service
    exact q.trans (ih _ ((takeNotice_moves s n).keep (fun _ _ => move_holdLaw) hold) (q.serviceLaw service))

theorem putSteam_quiet (s : State) (st : Steam) : PoolQuiet s (s.putSteam st) := by
  unfold State.putSteam
  split
  · exact .refl _
  · exact .same rfl (List.Subset.refl _) fun _ => ⟨rfl, rfl, rfl⟩

theorem steamChange_quiet {s : State} (f : Steam → Steam × List SteamNotice) (hold : s.holdLaw)
    (service : s.serviceLaw) : PoolQuiet s (s.steamChange f) := by
  have q := putSteam_quiet s (f s.steam).1
  exact q.trans (notices_quiet _ _ (holdLaw_putSteam _ hold) (q.serviceLaw service))

theorem fillDoneRequest_quiet {s : State} (i : SectionId) (hold : s.holdLaw) (service : s.serviceLaw) :
    PoolQuiet s (s.fillDoneRequest i) := by
  unfold State.fillDoneRequest
  split
  · exact steamChange_quiet _ hold service
  · exact .refl _

theorem nextStep_partakes {cls : SectionClass} {st dest : SectionState} (h : nextStep cls st = some dest) :
    dest.partakes = st.partakes := by
  revert h
  cases cls <;> cases st <;> simp [nextStep] <;> rintro rfl <;> rfl

theorem reexamine_quiet {s : State} (i : SectionId) (why : Why) (hold : s.holdLaw) (service : s.serviceLaw) :
    PoolQuiet s (s.reexamine i why) := by
  unfold State.reexamine
  dsimp only
  split
  · next dest h =>
    split
    · exact enterState_quiet _ (nextStep_partakes h)
    · exact fillDoneRequest_quiet i hold service
  · exact .refl _

theorem takeSupply_quiet (s : State) (free reserve : Nat) : PoolQuiet s (s.takeSupply free reserve) := by
  unfold State.takeSupply State.recomputeOverlap
  dsimp only
  split
  · exact .same rfl (List.Subset.refl _) fun _ => ⟨rfl, rfl, rfl⟩
  · exact .same rfl (List.subset_append_left _ _) fun _ => ⟨rfl, rfl, rfl⟩

theorem closingTest_quiet (s : State) : PoolQuiet s s.closingTest := by
  unfold State.closingTest
  split
  · refine .same rfl (List.subset_append_left _ _) fun i => ?_
    have e : s.closeNow.sec i = (s.sec i).dropLift := Table.get_map _ _ _
    obtain ⟨b, x⟩ := (s.sec i).dropLift_eq
    rw [e, x]
    exact ⟨rfl, rfl, rfl⟩
  · exact .refl _

/-! ### One delivery -/

/-- The hold sets and the pool in their laws. -/
structure State.poolLaws (s : State) : Prop where
  hold : s.holdLaw
  pool : s.poolLaw

theorem PoolQuiet.poolLaws {s t : State} (q : PoolQuiet s t) (m : Moves s t) (k : s.poolLaws) : t.poolLaws :=
  ⟨m.keep (fun _ _ => move_holdLaw) k.hold, q.poolLaw k.pool⟩

/-- What needs no delivery taken stands once `d` is taken off. -/
theorem poolLaw_erase {s : State} {d : Delivery} (h : s.poolLaw)
    (x : ∀ i, d = .unitsExcluded i → (s.sec i).state.partakes = true)
    (n : ∀ i, d = .unitsIncluded i → (s.sec i).state.partakes = false) (r : ∀ i, d ≠ .runDemand i)
    (o : List Nat) (k : Nat) : ({ s with work := s.work.erase d, order := o, drawn := k } : State).poolLaw := by
  obtain ⟨service, duty, law, need, run⟩ := h
  have keep : ∀ {y : Delivery}, y ≠ d → y ∈ s.work → y ∈ s.work.erase d :=
    fun ne m => (List.mem_erase_of_ne ne).2 m
  refine ⟨service, duty, law, fun u i a b c => ⟨fun p => ?_, fun p => ?_⟩, fun u => ?_⟩
  · refine ((need u i a b c).1 p).imp_right (keep fun e => ?_)
    have p' : (s.sec i).state.partakes = true := p
    rw [n i e.symm] at p'
    exact absurd p' (by decide)
  · refine ((need u i a b c).2 p).imp_right (keep fun e => ?_)
    have p' : (s.sec i).state.partakes = false := p
    rw [x i e.symm] at p'
    exact absurd p' (by decide)
  · exact (run u).imp_right fun ⟨i, a, b⟩ => ⟨i, a, keep (r i).symm b⟩

/-- R129: section `i`'s state entry taken as run demand, off the deliveries waiting. -/
theorem runDemand_pool {s : State} {i : SectionId} (h : s.poolLaw) (o : List Nat) (k : Nat) :
    (({ s with work := s.work.erase (.runDemand i), order := o, drawn := k } : State).runDemand i).poolLaw := by
  obtain ⟨service, duty, law, need, run⟩ := h
  have keep : ∀ {y : Delivery}, y ≠ .runDemand i → y ∈ s.work → y ∈ s.work.erase (.runDemand i) :=
    fun ne m => (List.mem_erase_of_ne ne).2 m
  show (State.putUnits _ (s.supervisor.drive s.sections ((s.sec i).dutyUnits ++
    (s.sec i).dutyUnits.filterMap fun u => (s.supervisor.units.get u).coveredBy))).poolLaw
  generalize hw : ((s.sec i).dutyUnits ++
    (s.sec i).dutyUnits.filterMap fun u => (s.supervisor.units.get u).coveredBy) = which
  have d := drive_same s.sections s.supervisor which
  refine putUnits_pool ⟨service, ⟨fun j u => ?_, fun u r => ?_⟩, ?_, fun u j r e c => ?_, fun u => ?_⟩
  · show _ ↔ ((s.supervisor.drive s.sections which).units.get u).role = .duty ∧
      ((s.supervisor.drive s.sections which).units.get u).sec = some j
    rw [(d u).1, (d u).2.2.1]
    exact duty.1 j u
  · have r' : ((s.supervisor.drive s.sections which).units.get u).role = .duty := r
    show ∃ j, ((s.supervisor.drive s.sections which).units.get u).sec = some j
    rw [(d u).1] at r'
    rw [(d u).2.2.1]
    exact duty.2 u r'
  · exact coverLaw_congr law (demands_drive _ _ _) fun v =>
      ⟨(d v).1, (d v).2.1, (d v).2.2.2.1, (d v).2.2.2.2.1, (d v).2.2.2.2.2⟩
  · have r' : ((s.supervisor.drive s.sections which).units.get u).role = .duty := r
    have e' : ((s.supervisor.drive s.sections which).units.get u).sec = some j := e
    have c' : ((s.supervisor.drive s.sections which).units.get u).condition = .failed := c
    rw [(d u).1] at r'
    rw [(d u).2.2.1] at e'
    rw [(d u).2.2.2.1] at c'
    show (_ → (s.supervisor.drive s.sections which).attended u = true ∨ _) ∧
      (_ → (s.supervisor.drive s.sections which).attended u = false ∨ _)
    rw [attended_congr u (d u).2.2.2.2.2 (demands_drive _ _ _)]
    have q := need u j r' e' c'
    exact ⟨fun p => (q.1 p).imp_right (keep (by simp)), fun p => (q.2 p).imp_right (keep (by simp))⟩
  · show ((s.supervisor.drive s.sections which).units.get u).runOutput =
        (s.supervisor.drive s.sections which).runs s.sections u ∨
      ∃ j, (s.supervisor.drive s.sections which).serves u = some j ∧
        .runDemand j ∈ s.work.erase (.runDemand i)
    have sv : (s.supervisor.drive s.sections which).serves u = s.supervisor.serves u :=
      serves_congr (d u).1 (d u).2.2.2.2.1 fun v => (d v).2.2.1
    have rn : (s.supervisor.drive s.sections which).runs s.sections u = s.supervisor.runs s.sections u := by
      rw [runs_eq, runs_eq, sv, (d u).2.2.2.1]
    rw [rn, sv, get_drive]
    split
    · exact .inl rfl
    · next m =>
      refine (run u).imp_right fun ⟨j, a, b⟩ => ⟨j, a, keep (fun e => m ?_) b⟩
      simp only [Delivery.runDemand.injEq] at e
      subst e
      obtain ⟨x, hx, y⟩ := serves_duty duty law a
      rw [← hw, List.mem_append, List.mem_filterMap]
      rcases y with y | y
      · subst y; exact .inl hx
      · exact .inr ⟨x, hx, y⟩

/-- R138: an exclusion taken by the supervisor, off the deliveries waiting. -/
theorem unitsExcluded_pool {s : State} {i : SectionId} (h : s.poolLaw) (p : (s.sec i).state.partakes = false)
    (o : List Nat) (k : Nat) :
    (({ s with work := s.work.erase (.unitsExcluded i), order := o, drawn := k } : State).supervise
      fun us => us.exclude (s.sec i).dutyUnits).poolLaw := by
  obtain ⟨service, duty, law, need, run⟩ := h
  have keep : ∀ {y : Delivery}, y ≠ .unitsExcluded i → y ∈ s.work → y ∈ s.work.erase (.unitsExcluded i) :=
    fun ne m => (List.mem_erase_of_ne ne).2 m
  obtain ⟨l, a⟩ := exclude_law (s.sec i).dutyUnits law
  refine supervise_pool service duty (fun u => (run u).imp_right fun ⟨j, x, y⟩ => ⟨j, x, keep (by simp) y⟩)
    l (.ofSame a.same) fun u j r e c => ?_
  have r' := (a.same u).role.symm.trans r
  have e' := (a.same u).sec.symm.trans e
  have c' := (a.same u).condition.symm.trans c
  have n := need u j r' e' c'
  by_cases m : u ∈ s.supervisor.failedOf (s.sec i).dutyUnits
  · have ij : j = i := by
      have := ((duty.1 i u).1 (mem_failedOf.1 m).1).2
      rw [e'] at this
      exact Option.some.inj this
    subst ij
    refine ⟨fun q => ?_, fun _ => .inl ?_⟩
    · have q' : (s.sec j).state.partakes = true := q
      rw [p] at q'
      exact absurd q' (by decide)
    · rw [← Bool.not_eq_true, a.attended]
      exact fun x => x.1 m
  · have att : (s.supervisor.exclude (s.sec i).dutyUnits).attended u = s.supervisor.attended u := by
      rw [Bool.eq_iff_iff, a.attended]
      exact ⟨fun x => x.2, fun x => ⟨m, x⟩⟩
    show (_ → (s.supervisor.exclude (s.sec i).dutyUnits).attended u = true ∨ _) ∧
      (_ → (s.supervisor.exclude (s.sec i).dutyUnits).attended u = false ∨ _)
    rw [att]
    refine ⟨fun q => (n.1 q).imp_right (keep (by simp)), fun q => (n.2 q).imp_right (keep fun x => m ?_)⟩
    simp only [Delivery.unitsExcluded.injEq] at x
    subst x
    exact mem_failedOf.2 ⟨(duty.1 j u).2 ⟨r', e'⟩, c'⟩

/-- R138: an inclusion taken by the supervisor, off the deliveries waiting. -/
theorem unitsIncluded_pool {s : State} {i : SectionId} (h : s.poolLaw) (p : (s.sec i).state.partakes = true)
    (o : List Nat) (k : Nat) :
    (({ s with work := s.work.erase (.unitsIncluded i), order := o, drawn := k } : State).supervise
      fun us => us.includeUnits (s.sec i).dutyUnits).poolLaw := by
  obtain ⟨service, duty, law, need, run⟩ := h
  have keep : ∀ {y : Delivery}, y ≠ .unitsIncluded i → y ∈ s.work → y ∈ s.work.erase (.unitsIncluded i) :=
    fun ne m => (List.mem_erase_of_ne ne).2 m
  obtain ⟨l, a⟩ := includeUnits_law (s.sec i).dutyUnits law fun u hu => ((duty.1 i u).1 hu).1
  refine supervise_pool service duty (fun u => (run u).imp_right fun ⟨j, x, y⟩ => ⟨j, x, keep (by simp) y⟩)
    l (.ofSame a.same) fun u j r e c => ?_
  have r' := (a.same u).role.symm.trans r
  have e' := (a.same u).sec.symm.trans e
  have c' := (a.same u).condition.symm.trans c
  have n := need u j r' e' c'
  by_cases m : u ∈ s.supervisor.failedOf (s.sec i).dutyUnits
  · have ij : j = i := by
      have := ((duty.1 i u).1 (mem_failedOf.1 m).1).2
      rw [e'] at this
      exact Option.some.inj this
    subst ij
    refine ⟨fun _ => .inl ((a.attended u).2 (.inl m)), fun q => ?_⟩
    have q' : (s.sec j).state.partakes = false := q
    rw [p] at q'
    exact absurd q' (by decide)
  · have att : (s.supervisor.includeUnits (s.sec i).dutyUnits).attended u = s.supervisor.attended u := by
      rw [Bool.eq_iff_iff, a.attended]
      exact ⟨fun x => x.resolve_left m, .inr⟩
    show (_ → (s.supervisor.includeUnits (s.sec i).dutyUnits).attended u = true ∨ _) ∧
      (_ → (s.supervisor.includeUnits (s.sec i).dutyUnits).attended u = false ∨ _)
    rw [att]
    refine ⟨fun q => (n.1 q).imp_right (keep fun x => m ?_), fun q => (n.2 q).imp_right (keep (by simp))⟩
    simp only [Delivery.unitsIncluded.injEq] at x
    subst x
    exact mem_failedOf.2 ⟨(duty.1 j u).2 ⟨r', e'⟩, c'⟩

/-- One delivery, as it is taken from those waiting, keeps the laws of the pool. -/
theorem takeOne_pool (s : State) (d : Delivery) (o : List Nat) (n : Nat) (k : s.poolLaws) :
    (({ s with work := s.work.erase d, order := o, drawn := n } : State).runDelivery d).poolLaw := by
  obtain ⟨hold, pool⟩ := k
  have hold' : ({ s with work := s.work.erase d, order := o, drawn := n } : State).holdLaw := hold
  have rest : (∀ i, d ≠ .unitsExcluded i ∧ d ≠ .unitsIncluded i ∧ d ≠ .runDemand i) →
      ({ s with work := s.work.erase d, order := o, drawn := n } : State).poolLaw := fun ne =>
    poolLaw_erase pool (fun i e => absurd e (ne i).1) (fun i e => absurd e (ne i).2.1) (fun i => (ne i).2.2) o n
  have quiet : (∀ i, d ≠ .unitsExcluded i ∧ d ≠ .unitsIncluded i ∧ d ≠ .runDemand i) →
      PoolQuiet { s with work := s.work.erase d, order := o, drawn := n }
        (({ s with work := s.work.erase d, order := o, drawn := n } : State).runDelivery d) →
      (({ s with work := s.work.erase d, order := o, drawn := n } : State).runDelivery d).poolLaw :=
    fun ne q => q.poolLaw (rest ne)
  have service' : ({ s with work := s.work.erase d, order := o, drawn := n } : State).serviceLaw := pool.1
  cases d with
  | reexamine i why => exact quiet (fun _ => ⟨by simp, by simp, by simp⟩) (reexamine_quiet i why hold' service')
  | addReason i r =>
    refine quiet (fun _ => ⟨by simp, by simp, by simp⟩) ?_
    unfold State.runDelivery
    dsimp only
    split
    · exact .refl _
    · exact addReason_quiet _ _ _
  | removeReason i r =>
    refine quiet (fun _ => ⟨by simp, by simp, by simp⟩) ?_
    unfold State.runDelivery
    dsimp only
    split
    · exact .refl _
    · exact removeReason_quiet _ _ (hold i).1.2 (pool.1 i)
  | releaseClaim i => exact quiet (fun _ => ⟨by simp, by simp, by simp⟩) (steamChange_quiet _ hold' service')
  | withdrawClaim i => exact quiet (fun _ => ⟨by simp, by simp, by simp⟩) (steamChange_quiet _ hold' service')
  | cap g c => exact quiet (fun _ => ⟨by simp, by simp, by simp⟩) (steamChange_quiet _ hold' service')
  | runDemand i => exact runDemand_pool pool o n
  | unitsExcluded i =>
    unfold State.runDelivery
    dsimp only
    split
    · next p =>
      exact poolLaw_erase pool (fun j e => by rw [← (Delivery.unitsExcluded.inj e)]; exact p)
        (fun _ e => absurd e (by simp)) (by simp) o n
    · next p => exact unitsExcluded_pool pool (Bool.eq_false_iff.2 p) o n
  | unitsIncluded i =>
    unfold State.runDelivery
    dsimp only
    split
    · next p => exact unitsIncluded_pool pool p o n
    · next p =>
      exact poolLaw_erase pool (fun _ e => absurd e (by simp))
        (fun j e => by rw [← (Delivery.unitsIncluded.inj e)]; exact Bool.eq_false_iff.2 p) (by simp) o n
  | spareSupply free reserve => exact quiet (fun _ => ⟨by simp, by simp, by simp⟩) (takeSupply_quiet _ _ _)
  | closingTest => exact quiet (fun _ => ⟨by simp, by simp, by simp⟩) (closingTest_quiet _)

theorem settle_poolLaws {s : State} (h : s.poolLaws) : s.settle.poolLaws := by
  refine settle_take (P := State.poolLaws) (fun s d o n _ k => ?_) s h
  have m : Moves s { s with work := s.work.erase d, order := o, drawn := n } :=
    (Moves.one (.work s (s.work.erase d))).trans (.one (.order { s with work := s.work.erase d } o n))
  exact ⟨(m.trans (runDelivery_moves _ d)).keep (fun _ _ => move_holdLaw) k.hold, takeOne_pool s d o n k⟩

/-! ### What orders and events keep -/

/-- What the laws of the allocator and of the pool survive. -/
structure Lawful (s t : State) : Prop where
  steam : s.steamLaws → t.steamLaws
  pool : s.poolLaws → t.poolLaws

namespace Lawful

theorem refl (s : State) : Lawful s s := ⟨id, id⟩

theorem trans {s t u : State} (h : Lawful s t) (k : Lawful t u) : Lawful s u :=
  ⟨fun x => k.steam (h.steam x), fun x => k.pool (h.pool x)⟩

theorem fold {β : Type} {f : State → β → State} (h : ∀ s b, Lawful s (f s b)) (l : List β) (s : State) :
    Lawful s (l.foldl f s) := by
  induction l generalizing s with
  | nil => exact refl _
  | cons b l ih => exact (h s b).trans (ih _)

/-- A cascade's moves, with what becomes of the claims and of the pool. -/
theorem moves {s t : State} (m : Moves s t) (c : s.holdLaw → Carries s t)
    (q : s.holdLaw → s.serviceLaw → PoolQuiet s t) : Lawful s t :=
  ⟨fun k => m.steamLaws k ((c k.hold).law k.claim), fun k => (q k.hold k.pool.1).poolLaws m k⟩

/-- A change that leaves the allocator, the supervisor, and the states and hold sets of the sections. -/
theorem same {s t : State} (e1 : t.steam = s.steam) (e2 : t.supervisor = s.supervisor) (w : s.work ⊆ t.work)
    (h : ∀ i, (t.sec i).state = (s.sec i).state ∧ (t.sec i).holds = (s.sec i).holds ∧
      (t.sec i).heldFrom = (s.sec i).heldFrom ∧ (t.sec i).dutyUnits = (s.sec i).dutyUnits) : Lawful s t := by
  have hold : s.holdLaw → t.holdLaw := fun k i => by
    unfold Section.holdLaw
    rw [(h i).1, (h i).2.1, (h i).2.2.1]
    exact k i
  have c : Carries s t := .same e1 w fun i => ⟨(h i).1, (h i).2.1, (h i).2.2.1⟩
  have q : PoolQuiet s t := .same e2 w fun i => ⟨(h i).1, (h i).2.2.2, (h i).2.2.1⟩
  exact ⟨fun k => ⟨hold k.hold, by unfold State.steamLaw; rw [e1]; exact k.steam, c.law k.claim⟩,
    fun k => ⟨hold k.hold, q.poolLaw k.pool⟩⟩

/-- A change that leaves the section table as well. -/
theorem rest {s t : State} (e1 : t.steam = s.steam) (e2 : t.supervisor = s.supervisor) (w : s.work ⊆ t.work)
    (e3 : t.sections = s.sections) : Lawful s t := by
  refine same e1 e2 w fun i => ?_
  unfold State.sec
  rw [e3]
  exact ⟨rfl, rfl, rfl, rfl⟩

theorem settle (s : State) : Lawful s s.settle := ⟨settle_steamLaws, settle_poolLaws⟩

theorem report (s : State) (k : ReportKey) : Lawful s (s.report k) := rest rfl rfl (List.Subset.refl _) rfl

theorem handAll (s : State) (ds : List Delivery) : Lawful s (s.handAll ds) :=
  rest rfl rfl (List.subset_append_left _ _) rfl

theorem reportAll (ks : List ReportKey) (s : State) : Lawful s (s.reportAll ks) :=
  moves (reportAll_moves ks s) (fun _ => reportAll_claims ks s) fun _ _ => reportAll_quiet ks s

theorem shuffle {α : Type} (l : List α) (s : State) : Lawful s (State.shuffle l s).2 := by
  rw [shuffle_eq l s]
  exact rest rfl rfl (List.Subset.refl _) rfl

end Lawful

theorem enterState_lawful {s : State} {i : SectionId} {dest : SectionState} (c : CaptureCause)
    (m : Enters s i dest)
    (a : (s.sec i).state.steamState = true → dest.steamState = true ∨ dest = .draining ∨ dest = .laidUp)
    (b : (s.sec i).state = .filling → dest = .filling ∨ dest = .draining ∨ dest = .laidUp)
    (p : dest.partakes = (s.sec i).state.partakes) : Lawful s (s.enterState i dest c) :=
  .moves (enterState_moves c m) (fun hold => enterState_claims c hold m a b) fun _ _ => enterState_quiet c p

theorem addReason_lawful (s : State) (i : SectionId) {r : HoldReason} (n : r ≠ .steam) :
    Lawful s (s.addReason i r) :=
  .moves (addReason_moves s i r) (fun hold => addReason_claims i hold n) fun _ _ => addReason_quiet s i r

theorem removeReason_lawful (s : State) (i : SectionId) {r : HoldReason} (c : CaptureCause)
    (n : r ≠ .steam) (k : r ≠ .restart) : Lawful s (s.removeReason i r c) :=
  .moves (removeReason_moves s i c k) (fun hold => removeReason_claims i c hold n) fun hold service =>
    removeReason_quiet r c (hold i).1.2 (service i)

theorem reexamine_lawful (s : State) (i : SectionId) (why : Why) : Lawful s (s.reexamine i why) :=
  ⟨fun k => (reexamine_moves s i why).steamLaws k (reexamine_claims i why k.hold k.claim),
    fun k => (reexamine_quiet i why k.hold k.pool.1).poolLaws (reexamine_moves s i why) k⟩

theorem closingTest_lawful (s : State) : Lawful s s.closingTest :=
  .moves (closingTest_moves s) (fun _ => closingTest_claims s) fun _ _ => closingTest_quiet s

/-- A permitted step (R57). -/
theorem permit_lawful {s : State} {i : SectionId} {dest : SectionState} (c : CaptureCause)
    (h : nextStep (s.sec i).cls (s.sec i).state = some dest) (k : s.failing i = []) :
    Lawful s (s.enterState i dest c) := by
  refine enterState_lawful c (enters_of_permit h k) ?_ (fun f => absurd k (failing_filling f))
    (nextStep_partakes h)
  revert h
  cases (s.sec i).cls <;> cases (s.sec i).state <;> simp [nextStep, SectionState.steamState] <;>
    rintro rfl <;> simp

/-! ### The allocator's changes -/

theorem steamChange_holdLaw {s : State} (f : Steam → Steam × List SteamNotice) (h : s.holdLaw) :
    (s.steamChange f).holdLaw :=
  (Moves.fold takeNotice_moves (f s.steam).2 _).keep (fun _ _ => move_holdLaw) (holdLaw_putSteam _ h)

theorem steam_steamChange (s : State) (f : Steam → Steam × List SteamNotice) :
    (s.steamChange f).steam = (f s.steam).1 := by
  unfold State.steamChange
  rw [(notices_onlySections _ _).steam, steam_putSteam]

theorem setHost_lawful (s : State) (budget : Nat) : Lawful s (s.steamChange (Steam.setHost s.now budget)) := by
  refine ⟨fun k => ⟨steamChange_holdLaw _ k.hold, ?_, ?_⟩, fun k => ⟨steamChange_holdLaw _ k.hold, ?_⟩⟩
  · unfold State.steamLaw
    rw [steam_steamChange]
    exact setHost_law _ _ k.steam
  · exact steamChange_claims k.hold k.claim (setHost_tells _ _ k.steam)
  · exact (steamChange_quiet _ k.hold k.pool.1).poolLaw k.pool

/-! ### EXCLUDE and INCLUDE (R11, R12) -/

theorem enterState_enter {s : State} {i : SectionId} {dest : SectionState} {c : CaptureCause}
    (h : dest.working = false) : s.enterState i dest c = s.enter i dest c := by
  unfold State.enterState
  simp [h]

/-- A section goes in or out of service, and the supervisor is told. -/
theorem service_lawful {s : State} {i : SectionId} {dest : SectionState} (c : CaptureCause) (d : Delivery)
    (ds : List Delivery) (h : (s.sec i).state.steamState = false) (f : (s.sec i).state ≠ .filling)
    (off : dest.working = false) (m : Enters s i dest)
    (t : (dest.partakes = false ∧ d = .unitsExcluded i) ∨ (dest.partakes = true ∧ d = .unitsIncluded i)) :
    Lawful s ((s.enterState i dest c).handAll (d :: ds)) := by
  refine .moves ((enterState_moves c m).trans (handAll_moves _ _)) (fun hold => ?_) fun _ _ => ?_
  · refine (enterState_claims c hold m (fun x => ?_) fun x => ?_).trans (handAll_claims _ _)
    · rw [h] at x; exact absurd x (by decide)
    · exact absurd x f
  · rw [enterState_enter off]
    have w : (s.enter i dest c).work ⊆ ((s.enter i dest c).handAll (d :: ds)).work :=
      List.subset_append_left _ _
    have r : ∀ j, ((s.enter i dest c).handAll (d :: ds)).sec j = (s.enter i dest c).sec j := fun _ => rfl
    have md : d ∈ ((s.enter i dest c).handAll (d :: ds)).work :=
      List.mem_append_right _ List.mem_cons_self
    refine .one (i := i) rfl (List.Subset.trans (work_enter _ _ _ _) w)
      (fun j e => by rw [r, sec_enter, if_neg e]) ?_ (.inr ?_) (.inr ?_) (.inr ?_)
    · rw [r, sec_enter, if_pos rfl]; rfl
    · rw [r, sec_enter, if_pos rfl]
      refine t.imp (fun x => ⟨x.1, ?_⟩) fun x => ⟨x.1, ?_⟩
      · rw [← x.2]; exact md
      · rw [← x.2]; exact md
    · exact (runDemand_enter s i dest c).imp_left fun x => w x
    · rw [r, sec_enter, if_pos rfl]
      intro back e
      unfold Section.entering at e
      dsimp only at e
      rw [if_neg m.destNotHeld] at e
      exact absurd e (by simp)

/-! ### ADOPT and the mapping of CLOSE CAMPAIGN -/

theorem adoptable_partakes {cls : SectionClass} {st : SectionState} (h : adoptable cls st = true) :
    st ≠ .held ∧ st ≠ .absent ∧ st.partakes = true := by
  cases cls <;> cases st <;> simp_all [adoptable, SectionState.partakes]

theorem adopt_quiet {s : State} {i : SectionId} {st : SectionState} (held : (s.sec i).state = .held)
    (k : st.partakes = true) : PoolQuiet s (s.adopt i st) := by
  have inService : ∀ r : Section, r.heldFrom = some st → r.heldInService := by
    intro r e back x
    rw [e, Option.some.injEq] at x
    rw [← x]
    exact k
  have named : PoolQuiet s (s.setSec i { s.sec i with heldFrom := some st }) :=
    setSec_quiet rfl rfl (.inr (inService _ rfl))
  unfold State.adopt
  dsimp only
  have pressed : ∀ t, t = (if st.passesLiquor then
      (s.setSec i { s.sec i with heldFrom := some st }).insertHolds i
        ((((s.setSec i { s.sec i with heldFrom := some st }).downstreamOf i).filter
          (s.setSec i { s.sec i with heldFrom := some st }).full).map .full)
      else s.setSec i { s.sec i with heldFrom := some st }) →
      PoolQuiet s t ∧ (t.sec i).state = .held ∧ (t.sec i).heldFrom = some st := by
    intro t e
    subst e
    split
    · refine ⟨named.trans (insertHolds_quiet _ _ _), ?_, ?_⟩ <;>
        rw [sec_insertHolds, if_pos rfl, State.sec_setSec, if_pos rfl]
      exact held
    · refine ⟨named, ?_, ?_⟩ <;> rw [State.sec_setSec, if_pos rfl]
      exact held
  generalize (if st.passesLiquor then _ else _ : State) = p at pressed ⊢
  obtain ⟨c, e1, e2⟩ := pressed p rfl
  have last : ∀ t : State, PoolQuiet s t → (t.sec i).state = .held → (t.sec i).heldFrom = some st →
      PoolQuiet s (t.removeReason i .restart .restore) := fun t x a b =>
    x.trans (removeReason_quiet _ _ (fun _ => a) (inService _ b))
  split
  · have recs : PoolQuiet s (p.adoptSteam i) ∧ ((p.adoptSteam i).sec i).state = .held ∧
        ((p.adoptSteam i).sec i).heldFrom = some st := by
      unfold State.adoptSteam
      dsimp only
      split
      · refine ⟨(c.trans (putSteam_quiet _ _)).trans (insertHolds_quiet _ _ _), ?_, ?_⟩ <;>
          rw [sec_insertHolds, if_pos rfl, sec_putSteam]
        · exact e1
        · exact e2
      · refine ⟨c.trans (putSteam_quiet _ _), ?_, ?_⟩ <;> rw [sec_putSteam]
        · exact e1
        · exact e2
    exact last _ recs.1 recs.2.1 recs.2.2
  · exact last _ c e1 e2

/-- RESTART removed from a section whose held-from is named. -/
theorem removeRestart_holdLaw {t : State} {i : SectionId} {st : SectionState} (c : CaptureCause)
    (others : ∀ j, j ≠ i → (t.sec j).holdLaw) (held : (t.sec i).state = .held)
    (back : (t.sec i).heldFrom = some st) (n : st ≠ .held) (h : HoldReason.restart ∈ (t.sec i).holds) :
    (t.removeReason i .restart c).holdLaw := by
  unfold State.removeReason
  dsimp only
  have m : (t.sec i).holds.contains HoldReason.restart = true := by simpa using h
  rw [m, back]
  simp only [Bool.not_true, Bool.false_eq_true, if_false]
  split
  · refine (enterState_split _ _ _ _).keep (fun _ _ => move_holdLaw) fun j => ?_
    rw [sec_enter]
    split
    · rw [State.sec_setSec, if_pos rfl]
      refine ⟨?_, ?_, ?_, ?_⟩ <;> simp [Section.entering, n]
    · next e => rw [State.sec_setSec, if_neg e]; exact others j e
  · next k =>
    intro j
    show ((t.setSec i _).sec j).holdLaw
    rw [State.sec_setSec]
    split
    · refine ⟨⟨fun _ => ?_, fun _ => held⟩, fun x => absurd held x, fun _ => ?_, ?_⟩
      · simpa using k
      · simp [mem_removeFrom]
      · simp [n]
    · next e => exact others j e

/-- R177. -/
theorem adopt_lawful {s : State} {i : SectionId} {st : SectionState}
    (h : HoldReason.restart ∈ (s.sec i).holds) (k : adoptable (s.sec i).cls st = true) :
    Lawful s (s.adopt i st) := by
  obtain ⟨n, _, p⟩ := adoptable_partakes k
  have hold : s.holdLaw → (s.adopt i st).holdLaw := by
    intro law
    have held : (s.sec i).state = .held := (law i).1.2 (List.ne_nil_of_mem h)
    -- what each stage before the last leaves of the section and of the others
    let stage := fun t : State => (∀ j, j ≠ i → (t.sec j).holdLaw) ∧ (t.sec i).state = .held ∧
      (t.sec i).heldFrom = some st ∧ HoldReason.restart ∈ (t.sec i).holds
    have named : stage (s.setSec i { s.sec i with heldFrom := some st }) := by
      refine ⟨fun j e => by rw [State.sec_setSec, if_neg e]; exact law j, ?_, ?_, ?_⟩ <;>
        rw [State.sec_setSec, if_pos rfl]
      · exact held
      · exact h
    have insert : ∀ t rs, stage t → stage (t.insertHolds i rs) := by
      intro t rs x
      refine ⟨fun j e => by rw [sec_insertHolds, if_neg e]; exact x.1 j e, ?_, ?_, ?_⟩ <;>
        rw [sec_insertHolds, if_pos rfl]
      · exact x.2.1
      · exact x.2.2.1
      · exact mem_insertAll.2 (.inr x.2.2.2)
    have steam : ∀ t a, stage t → stage (t.putSteam a) := by
      intro t a x
      refine ⟨fun j e => by rw [sec_putSteam]; exact x.1 j e, ?_, ?_, ?_⟩ <;> rw [sec_putSteam]
      · exact x.2.1
      · exact x.2.2.1
      · exact x.2.2.2
    have asked : ∀ t, stage t → stage (t.adoptSteam i) := by
      intro t x
      unfold State.adoptSteam
      dsimp only
      split
      · exact insert _ _ (steam _ _ x)
      · exact steam _ _ x
    unfold State.adopt
    dsimp only
    have last : ∀ t, stage t → (t.removeReason i .restart .restore).holdLaw := fun t x =>
      removeRestart_holdLaw _ x.1 x.2.1 x.2.2.1 n x.2.2.2
    refine last _ ?_
    split
    · refine asked _ ?_
      split
      · exact insert _ _ named
      · exact named
    · split
      · exact insert _ _ named
      · exact named
  refine ⟨fun x => ⟨hold x.hold, ?_, adopt_claims x h n⟩, fun x => ⟨hold x.hold,
    (adopt_quiet ((x.hold i).1.2 (List.ne_nil_of_mem h)) p).poolLaw x.pool⟩⟩
  have same : ∀ t : State, t.steamLaw → (t.removeReason i .restart .restore).steamLaw := by
    intro t y
    unfold State.steamLaw
    rw [(removeReason_onlySections _ _ _ _).steam]
    exact y
  unfold State.adopt
  dsimp only
  refine same _ ?_
  have pressed : (if st.passesLiquor then
      (s.setSec i { s.sec i with heldFrom := some st }).insertHolds i
        ((((s.setSec i { s.sec i with heldFrom := some st }).downstreamOf i).filter
          (s.setSec i { s.sec i with heldFrom := some st }).full).map .full)
      else s.setSec i { s.sec i with heldFrom := some st }).steam = s.steam := by
    split <;> rfl
  have y : Steam.law (if st.passesLiquor then
      (s.setSec i { s.sec i with heldFrom := some st }).insertHolds i
        ((((s.setSec i { s.sec i with heldFrom := some st }).downstreamOf i).filter
          (s.setSec i { s.sec i with heldFrom := some st }).full).map .full)
      else s.setSec i { s.sec i with heldFrom := some st }).steam := by rw [pressed]; exact x.steam
  generalize (if st.passesLiquor then _ else _ : State) = q at y ⊢
  split
  · unfold State.adoptSteam
    dsimp only
    have z : Steam.law (Steam.request q.now i (q.sec i).demand true q.steam).1 := request_law _ _ _ _ y
    split
    · unfold State.steamLaw
      rw [(insertHolds_onlySections _ _ _).steam, steam_putSteam]
      exact z
    · unfold State.steamLaw
      rw [steam_putSteam]
      exact z
  · exact y

theorem windDownState_partakes (cls : SectionClass) (p : Phase) (st : SectionState) :
    (windDownState cls p st).partakes = st.partakes := by
  cases cls <;> cases p <;> cases st <;> rfl

theorem mapSection_quiet {s : State} (i : SectionId) (service : s.serviceLaw) :
    PoolQuiet s (s.mapSection i) := by
  have enters : ∀ dest, windDownState (s.sec i).cls (s.sec i).phase (s.sec i).state = dest →
      PoolQuiet s (s.enterState i dest .campaign) := by
    intro dest e
    exact enterState_quiet _ (by rw [← e]; exact windDownState_partakes _ _ _)
  unfold State.mapSection
  dsimp only
  split
  · split
    · exact .refl _
    · refine .trans (setSec_quiet (r := { s.sec i with
        heldFrom := (s.sec i).heldFrom.map (windDownState (s.sec i).cls (s.sec i).phase) }) rfl rfl
        (.inr fun back e => ?_)) (report_quiet _ _)
      obtain ⟨old, x, y⟩ := Option.map_eq_some_iff.1 e
      rw [← y, windDownState_partakes]
      exact service i old x
  all_goals first
    | exact .refl _
    | (split
       · exact .refl _
       · exact enters _ rfl)

theorem mapFold_pool (l : List SectionId) : ∀ s : State, s.holdLaw → s.serviceLaw →
    PoolQuiet s (l.foldl State.mapSection s) ∧ (l.foldl State.mapSection s).holdLaw := by
  induction l with
  | nil => exact fun s hold _ => ⟨.refl s, hold⟩
  | cons i l ih =>
    intro s hold service
    have q := mapSection_quiet i service
    have k := ih (s.mapSection i) (mapSection_holdLaw i hold) (q.serviceLaw service)
    exact ⟨q.trans k.1, k.2⟩

theorem mapSections_pool {s : State} (k : s.poolLaws) : s.mapSections.poolLaws := by
  unfold State.mapSections
  dsimp only
  have m := (Lawful.shuffle (allIds 24) s).pool k
  obtain ⟨q, hold⟩ := mapFold_pool (State.shuffle (allIds 24) s).1 _ m.hold m.pool.1
  have p := q.poolLaw m.pool
  generalize (State.shuffle (allIds 24) s).1.foldl State.mapSection (State.shuffle (allIds 24) s).2 = t at hold p
  exact ⟨steamChange_holdLaw _ hold, (steamChange_quiet _ hold p.1).poolLaw p⟩

theorem steam_mapSection (s : State) (i : SectionId) : (s.mapSection i).steam = s.steam := by
  unfold State.mapSection
  dsimp only
  split
  · split <;> rfl
  all_goals first
    | rfl
    | (split
       · rfl
       · exact (enterState_onlySections _ _ _ _).steam)

theorem mapSections_steamLaws {s : State} (k : s.steamLaws) : s.mapSections.steamLaws := by
  have fold : ∀ (l : List SectionId) (t : State), t.holdLaw →
      (l.foldl State.mapSection t).holdLaw ∧ (l.foldl State.mapSection t).steam = t.steam := by
    intro l
    induction l with
    | nil => exact fun t h => ⟨h, rfl⟩
    | cons i l ih =>
      intro t h
      have x := ih _ (mapSection_holdLaw i h)
      exact ⟨x.1, x.2.trans (steam_mapSection t i)⟩
  have sh := (Lawful.shuffle (allIds 24) s).steam k
  refine ⟨?_, ?_, mapSections_claims k⟩
  · unfold State.mapSections
    exact steamChange_holdLaw _ (fold _ _ sh.hold).1
  · unfold State.steamLaw State.mapSections
    dsimp only
    rw [steam_steamChange, (fold _ _ sh.hold).2]
    exact mapped_law _ _ sh.steam


/-- R114 step 3: each run demand taken as a delivery is. -/
theorem takeRunDemand_lawful (s : State) (i : SectionId) : Lawful s (s.takeRunDemand i) :=
  ⟨fun k => (takeRunDemand_moves s i).steamLaws k
      (takeOne_claims s (.runDemand i) s.order s.drawn k.hold k.steam k.claim),
    fun k => ⟨(takeRunDemand_moves s i).keep (fun _ _ => move_holdLaw) k.hold,
      runDemand_pool k.pool s.order s.drawn⟩⟩

theorem windDownMapping_lawful (s : State) : Lawful s s.windDownMapping :=
  .trans ⟨mapSections_steamLaws, mapSections_pool⟩ (.fold takeRunDemand_lawful _ _)

/-- R20 stage 2: the fields set at zero. -/
theorem zeroed_lawful (s : State) (c : Campaign) :
    Lawful s { s with sections := s.sections.map Section.zeroed, campaign := c } := by
  refine .same rfl rfl (List.Subset.refl _) fun i => ?_
  have e : ({ s with sections := s.sections.map Section.zeroed, campaign := c } : State).sec i =
      (s.sec i).zeroed := Table.get_map _ _ _
  rw [e]
  exact ⟨rfl, rfl, rfl, rfl⟩

/-! ### The supervisor's changes -/

theorem putUnits_holdLaw {s : State} (us : UnitSupervisor) (h : s.holdLaw) : (s.putUnits us).holdLaw := by
  unfold State.putUnits
  exact (reportAll_moves _ _).keep (fun _ _ => move_holdLaw) h

theorem putUnits_steamLaws {s : State} (us : UnitSupervisor) (h : s.steamLaws) : (s.putUnits us).steamLaws := by
  refine ⟨putUnits_holdLaw _ h.hold, ?_, (putUnits_claims _ _).law h.claim⟩
  unfold State.steamLaw
  rw [(putUnits_claims _ _).steam]
  exact h.steam

theorem supervise_lawful {s : State} {f : UnitSupervisor → UnitSupervisor}
    (k : s.supervisor.coverLaw → PoolKept s.sections s.supervisor (f s.supervisor)) :
    Lawful s (s.supervise f) :=
  ⟨putUnits_steamLaws _, fun h => ⟨putUnits_holdLaw _ h.hold, kept_pool h.pool (k h.pool.2.2.1)⟩⟩

theorem setUnits_lawful (s : State) (i : SectionId) (minimum reserve window : Nat) :
    Lawful s (s.setUnits i minimum reserve window) := by
  unfold State.setUnits
  dsimp only
  have set : Lawful s (s.setSec i { s.sec i with minUnits := minimum }) := by
    refine .same rfl rfl (List.Subset.refl _) fun j => ?_
    rw [State.sec_setSec]
    split
    · next e => rw [e]; exact ⟨rfl, rfl, rfl, rfl⟩
    · exact ⟨rfl, rfl, rfl, rfl⟩
  exact set.trans ⟨putUnits_steamLaws _, fun h => ⟨putUnits_holdLaw _ h.hold, putUnits_pool h.pool⟩⟩

theorem tick_lawful (s : State) : Lawful s { s with supervisor := s.supervisor.tick } := by
  have u : ∀ v, SameCover (s.supervisor.units.get v) (s.supervisor.tick.units.get v) := by
    intro v
    unfold UnitSupervisor.tick
    dsimp only
    rw [Table.get_map]
    constructor <;> rfl
  have q : PoolQuiet s { s with supervisor := s.supervisor.tick } :=
    ⟨u, rfl, List.Subset.refl _, fun _ => rfl, fun _ => .inl rfl, fun _ => .inl rfl, fun _ => .inl rfl⟩
  have c : Carries s { s with supervisor := s.supervisor.tick } :=
    .same rfl (List.Subset.refl _) fun _ => ⟨rfl, rfl, rfl⟩
  exact ⟨fun k => ⟨k.hold, k.steam, c.law k.claim⟩, fun k => ⟨k.hold, q.poolLaw k.pool⟩⟩

/-! ### Loss of power -/

theorem sec_lose (s : State) (i : SectionId) : s.lose.sec i = .unfitted := Table.get_replicate _ _

theorem unit_lose (s : State) (u : UnitId) : s.lose.supervisor.units.get u = UnitRecord.none :=
  Table.get_replicate _ _

/-- What is left of the records when the power goes keeps the laws. -/
theorem lose_lawful (s : State) : Lawful s s.lose := by
  have hold : s.lose.holdLaw := fun i => by
    rw [sec_lose]
    refine ⟨?_, ?_, ?_, ?_⟩ <;> simp [Section.unfitted]
  have role : ∀ u, (s.lose.supervisor.units.get u).role = .none := fun u => by rw [unit_lose]; rfl
  have noDuty : ∀ {u} {p : Prop}, (s.lose.supervisor.units.get u).role = .duty → p := fun {u} _ h => by
    rw [role] at h
    exact absurd h (by decide)
  have steam : s.lose.steamLaw := by
    show Steam.law Steam.powerUp
    exact ⟨by decide, by decide, fun c h => absurd h List.not_mem_nil⟩
  refine ⟨fun _ => ⟨hold, steam, fun i => ?_⟩, fun _ => ⟨hold, fun i back e => ?_, ⟨fun i u => ?_, fun u h =>
    noDuty h⟩, ⟨fun u sp => ?_, fun u sp h => ?_, List.nodup_nil, fun d h => ?_, fun d h => ?_⟩,
    fun u i h => noDuty h, fun u => .inl ?_⟩⟩
  · refine Section.claimLaw_steaming ?_ (fun h => absurd h Bool.false_ne_true) fun h => absurd h Bool.false_ne_true
    rw [sec_lose]
    exact List.not_mem_nil
  · rw [sec_lose] at e
    exact absurd e (by simp [Section.unfitted])
  · rw [sec_lose, role]
    simp [Section.unfitted]
  · rw [unit_lose, unit_lose]
    simp [UnitRecord.none]
  · rw [unit_lose] at h
    exact absurd h (by simp [UnitRecord.none])
  · exact absurd h List.not_mem_nil
  · exact absurd h List.not_mem_nil
  · rw [runs_eq]
    have sv : s.lose.supervisor.serves u = none := by
      unfold UnitSupervisor.serves
      rw [role]
    rw [sv, unit_lose]
    rfl

end Sys2Proof.Machine
end

