-- ==== Sys2Proof/Laws/Links.lean ====
section
/-! SUPPORT. The law of the line graph (R6): what keeps it, and where a power-up takes it from. -/

namespace Sys2Proof.Machine

/-- The edges of a downstream function. -/
abbrev Edge (down : SectionId → List SectionId) (a b : SectionId) : Prop := b ∈ down a

theorem peel_keeps {down : SectionId → List SectionId} {S : SectionId → Prop}
    (h : ∀ i, S i → ∃ j, S j ∧ j ∈ down i) (n : Nat) (left : List SectionId) (k : ∀ i, S i → i ∈ left) :
    ∀ i, S i → i ∈ peel down n left := by
  induction n generalizing left with
  | zero => exact k
  | succ n ih =>
    refine ih _ fun i hi => ?_
    obtain ⟨j, hj, e⟩ := h i hi
    rw [List.mem_filter]
    exact ⟨k i hi, List.any_eq_true.2 ⟨j, e, by simpa using k j hj⟩⟩

/-- Where `acyclic` answers yes, no way leads from a section back to it. -/
theorem acyclic_spec {down : SectionId → List SectionId} (h : acyclic down = true) (i : SectionId) :
    ¬ Relation.TransGen (Edge down) i i := by
  intro c
  have e : i ∈ peel down 24 (allIds 24) := by
    refine peel_keeps (S := fun x => Relation.TransGen (Edge down) x x) ?_ _ _
      (fun _ _ => List.mem_finRange _) i c
    intro x hx
    obtain ⟨j, e, r⟩ := (Relation.TransGen.head'_iff).1 hx
    exact ⟨j, (Relation.TransGen.tail'_iff).2 ⟨x, r, e⟩, e⟩
  unfold acyclic at h
  rw [List.isEmpty_iff] at h
  rw [h] at e
  exact absurd e (by simp)

/-- The law depends on the links alone. -/
theorem graphLaw_congr {t u : Table Section 24}
    (h : ∀ i, (u.get i).upstream = (t.get i).upstream ∧ (u.get i).downstream = (t.get i).downstream)
    (k : graphLaw t) : graphLaw u := by
  obtain ⟨k1, k2, k3⟩ := k
  refine ⟨fun i => ?_, fun i j => ?_, fun i => ?_⟩
  · rw [(h i).1, (h i).2]; exact k1 i
  · rw [(h i).2, (h j).1]; exact k2 i j
  · have e : (fun a b => b ∈ (u.get a).downstream) = fun a b => b ∈ (t.get a).downstream := by
      funext a b; rw [(h a).2]
    rw [e]
    exact k3 i

/-! ### SET LINKS -/

theorem get_relinked (t : Table Section 24) (i j : SectionId) (up : List Link) (down : List SectionId) :
    (relinked t i up down).get j =
      if j = i then { t.get j with upstream := up, downstream := down }
      else { t.get j with
        downstream := mirrorDown i j (t.get i).upstream up (t.get j).downstream
        upstream := mirrorUp i j (t.get i).downstream down (t.get j).upstream } := by
  unfold relinked
  rw [Table.get_ofFn]

theorem mirrorDown_spec {i j : SectionId} {old new : List Link} {l : List SectionId}
    (h : i ∈ l ↔ ∃ x ∈ old, x.id = j) (nodup : l.Nodup) :
    (i ∈ mirrorDown i j old new l ↔ ∃ x ∈ new, x.id = j) ∧
      (∀ k, k ≠ i → (k ∈ mirrorDown i j old new l ↔ k ∈ l)) ∧ (mirrorDown i j old new l).Nodup := by
  have ho : old.any (fun l => l.id == j) = true ↔ ∃ x ∈ old, x.id = j := by simp
  have hn : new.any (fun l => l.id == j) = true ↔ ∃ x ∈ new, x.id = j := by simp
  unfold mirrorDown
  dsimp only
  rw [← ho] at h
  rw [← hn]
  generalize old.any (fun l => l.id == j) = o at *
  generalize new.any (fun l => l.id == j) = n at *
  cases o <;> cases n <;> simp at h ⊢
  · exact ⟨h, nodup⟩
  · refine ⟨fun k hk => by simp [hk], ?_⟩
    rw [List.nodup_append]
    refine ⟨nodup, by simp, ?_⟩
    intro a ha b hb e
    rw [List.mem_singleton] at hb
    exact h (by rw [← hb, ← e]; exact ha)
  · exact ⟨fun k hk _ => hk, nodup.filter _⟩
  · exact ⟨h, nodup⟩

theorem mirrorUp_spec {i j : SectionId} {old new : List SectionId} {l : List Link}
    (h : j ∈ old ↔ ∃ x ∈ l, x.id = i) (nodup : (l.map Link.id).Nodup) (lags : ∀ x ∈ l, x.lag ≤ 3600) :
    (j ∈ new ↔ ∃ x ∈ mirrorUp i j old new l, x.id = i) ∧
      (∀ k, k ≠ i → ((∃ x ∈ mirrorUp i j old new l, x.id = k) ↔ ∃ x ∈ l, x.id = k)) ∧
      ((mirrorUp i j old new l).map Link.id).Nodup ∧ ∀ x ∈ mirrorUp i j old new l, x.lag ≤ 3600 := by
  have ho : old.contains j = true ↔ j ∈ old := by simp
  have hn : new.contains j = true ↔ j ∈ new := by simp
  unfold mirrorUp
  rw [← ho] at h
  rw [← hn]
  generalize old.contains j = o at *
  generalize new.contains j = n at *
  cases o <;> cases n <;> simp at h ⊢
  · exact ⟨h, nodup, lags⟩
  · refine ⟨fun k hk => ?_, ?_, fun x hx => ?_⟩
    · simp [Ne.symm hk]
    · rw [List.nodup_append]
      refine ⟨nodup, by simp, ?_⟩
      simp only [List.mem_map, List.mem_singleton]
      rintro a ⟨x, hx, rfl⟩ b rfl e
      exact h x hx e
    · rcases hx with hx | rfl
      · exact lags x hx
      · simp [newLag]
  · refine ⟨fun k hk => ?_, ?_, fun x hx _ => lags x hx⟩
    · constructor
      · rintro ⟨x, ⟨hx, _⟩, e⟩; exact ⟨x, hx, e⟩
      · rintro ⟨x, hx, e⟩; exact ⟨x, ⟨hx, by rw [e]; exact hk⟩, e⟩
    · exact nodup.sublist (List.Sublist.map _ List.filter_sublist)
  · exact ⟨h, nodup, lags⟩

/-- A SET LINKS that passes R7 keeps the law of the line graph. -/
theorem graphLaw_relinked {t : Table Section 24} {i : SectionId} {up : List Link} {down : List SectionId}
    (h : graphLaw t) (range : linksInRange t i up down = true) (cyclic : linksCyclic t i up down = false) :
    graphLaw (relinked t i up down) := by
  obtain ⟨h1, h2, h3⟩ := h
  simp only [linksInRange, Bool.and_eq_true, decide_eq_true_eq, List.all_eq_true] at range
  obtain ⟨⟨⟨⟨⟨r1, r2⟩, r3⟩, r4⟩, r5⟩, r6⟩ := range
  simp only [linksCyclic, Bool.or_eq_false_iff, Bool.not_eq_false'] at cyclic
  obtain ⟨⟨⟨c1, c2⟩, c3⟩, c4⟩ := cyclic
  have nup : ∀ x ∈ up, x.id ≠ i := by simpa using c1
  have ndown : i ∉ down := by simpa using c2
  have md : ∀ j, j ≠ i → _ := fun j hj =>
    mirrorDown_spec (new := up) (j := j) ((h2 j i)) (h1 j).2.2.2.1
  have mu : ∀ j, j ≠ i → _ := fun j hj =>
    mirrorUp_spec (new := down) (j := j) ((h2 i j)) (h1 j).2.2.1 (h1 j).2.2.2.2
  refine ⟨fun j => ?_, fun a b => ?_, fun j => acyclic_spec c4 j⟩
  · have six := r6 j (List.mem_finRange _)
    rw [get_relinked] at six ⊢
    split
    · exact ⟨r1, r2, r3, r4, by simpa using r5⟩
    · next hj =>
      rw [if_neg hj] at six
      simp only [Bool.or_eq_true, beq_iff_eq, Bool.and_eq_true, decide_eq_true_eq] at six
      have six := six.resolve_left hj
      exact ⟨six.1, six.2, (mu j hj).2.2.1, (md j hj).2.2, (mu j hj).2.2.2⟩
  · rw [get_relinked, get_relinked]
    by_cases ha : a = i <;> by_cases hb : b = i
    · subst ha; subst hb
      simp only [if_true]
      exact ⟨fun k => absurd k ndown, fun ⟨x, hx, e⟩ => absurd e (nup x hx)⟩
    · subst ha
      rw [if_pos rfl, if_neg hb]
      exact (mu b hb).1
    · subst hb
      rw [if_neg ha, if_pos rfl]
      exact (md a ha).1
    · rw [if_neg ha, if_neg hb]
      show b ∈ mirrorDown _ _ _ _ _ ↔ ∃ l ∈ mirrorUp _ _ _ _ _, l.id = a
      rw [(md a ha).2.1 b hb, (mu b hb).2.1 a ha]
      exact h2 a b

/-! ### Power-up -/

theorem mem_filterMap_idOf {l : List Nat} {d : SectionId} :
    d ∈ l.filterMap (idOf 24) ↔ d.val ∈ l := by
  simp only [List.mem_filterMap, idOf]
  constructor
  · rintro ⟨a, ha, e⟩
    split at e
    · simp only [Option.some.injEq] at e; subst e; exact ha
    · exact absurd e (by simp)
  · intro h
    exact ⟨d.val, h, by simp⟩

theorem idOf_inj {a b : Nat} {i : SectionId} (h : idOf 24 a = some i) (k : idOf 24 b = some i) : a = b := by
  unfold idOf at h k
  split at h
  · split at k
    · simp only [Option.some.injEq] at h k
      exact congrArg Fin.val (h.trans k.symm)
    · exact absurd k (by simp)
  · exact absurd h (by simp)

/-- The upstream list of a slot, as R171 gives it. -/
def RawSite.up (w : RawSite) (i : SectionId) : List Link :=
  ((w.links.getD i.val ([], [])).1).filterMap fun e => (idOf 24 e.1).map fun u => { id := u, lag := e.2 }

theorem mem_up {w : RawSite} {i u : SectionId} : (∃ l ∈ w.up i, l.id = u) ↔ u.val ∈ w.upIds i.val := by
  unfold RawSite.up RawSite.upIds
  simp only [List.mem_filterMap, Option.map_eq_some_iff, List.mem_map]
  constructor
  · rintro ⟨l, ⟨e, he, v, hv, rfl⟩, rfl⟩
    refine ⟨e, he, ?_⟩
    unfold idOf at hv
    split at hv
    · simp only [Option.some.injEq] at hv; rw [← hv]
    · exact absurd hv (by simp)
  · rintro ⟨e, he, k⟩
    exact ⟨{ id := u, lag := e.2 }, ⟨e, he, u, by rw [k]; simp [idOf], rfl⟩, rfl⟩

theorem up_ids (w : RawSite) (i : SectionId) :
    (w.up i).map Link.id = (w.upIds i.val).filterMap (idOf 24) := by
  unfold RawSite.up RawSite.upIds
  rw [List.map_filterMap, List.filterMap_map]
  congr 1
  funext e
  cases h : idOf 24 e.1 <;> simp [h]

theorem nodup_filterMap_idOf {l : List Nat} (h : l.Nodup) : (l.filterMap (idOf 24)).Nodup :=
  h.filterMap fun _ _ _ ha hb => idOf_inj ha hb

/-- A record that passes the checks of R174 has links that obey the law. -/
theorem graphLaw_record {w : RawSite} (size : w.slots.length = 24) (codes : w.codesOk = true)
    (links : w.linksOk = true) (ac : acyclic w.down = true) {t : Table Section 24}
    (up : ∀ i, (t.get i).upstream = (w.record.slots.get i).upstream)
    (down : ∀ i, (t.get i).downstream = (w.record.slots.get i).downstream) : graphLaw t := by
  have ok : ∀ i : SectionId, (w.listOk i.val (w.upIds i.val) = true ∧ w.listOk i.val (w.downIds i.val) = true) ∧
      (∀ d ∈ w.downIds i.val, i.val ∈ w.upIds d) ∧ ∀ u ∈ w.upIds i.val, i.val ∈ w.downIds u := by
    intro i
    have := List.all_eq_true.1 links i.val (List.mem_range.2 i.isLt)
    simp only [Bool.and_eq_true, List.all_eq_true, List.contains_iff_mem] at this
    exact ⟨this.1.1, this.1.2, this.2⟩
  have list : ∀ (i : Nat) (ids : List Nat), w.listOk i ids = true → ids.length ≤ 3 ∧ ids.Nodup ∧
      ∀ d ∈ ids, w.fitted d = true := by
    intro i ids h
    simp only [RawSite.listOk, Bool.and_eq_true, decide_eq_true_eq, List.all_eq_true] at h
    exact ⟨h.1.1.1, h.1.1.2, h.2⟩
  have lt : ∀ d, w.fitted d = true → d < 24 := by
    intro d h
    by_contra n
    rw [← size, Nat.not_lt] at n
    simp [RawSite.fitted, n] at h
  have bare : ∀ i : SectionId, w.fitted i.val = false → w.upIds i.val = [] ∧ w.downIds i.val = [] := by
    intro i hi
    refine ⟨List.eq_nil_iff_forall_not_mem.2 fun u hu => ?_, List.eq_nil_iff_forall_not_mem.2 fun d hd => ?_⟩
    · have := lt u ((list _ _ (ok i).1.1).2.2 u hu)
      have := (list _ _ (ok ⟨u, this⟩).1.2).2.2 i.val ((ok i).2.2 u hu)
      rw [hi] at this
      exact absurd this (by simp)
    · have := lt d ((list _ _ (ok i).1.2).2.2 d hd)
      have := (list _ _ (ok ⟨d, this⟩).1.1).2.2 i.val ((ok i).2.1 d hd)
      rw [hi] at this
      exact absurd this (by simp)
  have hup : ∀ i, (t.get i).upstream = w.up i := by
    intro i
    rw [up i]
    simp only [RawSite.record, Table.get_ofFn, RawSite.slot]
    split
    · rfl
    · next k =>
      have e := up_ids w i
      rw [(bare i (by simpa using k)).1, List.filterMap_nil, List.map_eq_nil_iff] at e
      rw [e]
      rfl
  have hdown : ∀ i, (t.get i).downstream = (w.downIds i.val).filterMap (idOf 24) := by
    intro i
    rw [down i]
    simp only [RawSite.record, Table.get_ofFn, RawSite.slot]
    split
    · rfl
    · next k =>
      rw [(bare i (by simpa using k)).2]
      rfl
  refine ⟨fun i => ⟨?_, ?_, ?_, ?_, ?_⟩, fun a b => ?_, fun i => ?_⟩
  · rw [hup, ← List.length_map (f := Link.id), up_ids]
    exact (List.length_filterMap_le _ _).trans (list _ _ (ok i).1.1).1
  · rw [hdown]
    exact (List.length_filterMap_le _ _).trans (list _ _ (ok i).1.2).1
  · rw [hup, up_ids]
    exact nodup_filterMap_idOf (list _ _ (ok i).1.1).2.1
  · rw [hdown]
    exact nodup_filterMap_idOf (list _ _ (ok i).1.2).2.1
  · rw [hup]
    intro l hl
    unfold RawSite.up at hl
    simp only [List.mem_filterMap, Option.map_eq_some_iff] at hl
    obtain ⟨e, he, v, _, rfl⟩ := hl
    simp only [RawSite.codesOk, Bool.and_eq_true, List.all_eq_true, decide_eq_true_eq] at codes
    have lags := codes.1.1.1.1.2
    rw [List.getD_eq_getElem?_getD] at he
    cases q : w.links[i.val]? with
    | none => rw [q] at he; simp at he
    | some p =>
      rw [q] at he
      exact lags p (List.mem_of_getElem? q) e he
  · rw [hdown, hup, mem_filterMap_idOf, mem_up]
    exact ⟨(ok a).2.1 b.val, (ok b).2.2 a.val⟩
  · have e : (fun a b => b ∈ (t.get a).downstream) = Edge w.down := by
      funext a b
      rw [hdown]
      rfl
    rw [e]
    exact acyclic_spec ac i

theorem readMany_length {α : Type} (one : Reader α) (n : Nat) (bs : List Byte) (l : List α) (rest : List Byte)
    (h : readMany one n bs = some (l, rest)) : l.length = n := by
  induction n generalizing bs l rest with
  | zero => simp only [readMany, Option.some.injEq, Prod.mk.injEq] at h; rw [← h.1]; rfl
  | succ n ih =>
    unfold readMany at h
    split at h
    · exact absurd h (by simp)
    · split at h
      · exact absurd h (by simp)
      · next e =>
        simp only [Option.some.injEq, Prod.mk.injEq] at h
        rw [← h.1, List.length_cons, ih _ _ _ e]

theorem readSite_slots {parts : Table (List Byte) 8} {w : RawSite} (h : readSite parts = some w) :
    w.slots.length = 24 := by
  unfold readSite at h
  simp only [Option.bind_eq_bind, Option.bind_eq_some_iff] at h
  obtain ⟨⟨r, tr, sl⟩, h0, _, _, _, _, _, _, _, _, _, _, _, _, _, _, e⟩ := h
  simp only [Option.pure_def, Option.some.injEq] at e
  rw [← e]
  unfold readPart readAll at h0
  rw [Option.map_eq_some_iff] at h0
  obtain ⟨⟨k, q⟩, h1, h2⟩ := h0
  dsimp only at h2
  subst h2
  split at h1
  · next a ha =>
    simp only [Option.some.injEq] at h1
    subst h1
    have both : ∀ {α β : Type} {one : Reader α} {two : Reader β} {bs rest : List Byte} {x : α × β},
        readBoth one two bs = some (x, rest) → ∃ mid, one bs = some (x.1, mid) ∧ two mid = some (x.2, rest) := by
      intro α β one two bs rest x hx
      unfold readBoth at hx
      split at hx
      · exact absurd hx (by simp)
      · next a mid q =>
        split at hx
        · exact absurd hx (by simp)
        · next b r q2 =>
          simp only [Option.some.injEq, Prod.mk.injEq] at hx
          obtain ⟨rfl, rfl⟩ := hx
          exact ⟨mid, q, q2⟩
    obtain ⟨_, _, b1⟩ := both ha
    obtain ⟨_, _, b2⟩ := both b1
    obtain ⟨_, _, b3⟩ := both b2
    exact readMany_length _ _ _ _ _ b3
  · exact absurd h1 (by simp)

/-- The links a power-up gives obey the law, where the option store is sound. -/
theorem graphLaw_boot (s : State) (f : BitVec 48) (l : BitVec 8) (h : s.store.sound) :
    (s.boot f l).graphLaw := by
  have links : ∀ i, ((s.boot f l).sections.get i).upstream = (s.store.inForce.1.slots.get i).upstream ∧
      ((s.boot f l).sections.get i).downstream = (s.store.inForce.1.slots.get i).downstream := by
    intro i
    have unfit : (s.store.inForce.1.slots.get i).fitted = false →
        (s.store.inForce.1.slots.get i).upstream = [] ∧ (s.store.inForce.1.slots.get i).downstream = [] := by
      have plain : ∀ r : SiteRecord, (r = .default ∨ ∃ w : RawSite, r = w.record) →
          (r.slots.get i).fitted = false → (r.slots.get i).upstream = [] ∧ (r.slots.get i).downstream = [] := by
        rintro r (rfl | ⟨w, rfl⟩) k
        · simp [SiteRecord.default, Slot.unfitted]
        · simp only [RawSite.record, Table.get_ofFn, RawSite.slot] at k ⊢
          split at k
          · exact absurd k (by simp)
          · next n => rw [if_neg n]; exact ⟨rfl, rfl⟩
      refine plain _ ?_
      unfold OptionStore.inForce
      split
      · split
        · next w _ => exact .inr ⟨w, rfl⟩
        · exact .inl rfl
      · exact .inl rfl
    simp only [State.boot, Table.get_ofFn, Slot.section]
    split
    · exact ⟨rfl, rfl⟩
    · next k =>
      have := unfit (by simpa using k)
      exact ⟨this.1.symm, this.2.symm⟩
  unfold State.graphLaw
  have bare : s.store.inForce.1 = .default → graphLaw (s.boot f l).sections := by
    intro e
    have none' : ∀ i, ((s.boot f l).sections.get i).upstream = [] ∧ ((s.boot f l).sections.get i).downstream = [] := by
      intro i
      rw [(links i).1, (links i).2, e]
      simp [SiteRecord.default, Slot.unfitted]
    refine ⟨fun i => ?_, fun i j => ?_, fun i c => ?_⟩
    · rw [(none' i).1, (none' i).2]; simp
    · rw [(none' i).2, (none' j).1]; simp
    · obtain ⟨j, k, _⟩ := Relation.TransGen.head'_iff.1 c
      rw [(none' i).2] at k
      exact absurd k (by simp)
  unfold OptionStore.inForce at links bare
  split at links
  · next c =>
    have ok := h c
    unfold siteRefusal at ok
    rw [if_pos c] at bare
    split at links
    · next w hw =>
      rw [hw] at ok
      dsimp only at ok
      split at ok
      · exact absurd ok (by simp)
      · split at ok
        · exact absurd ok (by simp)
        · next a b =>
          simp only [Bool.not_eq_true', Bool.not_eq_false, Bool.and_eq_true] at a b
          exact graphLaw_record (readSite_slots hw) a.1.1 a.2 b (fun i => (links i).1) fun i => (links i).2
    · next hw =>
      rw [hw] at bare
      exact bare rfl
  · next c =>
    rw [if_neg c] at bare
    exact bare rfl

end Sys2Proof.Machine
end

