-- ==== Sys2Proof/Laws/Changes.lean ====
section
/-! SUPPORT. What a step can do, said once: every step is made of the changes listed here. -/

namespace Sys2Proof.Machine

/-- A change of the link port that keeps its laws. -/
structure PortChange (a b : LinkPort) : Prop where
  once : a.reports.Nodup → b.reports.Nodup
  bounds : a.requests.length ≤ 4 ∧ a.answers.length + (if a.awaited.isSome then 1 else 0) ≤ 4 →
    b.requests.length ≤ 4 ∧ b.answers.length + (if b.awaited.isSome then 1 else 0) ≤ 4

/-- A change of the campaign record that keeps its laws, and neither closes nor turns back the clock. -/
structure CampaignChange (a b : Campaign) : Prop where
  lock : (a.lock = true ↔ a.state ≠ .closed) → (a.resume.isSome = true ↔ a.state = .restoring) →
    a.resume ≠ some .closed →
    (b.lock = true ↔ b.state ≠ .closed) ∧ (b.resume.isSome = true ↔ b.state = .restoring) ∧
      b.resume ≠ some .closed
  overlap : a.overlapEffective = a.overlapDue → b.overlapEffective = b.overlapDue
  later : a.clock ≤ b.clock ∨ Config.maxTime < a.clock
  bound : a.clock ≤ Config.maxTime → b.clock ≤ Config.maxTime
  closes : (a.resume ≠ some .closed) → b.state = .closed → a.state = .closed

/-- The fields of a section that the laws speak of, but for the settings. -/
structure SameCondition (a b : Section) : Prop where
  state : b.state = a.state
  fitted : b.fitted = a.fitted
  enteredAt : b.enteredAt = a.enteredAt
  heldFrom : b.heldFrom = a.heldFrom
  holds : b.holds = a.holds
  phase : b.phase = a.phase
  phaseSince : b.phaseSince = a.phaseSince
  deadline : b.deadline = a.deadline
  intake : b.intake = a.intake
  discharge : b.discharge = a.discharge

/-- The members and the input set of each group are as they were, or are set in order. -/
def SetsKept (a b : TripUnit) : Prop :=
  ∀ g, ((b.groups.get g).members = (a.groups.get g).members ∧
    (b.groups.get g).inputs = (a.groups.get g).inputs) ∨ (b.groups.get g).setsOrdered

theorem SetsKept.refl (a : TripUnit) : SetsKept a a := fun _ => .inl ⟨rfl, rfl⟩

theorem SetsKept.trans {a b c : TripUnit} (h : SetsKept a b) (k : SetsKept b c) : SetsKept a c := fun g => by
  rcases k g with ⟨m, i⟩ | k
  · rcases h g with ⟨m', i'⟩ | h
    · exact .inl ⟨m.trans m', i.trans i'⟩
    · exact .inr (by unfold TripGroup.setsOrdered; rw [m, i]; exact h)
  · exact .inr k

/-- One change that a step can make, but for the coming up of a POWER_UP. -/
inductive Change : State → State → Prop
  | move {s t : State} (m : Move s t) : Change s t
  | queue (s : State) (p : List Instr) : Change s { s with pending := p }
  | lose (s : State) : Change s s.lose
  | port (s : State) (l : LinkPort) (h : PortChange s.link l) : Change s { s with link := l }
  | setting (s : State) (t : Table Section 24) (h : ∀ i, SameCondition (s.sec i) (t.get i))
      (k : s.graphLaw → graphLaw t) :
      Change s { s with sections := t }
  | phase (s : State) (i : SectionId) (p : Phase) :
      Change s ((s.setSec i { s.sec i with
        phase := p, phaseSince := s.now
        discharge := if (s.sec i).state.passesLiquor then (s.sec i).state.discharge p
          else (s.sec i).discharge }).driveRoutes i)
  | scanner (s : State) (x : Scanner) : Change s { s with scanner := x }
  | steam (s : State) (st : Steam) (h : s.steam.law → st.law) : Change s { s with steam := st }
  | units (s : State) (us : UnitSupervisor) (h : s.supervisor.watchLaw → us.watchLaw) :
      Change s { s with
        supervisor := us
        lines := { s.lines with
          runLatch := Table.ofFn fun u => (s.lines.runPolarity.get u).level (us.units.get u).runOutput } }
  | tick (s : State) : Change s { s with supervisor := s.supervisor.tick }
  | trips (s : State) (x : TripUnit) (h : s.tripLaw → ({ s with trips := x } : State).tripLaw)
      (sets : SetsKept s.trips x) :
      Change s { s with trips := x }
  | store (s : State) (x : OptionStore) (y : SiteService) : Change s { s with store := x, site := y }
  | campaign (s : State) (c : Campaign) (h : CampaignChange s.campaign c) :
      Change s { s with campaign := c }
  | opened (s : State) (h : s.campaign.state = .closed) :
      Change s { s with
        sections := s.sections.map Section.zeroed
        campaign := { s.campaign with clock := 0, lock := true, state := .opened } }
  | rewrite (s : State) (i : SectionId) (old new : SectionState) (h : (s.sec i).heldFrom = some old)
      (held : new ≠ .held) (absent : old ≠ .absent → new ≠ .absent) :
      Change s (s.setSec i { s.sec i with heldFrom := some new })
  | adoptStay (s : State) (i : SectionId) (st : SectionState) (hs : List HoldReason)
      (h : HoldReason.restart ∈ (s.sec i).holds) (nonempty : hs ≠ []) (rest : HoldReason.restart ∉ hs)
      (held : st ≠ .held) (absent : st ≠ .absent) (order : HoldsOrdered (s.sec i).holds → HoldsOrdered hs) :
      Change s (s.setSec i { s.sec i with heldFrom := some st, holds := hs })
  | adoptLeave (s : State) (i : SectionId) (st : SectionState) (c : CaptureCause)
      (h : HoldReason.restart ∈ (s.sec i).holds) (held : st ≠ .held) (absent : st ≠ .absent) :
      Change s ((s.setSec i { s.sec i with heldFrom := some st, holds := [] }).enter i st c)

/-- Any number of changes. -/
def Changes : State → State → Prop := Relation.ReflTransGen Change

namespace Changes

theorem refl (s : State) : Changes s s := Relation.ReflTransGen.refl

theorem trans {s t u : State} (h : Changes s t) (k : Changes t u) : Changes s u :=
  Relation.ReflTransGen.trans h k

theorem one {s t : State} (h : Change s t) : Changes s t := Relation.ReflTransGen.single h

theorem ofMoves {s t : State} (h : Moves s t) : Changes s t :=
  h.keep (P := fun t => Changes s t) (fun _ _ m k => k.trans (.one (.move m))) (.refl s)

/-- A property that every change keeps is kept by any number of them. -/
theorem keep {P : State → Prop} (step : ∀ s t, Change s t → P s → P t) {s t : State} (h : Changes s t)
    (p : P s) : P t := by
  induction h with
  | refl => exact p
  | tail _ m ih => exact step _ _ m ih

theorem fold {β : Type} {f : State → β → State} (h : ∀ s b, Changes s (f s b)) (l : List β) (s : State) :
    Changes s (l.foldl f s) := by
  induction l generalizing s with
  | nil => exact refl _
  | cons b l ih => exact (h s b).trans (ih _)

end Changes

/-- What the owner of a request does before its answer: changes that leave the port's buffers, and the
answer awaited, as they are. -/
structure Effect (s t : State) : Prop where
  changes : Changes s t
  requests : t.link.requests = s.link.requests
  answers : t.link.answers = s.link.answers
  awaited : t.link.awaited = s.link.awaited

namespace Effect

theorem refl (s : State) : Effect s s := ⟨.refl s, rfl, rfl, rfl⟩

theorem trans {s t u : State} (h : Effect s t) (k : Effect t u) : Effect s u :=
  ⟨h.changes.trans k.changes, k.requests.trans h.requests, k.answers.trans h.answers,
    k.awaited.trans h.awaited⟩

theorem one {s t : State} (h : Change s t) (k : t.link = { s.link with reports := t.link.reports }) :
    Effect s t :=
  ⟨.one h, by rw [k], by rw [k], by rw [k]⟩

theorem moves {s t : State} (h : Moves s t) : Effect s t := by
  have e := h.frame.link
  exact ⟨.ofMoves h, by rw [e], by rw [e], by rw [e]⟩

theorem settle {s t : State} (h : Effect s t) : Effect s t.settle := h.trans (.moves (settle_moves t))

theorem report {s t : State} (h : Effect s t) (k : ReportKey) : Effect s (t.report k) :=
  h.trans (.moves (report_moves t k))

theorem handAll {s t : State} (h : Effect s t) (ds : List Delivery) : Effect s (t.handAll ds) :=
  h.trans (.moves (handAll_moves t ds))

theorem reexamineAll {s t : State} (h : Effect s t) : Effect s t.reexamineAll := h.handAll _

theorem reportAll {s t : State} (h : Effect s t) (ks : List ReportKey) : Effect s (t.reportAll ks) :=
  h.trans (.moves (reportAll_moves ks t))

theorem fold {β : Type} {f : State → β → State} (h : ∀ s b, Effect s (f s b)) (l : List β) (s : State) :
    Effect s (l.foldl f s) := by
  induction l generalizing s with
  | nil => exact refl _
  | cons b l ih => exact (h s b).trans (ih _)

theorem shuffle {α : Type} (l : List α) (s : State) : Effect s (State.shuffle l s).2 := by
  have e := shuffle_eq l s
  rw [e]
  exact .moves (.one (.order s _ _))

end Effect

/-- The stored site record, the staged parts, and whether they are being written, as they were. -/
structure Stored (s t : State) : Prop where
  parts : t.store.parts = s.store.parts
  check : t.store.siteCheck = s.store.siteCheck
  staging : t.site.staging = s.site.staging
  writing : t.site.siteWriting = s.site.siteWriting

namespace Stored

theorem refl (s : State) : Stored s s := ⟨rfl, rfl, rfl, rfl⟩

theorem trans {s t u : State} (h : Stored s t) (k : Stored t u) : Stored s u :=
  ⟨k.parts.trans h.parts, k.check.trans h.check, k.staging.trans h.staging, k.writing.trans h.writing⟩

theorem same {s t : State} (e1 : t.store = s.store) (e2 : t.site = s.site) : Stored s t := by
  constructor <;> simp only [e1, e2]

theorem moves {s t : State} (h : Moves s t) : Stored s t :=
  ⟨by rw [h.frame.store], by rw [h.frame.store], h.frame.site.2.1, h.frame.site.2.2.1⟩

end Stored

/-- An effect that keeps the laws of the allocator and of the pool, and does not store a site record. -/
structure Done (s t : State) : Prop where
  effect : Effect s t
  lawful : Lawful s t
  stored : Stored s t

namespace Done

theorem refl (s : State) : Done s s := ⟨.refl s, .refl s, .refl s⟩

theorem trans {s t u : State} (h : Done s t) (k : Done t u) : Done s u :=
  ⟨h.effect.trans k.effect, h.lawful.trans k.lawful, h.stored.trans k.stored⟩

/-- A change of the scanner, the trip unit, the mark or the campaign record. -/
theorem rest {s t : State} (h : Change s t) (k : t.link = { s.link with reports := t.link.reports })
    (e1 : t.steam = s.steam) (e2 : t.supervisor = s.supervisor) (e3 : t.sections = s.sections)
    (w : s.work ⊆ t.work) (x : Stored s t) : Done s t := ⟨.one h k, .rest e1 e2 w e3, x⟩

theorem moves {s t : State} (h : Moves s t) (k : Lawful s t) : Done s t := ⟨.moves h, k, .moves h⟩

theorem settle {s t : State} (h : Done s t) : Done s t.settle :=
  h.trans ⟨(Effect.refl t).settle, .settle t, .moves (settle_moves t)⟩

theorem report {s t : State} (h : Done s t) (k : ReportKey) : Done s (t.report k) :=
  h.trans (.moves (report_moves t k) (.report t k))

theorem handAll {s t : State} (h : Done s t) (ds : List Delivery) : Done s (t.handAll ds) :=
  h.trans (.moves (handAll_moves t ds) (.handAll t ds))

theorem reexamineAll {s t : State} (h : Done s t) : Done s t.reexamineAll := h.handAll _

theorem reportAll {s t : State} (h : Done s t) (ks : List ReportKey) : Done s (t.reportAll ks) :=
  h.trans (.moves (reportAll_moves ks t) (.reportAll ks t))

theorem shuffle {α : Type} (l : List α) (s : State) : Done s (State.shuffle l s).2 := by
  refine ⟨.shuffle l s, .shuffle l s, ?_⟩
  rw [shuffle_eq l s]
  exact .same rfl rfl

end Done

/-- Changes that keep the laws of the allocator and of the pool. -/
structure Steps (s t : State) : Prop where
  changes : Changes s t
  lawful : Lawful s t

namespace Steps

theorem refl (s : State) : Steps s s := ⟨.refl s, .refl s⟩

theorem trans {s t u : State} (h : Steps s t) (k : Steps t u) : Steps s u :=
  ⟨h.changes.trans k.changes, h.lawful.trans k.lawful⟩

/-- A change that leaves the section table, the allocator, the supervisor and the deliveries. -/
theorem rest {s t : State} (h : Change s t) (e1 : t.steam = s.steam) (e2 : t.supervisor = s.supervisor)
    (e3 : t.sections = s.sections) (w : s.work ⊆ t.work) : Steps s t := ⟨.one h, .rest e1 e2 w e3⟩

theorem settle (s : State) : Steps s s.settle := ⟨.ofMoves (settle_moves s), .settle s⟩

end Steps

theorem Done.steps {s t : State} (h : Done s t) : Steps s t := ⟨h.effect.changes, h.lawful⟩

/-! ### Section orders -/

theorem SameCondition.refl (a : Section) : SameCondition a a := by constructor <;> rfl

/-- A change of one section's settings that leaves its links. -/
theorem setting_effect {s : State} {i : SectionId} {r : Section} (h : SameCondition (s.sec i) r)
    (up : r.upstream = (s.sec i).upstream := by rfl) (down : r.downstream = (s.sec i).downstream := by rfl)
    (duty : r.dutyUnits = (s.sec i).dutyUnits := by rfl) :
    Done s (s.setSec i r) := by
  refine ⟨.one (.setting s _ (fun j => ?_) (graphLaw_congr fun j => ?_)) rfl,
    .same rfl rfl (List.Subset.refl _) fun j => ?_, .same rfl rfl⟩
  · rw [Table.get_set]
    split
    · next e => subst e; exact h
    · exact .refl _
  · rw [Table.get_set]
    split
    · next e => subst e; exact ⟨up, down⟩
    · exact ⟨rfl, rfl⟩
  · rw [State.sec_setSec]
    split
    · next e => subst e; exact ⟨h.state, h.holds, h.heldFrom, duty⟩
    · exact ⟨rfl, rfl, rfl, rfl⟩

theorem steam_effect {s : State} {f : Steam → Steam × List SteamNotice}
    (law : s.steam.law → (f s.steam).1.law) : Effect s (s.steamChange f) := by
  unfold State.steamChange
  refine .trans ?_ (.moves (Moves.fold takeNotice_moves _ _))
  unfold State.putSteam
  split
  · exact .refl _
  · exact (Effect.one (.steam s _ law) rfl).report _

theorem units_effect {s : State} {us : UnitSupervisor} (h : s.supervisor.watchLaw → us.watchLaw) :
    Effect s (s.putUnits us) := by
  unfold State.putUnits
  dsimp only
  exact ((Effect.one (.units s { us with short := Table.ofFn fun i => us.isShort (s.sec i) } h)
    rfl).handAll _).reportAll _

theorem putUnits_stored (s : State) (us : UnitSupervisor) : Stored s (s.putUnits us) := by
  unfold State.putUnits
  dsimp only
  refine .trans ?_ (.moves (reportAll_moves _ _))
  exact .same rfl rfl

theorem watchLaw_of_same {a b : UnitSupervisor} (h : SameFaults a b) (k : a.watchLaw) : b.watchLaw := by
  unfold UnitSupervisor.watchLaw at *
  rw [h.watch]
  exact ⟨k.1, k.2.1, fun u hu => by rw [(h.units u).1]; exact k.2.2 u hu⟩

theorem supervise_effect {s : State} {f : UnitSupervisor → UnitSupervisor}
    (h : s.supervisor.watchLaw → (f s.supervisor).watchLaw)
    (k : s.supervisor.coverLaw → PoolKept s.sections s.supervisor (f s.supervisor)) :
    Done s (s.supervise f) :=
  ⟨units_effect fun w => watchLaw_of_same (drive_sameFaults _ _ _) (h w), supervise_lawful k,
    putUnits_stored _ _⟩

theorem advance_effect (f : Fields) (s : State) : Done s (advanceOrder f s).1 := by
  unfold advanceOrder
  split
  · split
    · exact .refl _
    · split
      · exact .refl _
      · split
        · exact .refl _
        · next h =>
          split
          · next k => exact (Done.moves (enterState_moves _ (enters_of_permit h k)) (permit_lawful _ h k)).settle
          · exact .refl _
  · exact .refl _

theorem hold_effect (f : Fields) (s : State) : Done s (holdOrder f s).1 := by
  unfold holdOrder
  split
  · split
    · exact .refl _
    · split
      · exact .refl _
      · exact (Done.moves (addReason_moves _ _ _) (addReason_lawful _ _ (by simp))).settle
  · exact .refl _

theorem release_effect (f : Fields) (s : State) : Done s (releaseOrder f s).1 := by
  unfold releaseOrder
  split
  · split
    · exact .refl _
    · split
      · exact (Done.moves (removeReason_moves _ _ _ (by simp))
          (removeReason_lawful _ _ _ (by simp) (by simp))).settle
      · exact .refl _
  · exact .refl _

theorem named_notAbsent {s : State} {id : Nat} {i : SectionId} (h : s.named id = some i) :
    (s.sec i).state ≠ .absent := by
  unfold State.named at h
  split at h
  · split at h
    · exact absurd h (by simp)
    · next k => simp only [Option.some.injEq] at h; subst h; exact k
  · exact absurd h (by simp)

theorem excluding_effect (f : Fields) (s : State) : Done s (excludeOrder f s).1 := by
  unfold excludeOrder
  split
  · split
    · exact .refl _
    · next i _ =>
      split
      · exact .refl _
      · split
        · next k =>
          have m : Enters s i .excluded := by
            rcases k with k | k <;>
              exact ⟨by simp [k], by simp [k], by simp, by simp, fun _ w => absurd w (by decide)⟩
          refine Done.settle ⟨Effect.handAll (.moves (enterState_moves _ m)) _,
            service_lawful _ _ _ ?_ ?_ rfl m (.inl ⟨rfl, rfl⟩),
            .moves ((enterState_moves _ m).trans (handAll_moves _ _))⟩
          · rcases k with k | k <;> rw [k] <;> rfl
          · rcases k with k | k <;> rw [k] <;> simp
        · exact .refl _
  · exact .refl _

theorem including_effect (f : Fields) (s : State) : Done s (includeOrder f s).1 := by
  unfold includeOrder
  split
  · split
    · exact .refl _
    · next i _ =>
      split
      · exact .refl _
      · split
        · next k =>
          have m : Enters s i .cold :=
            ⟨by simp [k], by simp [k], by simp, by simp, fun _ w => absurd w (by decide)⟩
          exact Done.settle ⟨Effect.handAll (.moves (enterState_moves _ m)) _,
            service_lawful _ _ _ (by rw [k]; rfl) (by rw [k]; simp) rfl m (.inr ⟨rfl, rfl⟩),
            .moves ((enterState_moves _ m).trans (handAll_moves _ _))⟩
        · exact .refl _
  · exact .refl _

theorem relinked_same (t : Table Section 24) (i j : SectionId) (up : List Link) (down : List SectionId) :
    SameCondition (t.get j) ((relinked t i up down).get j) := by
  unfold relinked
  dsimp only
  rw [Table.get_ofFn]
  split <;> constructor <;> rfl

theorem relinked_duty (t : Table Section 24) (i j : SectionId) (up : List Link) (down : List SectionId) :
    ((relinked t i up down).get j).dutyUnits = (t.get j).dutyUnits := by
  unfold relinked
  dsimp only
  rw [Table.get_ofFn]
  split
  · next e => rw [e]
  · rfl

theorem links_effect (f : Fields) (s : State) : Done s (linksOrder f s).1 := by
  unfold linksOrder
  split
  · split
    · dsimp only
      split
      · exact .refl _
      · split
        · exact .refl _
        · next range =>
          split
          · exact .refl _
          · next cyclic =>
            refine Done.settle ?_
            unfold State.relink
            dsimp only
            refine Done.handAll (Done.reportAll ⟨.one (.setting s _ (fun j => relinked_same _ _ _ _ _) fun law =>
              graphLaw_relinked law (by simpa using range) (by simpa using cyclic)) rfl,
              .same rfl rfl (List.Subset.refl _) fun j => ?_, .same rfl rfl⟩ _) _
            have e := fun i up down => relinked_same s.sections i j up down
            exact ⟨(e _ _ _).state, (e _ _ _).holds, (e _ _ _).heldFrom, relinked_duty _ _ _ _ _⟩
    · exact .refl _
  · exact .refl _

theorem limits_effect (f : Fields) (s : State) : Done s (limitsOrder f s).1 := by
  unfold limitsOrder
  split
  · split
    · exact .refl _
    · split
      · exact setting_effect (by constructor <;> rfl)
      · exact .refl _
  · exact .refl _

theorem timing_effect (f : Fields) (s : State) : Done s (timingOrder f s).1 := by
  unfold timingOrder
  split
  · split
    · exact .refl _
    · dsimp only
      split
      · exact .refl _
      · split
        · exact .refl _
        · exact setting_effect (by constructor <;> rfl)
  · exact .refl _

theorem mode_effect (f : Fields) (s : State) : Done s (modeOrder f s).1 := by
  unfold modeOrder
  split
  · split
    · exact .refl _
    · next i _ =>
      split
      · exact .refl _
      · refine Done.settle (.trans ?_ (.moves (reexamine_moves _ _ _) (reexamine_lawful _ _ _)))
        exact (setting_effect (r := { s.sec i with mode := modeOf _ }) (by constructor <;> rfl)).report _
  · exact .refl _

theorem lift_effect (f : Fields) (s : State) : Done s (liftOrder f s).1 := by
  unfold liftOrder
  split
  · split
    · exact .refl _
    · split
      · exact .refl _
      · split
        · exact .refl _
        · exact setting_effect (by constructor <;> rfl)
  · exact .refl _

theorem capture_effect (f : Fields) (s : State) : Done s (captureOrder f s).1 := by
  unfold captureOrder
  split
  · split
    · exact .refl _
    · exact setting_effect (by constructor <;> rfl)
  · exact .refl _

/-! ### ADOPT -/

theorem setSec_setSec (s : State) (i : SectionId) (a b : Section) :
    (s.setSec i a).setSec i b = s.setSec i b := by
  unfold State.setSec
  dsimp only
  congr 1
  exact Table.set_set _ _ _ _

theorem putSteam_setSec (s : State) (i : SectionId) (r : Section) (st : Steam) :
    (s.setSec i r).putSteam st = (s.putSteam st).setSec i r := by
  unfold State.putSteam
  have e : (s.setSec i r).steam = s.steam := rfl
  rw [e]
  split <;> rfl

theorem adoptable_spec {cls : SectionClass} {st : SectionState} (h : adoptable cls st = true) :
    st ≠ .held ∧ st ≠ .absent := by
  cases cls <;> cases st <;> simp_all [adoptable]

/-- The last stage of ADOPT, on a record whose held-from is set. -/
theorem adopt_last {s : State} {i : SectionId} {st : SectionState} {hs : List HoldReason}
    (h : HoldReason.restart ∈ (s.sec i).holds) (k : HoldReason.restart ∈ hs) (held : st ≠ .held)
    (absent : st ≠ .absent) (order : HoldsOrdered (s.sec i).holds → HoldsOrdered hs) :
    Effect s ((s.setSec i { s.sec i with heldFrom := some st, holds := hs }).removeReason i .restart
      .restore) := by
  have e : (s.setSec i { s.sec i with heldFrom := some st, holds := hs }).sec i =
      { s.sec i with heldFrom := some st, holds := hs } := by rw [State.sec_setSec, if_pos rfl]
  unfold State.removeReason
  dsimp only
  rw [e]
  have c : (hs.contains HoldReason.restart) = true := by simpa using k
  simp only [c, Bool.not_true, Bool.false_eq_true, if_false]
  split
  · rw [setSec_setSec]
    exact (Effect.one (.adoptLeave s i st .restore h held absent)
      (enter_onlySections _ _ _ _).link).trans (.moves (enterState_split _ _ _ _))
  · next n =>
    rw [setSec_setSec]
    refine Effect.report (.one (.adoptStay s i st (removeFrom .restart hs) h ?_ ?_ held absent ?_) rfl) _
    · simpa using n
    · rw [mem_removeFrom]; simp
    · exact fun o => (order o).sublist List.filter_sublist

theorem insertHolds_setSec (s : State) (i : SectionId) (r : Section) (rs : List HoldReason) :
    (s.setSec i r).insertHolds i rs = s.setSec i { r with holds := rs.foldr insertReason r.holds } := by
  unfold State.insertHolds
  rw [State.sec_setSec, if_pos rfl, setSec_setSec]

theorem adopt_effect (s : State) (i : SectionId) (st : SectionState)
    (h : HoldReason.restart ∈ (s.sec i).holds) (k : adoptable (s.sec i).cls st = true) :
    Effect s (s.adopt i st) := by
  obtain ⟨held, absent⟩ := adoptable_spec k
  -- the hold set once FULL has been added
  have pressed : ∃ hs, HoldReason.restart ∈ hs ∧ (HoldsOrdered (s.sec i).holds → HoldsOrdered hs) ∧
      (if st.passesLiquor then (s.setSec i { s.sec i with heldFrom := some st }).insertHolds i
        ((((s.setSec i { s.sec i with heldFrom := some st }).downstreamOf i).filter
          (s.setSec i { s.sec i with heldFrom := some st }).full).map .full)
       else s.setSec i { s.sec i with heldFrom := some st }) =
      s.setSec i { s.sec i with heldFrom := some st, holds := hs } := by
    split
    · exact ⟨_, mem_insertAll.2 (.inr h), ordered_insertAll, insertHolds_setSec _ _ _ _⟩
    · exact ⟨(s.sec i).holds, h, id, rfl⟩
  obtain ⟨hs, m, order, e⟩ := pressed
  unfold State.adopt
  dsimp only
  rw [e]
  split
  · have e1 : (s.setSec i { s.sec i with heldFrom := some st, holds := hs }).sec i =
        { s.sec i with heldFrom := some st, holds := hs } := by rw [State.sec_setSec, if_pos rfl]
    unfold State.adoptSteam
    dsimp only
    rw [e1]
    generalize hq : Steam.request _ i _ true _ = q
    have law : s.steam.law → q.1.law := by
      intro l
      rw [← hq]
      exact request_law _ _ _ _ l
    rw [putSteam_setSec]
    have st1 : Effect s (s.putSteam q.1) := by
      unfold State.putSteam
      split
      · exact .refl _
      · exact (Effect.one (.steam s _ law) rfl).report _
    have sec1 : (s.putSteam q.1).sec i = s.sec i := by
      unfold State.putSteam; split <;> rfl
    have fin : ∀ hs', HoldReason.restart ∈ hs' → (HoldsOrdered (s.sec i).holds → HoldsOrdered hs') →
        Effect s (((s.putSteam q.1).setSec i { s.sec i with heldFrom := some st, holds := hs' }).removeReason i
          .restart .restore) := by
      intro hs' m' o'
      have := adopt_last (s := s.putSteam q.1) (i := i) (st := st) (hs := hs') (by rw [sec1]; exact h) m'
        held absent (by rw [sec1]; exact o')
      rw [sec1] at this
      exact st1.trans this
    split
    · rw [insertHolds_setSec]
      exact fin _ (mem_insertAll.2 (.inr m)) fun o => ordered_insertAll (order o)
    · exact fin _ m order
  · exact adopt_last h m held absent order

theorem adopt_stored (s : State) (i : SectionId) (st : SectionState) : Stored s (s.adopt i st) := by
  have insert : ∀ (t : State) rs, Stored t (t.insertHolds i rs) := fun t rs => .same rfl rfl
  have steam : ∀ (t : State) a, Stored t (t.putSteam a) := fun t a => by
    unfold State.putSteam; split <;> exact .same rfl rfl
  have remove : ∀ t : State, Stored t (t.removeReason i .restart .restore) := fun t =>
    .same (removeReason_onlySections _ _ _ _).store (removeReason_onlySections _ _ _ _).site
  unfold State.adopt
  dsimp only
  refine .trans ?_ (remove _)
  have pressed : Stored s (if st.passesLiquor then
      (s.setSec i { s.sec i with heldFrom := some st }).insertHolds i
        ((((s.setSec i { s.sec i with heldFrom := some st }).downstreamOf i).filter
          (s.setSec i { s.sec i with heldFrom := some st }).full).map .full)
      else s.setSec i { s.sec i with heldFrom := some st }) := by split <;> exact .same rfl rfl
  generalize (if st.passesLiquor then _ else _ : State) = p at pressed ⊢
  split
  · refine pressed.trans ?_
    unfold State.adoptSteam
    dsimp only
    split
    · exact (steam _ _).trans (insert _ _)
    · exact steam _ _
  · exact pressed

theorem adopting_effect (f : Fields) (s : State) : Done s (adoptOrder f s).1 := by
  unfold adoptOrder
  split
  · split
    · exact .refl _
    · split
      · exact .refl _
      · next i _ h =>
        simp only [Bool.not_eq_true', List.contains_eq_mem, decide_eq_false_iff_not, not_not] at h
        split
        · split
          · next k => exact Done.settle ⟨adopt_effect s i _ h k, adopt_lawful h k, adopt_stored s i _⟩
          · exact .refl _
        · exact .refl _
  · exact .refl _

end Sys2Proof.Machine
end

