-- ==== Sys2Proof/Laws/Failed.lean ====
section
/-! SUPPORT. The run output of a FAILED unit is off once its failure has been taken, and stays off
through every cascade (R129). -/

namespace Sys2Proof.Machine

/-- Two supervisors agree in every unit's condition and run output. -/
def SameRun (a b : UnitSupervisor) : Prop :=
  ∀ u, (b.units.get u).condition = (a.units.get u).condition ∧
    (b.units.get u).runOutput = (a.units.get u).runOutput

namespace SameRun

theorem refl (a : UnitSupervisor) : SameRun a a := fun _ => ⟨rfl, rfl⟩

theorem trans {a b c : UnitSupervisor} (h : SameRun a b) (k : SameRun b c) : SameRun a c :=
  fun u => ⟨(k u).1.trans (h u).1, (k u).2.trans (h u).2⟩

theorem ofUnit {a : UnitSupervisor} {u : UnitId} {r : UnitRecord}
    (h : r.condition = (a.units.get u).condition ∧ r.runOutput = (a.units.get u).runOutput) :
    SameRun a (a.setUnit u r) := fun v => by
  simp only [UnitSupervisor.setUnit, Table.get_set]
  split
  · next e => subst e; exact h
  · exact ⟨rfl, rfl⟩

theorem ofFold {β : Type} (f : UnitSupervisor → β → UnitSupervisor) (h : ∀ a x, SameRun a (f a x))
    (l : List β) (a : UnitSupervisor) : SameRun a (l.foldl f a) := by
  induction l generalizing a with
  | nil => exact refl _
  | cons x l ih => exact (h a x).trans (ih _)

theorem assign (us : UnitSupervisor) (sp u : UnitId) : SameRun us (us.assign sp u) := by
  unfold UnitSupervisor.assign
  dsimp only
  exact .trans (.ofUnit (u := u) (r := { us.units.get u with coveredBy := some sp }) ⟨rfl, rfl⟩)
    (.ofUnit (u := sp) ⟨rfl, rfl⟩)

theorem uncover (us : UnitSupervisor) (sp u : UnitId) : SameRun us (us.uncover sp u) := by
  unfold UnitSupervisor.uncover
  dsimp only
  exact .trans (.ofUnit (u := u) (r := { us.units.get u with coveredBy := none }) ⟨rfl, rfl⟩)
    (.ofUnit (u := sp) ⟨rfl, rfl⟩)

theorem demands (us : UnitSupervisor) (ds : List SpareDemand) : SameRun us { us with demands := ds } :=
  fun _ => ⟨rfl, rfl⟩

theorem requestCoverage (us : UnitSupervisor) (u : UnitId) : SameRun us (us.requestCoverage u) := by
  unfold UnitSupervisor.requestCoverage
  split
  · exact assign _ _ _
  · exact demands _ _

theorem offer (us : UnitSupervisor) (sp : UnitId) : SameRun us (us.offer sp) := by
  unfold UnitSupervisor.offer
  split
  · split
    · exact (demands _ _).trans (assign _ _ _)
    · exact refl _
  · exact refl _

theorem exclude (us : UnitSupervisor) (duty : List UnitId) : SameRun us (us.exclude duty) := by
  unfold UnitSupervisor.exclude
  dsimp only
  refine .trans (ofFold _ ?_ _ _) (ofFold _ offer _ _)
  intro a u
  unfold UnitSupervisor.giveUp
  split
  · exact uncover _ _ _
  · exact demands _ _

theorem attend (us : UnitSupervisor) (u : UnitId) : SameRun us (us.attend u) := by
  unfold UnitSupervisor.attend
  split
  · exact refl _
  · exact requestCoverage _ _

theorem includeUnits (us : UnitSupervisor) (duty : List UnitId) : SameRun us (us.includeUnits duty) :=
  ofFold _ attend _ _

end SameRun

/-- Unit `u` is FAILED and its run output is off. -/
def UnitSupervisor.off (us : UnitSupervisor) (u : UnitId) : Prop :=
  (us.units.get u).condition = .failed ∧ (us.units.get u).runOutput = false

theorem off_of_sameRun {a b : UnitSupervisor} {u : UnitId} (h : a.off u) (k : SameRun a b) : b.off u :=
  ⟨(k u).1.trans h.1, (k u).2.trans h.2⟩

/-- One run output driven: nothing but the driven unit's run output changes, and it goes off if the unit
is FAILED. -/
theorem drive_one (secs : Table Section 24) (us : UnitSupervisor) (u v : UnitId)
    (h : (us.units.get u).condition = .failed) (k : u = v ∨ (us.units.get u).runOutput = false) :
    (us.setUnit v { us.units.get v with runOutput := us.runs secs v }).off u := by
  unfold UnitSupervisor.off UnitSupervisor.setUnit
  dsimp only
  rw [Table.get_set]
  split
  · next e =>
    subst e
    refine ⟨h, ?_⟩
    simp [UnitSupervisor.runs, h]
  · next ne => exact ⟨h, k.resolve_left ne⟩

theorem drive_off (secs : Table Section 24) (us : UnitSupervisor) (u : UnitId) (which : List UnitId)
    (h : (us.units.get u).condition = .failed) (k : u ∈ which ∨ (us.units.get u).runOutput = false) :
    (us.drive secs which).off u := by
  unfold UnitSupervisor.drive
  induction which generalizing us with
  | nil => exact ⟨h, k.resolve_left (by simp)⟩
  | cons v l ih =>
    rw [List.foldl_cons]
    by_cases e : u = v
    · have o := drive_one secs us u v h (.inl e)
      exact ih _ o.1 (.inr o.2)
    · rcases k with k | k
      · refine ih _ ?_ (.inl ((List.mem_cons.1 k).resolve_left e))
        unfold UnitSupervisor.setUnit
        dsimp only
        rw [Table.get_set, if_neg e]
        exact h
      · have o := drive_one secs us u v h (.inr k)
        exact ih _ o.1 (.inr o.2)

theorem reportAll_supervisor (ks : List ReportKey) (s : State) :
    (State.reportAll ks s).supervisor = s.supervisor := by
  have fold : ∀ (l : List ReportKey) (t : State), (l.foldl State.report t).supervisor = t.supervisor := by
    intro l
    induction l with
    | nil => intro t; rfl
    | cons k l ih => intro t; exact ih _
  unfold State.reportAll
  dsimp only
  rw [fold, shuffle_eq]

theorem supervisor_putUnits (s : State) (us : UnitSupervisor) :
    (s.putUnits us).supervisor = { us with short := Table.ofFn fun i => us.isShort (s.sec i) } := by
  unfold State.putUnits
  dsimp only
  rw [reportAll_supervisor]
  rfl

/-- A change that makes a unit FAILED turns its run output off (R129). -/
theorem supervise_off {s : State} {f : UnitSupervisor → UnitSupervisor} {u : UnitId}
    (h : ((f s.supervisor).units.get u).condition = .failed)
    (k : (s.supervisor.units.get u).condition ≠ .failed ∨
      ((f s.supervisor).units.get u).runOutput = false) : (s.supervise f).supervisor.off u := by
  have d : ((f s.supervisor).drive s.sections (s.supervisor.moved (f s.supervisor))).off u := by
    refine drive_off _ _ _ _ h (k.imp (fun n => ?_) id)
    unfold UnitSupervisor.moved
    rw [List.mem_filter]
    refine ⟨List.mem_finRange _, ?_⟩
    simp [h, n]
  unfold State.supervise
  rw [supervisor_putUnits]
  exact d

/-- The run output of a FAILED unit stays off through every cascade. -/
theorem settle_off {s : State} {u : UnitId} (h : s.supervisor.off u) : s.settle.supervisor.off u := by
  have same : ∀ {s t : State}, s.supervisor.off u → t.supervisor = s.supervisor → t.supervisor.off u :=
    fun h e => by rw [e]; exact h
  have drives : ∀ (s : State) (a : UnitSupervisor) (l : List UnitId), s.supervisor.off u →
      SameRun s.supervisor a → (s.putUnits (a.drive s.sections l)).supervisor.off u := by
    intro s a l h k
    rw [supervisor_putUnits]
    have o := off_of_sameRun h k
    exact drive_off _ _ _ _ o.1 (.inr o.2)
  have steam : ∀ (s : State) (f : Steam → Steam × List SteamNotice), s.supervisor.off u →
      (s.steamChange f).supervisor.off u := by
    intro s f h
    unfold State.steamChange
    refine same h ((notices_onlySections _ _).supervisor.trans ?_)
    unfold State.putSteam
    split <;> rfl
  refine settle_induct (P := fun s => s.supervisor.off u) (fun _ _ _ _ h => h) ?_ s h
  intro s d h
  unfold State.runDelivery
  split
  · unfold State.reexamine
    dsimp only
    split
    · split
      · exact same h (enterState_onlySections _ _ _ _).supervisor
      · unfold State.fillDoneRequest
        split
        · exact steam _ _ h
        · exact h
    · exact h
  · split
    · exact h
    · exact same h (addReason_onlySections _ _ _).supervisor
  · split
    · exact h
    · exact same h (removeReason_onlySections _ _ _ _).supervisor
  · exact steam _ _ h
  · exact steam _ _ h
  · exact steam _ _ h
  · exact drives _ _ _ h (.refl _)
  · split
    · exact h
    · exact drives _ _ _ h (SameRun.exclude _ _)
  · split
    · exact drives _ _ _ h (SameRun.includeUnits _ _)
    · exact h
  · unfold State.takeSupply State.recomputeOverlap
    dsimp only
    split <;> exact h
  · unfold State.closingTest
    split
    · exact h
    · exact h

end Sys2Proof.Machine
end

