-- ==== Sys2Proof/Laws/Held.lean ====
section
/-! SUPPORT. A section held by the host stays held through every cascade (R94, R97, R104). -/

namespace Sys2Proof.Machine

/-- Section `i` is HELD with HOST, and held from `back`. -/
def State.hostHeld (i : SectionId) (back : Option SectionState) (s : State) : Prop :=
  (s.sec i).state = .held ∧ HoldReason.host ∈ (s.sec i).holds ∧ (s.sec i).heldFrom = back

namespace HostHeld

variable {i : SectionId} {back : Option SectionState}

theorem of_sec {s t : State} (h : s.hostHeld i back) (e : t.sec i = s.sec i) : t.hostHeld i back := by
  unfold State.hostHeld at *
  rw [e]
  exact h

theorem enterState {s : State} {j : SectionId} (h : s.hostHeld i back) (k : (s.sec j).state ≠ .held)
    (dest : SectionState) (c : CaptureCause) : (s.enterState j dest c).hostHeld i back := by
  have ne : i ≠ j := fun e => k (e ▸ h.1)
  refine of_sec h ?_
  unfold State.enterState
  dsimp only
  split
  · rw [sec_holdWith, if_neg ne, sec_enter, if_neg ne]
  · rw [sec_enter, if_neg ne]

theorem addReason {s : State} (h : s.hostHeld i back) (j : SectionId) (r : HoldReason) :
    (s.addReason j r).hostHeld i back := by
  unfold State.addReason
  dsimp only
  split
  · exact h
  · split
    · unfold State.hostHeld
      rw [State.sec_report, sec_insertHolds]
      split
      · next e =>
        subst e
        exact ⟨h.1, mem_insertAll.2 (.inr h.2.1), h.2.2⟩
      · exact h
    · next k =>
      have ne : i ≠ j := fun e => k (e ▸ h.1)
      exact of_sec h (by rw [sec_holdWith, if_neg ne])

theorem removeReason {s : State} (h : s.hostHeld i back) (j : SectionId) {r : HoldReason} (hr : r ≠ .host)
    (c : CaptureCause) : (s.removeReason j r c).hostHeld i back := by
  have stays : ∀ hs : List HoldReason, (j = i → HoldReason.host ∈ hs) →
      (s.setSec j { s.sec j with holds := hs }).hostHeld i back := by
    intro hs k
    unfold State.hostHeld
    rw [State.sec_setSec]
    split
    · next e =>
      subst e
      exact ⟨h.1, k rfl, h.2.2⟩
    · exact h
  have left : j = i → HoldReason.host ∈ removeFrom r (s.sec j).holds := by
    intro e
    subst e
    exact mem_removeFrom.2 ⟨h.2.1, hr.symm⟩
  unfold State.removeReason
  dsimp only
  split
  · exact h
  · split
    · next empty =>
      have ne : i ≠ j := by
        intro e
        have := left e.symm
        rw [List.isEmpty_iff] at empty
        rw [empty] at this
        exact absurd this (by simp)
      split
      · refine of_sec h ?_
        unfold State.enterState
        dsimp only
        split
        · rw [sec_holdWith, if_neg ne, sec_enter, if_neg ne, State.sec_setSec, if_neg ne]
        · rw [sec_enter, if_neg ne, State.sec_setSec, if_neg ne]
      · exact h
    · exact stays _ left

theorem takeNotice {s : State} (h : s.hostHeld i back) (n : SteamNotice) : (s.takeNotice n).hostHeld i back := by
  unfold State.takeNotice
  split
  · split
    · next k => exact enterState h (by rw [k]; simp) _ _
    · split
      · exact removeReason h _ (by simp) _
      · exact h
  · exact addReason h _ _
  · exact removeReason h _ (by simp) _

theorem steamChange {s : State} (h : s.hostHeld i back) (f : Steam → Steam × List SteamNotice) :
    (s.steamChange f).hostHeld i back := by
  unfold State.steamChange
  have p : (s.putSteam (f s.steam).1).hostHeld i back := by
    unfold State.putSteam
    split
    · exact h
    · exact h
  generalize s.putSteam (f s.steam).1 = t at p
  generalize (f s.steam).2 = ns
  induction ns generalizing t with
  | nil => exact p
  | cons n ns ih => exact ih _ (takeNotice p n)

theorem reexamine {s : State} (h : s.hostHeld i back) (j : SectionId) (why : Why) :
    (s.reexamine j why).hostHeld i back := by
  unfold State.reexamine
  dsimp only
  split
  · next dest e =>
    split
    · exact enterState h (nextStep_spec e).1 _ _
    · unfold State.fillDoneRequest
      split
      · exact steamChange h _
      · exact h
  · exact h

/-- Moves that touch no section leave it as it is. -/
theorem of_sections {s t : State} (h : s.hostHeld i back) (e : t.sections = s.sections) : t.hostHeld i back :=
  of_sec h (by unfold State.sec; rw [e])

theorem reportAll_sections (ks : List ReportKey) (s : State) :
    (State.reportAll ks s).sections = s.sections := by
  have fold : ∀ (l : List ReportKey) (t : State), (l.foldl State.report t).sections = t.sections := by
    intro l
    induction l with
    | nil => intro t; rfl
    | cons k l ih => intro t; exact ih _
  unfold State.reportAll
  dsimp only
  rw [fold, shuffle_eq]

theorem putUnits {s : State} (h : s.hostHeld i back) (us : UnitSupervisor) : (s.putUnits us).hostHeld i back := by
  refine of_sections h ?_
  unfold State.putUnits
  dsimp only
  rw [reportAll_sections]
  rfl

theorem recomputeOverlap {s : State} (h : s.hostHeld i back) : s.recomputeOverlap.hostHeld i back := by
  unfold State.recomputeOverlap
  dsimp only
  split <;> exact h

theorem closingTest {s : State} (h : s.hostHeld i back) : s.closingTest.hostHeld i back := by
  unfold State.closingTest
  split
  · unfold State.closeNow State.reexamineAll
    dsimp only
    have e : ∀ r : Section, (r.dropLift).state = r.state ∧ r.dropLift.holds = r.holds ∧
        r.dropLift.heldFrom = r.heldFrom := by
      intro r
      obtain ⟨b, eq⟩ := Section.dropLift_eq r
      rw [eq]
      exact ⟨rfl, rfl, rfl⟩
    unfold State.hostHeld
    have sec : ∀ (t : State) (ds : List Delivery) (k : ReportKey) (v : Mark),
        ((((t.requestMark v).report k).handAll ds).sec i) = t.sec i := fun _ _ _ _ => rfl
    rw [sec]
    unfold State.sec
    dsimp only
    rw [Table.get_map, (e _).1, (e _).2.1, (e _).2.2]
    exact h
  · exact h

/-- A section held by the host stays held, and held from the same state, through every cascade. -/
theorem settle {s : State} (h : s.hostHeld i back) : s.settle.hostHeld i back := by
  refine settle_induct (P := State.hostHeld i back) (fun _ _ _ _ h => h) ?_ s h
  intro s d h
  unfold State.runDelivery
  split
  · exact reexamine h _ _
  · split
    · exact h
    · exact addReason h _ _
  · split
    · exact h
    · next k => exact removeReason h _ (fun e => k (by rw [e]; rfl)) _
  · exact steamChange h _
  · exact steamChange h _
  · exact steamChange h _
  · exact putUnits h _
  · split
    · exact h
    · exact putUnits h _
  · split
    · exact putUnits h _
    · exact h
  · exact recomputeOverlap h
  · exact closingTest h

end HostHeld

end Sys2Proof.Machine
end

