-- ==== Sys2Proof/Laws/Rows.lean ====
section
/-! SUPPORT. Each order and event as changes: the campaign, the option store, the scanner and the pool. -/

namespace Sys2Proof.Machine

/-! ### The campaign -/

/-- A change of the campaign record that leaves its state, lock, resume target, clock and overlapped
start as they are. -/
theorem campaign_same {a b : Campaign} (h1 : b.state = a.state) (h2 : b.lock = a.lock)
    (h3 : b.resume = a.resume) (h4 : b.clock = a.clock) (h5 : b.overlapEffective = a.overlapEffective)
    (h6 : b.overlapDue = a.overlapDue) : CampaignChange a b := by
  refine ⟨?_, ?_, .inl (by rw [h4]), fun h => by rw [h4]; exact h, fun _ h => by rw [← h1]; exact h⟩
  · intro p q r
    rw [h1, h2, h3]
    exact ⟨p, q, r⟩
  · intro p; rw [h5, h6]; exact p

theorem requestMark_effect (s : State) (v : Mark) : Done s (s.requestMark v) :=
  .rest (.store s s.store _) rfl rfl rfl rfl (List.Subset.refl _) (by
    unfold State.requestMark SiteService.requestMark
    split <;> exact ⟨rfl, rfl, rfl, rfl⟩)

theorem awaitMark_effect (s : State) (v : Mark) : Done s (s.awaitMark v) :=
  (Done.rest (.campaign s { s.campaign with pendingMark := some v }
    (campaign_same rfl rfl rfl rfl rfl rfl)) rfl rfl rfl rfl (List.Subset.refl _) (.same rfl rfl)).trans
    (requestMark_effect _ v)

theorem coldFold_effect (l : List SectionId) (s : State) (nodup : l.Nodup)
    (h : ∀ i ∈ l, (s.sec i).state = .laidUp) :
    Done s (l.foldl (fun t i => t.enterState i .cold .campaign) s) := by
  induction l generalizing s with
  | nil => exact .refl _
  | cons i l ih =>
    have hi := h i List.mem_cons_self
    have m : Enters s i .cold := ⟨by simp [hi], by simp [hi], by simp, by simp, fun _ w => absurd w (by decide)⟩
    refine .trans (.moves (enterState_moves .campaign m) (enterState_lawful _ m ?_ ?_ (by rw [hi]; rfl)))
      (ih _ (List.nodup_cons.1 nodup).2 ?_)
    · rw [hi]; exact fun x => absurd x (by decide)
    · rw [hi]; exact fun x => absurd x (by decide)
    · intro j hj
      have ne : j ≠ i := fun e => (List.nodup_cons.1 nodup).1 (e ▸ hj)
      rw [sec_enterState_ne _ ne]
      exact h j (List.mem_cons_of_mem _ hj)

theorem coldFold_campaign (l : List SectionId) (s : State) :
    (l.foldl (fun t i => t.enterState i .cold .campaign) s).campaign = s.campaign := by
  induction l generalizing s with
  | nil => rfl
  | cons i l ih => rw [List.foldl_cons, ih]; exact (enterState_onlySections _ _ _ _).campaign

theorem openNow_effect {s : State} (h : s.campaign.state = .closed) : Done s s.openNow := by
  unfold State.openNow
  dsimp only
  refine Done.reexamineAll (Done.report (.trans ?_ (awaitMark_effect _ _)) _)
  have e := shuffle_eq ((allIds 24).filter fun i => (s.sec i).state = .laidUp) s
  have p := shuffle_perm ((allIds 24).filter fun i => (s.sec i).state = .laidUp) s
  have f : Done (State.shuffle ((allIds 24).filter fun i => (s.sec i).state = .laidUp) s).2 _ :=
    coldFold_effect (State.shuffle ((allIds 24).filter fun i => (s.sec i).state = .laidUp) s).1 _
      (p.nodup_iff.2 ((List.nodup_finRange 24).filter _)) (by
        intro i hi
        have := (List.mem_filter.1 (p.mem_iff.1 hi)).2
        rw [e]
        exact of_decide_eq_true this)
  refine (Done.shuffle _ s).trans (f.trans ⟨.one (.opened _ ?_) rfl, zeroed_lawful _ _, .same rfl rfl⟩)
  rw [coldFold_campaign, e]
  exact h

theorem mapSection_effect (s : State) (i : SectionId) : Effect s (s.mapSection i) := by
  have enters : ∀ dest, windDownState (s.sec i).cls (s.sec i).phase (s.sec i).state = dest →
      dest ≠ (s.sec i).state → Effect s (s.enterState i dest .campaign) := by
    intro dest e n
    have k := windDownState_spec (cls := (s.sec i).cls) (p := (s.sec i).phase) (st := (s.sec i).state)
      (by rw [e]; exact n)
    rw [e] at k
    exact .moves (enterState_moves _ ⟨k.2.2.1, k.2.2.2.1, k.1, k.2.1, fun _ => k.2.2.2.2⟩)
  unfold State.mapSection
  dsimp only
  split
  · split
    · exact .refl _
    · next n =>
      cases b : (s.sec i).heldFrom with
      | none => simp [b] at n
      | some old =>
        simp only [b, Option.map_some, Option.some.injEq] at n ⊢
        have k := windDownState_spec n
        exact (Effect.one (.rewrite s i old _ b k.1 (fun _ => k.2.1)) rfl).report _
  all_goals first
    | exact .refl _
    | (split
       · exact .refl _
       · next n => exact enters _ rfl n)

theorem mapSection_stored (s : State) (i : SectionId) : Stored s (s.mapSection i) := by
  have enters : ∀ dest, Stored s (s.enterState i dest .campaign) := fun dest =>
    .same (enterState_onlySections _ _ _ _).store (enterState_onlySections _ _ _ _).site
  unfold State.mapSection
  dsimp only
  split
  · split <;> exact .same rfl rfl
  all_goals first
    | exact .refl _
    | (split
       · exact .refl _
       · exact enters _)

theorem steamChange_stored (s : State) (f : Steam → Steam × List SteamNotice) :
    Stored s (s.steamChange f) := by
  have put : Stored s (s.putSteam (f s.steam).1) := by unfold State.putSteam; split <;> exact .same rfl rfl
  exact put.trans (.same (notices_onlySections _ _).store (notices_onlySections _ _).site)

theorem mapSections_effect (s : State) : Effect s s.mapSections ∧ Stored s s.mapSections := by
  refine ⟨?_, ?_⟩
  swap
  · unfold State.mapSections
    dsimp only
    have fold : ∀ (l : List SectionId) (t : State), Stored t (l.foldl State.mapSection t) := by
      intro l
      induction l with
      | nil => exact fun t => .refl t
      | cons i l ih => exact fun t => (mapSection_stored t i).trans (ih _)
    exact ((Done.shuffle (allIds 24) s).stored.trans (fold _ _)).trans (steamChange_stored _ _)
  unfold State.mapSections
  dsimp only
  have e := (Effect.shuffle (allIds 24) s).trans
    (Effect.fold mapSection_effect (State.shuffle (allIds 24) s).1 (State.shuffle (allIds 24) s).2)
  exact e.trans (steam_effect (mapped_law _ _))

theorem windDownMapping_effect (s : State) : Done s s.windDownMapping :=
  ⟨(mapSections_effect s).1.trans (.moves (takeRunDemands_moves _)), windDownMapping_lawful s,
    (mapSections_effect s).2.trans (.moves (takeRunDemands_moves _))⟩

theorem windDown_effect (s : State) : Done s s.windDown :=
  ((windDownMapping_effect s).trans (.moves (closingTest_moves _) (closingTest_lawful _))).reexamineAll

theorem turnToWindDown_effect {s : State} (h : s.campaign.state = .opened) :
    Done s s.turnToWindDown := by
  unfold State.turnToWindDown
  dsimp only
  refine .trans (.report (.trans (.rest (.campaign s { s.campaign with state := .windingDown } ?_) rfl rfl rfl rfl
    (List.Subset.refl _) (.same rfl rfl)) (awaitMark_effect _ _)) _) (windDown_effect _)
  refine ⟨?_, fun h => h, .inl (Nat.le_refl _), fun h => h, fun _ e => absurd e (by simp)⟩
  intro p q r
  rw [h] at p q
  refine ⟨by simpa using p, ?_, r⟩
  simpa using q

theorem resumeTo_effect {s : State} {m : Mark} (h : s.campaign.state = .restoring)
    (k : s.campaign.resume = some m) : Done s (s.resumeTo m) := by
  have c : CampaignChange s.campaign { s.campaign with state := m.campaign, resume := none } := by
    refine ⟨?_, fun h => h, .inl (Nat.le_refl _), fun h => h, ?_⟩
    · intro p q r
      rw [h] at p
      rw [k] at r
      cases m <;> simp_all [Mark.campaign]
    · intro r e
      rw [k] at r
      cases m <;> simp_all [Mark.campaign]
  unfold State.resumeTo
  dsimp only
  have e : Done s ((({ s with campaign := { s.campaign with state := m.campaign, resume := none } } :
      State).awaitMark m).report .campaign) :=
    .report (.trans (.rest (.campaign s _ c) rfl rfl rfl rfl (List.Subset.refl _) (.same rfl rfl))
      (awaitMark_effect _ _)) _
  split
  · exact e.trans (windDown_effect _)
  · exact e.reexamineAll
  · exact e.reexamineAll

theorem opening_effect (f : Fields) (s : State) : Done s (openOrder f s).1 := by
  unfold openOrder
  split
  · next h => exact (openNow_effect h).settle
  · exact .refl _

theorem closing_effect (f : Fields) (s : State) : Done s (closeOrder f s).1 := by
  unfold closeOrder
  split
  · next h => exact (turnToWindDown_effect h).settle
  · exact .refl _

theorem resuming_effect (f : Fields) (s : State) : Done s (resumeOrder f s).1 := by
  unfold resumeOrder
  split
  · next h =>
    split
    · exact .refl _
    · split
      · next m k => exact (resumeTo_effect h k).settle
      · exact .refl _
  · exact .refl _

theorem overlap_effect (f : Fields) (s : State) : Done s (overlapOrder f s).1 := by
  unfold overlapOrder
  split
  · dsimp only
    split
    · exact .refl _
    · refine Done.settle ?_
      have c : ∀ (asked eff : Bool), eff = (asked && decide (s.campaign.spareReserve < s.campaign.freeSpares)) →
          CampaignChange s.campaign { s.campaign with overlapRequested := asked, overlapEffective := eff } := by
        intro asked eff e
        exact ⟨fun p q r => ⟨p, q, r⟩, fun _ => e, .inl (Nat.le_refl _), fun h => h, fun _ h => h⟩
      unfold State.recomputeOverlap
      dsimp only
      split
      · next h => exact (Done.rest (.campaign s _ (c _ _ h)) rfl rfl rfl rfl (List.Subset.refl _)
          (.same rfl rfl)).report _
      · exact (((Done.rest (.campaign s _ (c _ _ rfl)) rfl rfl rfl rfl (List.Subset.refl _)
          (.same rfl rfl)).report .campaign).report _).handAll _
  · exact .refl _

theorem loseSupervision_effect (s : State) : Done s s.loseSupervision := by
  unfold State.loseSupervision
  split
  · exact .refl _
  · exact (Done.rest (.campaign s { s.campaign with supervisionLost := true }
      (campaign_same rfl rfl rfl rfl rfl rfl)) rfl rfl rfl rfl (List.Subset.refl _) (.same rfl rfl)).report _

theorem regainSupervision_effect (s : State) : Done s s.regainSupervision := by
  unfold State.regainSupervision
  split
  · exact ((Done.rest (.campaign s { s.campaign with supervisionLost := false }
      (campaign_same rfl rfl rfl rfl rfl rfl)) rfl rfl rfl rfl (List.Subset.refl _) (.same rfl rfl)).report _).reexamineAll
  · exact .refl _

/-! ### The option store and SET REPORTING -/

theorem sitePart_effect (f : Fields) (s : State) : Effect s (sitePartOrder f s).1 := by
  unfold sitePartOrder
  split
  · split
    · exact .refl _
    · split
      · exact .one (.store s s.store _) rfl
      · exact .refl _
  · exact .refl _

theorem commit_effect (f : Fields) (s : State) : Effect s (commitOrder f s).1 := by
  unfold commitOrder
  split
  · exact .refl _
  · split
    · exact .refl _
    · split
      · exact .refl _
      · exact .one (.store s s.store _) rfl

theorem sitePart_lawful (f : Fields) (s : State) : Lawful s (sitePartOrder f s).1 := by
  unfold sitePartOrder
  split
  · split
    · exact .refl _
    · split
      · exact .rest rfl rfl (List.Subset.refl _) rfl
      · exact .refl _
  · exact .refl _

theorem commit_lawful (f : Fields) (s : State) : Lawful s (commitOrder f s).1 := by
  unfold commitOrder
  split
  · exact .refl _
  · split
    · exact .refl _
    · split
      · exact .refl _
      · exact .rest rfl rfl (List.Subset.refl _) rfl

theorem reporting_effect (f : Fields) (s : State) : Done s (reportingOrder f s).1 := by
  unfold reportingOrder
  split
  · next flags prescale silence =>
    dsimp only
    have a := Change.port s { s.link with
      mask := maskOf flags, reports := s.link.reports.filter (maskOf flags).allows
      silenceLimit := silence, silenceExpired := false } ⟨fun h => h.filter _, fun h => h⟩
    have b := Change.scanner ({ s with link := { s.link with
      mask := maskOf flags, reports := s.link.reports.filter (maskOf flags).allows
      silenceLimit := silence, silenceExpired := false } } : State)
      { s.scanner with prescale := prescale, round := 0 }
    exact ⟨⟨.trans (.one a) (.one b), rfl, rfl, rfl⟩, .rest rfl rfl (List.Subset.refl _) rfl, .same rfl rfl⟩
  · exact .refl _

/-! ### The scanner -/

theorem setPhase_effect (s : State) (i : SectionId) (p : Phase) : Done s (s.setPhase i p) := by
  unfold State.setPhase
  dsimp only
  split
  · exact .refl _
  · refine Done.handAll (Done.report ⟨.one (.phase s i p) rfl, .same rfl rfl (List.Subset.refl _) fun j => ?_,
      .same rfl rfl⟩ _) _
    show ((s.setSec i _).sec j).state = _ ∧ _
    have g : ∀ r : Section, ∀ {α : Type} (f : Section → α), f r = f (s.sec i) →
        f ((s.setSec i r).sec j) = f (s.sec j) := by
      intro r α f e
      rw [State.sec_setSec]
      split
      · next x => rw [x]; exact e
      · rfl
    exact ⟨g _ Section.state rfl, g _ Section.holds rfl, g _ Section.heldFrom rfl, g _ Section.dutyUnits rfl⟩

theorem followPhase_effect (s : State) (i : SectionId) : Done s (s.followPhase i) := by
  unfold State.followPhase
  split
  · exact .refl _
  · exact setPhase_effect _ _ _

theorem sensorChange_effect (s : State) (i : SectionId) (old new : Validity) :
    Done s (s.sensorChange i old new) := by
  unfold State.sensorChange
  split
  · exact .moves (addReason_moves _ _ _) (addReason_lawful _ _ (by simp))
  · exact .moves (removeReason_moves _ _ _ (by simp)) (removeReason_lawful _ _ _ (by simp) (by simp))
  · exact .refl _
  · exact .refl _

theorem reportLevel_effect (s : State) (i : SectionId) : Done s (s.reportLevel i) := by
  unfold State.reportLevel
  split
  · exact .moves (report_moves _ _) (.report _ _)
  · exact .refl _

theorem takeDelivery_effect (s : State) (c : ChannelId) (old new : Channel) :
    Done s (s.takeDelivery c old new) := by
  have told : ∀ (b : Prop) [Decidable b] (t : State) (i : SectionId),
      Done t (if b then t else t.reportLevel i) := by
    intro b _ t i
    split
    · exact .refl _
    · exact reportLevel_effect _ _
  have sensed : ∀ (b : Prop) [Decidable b] (t : State) (i : SectionId) (x y : Validity),
      Done t (if b then t.sensorChange i x y else t) := by
    intro b _ t i x y
    split
    · exact sensorChange_effect _ _ _ _
    · exact .refl _
  have judged : ∀ (b : Prop) [Decidable b] (t : State) (i : SectionId),
      Done t (if b then t.reexamine i .crossing else t) := by
    intro b _ t i
    split
    · exact .moves (reexamine_moves _ _ _) (reexamine_lawful _ _ _)
    · exact .refl _
  unfold State.takeDelivery
  dsimp only
  refine .trans ?_ (judged _ _ _)
  refine .trans ?_ (told _ _ _)
  refine .trans ?_ (.moves (handAll_moves _ _) (.handAll _ _))
  exact (followPhase_effect s _).trans (sensed _ _ _ _ _)

theorem sample_effect (s : State) (c : ChannelId) (raw : Nat) : Done s (s.sample c raw) := by
  unfold State.sample
  dsimp only
  split
  · exact .rest (.scanner s _) rfl rfl rfl rfl (List.Subset.refl _) (.same rfl rfl)
  · refine Done.settle (.trans ?_ (takeDelivery_effect _ _ _ _))
    exact .rest (.scanner s _) rfl rfl rfl rfl (List.Subset.refl _) (.same rfl rfl)

/-! ### The pool -/

theorem watch_setUnit {us : UnitSupervisor} (h : us.watchLaw) {u : UnitId} {r : UnitRecord}
    (k : u ∈ us.watch → r.condition = .healthy) : (us.setUnit u r).watchLaw := by
  refine ⟨h.1, h.2.1, fun v hv => ?_⟩
  show ((us.units.set u r).get v).condition = .healthy
  rw [Table.get_set]
  split
  · next e => exact k (e ▸ hv)
  · exact h.2.2 v hv

theorem dropCovering_sameFaults (us : UnitSupervisor) (sp u : UnitId) :
    SameFaults us (us.dropCovering sp u) := by
  unfold UnitSupervisor.dropCovering
  dsimp only
  split
  · exact (uncover_sameFaults us sp u).trans (assign_sameFaults _ _ _)
  · exact (uncover_sameFaults us sp u).trans (demands_sameFaults _ _)

theorem watch_fail {us : UnitSupervisor} (secs : Table Section 24) (u : UnitId) (h : us.watchLaw) :
    (us.fail secs u).watchLaw := by
  have failed : UnitSupervisor.watchLaw
      { us.setUnit u { us.units.get u with condition := .failed, window := none } with
        watch := us.watch.filter fun w => w != u } := by
    refine ⟨(List.length_filter_le _ _).trans h.1, h.2.1.filter _, fun v hv => ?_⟩
    have m := List.mem_filter.1 hv
    show ((us.units.set u _).get v).condition = .healthy
    rw [Table.get_set, if_neg (by simpa using m.2)]
    exact h.2.2 v m.1
  unfold UnitSupervisor.fail
  dsimp only
  split
  · split
    · exact watchLaw_of_same (requestCoverage_sameFaults _ _) failed
    · exact failed
  · exact watchLaw_of_same (dropCovering_sameFaults _ _ _) failed
  · exact failed
  · exact h

theorem watch_faultActive {us : UnitSupervisor} (secs : Table Section 24) (u : UnitId)
    (h : us.watchLaw) : (us.faultActive secs u).watchLaw := by
  have marked : (us.setUnit u { us.units.get u with faultActive := true }).watchLaw :=
    watch_setUnit h fun m => h.2.2 u m
  unfold UnitSupervisor.faultActive
  dsimp only
  split
  · exact marked
  · split
    · next k =>
      refine watch_setUnit marked fun m => ?_
      simp only [Bool.and_eq_true, Bool.not_eq_true', List.contains_eq_mem, decide_eq_false_iff_not] at k
      exact absurd m k.2
    · exact watch_fail _ _ marked
  · exact marked
  · exact marked

theorem watch_faultInactive {us : UnitSupervisor} (u : UnitId) (h : us.watchLaw) :
    (us.faultInactive u).watchLaw := by
  have marked : (us.setUnit u { us.units.get u with faultActive := false }).watchLaw :=
    watch_setUnit h fun m => h.2.2 u m
  unfold UnitSupervisor.faultInactive
  dsimp only
  generalize us.setUnit u { us.units.get u with faultActive := false } = a at marked
  split
  · exact marked
  · next k _ =>
    refine watchLaw_of_same (offer_sameFaults _ _) ?_
    have n : u ∉ a.watch := fun m => by
      have := marked.2.2 u m
      rw [k] at this
      exact absurd this (by decide)
    have nodup : (a.watch ++ [u]).Nodup := by
      rw [List.nodup_append]
      refine ⟨marked.2.1, List.nodup_singleton _, fun x hx y hy e => ?_⟩
      simp only [List.mem_singleton] at hy
      subst e hy
      exact n hx
    have sub : (joinWatch u a.watch).Sublist (a.watch ++ [u]) := by
      unfold joinWatch
      split
      · exact List.Sublist.refl _
      · exact List.tail_sublist _
    refine ⟨?_, nodup.sublist sub, fun v hv => ?_⟩
    · show (joinWatch u a.watch).length ≤ 16
      unfold joinWatch Config.watchList
      split
      · next h => simp only [List.length_append, List.length_singleton]; omega
      · simp only [List.length_tail, List.length_append, List.length_singleton]
        have := marked.1
        omega
    · show ((a.units.set u _).get v).condition = .healthy
      rw [Table.get_set]
      split
      · rfl
      · next ne =>
        rcases List.mem_append.1 (sub.subset hv) with m | m
        · exact marked.2.2 v m
        · exact absurd (List.mem_singleton.1 m) ne
  · exact marked
  · exact marked

theorem watch_giveBack {us : UnitSupervisor} (u : UnitId) (h : us.watchLaw) :
    (us.giveBack u).watchLaw := by
  have well : (us.setUnit u { us.units.get u with condition := .healthy, window := none }).watchLaw :=
    watch_setUnit h fun _ => rfl
  unfold UnitSupervisor.giveBack
  dsimp only
  split
  · exact watchLaw_of_same ((uncover_sameFaults _ _ _).trans (offer_sameFaults _ _)) well
  · exact watchLaw_of_same (demands_sameFaults _ _) well
  · exact watchLaw_of_same (offer_sameFaults _ _) well
  · exact h

theorem returning_effect (f : Fields) (s : State) : Done s (returnOrder f s).1 := by
  unfold returnOrder
  split
  · split
    · exact .refl _
    · dsimp only
      split
      · exact .refl _
      · split
        · exact .refl _
        · split
          · exact .refl _
          · next failed =>
            exact (supervise_effect (watch_giveBack _) fun law =>
              giveBack_kept _ law (Decidable.not_not.1 failed)).settle
  · exact .refl _

theorem setUnits_effect (s : State) (i : SectionId) (minimum reserve window : Nat) :
    Done s (s.setUnits i minimum reserve window) := by
  refine ⟨?_, setUnits_lawful _ _ _ _ _, .trans (t := s.setSec i _) (.same rfl rfl) (putUnits_stored _ _)⟩
  unfold State.setUnits
  dsimp only
  refine .trans (setting_effect (r := { s.sec i with minUnits := minimum }) (by constructor <;> rfl)).effect ?_
  exact units_effect (us := { s.supervisor with reserve := reserve, window := window }) fun h => h

theorem unitsOrder_effect (f : Fields) (s : State) : Done s (unitsOrder f s).1 := by
  unfold unitsOrder
  split
  · split
    · exact .refl _
    · split
      · exact .refl _
      · exact (setUnits_effect _ _ _ _ _).settle
  · exact .refl _

end Sys2Proof.Machine
end

