-- ==== Sys2Proof/Laws/StepChanges.lean ====
section
/-! SUPPORT. Trip groups as changes, and every step as changes. -/

namespace Sys2Proof.Machine

/-! ### Trip groups -/

/-- R147 for one group of a trip unit. -/
def TripUnit.groupLaw (t : TripUnit) (g : GroupId) : Prop :=
  (t.groups.get g).activeInputs = t.activeOf (t.groups.get g).inputs ∧
    ((t.groups.get g).state = .normal →
      (t.groups.get g).firstCause = none ∧ (t.groups.get g).forced = false ∧
        (t.groups.get g).activeInputs = [])

theorem tripLaw_iff (s : State) : s.tripLaw ↔ ∀ g, s.trips.groupLaw g := Iff.rfl

/-- A group record written that keeps its own part of the law keeps the law of the others. -/
theorem setGroup_groupLaw {s : State} {g h : GroupId} {r : TripGroup}
    (k : h ≠ g → s.trips.groupLaw h)
    (own : r.activeInputs = s.trips.activeOf r.inputs ∧
      (r.state = .normal → r.firstCause = none ∧ r.forced = false ∧ r.activeInputs = [])) :
    (s.setGroup g r).trips.groupLaw h := by
  unfold TripUnit.groupLaw State.setGroup
  dsimp only
  rw [Table.get_set]
  split
  · exact own
  · next e => exact k e

theorem setGroup_other {s : State} {g h : GroupId} {r : TripGroup} (ne : h ≠ g)
    (k : s.trips.groupLaw h) : (s.setGroup g r).trips.groupLaw h := by
  unfold TripUnit.groupLaw State.setGroup
  dsimp only
  rw [Table.get_set, if_neg ne]
  exact k

/-- A group record written with the members and the input set that the group had, or with sets in order. -/
theorem setGroup_sets {s : State} {g : GroupId} {r : TripGroup}
    (h : (r.members = (s.group g).members ∧ r.inputs = (s.group g).inputs) ∨ r.setsOrdered) :
    SetsKept s.trips (s.setGroup g r).trips := by
  intro k
  unfold State.setGroup
  dsimp only
  rw [Table.get_set]
  split
  · next e => subst e; exact h
  · exact .inl ⟨rfl, rfl⟩

/-- A change of the trip unit, with what it hands on and reports, and nothing else. -/
def TripForm (s t : State) : Prop :=
  SetsKept s.trips t.trips ∧ ∃ ds ks, t = { s with
    trips := t.trips, work := s.work ++ ds, link := List.foldl LinkPort.report s.link ks }

/-- A change of one group that keeps its part of the law. -/
structure GroupChange (s : State) (g : GroupId) (t : State) : Prop where
  trips : ∃ r, t.trips = (s.setGroup g r).trips ∧
    (s.trips.activeOf r.inputs = r.activeInputs ∧
      (r.state = .normal → r.firstCause = none ∧ r.forced = false ∧ r.activeInputs = []))
  form : TripForm s t

theorem GroupChange.law {s t : State} {g : GroupId} (c : GroupChange s g t) {h : GroupId}
    (k : h ≠ g → s.trips.groupLaw h) : t.trips.groupLaw h := by
  obtain ⟨r, e, own⟩ := c.trips
  rw [e]
  exact setGroup_groupLaw k ⟨own.1.symm, own.2⟩

theorem GroupChange.inputs {s t : State} {g : GroupId} (c : GroupChange s g t) :
    t.trips.inputs = s.trips.inputs := by
  obtain ⟨r, e, _⟩ := c.trips
  rw [e]
  rfl

theorem tripGroup_change (s : State) (g : GroupId) (cause : FirstCause) (active : List InputId)
    (forced : Bool) (h : active = s.trips.activeOf (s.group g).inputs) :
    GroupChange s g (s.tripGroup g cause active forced) :=
  ⟨⟨{ s.group g with state := .tripped, firstCause := some cause, activeInputs := active, forced := forced },
    rfl, h.symm, fun e => absurd e (by simp)⟩, setGroup_sets (.inl ⟨rfl, rfl⟩), _, [.trip g], rfl⟩

theorem clearGroup_change (s : State) (g : GroupId) (h : s.trips.activeOf (s.group g).inputs = []) :
    GroupChange s g (s.clearGroup g) :=
  ⟨⟨{ s.group g with state := .normal, firstCause := none, activeInputs := [], forced := false },
    rfl, h, fun _ => ⟨rfl, rfl, rfl⟩⟩, setGroup_sets (.inl ⟨rfl, rfl⟩), _, [.trip g], rfl⟩

theorem groupInputActive_change (s : State) (i : InputId) (g : GroupId) :
    GroupChange s g (s.groupInputActive i g) := by
  unfold State.groupInputActive
  dsimp only
  split
  · exact tripGroup_change _ _ _ _ _ rfl
  · next e =>
    exact ⟨⟨{ s.group g with activeInputs := s.trips.activeOf (s.group g).inputs }, rfl, rfl,
      fun n => absurd (e.symm.trans n) (by simp)⟩, setGroup_sets (.inl ⟨rfl, rfl⟩), [], [.trip g], by
        rw [List.append_nil]; rfl⟩

theorem groupInputInactive_change (s : State) (g : GroupId)
    (h : (s.group g).state = .normal → (s.group g).firstCause = none ∧ (s.group g).forced = false ∧
      s.trips.activeOf (s.group g).inputs = []) :
    GroupChange s g (s.groupInputInactive g) := by
  have left : GroupChange s g ((s.setGroup g
      { s.group g with activeInputs := s.trips.activeOf (s.group g).inputs }).report (.trip g)) :=
    ⟨⟨{ s.group g with activeInputs := s.trips.activeOf (s.group g).inputs }, rfl, rfl,
      fun n => ⟨(h n).1, (h n).2.1, (h n).2.2⟩⟩, setGroup_sets (.inl ⟨rfl, rfl⟩), [], [.trip g],
      by rw [List.append_nil]; rfl⟩
  unfold State.groupInputInactive
  dsimp only
  split
  · next c =>
    have e : ((s.setGroup g { s.group g with activeInputs := s.trips.activeOf (s.group g).inputs }).report
        (.trip g)).group g = { s.group g with activeInputs := s.trips.activeOf (s.group g).inputs } := by
      show (s.trips.groups.set g _).get g = _
      rw [Table.get_set_self]
    have cl := clearGroup_change ((s.setGroup g
      { s.group g with activeInputs := s.trips.activeOf (s.group g).inputs }).report (.trip g)) g
      (by rw [e]; exact c.2.2.2)
    refine ⟨⟨{ s.group g with state := .normal, firstCause := none, activeInputs := [], forced := false },
      ?_, c.2.2.2, fun _ => ⟨rfl, rfl, rfl⟩⟩, ?_⟩
    · unfold State.clearGroup
      dsimp only
      rw [e]
      show ({ s.trips with groups := (s.trips.groups.set g _).set g _ } : TripUnit) = _
      rw [Table.set_set]
      rfl
    · obtain ⟨sets, ds, ks, e2⟩ := cl.form
      exact ⟨left.form.1.trans sets, ds, .trip g :: ks, e2⟩
  · exact left

theorem TripForm.refl (s : State) : TripForm s s := ⟨.refl _, [], [], by rw [List.append_nil]; rfl⟩

theorem TripForm.trans {s t u : State} (h : TripForm s t) (k : TripForm t u) : TripForm s u := by
  obtain ⟨s1, d1, k1, e1⟩ := h
  obtain ⟨s2, d2, k2, e2⟩ := k
  refine ⟨s1.trans s2, d1 ++ d2, k1 ++ k2, ?_⟩
  rw [e2, e1, List.append_assoc, List.foldl_append]

theorem TripForm.fold {f : State → GroupId → State} (h : ∀ s g, TripForm s (f s g)) (l : List GroupId)
    (s : State) : TripForm s (l.foldl f s) := by
  induction l generalizing s with
  | nil => exact .refl _
  | cons g l ih => exact (h s g).trans (ih _)

/-- The event of one input, taken by each group that holds it. -/
theorem groupFold_law (f : State → GroupId → State) (P : State → GroupId → Prop)
    (one : ∀ s g, P s g → GroupChange s g (f s g))
    (other : ∀ s g h, h ≠ g → GroupChange s g (f s g) → P s h → P (f s g) h)
    (l : List GroupId) (nodup : l.Nodup) (s : State) (h : ∀ g ∈ l, P s g) :
    ∀ g, (g ∉ l → s.trips.groupLaw g) → (l.foldl f s).trips.groupLaw g := by
  induction l generalizing s with
  | nil => exact fun g k => k (by simp)
  | cons g l ih =>
    have c := one s g (h g List.mem_cons_self)
    have n := List.nodup_cons.1 nodup
    have law := ih n.2 (f s g) (fun k hk =>
      other s g k (fun e => n.1 (e ▸ hk)) c (h k (List.mem_cons_of_mem _ hk)))
    refine fun k hk => law k fun nk => c.law fun ne => hk fun hm => ?_
    rcases List.mem_cons.1 hm with e | e
    · exact ne e
    · exact nk e

theorem foldReport_effect (ks : List ReportKey) (s : State) :
    Done s { s with link := List.foldl LinkPort.report s.link ks } := by
  induction ks generalizing s with
  | nil => exact .refl _
  | cons k ks ih => exact ((Done.refl s).report k).trans (ih (s.report k))

/-- A change of the trip unit that keeps its law, with what it hands on and reports. -/
theorem trips_effect {s t : State} (law : s.tripLaw → ∀ g, t.trips.groupLaw g)
    (form : TripForm s t) : Done s t := by
  obtain ⟨sets, ds, ks, e⟩ := form
  rw [e]
  have a : Done s { s with trips := t.trips } :=
    .rest (.trips s t.trips (fun h => law h) sets) rfl rfl rfl rfl (List.Subset.refl _) (.same rfl rfl)
  exact (a.handAll ds).trans (foldReport_effect ks _)

theorem groupChange_effect {s t : State} {g : GroupId} (c : s.tripLaw → GroupChange s g t)
    (form : TripForm s t) : Done s t :=
  trips_effect (fun h k => (c h).law fun _ => h k) form

theorem activeOf_setInput {t : TripUnit} {i : InputId} {r : TripInput} {inputs : List InputId}
    (h : i ∉ inputs) : TripUnit.activeOf { t with inputs := t.inputs.set i r } inputs = t.activeOf inputs := by
  unfold TripUnit.activeOf
  refine List.filter_congr fun k hk => ?_
  dsimp only
  rw [Table.get_set, if_neg (fun e : k = i => h (e ▸ hk))]

theorem groupsOf_nodup (s : State) (i : InputId) : (s.groupsOf i).Nodup := (List.nodup_finRange 4).filter _

theorem mem_groupsOf {s : State} {i : InputId} {g : GroupId} :
    g ∈ s.groupsOf i ↔ i ∈ (s.group g).inputs := by
  simp [State.groupsOf]

/-- The law of the groups that a changed input does not touch. -/
theorem groupLaw_setInput {s : State} {i : InputId} {r : TripInput} {g : GroupId}
    (h : s.trips.groupLaw g) (k : i ∉ (s.group g).inputs) : (s.setInput i r).trips.groupLaw g := by
  exact ⟨h.1.trans (activeOf_setInput k).symm, h.2⟩

theorem groupInputInactive_form (s : State) (g : GroupId) : TripForm s (s.groupInputInactive g) := by
  unfold State.groupInputInactive
  dsimp only
  split
  · refine ⟨?_, _, [.trip g, .trip g], rfl⟩
    exact (setGroup_sets (r := { s.group g with activeInputs := s.trips.activeOf (s.group g).inputs })
      (.inl ⟨rfl, rfl⟩)).trans (setGroup_sets (.inl ⟨rfl, rfl⟩))
  · exact ⟨setGroup_sets (.inl ⟨rfl, rfl⟩), [], [.trip g], by rw [List.append_nil]; rfl⟩

/-- What is asked of a group before it takes the event that an input has become inactive. -/
def State.calm (s : State) (g : GroupId) : Prop :=
  (s.group g).state = .normal → (s.group g).firstCause = none ∧ (s.group g).forced = false ∧
    s.trips.activeOf (s.group g).inputs = []

theorem calm_other (s : State) (g h : GroupId) (ne : h ≠ g)
    (c : GroupChange s g (s.groupInputInactive g)) (k : s.calm h) : (s.groupInputInactive g).calm h := by
  obtain ⟨r, e, _⟩ := c.trips
  unfold State.calm State.group at *
  rw [e]
  unfold State.setGroup
  dsimp only
  rw [Table.get_set, if_neg ne]
  exact k

theorem setInput_effect {s : State} {i : InputId} {r : TripInput} {f : State → GroupId → State}
    (form : ∀ s g, TripForm s (f s g))
    (law : s.tripLaw → ∀ (t : State) (l : List GroupId), t.trips = (s.setInput i r).trips →
      l.Perm (s.groupsOf i) → ∀ g, (g ∉ l → t.trips.groupLaw g) → (l.foldl f t).trips.groupLaw g) :
    Done s ((State.shuffle ((s.setInput i r).groupsOf i) (s.setInput i r)).1.foldl f
      (State.shuffle ((s.setInput i r).groupsOf i) (s.setInput i r)).2) := by
  have e := shuffle_eq ((s.setInput i r).groupsOf i) (s.setInput i r)
  have p := shuffle_perm ((s.setInput i r).groupsOf i) (s.setInput i r)
  generalize State.shuffle ((s.setInput i r).groupsOf i) (s.setInput i r) = sh at e p
  have first : Done s { s with order := sh.2.order, drawn := sh.2.drawn } :=
    .moves (.one (.order s _ _)) (.rest rfl rfl (List.Subset.refl _) rfl)
  refine first.trans (trips_effect (fun h g => ?_) ?_)
  · refine law h sh.2 sh.1 (by rw [e]) p g fun n => ?_
    rw [e]
    refine groupLaw_setInput (h g) fun k => n ?_
    rw [p.mem_iff]
    exact mem_groupsOf.2 k
  · obtain ⟨sets, ds, ks, q⟩ := TripForm.fold form sh.1 sh.2
    refine ⟨?_, ds, ks, ?_⟩
    · have from_ : sh.2.trips = (s.setInput i r).trips := by rw [e]
      rw [from_] at sets
      exact sets
    rw [q, e]
    rfl

theorem inputActive_effect (s : State) (i : InputId) : Done s (s.inputActive i) := by
  unfold State.inputActive
  dsimp only
  refine Done.settle (setInput_effect (fun s g => (groupInputActive_change s i g).form) ?_)
  intro _ t l _ p
  exact groupFold_law _ (fun _ _ => True) (fun s g _ => groupInputActive_change s i g)
    (fun _ _ _ _ _ _ => trivial) l (p.nodup_iff.2 (groupsOf_nodup _ _)) t (fun _ _ => trivial)

theorem inputInactive_effect (s : State) (i : InputId) : Done s (s.inputInactive i) := by
  unfold State.inputInactive
  dsimp only
  refine Done.settle (setInput_effect groupInputInactive_form ?_)
  intro h t l e p
  refine groupFold_law _ State.calm groupInputInactive_change calm_other l
    (p.nodup_iff.2 (groupsOf_nodup _ _)) t fun g _ n => ?_
  unfold State.group at n ⊢
  rw [e] at n ⊢
  obtain ⟨a, b, c⟩ := (h g).2 n
  refine ⟨a, b, ?_⟩
  rw [(h g).1] at c
  refine List.filter_eq_nil_iff.2 fun k hk => ?_
  have old : (s.trips.inputs.get k).active ≠ true := List.filter_eq_nil_iff.1 c k hk
  show ((s.trips.inputs.set i _).get k).active ≠ true
  rw [Table.get_set]
  split
  · simp [TripInput.becoming]
  · exact old

theorem budgeting_effect (f : Fields) (s : State) : Done s (budgetOrder f s).1 := by
  unfold budgetOrder
  split
  · exact Done.settle ⟨steam_effect (setHost_law _ _), setHost_lawful _ _, steamChange_stored _ _⟩
  · exact .refl _

theorem forceGroup_form (s : State) (g : GroupId) : TripForm s (s.forceGroup g) := by
  unfold State.forceGroup
  dsimp only
  split
  · exact ⟨setGroup_sets (.inl ⟨rfl, rfl⟩), _, [.trip g], rfl⟩
  · split
    · exact .refl _
    · exact ⟨setGroup_sets (.inl ⟨rfl, rfl⟩), [], [.trip g], by rw [List.append_nil]; rfl⟩

theorem forcing_effect (f : Fields) (s : State) : Done s (forceOrder f s).1 := by
  unfold forceOrder
  split
  · split
    · exact .refl _
    · next g _ =>
      refine Done.settle (trips_effect (fun h k => ?_) (forceGroup_form s g))
      unfold State.forceGroup
      dsimp only
      split
      · exact (tripGroup_change s g _ _ _ (h g).1).law fun _ => h k
      · next n =>
        split
        · exact h k
        · exact setGroup_groupLaw (fun _ => h k) ⟨(h g).1, fun e => absurd (n.symm.trans e) (by simp)⟩
  · exact .refl _

theorem clearing_effect (f : Fields) (s : State) : Done s (clearOrder f s).1 := by
  unfold clearOrder
  split
  · split
    · exact .refl _
    · next g _ =>
      split
      · exact .refl _
      · split
        · exact .refl _
        · next a =>
          have c := clearGroup_change s g (by simpa using a)
          exact Done.settle (trips_effect (fun h k => c.law fun _ => h k) c.form)
  · exact .refl _

theorem configureGroup_form (s : State) (g : GroupId) (members : List SectionId) (inputs : List InputId)
    (mode : TripMode) (cap : Option Nat) (hm : members.Pairwise (· < ·)) (hi : inputs.Pairwise (· < ·)) :
    TripForm s (s.configureGroup g members inputs mode cap) := by
  unfold State.configureGroup
  dsimp only
  have sets := fun active => setGroup_sets (s := s) (g := g)
    (r := { s.group g with members, inputs, mode, cap, activeInputs := active }) (.inr ⟨hm, hi⟩)
  split
  · exact ⟨sets _, [], [.trip g], by rw [List.append_nil]; rfl⟩
  · exact ⟨(sets _).trans (setGroup_sets (.inl ⟨rfl, rfl⟩)), _, [.trip g], rfl⟩

/-- R154: the ids named in a list stand in ascending order, each once. -/
theorem idsNamed_ordered (n : Nat) (ids : List Nat) : (idsNamed n ids).Pairwise (· < ·) :=
  (List.pairwise_lt_finRange n).filter _

theorem grouping_effect (f : Fields) (s : State) : Done s (groupOrder f s).1 := by
  unfold groupOrder
  split
  · next id members inputs mode p cap =>
    split
    · exact .refl _
    · next g _ =>
      split
      · exact .refl _
      · split
        · exact .refl _
        · split
          · exact .refl _
          · next n =>
            refine Done.settle (trips_effect (fun h k => ?_) (configureGroup_form _ _ _ _ _ _
              (idsNamed_ordered _ _) (idsNamed_ordered _ _)))
            have st : (s.group g).state = .normal := by
              cases q : (s.group g).state
              · rfl
              · exact absurd q n
            unfold State.configureGroup
            dsimp only
            split
            · next e =>
              exact setGroup_groupLaw (fun _ => h k)
                ⟨rfl, fun _ => ⟨((h g).2 st).1, ((h g).2 st).2.1, e⟩⟩
            · next e =>
              refine (tripGroup_change _ g _ _ _ ?_).law fun ne => ?_
              · show _ = TripUnit.activeOf _ ((s.trips.groups.set g _).get g).inputs
                rw [Table.get_set_self]
                rfl
              · exact setGroup_other ne (h k)
  · exact .refl _

/-! ### The link port -/

theorem port_effect {s : State} (l : LinkPort) (h : PortChange s.link l) : Steps s { s with link := l } :=
  .rest (.port s l h) rfl rfl rfl (List.Subset.refl _)

/-- An answer sent back, or awaited, for the request at the head of the buffer. -/
theorem conclude_steps {s : State} (t : Telegram) (v : Verdict) (h : s.link.answers.length < 4)
    (k : s.link.awaited = none) : Steps s (s.conclude t v) := by
  have ans : ∀ a : Telegram, PortChange s.link (s.link.answer a) := by
    intro a
    refine ⟨fun h => h, fun b => ?_⟩
    unfold LinkPort.answer
    simp only [List.length_tail, List.length_append, List.length_singleton, k, Option.isSome_none,
      Bool.false_eq_true, if_false] at b ⊢
    omega
  unfold State.conclude
  split
  · exact port_effect _ (ans _)
  · exact port_effect _ (ans _)
  · refine port_effect _ ⟨fun h => h, fun b => ?_⟩
    simp only [k, Option.isSome_none, Bool.false_eq_true, if_false, Option.isSome_some, if_true] at b ⊢
    omega

theorem ready_spec {l : LinkPort} {t : Telegram} (h : l.ready = some t) :
    l.answers.length < 4 ∧ l.awaited = none ∧ l.requests.head? = some t := by
  unfold LinkPort.ready at h
  split at h
  · next c =>
    simp only [Bool.and_eq_true, Option.isNone_iff_eq_none, decide_eq_true_eq] at c
    exact ⟨c.2, c.1, h⟩
  · exact absurd h (by simp)

/-- A request handled by an owner whose work is an effect. -/
theorem handle_steps {s : State} {t : Telegram} {owner : Owner} (kind : RequestKind)
    (h : s.link.ready = some t) (e : ∀ f s, Effect s (owner f s).1 ∧ Lawful s (owner f s).1) :
    Steps s (s.handle t kind owner) := by
  obtain ⟨a, b, _⟩ := ready_spec h
  unfold State.handle
  split
  · exact conclude_steps _ _ a b
  · next f _ =>
    split
    · have k := e f s
      exact Steps.trans ⟨k.1.changes, k.2⟩
        (conclude_steps _ _ (by rw [k.1.answers]; exact a) (by rw [k.1.awaited]; exact b))
    · exact conclude_steps _ _ a b

theorem takeWork_steps {s : State} {owner : Owner} (kind : RequestKind)
    (e : ∀ f s, Effect s (owner f s).1 ∧ Lawful s (owner f s).1) : Steps s (s.takeRequest kind owner) := by
  unfold State.takeRequest
  split
  · exact .refl _
  · next t h =>
    split
    · exact handle_steps kind h e
    · exact .refl _

theorem takeRequest_steps {s : State} {owner : Owner} (kind : RequestKind)
    (e : ∀ f s, Done s (owner f s).1) : Steps s (s.takeRequest kind owner) :=
  takeWork_steps kind fun f s => ⟨(e f s).effect, (e f s).lawful⟩

theorem takeMode_steps {s : State} {owner : Owner} (campaign : Bool)
    (e : ∀ f s, Done s (owner f s).1) : Steps s (s.takeMode campaign owner) := by
  unfold State.takeMode
  split
  · exact .refl _
  · next t h =>
    split
    · exact handle_steps .setMode h fun f s => ⟨(e f s).effect, (e f s).lawful⟩
    · exact .refl _

theorem takeUnknown_steps (s : State) : Steps s s.takeUnknown := by
  unfold State.takeUnknown
  split
  · exact .refl _
  · next t h =>
    split
    · obtain ⟨a, b, _⟩ := ready_spec h
      exact conclude_steps _ _ a b
    · exact .refl _

theorem completeAwaited_steps {s : State} {w : Awaited} (h : s.link.awaited = some w) :
    Steps s (s.completeAwaited w) := by
  unfold State.completeAwaited
  dsimp only
  split
  · refine port_effect _ ⟨fun h => h, fun b => ?_⟩
    simp only [h, Option.isSome_none, Bool.false_eq_true, if_false, Option.isSome_some, if_true] at b ⊢
    omega
  · refine port_effect _ ⟨fun h => h, fun b => ?_⟩
    unfold LinkPort.answer
    simp only [h, Option.isSome_none, Bool.false_eq_true, if_false, Option.isSome_some, if_true,
      List.length_tail, List.length_append, List.length_singleton] at b ⊢
    omega

theorem setReceiver_steps (s : State) (r : Receiver) : Steps s (s.setReceiver r) :=
  port_effect _ ⟨fun h => h, fun h => h⟩

theorem takeTelegram_steps (s : State) (t : Telegram) : Steps s (s.takeTelegram t) := by
  unfold State.takeTelegram
  dsimp only
  have a : Steps s { s with link := { s.link with receiver := .hunting, silenceExpired := false } } :=
    port_effect _ ⟨fun h => h, fun h => h⟩
  refine (a.trans (regainSupervision_effect _).steps).trans (.trans ?_ (.settle _))
  refine port_effect _ ?_
  unfold LinkPort.buffer Config.requestBuffer
  split
  · refine ⟨fun h => h, fun b => ⟨?_, b.2⟩⟩
    simp only [List.length_append, List.length_singleton]
    omega
  · exact ⟨fun h => h, fun h => h⟩

theorem restart_steps (s : State) : Steps s { s with link := s.link.restart } := by
  refine port_effect _ ⟨fun _ => report_nodup _ List.nodup_nil, fun _ => ?_⟩
  unfold LinkPort.restart LinkPort.report
  dsimp only
  split <;> cases s.link.awaited <;> simp

theorem transmit_steps (s : State) : Steps s s.transmit := by
  unfold State.transmit
  split
  · next a rest _ e =>
    refine port_effect _ ⟨fun h => h, fun b => ?_⟩
    rw [e, List.length_cons] at b
    exact ⟨b.1, by have := b.2; dsimp only at this ⊢; omega⟩
  · next k rest _ e =>
    refine port_effect _ ⟨fun h => ?_, fun h => h⟩
    rw [e] at h
    exact (List.nodup_cons.1 h).2
  · exact port_effect _ ⟨fun h => h, fun h => h⟩

/-! ### Every step -/

theorem query_effect {owner : Owner} (h : ∀ f s, (owner f s).1 = s) (f : Fields) (s : State) :
    Done s (owner f s).1 := by rw [h]; exact .refl _

/-! ### Queries leave the state -/

theorem sectionQuery_same (f : Fields) (s : State) : (sectionQuery f s).1 = s := by
  unfold sectionQuery
  split <;> first | rfl | (split <;> rfl)

theorem unitQuery_same (f : Fields) (s : State) : (unitQuery f s).1 = s := by
  unfold unitQuery
  split <;> first | rfl | (split <;> rfl)

theorem captureQuery_same (f : Fields) (s : State) : (captureQuery f s).1 = s := by
  unfold captureQuery
  split <;> first | rfl | (split <;> rfl)

theorem channelQuery_same (f : Fields) (s : State) : (channelQuery f s).1 = s := by
  unfold channelQuery
  split <;> first | rfl | (split <;> rfl)

theorem sitePartQuery_same (f : Fields) (s : State) : (sitePartQuery f s).1 = s := by
  unfold sitePartQuery
  split <;> first | rfl | (split <;> first | rfl | (split <;> rfl))

theorem powering_steps {s : State} {act : State → State} (h : Steps s (act s)) :
    Steps s (s.powering act) := by
  unfold State.powering
  split
  · exact h
  · exact .refl _

/-- What an outcome says of the state that follows: nothing where there is none. -/
def Answers (s : State) : Host.Outcome State Fault Refusal → Prop
  | .next t => Steps s t
  | .fault _ => True
  | .refused _ => True

theorem markWritten_steps (s : State) (v : Mark) : Steps s (s.markWritten v) :=
  .rest (.store s _ _) rfl rfl rfl (List.Subset.refl _)

theorem markReported_steps (s : State) (v : Mark) : Steps s (s.markReported v) := by
  unfold State.markReported
  split
  · have a : Steps s { s with campaign := { s.campaign with pendingMark := none } } :=
      .rest (.campaign s _ (campaign_same rfl rfl rfl rfl rfl rfl)) rfl rfl rfl (List.Subset.refl _)
    dsimp only
    split
    · next w e =>
      split
      · exact a.trans (completeAwaited_steps e)
      · exact a
    · exact a
  · exact .refl _

theorem clock_steps (s : State) :
    Steps s { s with campaign := { s.campaign with clock := advanced s.campaign.clock } } := by
  refine .rest (.campaign s _ ⟨fun p q r => ⟨p, q, r⟩, fun h => h, ?_, fun _ => Nat.min_le_right _ _,
    fun _ h => h⟩) rfl rfl rfl (List.Subset.refl _)
  unfold advanced Config.maxTime
  dsimp only
  omega

/-- Every command but POWER_UP is made of changes. -/
theorem exec_steps (c : Instr) (s : State) (running : ∀ f l, c ≠ .powerUp f l) : Answers s (exec c s) := by
  cases c with
  | powerUp f l => exact absurd rfl (running f l)
  | telegramReceived kind tag body check =>
    refine powering_steps (act := fun s => _) ?_
    split
    · exact .refl _
    · split
      · exact takeTelegram_steps _ _
      · exact setReceiver_steps _ _
  | interByteTimeout late =>
    refine powering_steps (act := fun s => _) ?_
    split
    · exact .refl _
    · exact setReceiver_steps _ _
  | lineBreak =>
    refine powering_steps (act := fun s => _) ?_
    split
    · exact .refl _
    · exact restart_steps _
  | silenceExpiry =>
    refine powering_steps (act := fun s => _) ?_
    split
    · exact .trans (t := { s with link := { s.link with silenceExpired := true } })
        (port_effect _ ⟨fun h => h, fun h => h⟩) (loseSupervision_effect _).steps
    · exact .refl _
  | transmitNextTelegram => exact powering_steps (transmit_steps s)
  | unknownKindRequest => exact powering_steps (takeUnknown_steps s)
  | readIdent => exact powering_steps (takeRequest_steps _ (query_effect fun _ _ => rfl))
  | readCampaign => exact powering_steps (takeRequest_steps _ (query_effect fun _ _ => rfl))
  | readSection =>
    exact powering_steps (takeRequest_steps _ (query_effect sectionQuery_same))
  | readSteam => exact powering_steps (takeRequest_steps _ (query_effect fun _ _ => rfl))
  | readUnit =>
    exact powering_steps (takeRequest_steps _ (query_effect unitQuery_same))
  | readTrips => exact powering_steps (takeRequest_steps _ (query_effect fun _ _ => rfl))
  | readCapture =>
    exact powering_steps (takeRequest_steps _ (query_effect captureQuery_same))
  | readChannel =>
    exact powering_steps (takeRequest_steps _ (query_effect channelQuery_same))
  | readSiteRecord =>
    exact powering_steps (takeRequest_steps _ (query_effect sitePartQuery_same))
  | openCampaign => exact powering_steps (takeRequest_steps _ opening_effect)
  | closeCampaign => exact powering_steps (takeRequest_steps _ closing_effect)
  | resumeCampaign => exact powering_steps (takeRequest_steps _ resuming_effect)
  | advance => exact powering_steps (takeRequest_steps _ advance_effect)
  | hold => exact powering_steps (takeRequest_steps _ hold_effect)
  | release => exact powering_steps (takeRequest_steps _ release_effect)
  | adopt => exact powering_steps (takeRequest_steps _ adopting_effect)
  | excludeSection => exact powering_steps (takeRequest_steps _ excluding_effect)
  | includeSection => exact powering_steps (takeRequest_steps _ including_effect)
  | setLinks => exact powering_steps (takeRequest_steps _ links_effect)
  | setLimits => exact powering_steps (takeRequest_steps _ limits_effect)
  | setTiming => exact powering_steps (takeRequest_steps _ timing_effect)
  | setModeSection => exact powering_steps (takeMode_steps _ mode_effect)
  | setModeCampaign => exact powering_steps (takeMode_steps _ overlap_effect)
  | setBudget => exact powering_steps (takeRequest_steps _ budgeting_effect)
  | liftCeiling => exact powering_steps (takeRequest_steps _ lift_effect)
  | returnUnit => exact powering_steps (takeRequest_steps _ returning_effect)
  | setUnits => exact powering_steps (takeRequest_steps _ unitsOrder_effect)
  | setGroup => exact powering_steps (takeRequest_steps _ grouping_effect)
  | forceTrip => exact powering_steps (takeRequest_steps _ forcing_effect)
  | clearTrip => exact powering_steps (takeRequest_steps _ clearing_effect)
  | setCapture => exact powering_steps (takeRequest_steps _ capture_effect)
  | setReporting => exact powering_steps (takeRequest_steps _ reporting_effect)
  | writeSitePart => exact powering_steps (takeWork_steps _ fun f s => ⟨sitePart_effect f s, sitePart_lawful f s⟩)
  | commitSiteRecord => exact powering_steps (takeWork_steps _ fun f s => ⟨commit_effect f s, commit_lawful f s⟩)
  | siteRecordWriteDone =>
    refine powering_steps (act := fun s => _) ?_
    have a : Steps s s.siteWritten := .rest (.store s _ _) rfl rfl rfl (List.Subset.refl _)
    split
    · split
      · next w e =>
        split
        · exact a.trans (completeAwaited_steps e)
        · exact a
      · exact a
    · exact .refl _
  | markWriteComplete =>
    refine powering_steps (act := fun s => _) ?_
    split
    · exact .refl _
    · exact (markWritten_steps _ _).trans (markReported_steps _ _)
  | clockAdvance =>
    refine powering_steps (act := fun s => _) ?_
    split
    · exact .refl _
    · exact clock_steps _
  | conditioningExpiry k =>
    show Answers s (execConditioningExpiry k s)
    unfold execConditioningExpiry
    split
    · trivial
    · refine powering_steps (act := fun s => _) ?_
      split
      · exact (Done.moves (reexamine_moves _ _ _) (reexamine_lawful _ _ _)).settle.steps
      · exact .refl _
  | lagCompletion k l =>
    show Answers s (execLagCompletion k l s)
    unfold execLagCompletion
    split
    · refine powering_steps (act := fun s => _) ?_
      split
      · exact (Done.moves (reexamine_moves _ _ _) (reexamine_lawful _ _ _)).settle.steps
      · exact .refl _
    · trivial
  | channelSample k raw =>
    show Answers s (execChannelSample k raw s)
    unfold execChannelSample
    split
    · trivial
    · split
      · refine powering_steps (act := fun s => _) ?_
        split
        · exact (sample_effect _ _ _).steps
        · exact .refl _
      · trivial
  | scanRoundComplete =>
    refine powering_steps (act := fun s => _) ?_
    split
    · refine .trans (.rest (.scanner s { s.scanner with turn := 0 }) rfl rfl rfl (List.Subset.refl _)) ?_
      change Steps s.newRound s.newRound.countRound
      generalize s.newRound = t
      unfold State.countRound
      split
      · exact .refl _
      · split
        · exact .rest (.scanner t _) rfl rfl rfl (List.Subset.refl _)
        · exact .trans (t := { t with scanner := { t.scanner with round := 0 } })
            (.rest (.scanner t _) rfl rfl rfl (List.Subset.refl _))
            ⟨.ofMoves (reportAll_moves _ _), .reportAll _ _⟩
    · exact .refl _
  | faultInputActive k =>
    show Answers s (execFaultInputActive k s)
    unfold execFaultInputActive
    split
    · trivial
    · refine powering_steps (act := fun s => _) ?_
      split
      · exact .refl _
      · exact (supervise_effect (watch_faultActive _ _) fun law =>
          faultActive_kept _ _ law).settle.steps
  | faultInputInactive k =>
    show Answers s (execFaultInputInactive k s)
    unfold execFaultInputInactive
    split
    · trivial
    · refine powering_steps (act := fun s => _) ?_
      split
      · exact (supervise_effect (watch_faultInactive _) fun law =>
          faultInactive_kept _ _ law).settle.steps
      · exact .refl _
  | unitSupervisorTick => exact powering_steps (act := fun s => _) ⟨.one (.tick s), tick_lawful s⟩
  | recoveryWindowExpiry k =>
    show Answers s (execRecoveryWindowExpiry k s)
    unfold execRecoveryWindowExpiry
    split
    · trivial
    · refine powering_steps (act := fun s => _) ?_
      split
      · next out => exact (supervise_effect (watch_fail _ _) fun law => windowOut_kept _ law out).settle.steps
      · exact .refl _
  | tripInputActive k =>
    show Answers s (execTripInputActive k s)
    unfold execTripInputActive
    split
    · trivial
    · refine powering_steps (act := fun s => _) ?_
      split
      · exact .refl _
      · exact (inputActive_effect _ _).steps
  | tripInputInactive k =>
    show Answers s (execTripInputInactive k s)
    unfold execTripInputInactive
    split
    · trivial
    · refine powering_steps (act := fun s => _) ?_
      split
      · exact (inputInactive_effect _ _).steps
      · exact .refl _
  | telegramDiscardedInAssembly why =>
    exact powering_steps (act := fun s => s.setReceiver s.link.receiver.hunt) (setReceiver_steps _ _)
  | lineReturnToIdle =>
    refine powering_steps (act := fun s => _) ?_
    split
    · exact setReceiver_steps _ _
    · exact .refl _
  | powerLoss => exact powering_steps (act := State.lose) ⟨.one (.lose s), lose_lawful s⟩

/-- Every step is made of changes, and a POWER_UP comes up after them: a property that each change and
the coming up keep is kept by every step. -/
theorem step_steps {s t : State} (h : step s = .next t) :
    ∃ u, Steps s u ∧ (t = u ∨ ∃ f l rest, s.pending = .powerUp f l :: rest ∧ t = u.boot f l ∧
      u.store = s.storeAtPowerUp) := by
  unfold step at h
  split at h
  · simp only [Host.Outcome.next.injEq] at h
    exact ⟨s, .refl _, .inl h.symm⟩
  · next c rest e =>
    by_cases k : ∃ f l, c = .powerUp f l
    · obtain ⟨f, l, rfl⟩ := k
      simp only [exec, execPowerUp, Host.Outcome.next.injEq] at h
      have q : Steps s { s with pending := rest } :=
        .rest (.queue s rest) rfl rfl rfl (List.Subset.refl _)
      by_cases p : s.powered = true
      · rw [if_pos p] at h
        refine ⟨_, q.trans ⟨.one (.lose _), lose_lawful _⟩, .inr ⟨f, l, rest, e, h.symm, ?_⟩⟩
        unfold State.storeAtPowerUp
        rw [if_pos p]
        rfl
      · rw [if_neg p] at h
        refine ⟨_, q, .inr ⟨f, l, rest, e, h.symm, ?_⟩⟩
        unfold State.storeAtPowerUp
        rw [if_neg p]
    · have x := exec_steps c { s with pending := rest } (fun f l e => k ⟨f, l, e⟩)
      rw [h] at x
      exact ⟨t, .trans (.rest (.queue s rest) rfl rfl rfl (List.Subset.refl _)) x, .inl rfl⟩

end Sys2Proof.Machine
end

