-- ==== Sys2Proof/Laws/Members.lean ====
section
/-! SUPPORT. R149's law along a step: a member of a TRIPPED group that can hold TRIP holds it, or has it on
its way. -/

namespace Sys2Proof.Machine

/-! ### TRIP reasons on their way -/

theorem tripOnWay.append {g : GroupId} {i : SectionId} {w : List Delivery} (h : tripOnWay g i w)
    {x : List Delivery} (n : .removeReason i (.trip g) ∉ x) : tripOnWay g i (w ++ x) := by
  obtain ⟨a, b, e, m⟩ := h
  exact ⟨a, b ++ x, by rw [e]; simp, by simp [m, n]⟩

theorem tripOnWay.erase {g : GroupId} {i : SectionId} {w : List Delivery} (h : tripOnWay g i w)
    {d : Delivery} (n : d ≠ .addReason i (.trip g)) : tripOnWay g i (w.erase d) := by
  obtain ⟨a, b, e, m⟩ := h
  subst e
  rw [List.erase_append]
  split
  · exact ⟨_, _, rfl, m⟩
  · rw [List.erase_cons_tail (by simpa using fun x => n x.symm)]
    exact ⟨a, b.erase d, rfl, fun x => m (List.mem_of_mem_erase x)⟩

/-- The handing of a trip puts TRIP(g) on its way to each member of a list. -/
theorem tripOnWay_handed {g : GroupId} {i : SectionId} {is : List SectionId} (h : i ∈ is)
    (w : List Delivery) : tripOnWay g i (w ++ is.map fun j => .addReason j (.trip g)) := by
  obtain ⟨a, b, e⟩ := List.append_of_mem (List.mem_map_of_mem (f := fun j => Delivery.addReason j (.trip g)) h)
  refine ⟨w ++ a, b, by rw [e]; simp, fun m => ?_⟩
  have : Delivery.removeReason i (.trip g) ∈ is.map fun j => Delivery.addReason j (.trip g) := by
    rw [e]; exact List.mem_append_right _ (List.mem_cons_of_mem _ m)
  obtain ⟨j, _, x⟩ := List.mem_map.1 this
  exact absurd x (by simp)

/-! ### Changes that place or take away no TRIP reason -/

/-- R95: a section that takes a TRIP reason. -/
def Section.trippable (r : Section) : Bool := r.state.working || r.state == .held

theorem takes_trip (r : Section) (g : GroupId) : r.takes (.trip g) = r.trippable := rfl

/-- No removal of a TRIP reason among these deliveries. -/
def tripless (x : List Delivery) : Prop := ∀ i g, Delivery.removeReason i (.trip g) ∉ x

theorem tripless_nil : tripless [] := fun _ _ m => absurd m (by simp)

theorem tripless.append {x y : List Delivery} (h : tripless x) (k : tripless y) : tripless (x ++ y) :=
  fun i g m => (List.mem_append.1 m).elim (h i g) (k i g)

theorem tripless_map {α : Type} {f : α → Delivery} (h : ∀ a i g, f a ≠ .removeReason i (.trip g)) (l : List α) :
    tripless (l.map f) := by
  intro i g m
  obtain ⟨a, _, e⟩ := List.mem_map.1 m
  exact h a i g e

/-- The groups stand, deliveries join that remove no TRIP reason, no section comes to take TRIP reasons
but with no member's group TRIPPED, and no section loses a TRIP reason. -/
structure TripQuiet (s t : State) : Prop where
  groups : ∀ g, (t.group g).state = (s.group g).state ∧ (t.group g).members = (s.group g).members
  work : ∃ x, t.work = s.work ++ x ∧ tripless x
  serving : ∀ i, (t.sec i).trippable = true → (s.sec i).trippable = true ∨ s.tripped i = false
  holds : ∀ i g, .trip g ∈ (s.sec i).holds → .trip g ∈ (t.sec i).holds

theorem tripped_iff (s : State) (i : SectionId) :
    s.tripped i = true ↔ ∃ g, (s.group g).state = .tripped ∧ i ∈ (s.group g).members := by
  unfold State.tripped State.group
  rw [List.any_eq_true]
  constructor
  · rintro ⟨x, m, h⟩
    obtain ⟨g, rfl⟩ := Table.exists_get_of_mem m
    simp only [Bool.and_eq_true, beq_iff_eq, List.contains_eq_mem, decide_eq_true_eq] at h
    exact ⟨g, h⟩
  · rintro ⟨g, a, b⟩
    exact ⟨_, Table.get_mem _ g, by rw [a]; simpa using b⟩

namespace TripQuiet

theorem refl (s : State) : TripQuiet s s :=
  ⟨fun _ => ⟨rfl, rfl⟩, ⟨[], by simp, tripless_nil⟩, fun _ h => .inl h, fun _ _ h => h⟩

theorem tripped {s t : State} (h : TripQuiet s t) (i : SectionId) : t.tripped i = s.tripped i := by
  rw [Bool.eq_iff_iff, tripped_iff, tripped_iff]
  simp only [(h.groups _).1, (h.groups _).2]

theorem trans {s t u : State} (h : TripQuiet s t) (k : TripQuiet t u) : TripQuiet s u := by
  obtain ⟨x, ex, nx⟩ := h.work
  obtain ⟨y, ey, ny⟩ := k.work
  refine ⟨fun g => ⟨(k.groups g).1.trans (h.groups g).1, (k.groups g).2.trans (h.groups g).2⟩,
    ⟨x ++ y, by rw [ey, ex, List.append_assoc], nx.append ny⟩, fun i m => ?_,
    fun i g m => k.holds i g (h.holds i g m)⟩
  rcases k.serving i m with e | e
  · exact h.serving i e
  · exact .inr (by rw [← h.tripped i]; exact e)

theorem memberLaw {s t : State} (h : TripQuiet s t) (k : s.memberLaw) : t.memberLaw := by
  intro g i a b c
  rw [(h.groups g).1] at a
  rw [(h.groups g).2] at b
  rw [takes_trip] at c
  obtain ⟨x, e, n⟩ := h.work
  have c' : (s.sec i).takes (.trip g) = true := by
    rw [takes_trip]
    refine (h.serving i c).resolve_right fun f => ?_
    rw [(tripped_iff s i).2 ⟨g, a, b⟩] at f
    exact absurd f (by decide)
  rw [e]
  refine (k g i a b c').imp (fun m => ⟨h.holds i g m.1, fun r => ?_⟩) fun m => m.append (n i g)
  exact (List.mem_append.1 r).elim m.2 (n i g)

/-- A change that leaves the section table and the trip unit. -/
theorem rest {s t : State} (e : t.trips = s.trips) (e' : t.sections = s.sections)
    {x : List Delivery} (w : t.work = s.work ++ x) (n : tripless x) : TripQuiet s t := by
  refine ⟨fun g => ?_, ⟨x, w, n⟩, fun i h => .inl ?_, fun i g h => ?_⟩
  · unfold State.group; rw [e]; exact ⟨rfl, rfl⟩
  · unfold State.sec at *; rw [← e']; exact h
  · unfold State.sec at *; rw [e']; exact h

/-- A change of one section. -/
theorem one {s t : State} {i : SectionId} (e : t.trips = s.trips) {x : List Delivery}
    (w : t.work = s.work ++ x) (n : tripless x) (others : ∀ j, j ≠ i → t.sec j = s.sec j)
    (serving : (t.sec i).trippable = true → (s.sec i).trippable = true ∨ s.tripped i = false)
    (holds : ∀ g, .trip g ∈ (s.sec i).holds → .trip g ∈ (t.sec i).holds) : TripQuiet s t := by
  refine ⟨fun g => by unfold State.group; rw [e]; exact ⟨rfl, rfl⟩, ⟨x, w, n⟩, fun j h => ?_, fun j g h => ?_⟩
  · by_cases k : j = i
    · subst k; exact serving h
    · rw [others j k] at h; exact .inl h
  · by_cases k : j = i
    · subst k; exact holds g h
    · rw [others j k]; exact h

theorem fold {β : Type} {f : State → β → State} (h : ∀ s b, TripQuiet s (f s b)) (l : List β) (s : State) :
    TripQuiet s (l.foldl f s) := by
  induction l generalizing s with
  | nil => exact refl _
  | cons b l ih => exact (h s b).trans (ih _)

end TripQuiet

/-! ### The shared operations -/

theorem report_trip (s : State) (k : ReportKey) : TripQuiet s (s.report k) :=
  .rest rfl rfl (x := []) (by simp [State.report]) tripless_nil

theorem shuffle_trip {α : Type} (l : List α) (s : State) : TripQuiet s (State.shuffle l s).2 := by
  rw [shuffle_eq l s]
  exact .rest rfl rfl (x := []) (by simp) tripless_nil

theorem reportAll_trip (ks : List ReportKey) (s : State) : TripQuiet s (State.reportAll ks s) := by
  unfold State.reportAll
  dsimp only
  exact (shuffle_trip _ _).trans (.fold report_trip _ _)

theorem handAll_trip (s : State) {ds : List Delivery} (h : tripless ds) : TripQuiet s (s.handAll ds) :=
  .rest rfl rfl rfl h

theorem reexamineAll_trip (s : State) : TripQuiet s s.reexamineAll :=
  handAll_trip _ (tripless_map (by simp) _)

theorem setSec_trip {s : State} {i : SectionId} {r : Section} (a : r.state = (s.sec i).state)
    (b : ∀ g, HoldReason.trip g ∈ (s.sec i).holds → HoldReason.trip g ∈ r.holds) :
    TripQuiet s (s.setSec i r) := by
  refine .one (i := i) (x := []) rfl (by simp [State.setSec]) tripless_nil
    (fun j e => by rw [State.sec_setSec, if_neg e]) (fun h => .inl ?_) fun g h => ?_
  · rw [State.sec_setSec, if_pos rfl] at h
    unfold Section.trippable at *
    rw [← a]
    exact h
  · rw [State.sec_setSec, if_pos rfl]
    exact b g h

theorem insertHolds_trip (s : State) (i : SectionId) (rs : List HoldReason) :
    TripQuiet s (s.insertHolds i rs) := setSec_trip rfl fun _ h => mem_insertAll.2 (.inr h)

theorem announcements_tripless (s : State) (i : SectionId) (old : SectionState) :
    tripless (s.announcements i old) := by
  intro j g m
  unfold State.announcements at m
  simp only [List.mem_append, List.mem_cons, List.mem_map] at m
  revert m
  split <;> split <;> split <;> split <;> simp

theorem enter_trip {s : State} {i : SectionId} {dest : SectionState} (c : CaptureCause)
    (h : dest.working = true ∨ dest = .held → (s.sec i).trippable = true ∨ s.tripped i = false) :
    TripQuiet s (s.enter i dest c) := by
  refine .one (i := i) (x := _) rfl rfl (announcements_tripless _ _ _)
    (fun j e => by rw [sec_enter, if_neg e]) (fun k => ?_) fun g m => ?_
  · rw [sec_enter, if_pos rfl] at k
    unfold Section.trippable Section.entering at k
    simp only [Bool.or_eq_true, beq_iff_eq] at k
    exact h k
  · rw [sec_enter, if_pos rfl]
    exact m

theorem working_trippable {r : Section} (h : r.state.working = true) : r.trippable = true := by
  unfold Section.trippable; rw [h]; rfl

theorem held_trippable {r : Section} (h : r.state = .held) : r.trippable = true := by
  unfold Section.trippable; rw [h]; rfl

theorem holdWith_trip {s : State} {i : SectionId} (rs : List HoldReason)
    (h : (s.sec i).state.working = true) : TripQuiet s (s.holdWith i rs) := by
  refine (insertHolds_trip s i rs).trans (enter_trip _ fun _ => .inl ?_)
  rw [sec_insertHolds, if_pos rfl]
  exact working_trippable h

theorem enterState_trip {s : State} {i : SectionId} {dest : SectionState} (c : CaptureCause)
    (h : dest.working = true ∨ dest = .held → (s.sec i).trippable = true ∨ s.tripped i = false) :
    TripQuiet s (s.enterState i dest c) := by
  refine (enter_trip c h).trans ?_
  unfold State.enterState
  dsimp only
  split
  · next k =>
    simp only [Bool.and_eq_true] at k
    refine holdWith_trip _ ?_
    rw [sec_enter, if_pos rfl]
    exact k.1
  · exact .refl _

theorem addReason_trip (s : State) (i : SectionId) (r : HoldReason) : TripQuiet s (s.addReason i r) := by
  unfold State.addReason
  dsimp only
  split
  · exact .refl _
  · next x =>
    simp only [Bool.or_eq_true, Bool.not_eq_true', not_or, Bool.not_eq_false, Bool.not_eq_true] at x
    split
    · exact (insertHolds_trip _ _ _).trans (report_trip _ _)
    · next e => exact holdWith_trip _ ((takes_working x.1).1.resolve_right e)

/-- R97, R99: but for the reason removed, a removal is quiet. -/
theorem removeReason_split {s : State} {i : SectionId} (r : HoldReason) (c : CaptureCause)
    (held : (s.sec i).holds ≠ [] → (s.sec i).state = .held) :
    TripQuiet (s.setSec i { s.sec i with holds := removeFrom r (s.sec i).holds }) (s.removeReason i r c) ∨
      s.removeReason i r c = s := by
  unfold State.removeReason
  dsimp only
  split
  · exact .inr rfl
  · next x =>
    simp only [Bool.not_eq_true', List.contains_eq_mem, decide_eq_false_iff_not, not_not] at x
    split
    · next e =>
      split
      · rw [List.isEmpty_iff.1 e]
        refine .inl (enterState_trip c fun _ => .inl ?_)
        rw [State.sec_setSec, if_pos rfl]
        exact held_trippable (held (List.ne_nil_of_mem x))
      · exact .inr rfl
    · exact .inl (report_trip _ _)

theorem removeReason_trip {s : State} {i : SectionId} {r : HoldReason} (c : CaptureCause)
    (held : (s.sec i).holds ≠ [] → (s.sec i).state = .held) (n : ∀ g, r ≠ .trip g) :
    TripQuiet s (s.removeReason i r c) := by
  rcases removeReason_split r c held with q | e
  · refine TripQuiet.trans ?_ q
    refine setSec_trip rfl fun g h => ?_
    exact mem_removeFrom.2 ⟨h, fun e => n g e.symm⟩
  · rw [e]; exact .refl _

theorem takeNotice_trip {s : State} (n : SteamNotice) (hold : s.holdLaw) : TripQuiet s (s.takeNotice n) := by
  unfold State.takeNotice
  split
  · split
    · next h => exact enterState_trip _ fun _ => .inl (working_trippable (by rw [h]; rfl))
    · split
      · exact removeReason_trip _ (hold _).1.2 (by simp)
      · exact handAll_trip s (ds := [_]) (fun _ _ m => absurd m (by simp))
  · exact addReason_trip _ _ _
  · exact removeReason_trip _ (hold _).1.2 (by simp)

theorem notices_trip (ns : List SteamNotice) : ∀ s : State, s.holdLaw →
    TripQuiet s (ns.foldl State.takeNotice s) := by
  induction ns with
  | nil => exact fun s _ => .refl s
  | cons n ns ih =>
    intro s hold
    exact (takeNotice_trip n hold).trans
      (ih _ ((takeNotice_moves s n).keep (fun _ _ => move_holdLaw) hold))

theorem putSteam_trip (s : State) (st : Steam) : TripQuiet s (s.putSteam st) := by
  unfold State.putSteam
  split
  · exact .refl _
  · exact .rest rfl rfl (x := []) (by simp [State.report]) tripless_nil

theorem steamChange_trip {s : State} (f : Steam → Steam × List SteamNotice) (hold : s.holdLaw) :
    TripQuiet s (s.steamChange f) :=
  (putSteam_trip s _).trans (notices_trip _ _ (holdLaw_putSteam _ hold))

theorem tripped_permit {s : State} {i : SectionId} {dest : SectionState}
    (h : nextStep (s.sec i).cls (s.sec i).state = some dest) (k : s.failing i = []) :
    (s.sec i).trippable = true ∨ s.tripped i = false := by
  by_cases c : (s.sec i).state = .cold
  · right
    rw [← Bool.not_eq_true]
    intro t
    unfold State.failing at k
    dsimp only at k
    rw [c] at k
    cases e : (s.sec i).cls <;> rw [e] at k <;> simp [unmet, t] at k
  · left
    revert h c
    unfold Section.trippable
    cases (s.sec i).cls <;> cases (s.sec i).state <;> simp [nextStep, SectionState.working]

theorem reexamine_trip {s : State} (i : SectionId) (why : Why) (hold : s.holdLaw) :
    TripQuiet s (s.reexamine i why) := by
  unfold State.reexamine
  dsimp only
  split
  · next dest h =>
    split
    · next k => exact enterState_trip _ fun _ => tripped_permit h k.2.1
    · unfold State.fillDoneRequest
      split
      · exact steamChange_trip _ hold
      · exact .refl _
  · exact .refl _

theorem putUnits_trip (s : State) (us : UnitSupervisor) : TripQuiet s (s.putUnits us) := by
  unfold State.putUnits
  dsimp only
  refine .trans ?_ (reportAll_trip _ _)
  refine .rest rfl rfl (x := _) rfl (.append ?_ ?_)
  · intro i g m
    obtain ⟨j, _, e⟩ := List.mem_flatMap.1 m
    revert e
    split <;> simp
  · unfold supplyHanding
    split
    · exact tripless_nil
    · exact fun i g m => absurd m (by simp)

theorem supervise_trip (s : State) (f : UnitSupervisor → UnitSupervisor) : TripQuiet s (s.supervise f) :=
  putUnits_trip _ _

theorem recomputeOverlap_trip (s : State) : TripQuiet s s.recomputeOverlap := by
  unfold State.recomputeOverlap
  dsimp only
  split
  · exact .refl _
  · exact .rest rfl rfl rfl (tripless_map (by simp) _)

theorem takeSupply_trip (s : State) (free reserve : Nat) : TripQuiet s (s.takeSupply free reserve) := by
  unfold State.takeSupply
  dsimp only
  refine .trans ?_ (recomputeOverlap_trip _)
  exact .rest rfl rfl (x := []) (by simp) tripless_nil

theorem closingTest_trip (s : State) : TripQuiet s s.closingTest := by
  unfold State.closingTest
  split
  · have drop : ∀ i, (s.closeNow.sec i) = (s.sec i).dropLift := fun i => Table.get_map _ _ _
    refine ⟨fun _ => ⟨rfl, rfl⟩, ⟨_, rfl, tripless_map (by simp) _⟩, fun i h => .inl ?_, fun i g h => ?_⟩
    · rw [drop] at h
      obtain ⟨b, e⟩ := (s.sec i).dropLift_eq
      rw [e] at h
      exact h
    · rw [drop]
      obtain ⟨b, e⟩ := (s.sec i).dropLift_eq
      rw [e]
      exact h
  · exact .refl _

/-! ### A cascade -/

/-- The hold sets and the members of the TRIPPED groups in their laws. -/
structure State.memberLaws (s : State) : Prop where
  hold : s.holdLaw
  member : s.memberLaw

/-- What the laws survive. -/
def Members (s t : State) : Prop := s.memberLaws → t.memberLaws

theorem Members.refl (s : State) : Members s s := id

theorem Members.trans {s t u : State} (h : Members s t) (k : Members t u) : Members s u := fun x => k (h x)

theorem TripQuiet.members {s t : State} (h : s.holdLaw → TripQuiet s t) (k : s.holdLaw → t.holdLaw) :
    Members s t := fun x => ⟨k x.hold, (h x.hold).memberLaw x.member⟩

/-- The first delivery waiting for its receiver, taken off those waiting. -/
theorem memberLaw_erase {s : State} {d : Delivery} (h : s.memberLaw) (n : ∀ i g, d ≠ .addReason i (.trip g))
    (o : List Nat) (k : Nat) : ({ s with work := s.work.erase d, order := o, drawn := k } : State).memberLaw := by
  intro g i a b c
  refine (h g i a b c).imp (fun m => ⟨m.1, fun r => m.2 (List.mem_of_mem_erase r)⟩) fun m => ?_
  exact m.erase (n i g)

/-- R96, R97: a reason that a section takes stands in its hold set. -/
theorem mem_addReason {s : State} {i : SectionId} {r : HoldReason} (h : (s.sec i).takes r = true) :
    r ∈ ((s.addReason i r).sec i).holds := by
  unfold State.addReason
  dsimp only
  rw [h]
  split
  · next c => simpa using c
  · split
    · show r ∈ ((s.insertHolds i [r]).sec i).holds
      rw [sec_insertHolds, if_pos rfl]
      exact mem_insertAll.2 (.inl (by simp))
    · rw [sec_holdWith, if_pos rfl]
      exact mem_insertAll.2 (.inl (by simp))

/-- TRIP(g) taken by section `i`, off the deliveries waiting, of which it is the first for the section. -/
theorem addTrip_members {s : State} {i : SectionId} {g : GroupId} {a b : List Delivery}
    (h : s.memberLaw) (e : s.work = a ++ .addReason i (.trip g) :: b)
    (first : ∀ w ∈ a, w.receiver ≠ .sec i) (o : List Nat) (k : Nat) :
    (({ s with work := a ++ b, order := o, drawn := k } : State).addReason i (.trip g)).memberLaw := by
  have q := addReason_trip { s with work := a ++ b, order := o, drawn := k } i (.trip g)
  have sub : ∀ w, w ∈ a ++ b → w ∈ s.work := by
    intro w m
    rw [e]
    simp only [List.mem_append, List.mem_cons] at m ⊢
    tauto
  -- every other pair of a group and a section is as it was
  intro g' i' t m takes
  obtain ⟨x, ex, nx⟩ := q.work
  have t' : (s.group g').state = .tripped := (q.groups g').1.symm.trans t
  have m' : i' ∈ (s.group g').members := by rw [(q.groups g').2] at m; exact m
  have takes' : (s.sec i').takes (.trip g') = true := by
    rw [takes_trip] at takes ⊢
    refine (q.serving i' takes).resolve_right fun f => ?_
    have f' : s.tripped i' = false := f
    rw [(tripped_iff s i').2 ⟨g', t', m'⟩] at f'
    exact absurd f' (by decide)
  rw [ex]
  have old := h g' i' t' m' takes'
  rcases old with ⟨held, none⟩ | way
  · refine .inl ⟨q.holds i' g' held, fun r => ?_⟩
    exact (List.mem_append.1 r).elim (fun r => none (sub _ r)) (nx i' g')
  · by_cases same : i' = i ∧ g' = g
    · obtain ⟨rfl, rfl⟩ := same
      -- the handing taken is the first of its kind
      have notin : ∀ r, Delivery.receiver r = .sec i' → r ∉ a := fun r hr m => first r m hr
      obtain ⟨p, z, ez, nz⟩ := way
      rw [e] at ez
      rcases List.append_eq_append_iff.1 ez with ⟨y, e1, e2⟩ | ⟨y, e1, e2⟩
      · cases y with
        | nil =>
          simp only [List.append_nil, List.nil_append, List.cons.injEq, true_and] at e1 e2
          subst e1 e2
          refine .inl ⟨mem_addReason takes', fun r => ?_⟩
          · rcases List.mem_append.1 r with r | r
            · rcases List.mem_append.1 r with r | r
              · exact notin _ rfl r
              · exact nz r
            · exact nx i' g' r
        | cons w y =>
          simp only [List.cons_append, List.cons.injEq] at e2
          obtain ⟨e2, e3⟩ := e2
          subst e3
          refine .inr (tripOnWay.append ⟨a ++ y, z, by simp, nz⟩ (nx i' g'))
      · cases y with
        | nil =>
          simp only [List.append_nil, List.nil_append, List.cons.injEq, true_and] at e1 e2
          subst e1 e2
          refine .inl ⟨mem_addReason takes', fun r => ?_⟩
          · rcases List.mem_append.1 r with r | r
            · rcases List.mem_append.1 r with r | r
              · exact notin _ rfl r
              · exact nz r
            · exact nx i' g' r
        | cons w y =>
          simp only [List.cons_append, List.cons.injEq] at e2
          refine absurd ?_ (notin w (by rw [← e2.1]; rfl))
          rw [e1]
          exact List.mem_append_right _ List.mem_cons_self
    · refine .inr (tripOnWay.append ?_ (nx i' g'))
      have := way.erase (d := .addReason i (.trip g)) (fun c => by
        simp only [Delivery.addReason.injEq, HoldReason.trip.injEq] at c
        exact same ⟨c.1.symm, c.2.symm⟩)
      rw [e, List.erase_append_right _ (fun r => first _ r rfl), List.erase_cons_head] at this
      exact this

/-- The removal of TRIP(g) taken by section `i`, off the deliveries waiting: where the group is TRIPPED
again, its reason is on its way behind. -/
theorem removeTrip_members {s : State} {i : SectionId} {g : GroupId} (hold : s.holdLaw) (h : s.memberLaw)
    (m : .removeReason i (.trip g) ∈ s.work) (o : List Nat) (k : Nat) :
    (({ s with work := s.work.erase (.removeReason i (.trip g)), order := o, drawn := k } : State).removeReason
      i (.trip g) .release).memberLaw := by
  have off := memberLaw_erase h (d := .removeReason i (.trip g)) (by simp) o k
  rcases removeReason_split (s := { s with
      work := s.work.erase (.removeReason i (.trip g)), order := o, drawn := k })
    (i := i) (.trip g) .release (hold i).1.2 with q | e
  · refine q.memberLaw fun g' i' a b c => ?_
    have c' : (s.sec i').takes (.trip g') = true := by
      rw [State.sec_setSec] at c
      split at c
      · next e => subst e; exact c
      · exact c
    by_cases same : i' = i ∧ g' = g
    · obtain ⟨rfl, rfl⟩ := same
      exact .inr (((h g' i' a b c').resolve_left fun x => x.2 m).erase (by simp))
    · refine (off g' i' a b c').imp_left fun x => ⟨?_, x.2⟩
      rw [State.sec_setSec]
      split
      · next e =>
        subst e
        refine mem_removeFrom.2 ⟨x.1, fun y => same ⟨rfl, ?_⟩⟩
        simpa using y
      · exact x.1
  · rw [e]; exact off

/-- One delivery, the first for its receiver, taken from those waiting. -/
theorem takeFirst_members {s : State} {d : Delivery} {a b : List Delivery} (k : s.memberLaws)
    (e : s.work = a ++ d :: b) (first : ∀ w ∈ a, w.receiver ≠ d.receiver) (o : List Nat) (n : Nat) :
    (({ s with work := a ++ b, order := o, drawn := n } : State).runDelivery d).memberLaw := by
  have erased : s.work.erase d = a ++ b := by
    rw [e, List.erase_append_right _ (fun m => first d m rfl), List.erase_cons_head]
  have hold' : ({ s with work := a ++ b, order := o, drawn := n } : State).holdLaw := k.hold
  have off : (∀ i g, d ≠ .addReason i (.trip g)) →
      ({ s with work := a ++ b, order := o, drawn := n } : State).memberLaw := fun ne => by
    rw [← erased]; exact memberLaw_erase k.member ne o n
  cases d with
  | reexamine i why => exact (reexamine_trip i why hold').memberLaw (off (by simp))
  | addReason i r =>
    cases r with
    | trip g => exact addTrip_members k.member e first o n
    | _ =>
      unfold State.runDelivery
      dsimp only
      split
      · exact off (by simp)
      · exact (addReason_trip _ _ _).memberLaw (off (by simp))
  | removeReason i r =>
    cases r with
    | trip g =>
      rw [← erased]
      exact removeTrip_members k.hold k.member (by rw [e]; simp) o n
    | _ =>
      unfold State.runDelivery
      dsimp only
      split
      · exact off (by simp)
      · exact (removeReason_trip _ (hold' i).1.2 (by simp)).memberLaw (off (by simp))
  | releaseClaim i => exact (steamChange_trip _ hold').memberLaw (off (by simp))
  | withdrawClaim i => exact (steamChange_trip _ hold').memberLaw (off (by simp))
  | cap g c => exact (steamChange_trip _ hold').memberLaw (off (by simp))
  | runDemand i => exact (putUnits_trip _ _).memberLaw (off (by simp))
  | unitsExcluded i =>
    unfold State.runDelivery
    dsimp only
    split
    · exact off (by simp)
    · exact (supervise_trip _ _).memberLaw (off (by simp))
  | unitsIncluded i =>
    unfold State.runDelivery
    dsimp only
    split
    · exact (supervise_trip _ _).memberLaw (off (by simp))
    · exact off (by simp)
  | spareSupply free reserve => exact (takeSupply_trip _ _ _).memberLaw (off (by simp))
  | closingTest => exact (closingTest_trip _).memberLaw (off (by simp))

theorem settle_members (s : State) : Members s s.settle := by
  refine fun h => settle_first (P := State.memberLaws) (fun s d a b o n e first k => ?_) s h
  have m : Moves s { s with work := a ++ b, order := o, drawn := n } :=
    (Moves.one (.work s (a ++ b))).trans (.one (.order { s with work := a ++ b } o n))
  exact ⟨(m.trans (runDelivery_moves _ d)).keep (fun _ _ => move_holdLaw) k.hold,
    takeFirst_members k e first o n⟩

theorem Members.settle {s t : State} (h : Members s t) : Members s t.settle := h.trans (settle_members t)

/-! ### Orders and events -/

/-- R94: a change keeps the law of the hold sets. -/
theorem change_holdLaw {s t : State} (c : Change s t) (h : s.holdLaw) : t.holdLaw := by
  have one : ∀ (i : SectionId) (r : Section), r.holdLaw → (s.setSec i r).holdLaw := by
    intro i r k j
    rw [State.sec_setSec]
    split
    · exact k
    · exact h j
  cases c with
  | move m => exact move_holdLaw m h
  | lose => intro i; rw [sec_lose]; simp [Section.holdLaw, Section.unfitted]
  | setting _ k _ =>
    intro i
    have e := k i
    show Section.holdLaw (Table.get _ i)
    unfold Section.holdLaw
    rw [e.state, e.holds, e.heldFrom]
    exact h i
  | phase i p => exact one i _ (h i)
  | opened =>
    intro i
    show Section.holdLaw (Table.get _ i)
    rw [Table.get_map]
    exact h i
  | rewrite i old new e held _ =>
    refine one i _ ?_
    have x := h i
    have st : (s.sec i).state = .held := by
      by_contra n
      rw [x.2.1 n] at e
      exact absurd e (by simp)
    have nr : HoldReason.restart ∉ (s.sec i).holds := fun m => by
      rw [(x.2.2.1 st).2 m] at e
      exact absurd e (by simp)
    exact ⟨x.1, fun n => absurd st n, fun _ => ⟨fun q => absurd q (by simp), fun q => absurd q nr⟩,
      fun q => held (Option.some.inj q)⟩
  | adoptStay i st hs m nonempty rest held _ =>
    refine one i _ ?_
    have e : (s.sec i).state = .held := (h i).1.2 (List.ne_nil_of_mem m)
    exact ⟨⟨fun _ => nonempty, fun _ => e⟩, fun n => absurd e n,
      fun _ => ⟨fun q => absurd q (by simp), fun q => absurd q rest⟩, fun q => held (Option.some.inj q)⟩
  | adoptLeave i st c m held _ =>
    intro j
    rw [sec_enter]
    split
    · rw [State.sec_setSec, if_pos rfl]
      refine ⟨?_, ?_, ?_, ?_⟩ <;> simp [Section.entering, held]
    · next e => rw [State.sec_setSec, if_neg e]; exact h j
  | _ => exact h

/-- R94: a change keeps the order of the hold sets. -/
theorem change_holdOrderLaw {s t : State} (c : Change s t) (h : s.holdOrderLaw) : t.holdOrderLaw := by
  have one : ∀ (i : SectionId) (r : Section), HoldsOrdered r.holds → (s.setSec i r).holdOrderLaw := by
    intro i r k j
    rw [State.sec_setSec]
    split
    · exact k
    · exact h j
  cases c with
  | move m => exact move_holdOrderLaw m h
  | lose => intro i; rw [sec_lose]; exact List.Pairwise.nil
  | setting _ k _ =>
    intro i
    show HoldsOrdered (Section.holds (Table.get _ i))
    rw [(k i).holds]
    exact h i
  | phase i p => exact one i _ (h i)
  | opened =>
    intro i
    show HoldsOrdered (Section.holds (Table.get _ i))
    rw [Table.get_map]
    exact h i
  | rewrite i old new e held _ => exact one i _ (h i)
  | adoptStay i st hs m nonempty rest held _ order => exact one i _ (order (h i))
  | adoptLeave i st c m held _ =>
    intro j
    rw [sec_enter]
    split
    · rw [State.sec_setSec, if_pos rfl]; exact List.Pairwise.nil
    · next e => rw [State.sec_setSec, if_neg e]; exact h j
  | _ => exact h

/-- R154: a change keeps the order of the groups' members and input sets. -/
theorem change_groupSetsLaw {s t : State} (c : Change s t) (h : s.groupSetsLaw) : t.groupSetsLaw := by
  cases c with
  | move m =>
    have e := m.frame.trips
    intro g
    unfold State.group
    rw [e]
    exact h g
  | lose => exact fun g => by simp [State.lose, State.reset, State.group, TripGroup.powerUp, TripGroup.setsOrdered]
  | trips x _ sets =>
    intro g
    rcases sets g with ⟨m, i⟩ | k
    · have := h g
      unfold TripGroup.setsOrdered State.group at this ⊢
      rw [← m, ← i] at this
      exact this
    · exact k
  | _ => exact h

theorem Changes.holdLaw {s t : State} (c : Changes s t) (h : s.holdLaw) : t.holdLaw :=
  c.keep (fun _ _ => change_holdLaw) h

theorem Done.members {s t : State} (d : Done s t) (q : s.holdLaw → TripQuiet s t) : Members s t :=
  TripQuiet.members q d.effect.changes.holdLaw

/-- A change that leaves the trip unit, the deliveries waiting, and the states and hold sets. -/
theorem Members.same {s t : State} (e : t.trips = s.trips) (w : t.work = s.work)
    (h : ∀ i, (t.sec i).state = (s.sec i).state ∧ (t.sec i).holds = (s.sec i).holds ∧
      (t.sec i).heldFrom = (s.sec i).heldFrom) : Members s t := by
  refine TripQuiet.members (fun _ => ⟨fun g => ?_, ⟨[], by simp [w], tripless_nil⟩, fun i x => .inl ?_,
    fun i g x => ?_⟩) fun k i => ?_
  · unfold State.group; rw [e]; exact ⟨rfl, rfl⟩
  · unfold Section.trippable at *; rw [← (h i).1]; exact x
  · rw [(h i).2.1]; exact x
  · unfold Section.holdLaw
    rw [(h i).1, (h i).2.1, (h i).2.2]
    exact k i

theorem Members.rest {s t : State} (e : t.trips = s.trips) (w : t.work = s.work)
    (e' : t.sections = s.sections) : Members s t :=
  .same e w fun i => by unfold State.sec; rw [e']; exact ⟨rfl, rfl, rfl⟩

theorem Members.setSec {s : State} {i : SectionId} {r : Section} (a : r.state = (s.sec i).state)
    (b : r.holds = (s.sec i).holds) (c : r.heldFrom = (s.sec i).heldFrom) : Members s (s.setSec i r) := by
  refine .same rfl rfl fun j => ?_
  rw [State.sec_setSec]
  split
  · next e => subst e; exact ⟨a, b, c⟩
  · exact ⟨rfl, rfl, rfl⟩

theorem Members.report {s t : State} (h : Members s t) (k : ReportKey) : Members s (t.report k) :=
  h.trans (.rest rfl rfl rfl)

theorem enterState_members {s : State} {i : SectionId} {dest : SectionState} (c : CaptureCause)
    (m : Enters s i dest)
    (h : dest.working = true ∨ dest = .held → (s.sec i).trippable = true ∨ s.tripped i = false) :
    Members s (s.enterState i dest c) :=
  TripQuiet.members (fun _ => enterState_trip c h) ((enterState_moves c m).keep fun _ _ => move_holdLaw)

theorem reexamine_members (s : State) (i : SectionId) (why : Why) : Members s (s.reexamine i why) :=
  TripQuiet.members (reexamine_trip i why) ((reexamine_moves s i why).keep fun _ _ => move_holdLaw)

theorem supervise_members (s : State) (f : UnitSupervisor → UnitSupervisor) : Members s (s.supervise f).settle :=
  (TripQuiet.members (fun _ => supervise_trip s f) (putUnits_holdLaw _)).settle

theorem advance_members (f : Fields) (s : State) : Members s (advanceOrder f s).1 := by
  unfold advanceOrder
  split
  · split
    · exact .refl _
    · split
      · exact .refl _
      · split
        · exact .refl _
        · next h =>
          split
          · next k => exact (enterState_members _ (enters_of_permit h k) fun _ => tripped_permit h k).settle
          · exact .refl _
  · exact .refl _

theorem hold_members (f : Fields) (s : State) : Members s (holdOrder f s).1 := by
  unfold holdOrder
  split
  · split
    · exact .refl _
    · split
      · exact .refl _
      · exact (TripQuiet.members (fun _ => addReason_trip _ _ _)
          ((addReason_moves _ _ _).keep fun _ _ => move_holdLaw)).settle
  · exact .refl _

theorem release_members (f : Fields) (s : State) : Members s (releaseOrder f s).1 := by
  unfold releaseOrder
  split
  · split
    · exact .refl _
    · split
      · exact (TripQuiet.members (fun hold => removeReason_trip _ (hold _).1.2 (by simp))
          ((removeReason_moves _ _ _ (by simp)).keep fun _ _ => move_holdLaw)).settle
      · exact .refl _
  · exact .refl _

/-- R177: an adoption takes away RESTART alone. -/
theorem adopt_trip {s : State} {i : SectionId} (st : SectionState) (held : (s.sec i).state = .held) :
    TripQuiet s (s.adopt i st) := by
  have named : TripQuiet s (s.setSec i { s.sec i with heldFrom := some st }) ∧
      ((s.setSec i { s.sec i with heldFrom := some st }).sec i).state = .held := by
    refine ⟨setSec_trip rfl fun _ h => h, ?_⟩
    rw [State.sec_setSec, if_pos rfl]
    exact held
  have insert : ∀ (t : State) rs, TripQuiet s t ∧ (t.sec i).state = .held →
      TripQuiet s (t.insertHolds i rs) ∧ ((t.insertHolds i rs).sec i).state = .held := by
    rintro t rs ⟨q, e⟩
    refine ⟨q.trans (insertHolds_trip _ _ _), ?_⟩
    rw [sec_insertHolds, if_pos rfl]
    exact e
  have steam : ∀ (t : State) a, TripQuiet s t ∧ (t.sec i).state = .held →
      TripQuiet s (t.putSteam a) ∧ ((t.putSteam a).sec i).state = .held := by
    rintro t a ⟨q, e⟩
    exact ⟨q.trans (putSteam_trip _ _), by rw [sec_putSteam]; exact e⟩
  have asked : ∀ t : State, TripQuiet s t ∧ (t.sec i).state = .held →
      TripQuiet s (t.adoptSteam i) ∧ ((t.adoptSteam i).sec i).state = .held := by
    intro t x
    unfold State.adoptSteam
    dsimp only
    split
    · exact insert _ _ (steam _ _ x)
    · exact steam _ _ x
  have last : ∀ t : State, TripQuiet s t ∧ (t.sec i).state = .held →
      TripQuiet s (t.removeReason i .restart .restore) := fun t x =>
    x.1.trans (removeReason_trip _ (fun _ => x.2) (by simp))
  unfold State.adopt
  dsimp only
  refine last _ ?_
  split
  · refine asked _ ?_
    split
    · exact insert _ _ named
    · exact named
  · split
    · exact insert _ _ named
    · exact named

theorem adopting_members (f : Fields) (s : State) : Members s (adoptOrder f s).1 := by
  unfold adoptOrder
  split
  · split
    · exact .refl _
    · split
      · exact .refl _
      · next i _ h =>
        simp only [Bool.not_eq_true', List.contains_eq_mem, decide_eq_false_iff_not, not_not] at h
        split
        · split
          · next k =>
            exact (TripQuiet.members (fun hold => adopt_trip _ ((hold i).1.2 (List.ne_nil_of_mem h)))
              (adopt_effect s i _ h k).changes.holdLaw).settle
          · exact .refl _
        · exact .refl _
  · exact .refl _

theorem excluding_members (f : Fields) (s : State) : Members s (excludeOrder f s).1 := by
  unfold excludeOrder
  split
  · split
    · exact .refl _
    · next i _ =>
      split
      · exact .refl _
      · split
        · next k =>
          have m : Enters s i .excluded := by
            rcases k with k | k <;>
              exact ⟨by simp [k], by simp [k], by simp, by simp, fun _ w => absurd w (by decide)⟩
          refine Members.settle (.trans (t := s.enterState i .excluded .order)
            (enterState_members _ m (by simp [SectionState.working])) ?_)
          refine TripQuiet.members (fun _ => handAll_trip _ fun j g x => ?_) fun h => h
          simp at x
        · exact .refl _
  · exact .refl _

theorem including_members (f : Fields) (s : State) : Members s (includeOrder f s).1 := by
  unfold includeOrder
  split
  · split
    · exact .refl _
    · next i _ =>
      split
      · exact .refl _
      · split
        · next k =>
          have m : Enters s i .cold :=
            ⟨by simp [k], by simp [k], by simp, by simp, fun _ w => absurd w (by decide)⟩
          refine Members.settle (.trans (t := s.enterState i .cold .order)
            (enterState_members _ m (by simp [SectionState.working])) ?_)
          refine TripQuiet.members (fun _ => handAll_trip _ fun j g x => ?_) fun h => h
          revert x
          split <;> simp
        · exact .refl _
  · exact .refl _

theorem links_members (f : Fields) (s : State) : Members s (linksOrder f s).1 := by
  unfold linksOrder
  split
  · split
    · dsimp only
      split
      · exact .refl _
      · split
        · exact .refl _
        · split
          · exact .refl _
          · refine Members.settle ?_
            unfold State.relink
            dsimp only
            have edited : ∀ i up down, Members s { s with sections := relinked s.sections i up down } :=
              fun i up down => .same rfl rfl fun j =>
                have e := relinked_same s.sections i j up down
                ⟨e.state, e.holds, e.heldFrom⟩
            refine (edited _ _ _).trans (TripQuiet.members (fun _ => (reportAll_trip _ _).trans
              (handAll_trip _ (tripless_map (by simp) _))) fun h => ?_)
            exact (reportAll_moves _ _).keep (fun _ _ => move_holdLaw) h
    · exact .refl _
  · exact .refl _

theorem limits_members (f : Fields) (s : State) : Members s (limitsOrder f s).1 := by
  unfold limitsOrder
  split
  · split
    · exact .refl _
    · split
      · exact .setSec rfl rfl rfl
      · exact .refl _
  · exact .refl _

theorem timing_members (f : Fields) (s : State) : Members s (timingOrder f s).1 := by
  unfold timingOrder
  split
  · split
    · exact .refl _
    · dsimp only
      split
      · exact .refl _
      · split
        · exact .refl _
        · exact .setSec rfl rfl rfl
  · exact .refl _

theorem lift_members (f : Fields) (s : State) : Members s (liftOrder f s).1 := by
  unfold liftOrder
  split
  · split
    · exact .refl _
    · split
      · exact .refl _
      · split
        · exact .refl _
        · exact .setSec rfl rfl rfl
  · exact .refl _

theorem capture_members (f : Fields) (s : State) : Members s (captureOrder f s).1 := by
  unfold captureOrder
  split
  · split
    · exact .refl _
    · exact .setSec rfl rfl rfl
  · exact .refl _

theorem mode_members (f : Fields) (s : State) : Members s (modeOrder f s).1 := by
  unfold modeOrder
  split
  · split
    · exact .refl _
    · split
      · exact .refl _
      · refine Members.settle (Members.trans ?_ (reexamine_members _ _ _))
        refine Members.report ?_ _
        exact .setSec rfl rfl rfl
  · exact .refl _

/-! ### The campaign -/

theorem requestMark_members (s : State) (v : Mark) : Members s (s.requestMark v) := .rest rfl rfl rfl

theorem awaitMark_members (s : State) (v : Mark) : Members s (s.awaitMark v) :=
  .trans (t := { s with campaign := { s.campaign with pendingMark := some v } }) (.rest rfl rfl rfl)
    (requestMark_members _ _)

theorem reexamineAll_members (s : State) : Members s s.reexamineAll :=
  TripQuiet.members (fun _ => reexamineAll_trip s) fun h => h

theorem shuffle_members {α : Type} (l : List α) (s : State) : Members s (State.shuffle l s).2 :=
  (Done.shuffle l s).members fun _ => shuffle_trip l s

theorem coldFold_trip (l : List SectionId) (s : State) :
    TripQuiet s (l.foldl (fun t i => t.enterState i .cold .campaign) s) :=
  .fold (fun _ _ => enterState_trip _ (by simp [SectionState.working])) _ _

theorem openNow_members {s : State} (h : s.campaign.state = .closed) : Members s s.openNow := by
  refine (openNow_effect h).members fun _ => ?_
  unfold State.openNow
  dsimp only
  refine .trans ?_ (reexamineAll_trip _)
  refine .trans ?_ (report_trip _ _)
  have cold : ∀ l : List SectionId, TripQuiet s
      ((State.shuffle l s).1.foldl (fun t i => t.enterState i .cold .campaign) (State.shuffle l s).2) :=
    fun l => (shuffle_trip l s).trans (coldFold_trip _ _)
  refine (cold ((allIds 24).filter fun i => (s.sec i).state = .laidUp)).trans ?_
  generalize List.foldl _ _ _ = c
  refine ⟨fun _ => ⟨rfl, rfl⟩, ⟨[], by simp [State.awaitMark, State.requestMark], tripless_nil⟩,
    fun i x => .inl ?_, fun i g x => ?_⟩
  · have e : (State.awaitMark { c with
        sections := c.sections.map Section.zeroed
        campaign := { c.campaign with clock := 0, lock := true, state := .opened } } .opened).sec i =
        (c.sec i).zeroed := Table.get_map _ _ _
    rw [e] at x
    exact x
  · show HoldReason.trip g ∈ ((c.sections.map Section.zeroed).get i).holds
    rw [Table.get_map]
    exact x

theorem mapSection_trip (s : State) (i : SectionId) : TripQuiet s (s.mapSection i) := by
  unfold State.mapSection
  dsimp only
  split
  · split
    · exact .refl _
    · refine TripQuiet.trans ?_ (report_trip _ _)
      exact setSec_trip rfl fun _ h => h
  all_goals first
    | exact .refl _
    | (next st =>
        split
        · exact .refl _
        · refine enterState_trip _ fun w => ?_
          revert w
          unfold Section.trippable
          rw [st]
          simp [windDownState, SectionState.working])

theorem takeRunDemand_members (s : State) (i : SectionId) : Members s (s.takeRunDemand i) := by
  refine fun h => ⟨(takeRunDemand_moves s i).keep (fun _ _ => move_holdLaw) h.hold, ?_⟩
  exact (putUnits_trip _ _).memberLaw (memberLaw_erase h.member (by simp) s.order s.drawn)

theorem windDownMapping_members (s : State) : Members s s.windDownMapping := by
  have first : Members s s.mapSections := by
    refine TripQuiet.members (fun hold => ?_) (mapSections_effect s).1.changes.holdLaw
    unfold State.mapSections
    dsimp only
    refine ((shuffle_trip _ s).trans (.fold mapSection_trip _ _)).trans (steamChange_trip _ ?_)
    exact ((Effect.shuffle (allIds 24) s).trans (Effect.fold mapSection_effect _ _)).changes.holdLaw hold
  refine first.trans ?_
  unfold State.windDownMapping State.takeRunDemands
  generalize s.mapSections = t
  generalize t.work.filterMap Delivery.demanded = l
  induction l generalizing t with
  | nil => exact .refl _
  | cons i l ih => exact (takeRunDemand_members t i).trans (ih _)

theorem windDown_members (s : State) : Members s s.windDown :=
  ((windDownMapping_members s).trans (TripQuiet.members (fun _ => closingTest_trip _)
    ((closingTest_moves _).keep fun _ _ => move_holdLaw))).trans (reexamineAll_members _)

theorem turnToWindDown_members (s : State) : Members s s.turnToWindDown := by
  unfold State.turnToWindDown
  dsimp only
  exact .trans (t := { s with campaign := { s.campaign with state := .windingDown } }) (.rest rfl rfl rfl)
    (((awaitMark_members _ _).report _).trans (windDown_members _))

theorem resumeTo_members (s : State) (m : Mark) : Members s (s.resumeTo m) := by
  have asked : Members s ((State.awaitMark { s with
      campaign := { s.campaign with state := m.campaign, resume := none } } m).report .campaign) :=
    .trans (t := { s with campaign := { s.campaign with state := m.campaign, resume := none } })
      (.rest rfl rfl rfl) ((awaitMark_members _ _).report _)
  unfold State.resumeTo
  cases m with
  | windingDown => exact asked.trans (windDown_members _)
  | opened => exact asked.trans (reexamineAll_members _)
  | closed => exact asked.trans (reexamineAll_members _)

theorem opening_members (f : Fields) (s : State) : Members s (openOrder f s).1 := by
  unfold openOrder
  split
  · next h => exact (openNow_members h).settle
  · exact .refl _

theorem closing_members (f : Fields) (s : State) : Members s (closeOrder f s).1 := by
  unfold closeOrder
  split
  · exact (turnToWindDown_members s).settle
  · exact .refl _

theorem resuming_members (f : Fields) (s : State) : Members s (resumeOrder f s).1 := by
  unfold resumeOrder
  split
  · split
    · exact .refl _
    · split
      · exact (resumeTo_members s _).settle
      · exact .refl _
  · exact .refl _

theorem overlap_members (f : Fields) (s : State) : Members s (overlapOrder f s).1 := by
  unfold overlapOrder
  split
  · next setting =>
    dsimp only
    split
    · exact .refl _
    · refine Members.settle ?_
      refine .trans (t := State.report { s with
        campaign := { s.campaign with overlapRequested := decide (setting = 1) } } .campaign)
        (.rest rfl rfl rfl) ?_
      refine TripQuiet.members (fun _ => recomputeOverlap_trip _) fun h => ?_
      unfold State.recomputeOverlap
      dsimp only
      split <;> exact h
  · exact .refl _

theorem loseSupervision_members (s : State) : Members s s.loseSupervision := by
  unfold State.loseSupervision
  split
  · exact .refl _
  · exact .rest rfl rfl rfl

theorem regainSupervision_members (s : State) : Members s s.regainSupervision := by
  unfold State.regainSupervision
  split
  · exact .trans (t := State.report { s with campaign := { s.campaign with supervisionLost := false } } .campaign)
      (.rest rfl rfl rfl) (reexamineAll_members _)
  · exact .refl _

/-! ### The allocator, the pool and the scanner -/

theorem budgeting_members (f : Fields) (s : State) : Members s (budgetOrder f s).1 := by
  unfold budgetOrder
  split
  · exact (TripQuiet.members (steamChange_trip _) (steamChange_holdLaw _)).settle
  · exact .refl _

theorem returning_members (f : Fields) (s : State) : Members s (returnOrder f s).1 := by
  unfold returnOrder
  split
  · split
    · exact .refl _
    · dsimp only
      split
      · exact .refl _
      · split
        · exact .refl _
        · split
          · exact .refl _
          · exact supervise_members _ _
  · exact .refl _

theorem unitsOrder_members (f : Fields) (s : State) : Members s (unitsOrder f s).1 := by
  unfold unitsOrder
  split
  · split
    · exact .refl _
    · split
      · exact .refl _
      · unfold State.setUnits
        dsimp only
        refine Members.settle (Members.trans ?_
          (TripQuiet.members (fun _ => putUnits_trip _ _) (putUnits_holdLaw _)))
        exact .setSec rfl rfl rfl
  · exact .refl _

theorem setPhase_trip (s : State) (i : SectionId) (p : Phase) : TripQuiet s (s.setPhase i p) := by
  unfold State.setPhase
  dsimp only
  split
  · exact .refl _
  · refine TripQuiet.trans (t := s.setSec i { s.sec i with
        phase := p, phaseSince := s.now
        discharge := if (s.sec i).state.passesLiquor then (s.sec i).state.discharge p
          else (s.sec i).discharge }) ?_ ?_
    · exact setSec_trip rfl fun _ h => h
    · exact .rest rfl rfl rfl (tripless_map (by simp) _)

theorem followPhase_trip (s : State) (i : SectionId) : TripQuiet s (s.followPhase i) := by
  unfold State.followPhase
  split
  · exact .refl _
  · exact setPhase_trip _ _ _

theorem sensorChange_trip {s : State} (i : SectionId) (old new : Validity) (hold : s.holdLaw) :
    TripQuiet s (s.sensorChange i old new) := by
  unfold State.sensorChange
  split
  · exact addReason_trip _ _ _
  · exact removeReason_trip _ (hold _).1.2 (by simp)
  · exact .refl _
  · exact .refl _

theorem crossingHandings_tripless (s : State) (i : SectionId) (c : Crossing) :
    tripless (s.crossingHandings i c) := by
  intro j g m
  revert m
  cases c <;> simp only [State.crossingHandings] <;> simp

theorem takeDelivery_members (s : State) (c : ChannelId) (old new : Channel) :
    Members s (s.takeDelivery c old new) := by
  have sensed : ∀ t : State, Members t (if c.val % 2 = 0 then
      t.sensorChange (channelSection c) old.validity new.validity else t) := by
    intro t
    split
    · exact (sensorChange_effect _ _ _ _).members (sensorChange_trip _ _ _)
    · exact .refl _
  have followed := ((followPhase_effect s (channelSection c)).members fun _ =>
    followPhase_trip s (channelSection c)).trans (sensed _)
  unfold State.takeDelivery
  dsimp only
  generalize (if c.val % 2 = 0 then _ else _ : State) = t at followed ⊢
  have handed : Members s (t.handAll
      ((crossings old.bands new.bands).flatMap (t.crossingHandings (channelSection c)))) := by
    refine followed.trans (TripQuiet.members (fun _ => handAll_trip _ fun j g m => ?_) fun h => h)
    obtain ⟨x, _, y⟩ := List.mem_flatMap.1 m
    exact crossingHandings_tripless _ _ _ j g y
  generalize t.handAll _ = u at handed ⊢
  have told : Members s (if old.validity = new.validity then u else u.reportLevel (channelSection c)) := by
    split
    · exact handed
    · unfold State.reportLevel
      split
      · exact handed.report _
      · exact handed
  generalize (if old.validity = new.validity then u else _ : State) = v at told ⊢
  split
  · exact told.trans (reexamine_members _ _ _)
  · exact told

theorem sample_members (s : State) (c : ChannelId) (raw : Nat) : Members s (s.sample c raw) := by
  unfold State.sample
  dsimp only
  have stored : ∀ x, Members s { s with scanner := x } := fun _ => .rest rfl rfl rfl
  split
  · exact stored _
  · exact ((stored _).trans (takeDelivery_members _ _ _ _)).settle

/-! ### The trip unit -/

/-- A group is written NORMAL, or with its state and members as they were. -/
theorem setGroup_members {s : State} {g : GroupId} {r : TripGroup}
    (h : r.state = .normal ∨ (r.state = (s.group g).state ∧ r.members = (s.group g).members)) :
    Members s (s.setGroup g r) := by
  refine fun k => ⟨k.hold, fun g' i a b c => k.member g' i ?_ ?_ c⟩
  all_goals
    have e : (s.setGroup g r).group g' = if g' = g then r else s.group g' := Table.get_set _ _ _ _
    rw [e] at a b
    split at a
    · next x =>
      subst x
      rw [if_pos rfl] at b
      rcases h with h | ⟨h, h'⟩
      · rw [h] at a; exact absurd a (by simp)
      · first | (rw [← h]; exact a) | (rw [← h']; exact b)
    · next x => rw [if_neg x] at b; assumption

/-- R148: a trip hands TRIP(g) to every member that takes it. -/
theorem tripGroup_members (s : State) (g : GroupId) (cause : FirstCause) (active : List InputId)
    (forced : Bool) : Members s (s.tripGroup g cause active forced) := by
  refine fun k => ⟨k.hold, ?_⟩
  intro g' i a b c
  have e : (s.tripGroup g cause active forced).group g' = if g' = g then
      { s.group g with state := .tripped, firstCause := some cause, activeInputs := active, forced := forced }
      else s.group g' := Table.get_set _ _ _ _
  have w : (s.tripGroup g cause active forced).work = (s.work ++
      (s.tripMembers (s.group g).members).map fun i => .addReason i (.trip g)) ++
      (capHanding g (s.group g).cap (s.group g).cap ++
        (s.group g).members.map fun i => .reexamine i .other) := by
    simp [State.tripGroup, State.handAll, State.report, State.setGroup]
  have rest : tripless (capHanding g (s.group g).cap (s.group g).cap ++
      (s.group g).members.map fun i => .reexamine i .other) := by
    refine .append ?_ (tripless_map (by simp) _)
    intro j h m
    revert m
    unfold capHanding
    split <;> simp
  rw [w]
  rw [e] at a b
  split at a
  · next x =>
    subst x
    rw [if_pos rfl] at b
    refine .inr (.append (tripOnWay_handed ?_ _) (rest _ _))
    refine List.mem_filter.2 ⟨b, ?_⟩
    rw [takes_trip] at c
    exact c
  · next x =>
    rw [if_neg x] at b
    have mine : ∀ j : SectionId, Delivery.removeReason j (.trip g') ∉
        (s.tripMembers (s.group g).members).map fun i => Delivery.addReason i (.trip g) := fun j =>
      tripless_map (by simp) _ j g'
    refine (k.member g' i a b c).imp (fun m => ⟨m.1, fun r => ?_⟩) fun m => (m.append (mine i)).append (rest _ _)
    simp only [List.mem_append] at r
    rcases r with (r | r) | r
    · exact m.2 r
    · exact mine i r
    · exact rest i g' (List.mem_append.2 r)

/-- R151: a clearing hands the removal of TRIP(g) alone. -/
theorem clearGroup_members (s : State) (g : GroupId) : Members s (s.clearGroup g) := by
  refine fun k => ⟨k.hold, ?_⟩
  intro g' i a b c
  have e : (s.clearGroup g).group g' = if g' = g then
      { s.group g with state := .normal, firstCause := none, activeInputs := [], forced := false }
      else s.group g' := Table.get_set _ _ _ _
  rw [e] at a b
  split at a
  · exact absurd a (by simp)
  · next x =>
    rw [if_neg x] at b
    have mine : ∃ ds, (s.clearGroup g).work = s.work ++ ds ∧ .removeReason i (.trip g') ∉ ds := by
      refine ⟨_, rfl, fun m => ?_⟩
      simp only [List.mem_append, List.mem_map] at m
      rcases m with (⟨j, _, y⟩ | m) | ⟨j, _, y⟩
      · simp only [Delivery.removeReason.injEq, HoldReason.trip.injEq] at y
        exact x y.2.symm
      · revert m
        unfold capHanding
        split <;> simp
      · exact absurd y (by simp)
    obtain ⟨ds, w, n⟩ := mine
    rw [w]
    refine (k.member g' i a b c).imp (fun m => ⟨m.1, fun r => ?_⟩) fun m => m.append n
    exact (List.mem_append.1 r).elim m.2 n

theorem groupInputActive_members (input : InputId) (s : State) (g : GroupId) :
    Members s (s.groupInputActive input g) := by
  unfold State.groupInputActive
  dsimp only
  split
  · exact tripGroup_members _ _ _ _ _
  · refine Members.report ?_ _
    exact setGroup_members (.inr ⟨rfl, rfl⟩)

theorem groupInputInactive_members (s : State) (g : GroupId) : Members s (s.groupInputInactive g) := by
  have left : Members s ((s.setGroup g { s.group g with
      activeInputs := s.trips.activeOf (s.group g).inputs }).report (.trip g)) := by
    refine Members.report ?_ _
    exact setGroup_members (.inr ⟨rfl, rfl⟩)
  unfold State.groupInputInactive
  dsimp only
  split
  · exact left.trans (clearGroup_members _ _)
  · exact left

theorem foldGroups_members {f : State → GroupId → State} (h : ∀ s g, Members s (f s g)) (l : List GroupId)
    (s : State) : Members s (l.foldl f s) := by
  induction l generalizing s with
  | nil => exact .refl _
  | cons g l ih => exact (h s g).trans (ih _)

/-- An input's record alone. -/
theorem setInput_members (s : State) (i : InputId) (r : TripInput) : Members s (s.setInput i r) :=
  fun k => ⟨k.hold, fun g j a b c => k.member g j a b c⟩

theorem inputActive_members (s : State) (i : InputId) : Members s (s.inputActive i) := by
  unfold State.inputActive
  dsimp only
  exact (((setInput_members s i _).trans (shuffle_members _ _)).trans
    (foldGroups_members (groupInputActive_members i) _ _)).settle

theorem inputInactive_members (s : State) (i : InputId) : Members s (s.inputInactive i) := by
  unfold State.inputInactive
  dsimp only
  exact (((setInput_members s i _).trans (shuffle_members _ _)).trans
    (foldGroups_members groupInputInactive_members _ _)).settle

theorem forcing_members (f : Fields) (s : State) : Members s (forceOrder f s).1 := by
  unfold forceOrder
  split
  · split
    · exact .refl _
    · refine Members.settle ?_
      unfold State.forceGroup
      dsimp only
      split
      · exact tripGroup_members _ _ _ _ _
      · split
        · exact .refl _
        · refine Members.report ?_ _
          exact setGroup_members (.inr ⟨rfl, rfl⟩)
  · exact .refl _

theorem clearing_members (f : Fields) (s : State) : Members s (clearOrder f s).1 := by
  unfold clearOrder
  split
  · split
    · exact .refl _
    · split
      · exact .refl _
      · split
        · exact .refl _
        · exact (clearGroup_members _ _).settle
  · exact .refl _

theorem grouping_members (f : Fields) (s : State) : Members s (groupOrder f s).1 := by
  unfold groupOrder
  split
  · split
    · exact .refl _
    · next g _ =>
      split
      · exact .refl _
      · split
        · exact .refl _
        · split
          · exact .refl _
          · next n =>
            have normal : (s.group g).state = .normal := by
              cases q : (s.group g).state
              · rfl
              · exact absurd q n
            refine Members.settle ?_
            unfold State.configureGroup
            dsimp only
            split
            · refine Members.report ?_ _
              exact setGroup_members (.inl normal)
            · refine Members.trans ?_ (tripGroup_members _ _ _ _ _)
              exact setGroup_members (.inl normal)
  · exact .refl _

/-! ### Every command -/

theorem conclude_members (s : State) (t : Telegram) (v : Verdict) : Members s (s.conclude t v) := by
  unfold State.conclude
  split <;> exact .rest rfl rfl rfl

theorem handle_members (s : State) {t : Telegram} {owner : Owner} (kind : RequestKind)
    (e : ∀ f s, Members s (owner f s).1) : Members s (s.handle t kind owner) := by
  unfold State.handle
  split
  · exact conclude_members _ _ _
  · split
    · exact (e _ _).trans (conclude_members _ _ _)
    · exact conclude_members _ _ _

theorem takeRequest_members {s : State} {owner : Owner} (kind : RequestKind)
    (e : ∀ f s, Members s (owner f s).1) : Members s (s.takeRequest kind owner) := by
  unfold State.takeRequest
  split
  · exact .refl _
  · split
    · exact handle_members _ kind e
    · exact .refl _

theorem takeMode_members {s : State} {owner : Owner} (campaign : Bool)
    (e : ∀ f s, Members s (owner f s).1) : Members s (s.takeMode campaign owner) := by
  unfold State.takeMode
  split
  · exact .refl _
  · split
    · exact handle_members _ .setMode e
    · exact .refl _

theorem query_members {owner : Owner} (h : ∀ f s, (owner f s).1 = s) (f : Fields) (s : State) :
    Members s (owner f s).1 := by
  rw [h]
  exact .refl _

theorem sitePart_members (f : Fields) (s : State) : Members s (sitePartOrder f s).1 := by
  unfold sitePartOrder
  split
  · split
    · exact .refl _
    · split
      · exact .rest rfl rfl rfl
      · exact .refl _
  · exact .refl _

theorem commit_members (f : Fields) (s : State) : Members s (commitOrder f s).1 := by
  unfold commitOrder
  split
  · exact .refl _
  · split
    · exact .refl _
    · split
      · exact .refl _
      · exact .rest rfl rfl rfl

theorem reporting_members (f : Fields) (s : State) : Members s (reportingOrder f s).1 := by
  unfold reportingOrder
  split
  · exact .rest rfl rfl rfl
  · exact .refl _

theorem completeAwaited_members (s : State) (w : Awaited) : Members s (s.completeAwaited w) := by
  unfold State.completeAwaited
  dsimp only
  split <;> exact .rest rfl rfl rfl

theorem markReported_members (s : State) (v : Mark) : Members s (s.markReported v) := by
  have met : Members s { s with campaign := { s.campaign with pendingMark := none } } := .rest rfl rfl rfl
  unfold State.markReported
  split
  · dsimp only
    split
    · split
      · exact met.trans (completeAwaited_members _ _)
      · exact met
    · exact met
  · exact .refl _

theorem memberLaw_normal {s : State} (h : ∀ g, (s.group g).state = .normal) : s.memberLaw := by
  intro g i a
  rw [h g] at a
  exact absurd a (by simp)

theorem lose_members (s : State) : Members s s.lose := fun k =>
  ⟨change_holdLaw (.lose s) k.hold, memberLaw_normal fun _ => by
    show (Table.get (Table.replicate 4 TripGroup.powerUp) _).state = _
    rw [Table.get_replicate]
    rfl⟩

theorem powering_members {s : State} {act : State → State} (h : Members s (act s)) :
    Members s (s.powering act) := by
  unfold State.powering
  split
  · exact h
  · exact .refl _

/-- What an outcome says of the members: nothing where no state follows. -/
def MembersAfter (s : State) : Host.Outcome State Fault Refusal → Prop
  | .next t => Members s t
  | .fault _ => True
  | .refused _ => True

theorem takeTelegram_members (s : State) (t : Telegram) : Members s (s.takeTelegram t) := by
  have heard : Members s { s with link := { s.link with receiver := .hunting, silenceExpired := false } } :=
    .rest rfl rfl rfl
  have regained := heard.trans (regainSupervision_members _)
  unfold State.takeTelegram
  dsimp only
  refine Members.settle (regained.trans ?_)
  exact .rest rfl rfl rfl

/-- Every command but POWER_UP keeps the members of the TRIPPED groups in their law. -/
theorem exec_members (c : Instr) (s : State) (running : ∀ f l, c ≠ .powerUp f l) :
    MembersAfter s (exec c s) := by
  have line : ∀ l : LinkPort, Members s { s with link := l } := fun _ => .rest rfl rfl rfl
  cases c with
  | powerUp f l => exact absurd rfl (running f l)
  | telegramReceived kind tag body check =>
    refine powering_members (act := fun s => _) ?_
    split
    · exact .refl _
    · split
      · exact takeTelegram_members _ _
      · exact line _
  | interByteTimeout late =>
    refine powering_members (act := fun s => _) ?_
    split
    · exact .refl _
    · exact line _
  | lineBreak =>
    refine powering_members (act := fun s => _) ?_
    split
    · exact .refl _
    · exact line _
  | silenceExpiry =>
    refine powering_members (act := fun s => _) ?_
    split
    · exact (line { s.link with silenceExpired := true }).trans (loseSupervision_members _)
    · exact .refl _
  | transmitNextTelegram =>
    refine powering_members ?_
    unfold State.transmit
    split <;> exact line _
  | unknownKindRequest =>
    refine powering_members ?_
    unfold State.takeUnknown
    split
    · exact .refl _
    · split
      · exact conclude_members _ _ _
      · exact .refl _
  | readIdent => exact powering_members (takeRequest_members _ (query_members fun _ _ => rfl))
  | readCampaign => exact powering_members (takeRequest_members _ (query_members fun _ _ => rfl))
  | readSection => exact powering_members (takeRequest_members _ (query_members sectionQuery_same))
  | readSteam => exact powering_members (takeRequest_members _ (query_members fun _ _ => rfl))
  | readUnit => exact powering_members (takeRequest_members _ (query_members unitQuery_same))
  | readTrips => exact powering_members (takeRequest_members _ (query_members fun _ _ => rfl))
  | readCapture => exact powering_members (takeRequest_members _ (query_members captureQuery_same))
  | readChannel => exact powering_members (takeRequest_members _ (query_members channelQuery_same))
  | readSiteRecord => exact powering_members (takeRequest_members _ (query_members sitePartQuery_same))
  | openCampaign => exact powering_members (takeRequest_members _ opening_members)
  | closeCampaign => exact powering_members (takeRequest_members _ closing_members)
  | resumeCampaign => exact powering_members (takeRequest_members _ resuming_members)
  | advance => exact powering_members (takeRequest_members _ advance_members)
  | hold => exact powering_members (takeRequest_members _ hold_members)
  | release => exact powering_members (takeRequest_members _ release_members)
  | adopt => exact powering_members (takeRequest_members _ adopting_members)
  | excludeSection => exact powering_members (takeRequest_members _ excluding_members)
  | includeSection => exact powering_members (takeRequest_members _ including_members)
  | setLinks => exact powering_members (takeRequest_members _ links_members)
  | setLimits => exact powering_members (takeRequest_members _ limits_members)
  | setTiming => exact powering_members (takeRequest_members _ timing_members)
  | setModeSection => exact powering_members (takeMode_members _ mode_members)
  | setModeCampaign => exact powering_members (takeMode_members _ overlap_members)
  | setBudget => exact powering_members (takeRequest_members _ budgeting_members)
  | liftCeiling => exact powering_members (takeRequest_members _ lift_members)
  | returnUnit => exact powering_members (takeRequest_members _ returning_members)
  | setUnits => exact powering_members (takeRequest_members _ unitsOrder_members)
  | setGroup => exact powering_members (takeRequest_members _ grouping_members)
  | forceTrip => exact powering_members (takeRequest_members _ forcing_members)
  | clearTrip => exact powering_members (takeRequest_members _ clearing_members)
  | setCapture => exact powering_members (takeRequest_members _ capture_members)
  | setReporting => exact powering_members (takeRequest_members _ reporting_members)
  | writeSitePart => exact powering_members (takeRequest_members _ sitePart_members)
  | commitSiteRecord => exact powering_members (takeRequest_members _ commit_members)
  | siteRecordWriteDone =>
    refine powering_members (act := fun s => _) ?_
    have done : Members s s.siteWritten := .rest rfl rfl rfl
    split
    · split
      · split
        · exact done.trans (completeAwaited_members _ _)
        · exact done
      · exact done
    · exact .refl _
  | markWriteComplete =>
    refine powering_members (act := fun s => _) ?_
    split
    · exact .refl _
    · next v _ =>
      exact Members.trans (t := s.markWritten v) (.rest rfl rfl rfl) (markReported_members _ _)
  | clockAdvance =>
    refine powering_members (act := fun s => _) ?_
    split
    · exact .refl _
    · exact .rest rfl rfl rfl
  | conditioningExpiry k =>
    show MembersAfter s (execConditioningExpiry k s)
    unfold execConditioningExpiry
    split
    · trivial
    · refine powering_members (act := fun s => _) ?_
      split
      · exact (reexamine_members _ _ _).settle
      · exact .refl _
  | lagCompletion k l =>
    show MembersAfter s (execLagCompletion k l s)
    unfold execLagCompletion
    split
    · refine powering_members (act := fun s => _) ?_
      split
      · exact (reexamine_members _ _ _).settle
      · exact .refl _
    · trivial
  | channelSample k raw =>
    show MembersAfter s (execChannelSample k raw s)
    unfold execChannelSample
    split
    · trivial
    · split
      · refine powering_members (act := fun s => _) ?_
        split
        · exact sample_members _ _ _
        · exact .refl _
      · trivial
  | scanRoundComplete =>
    refine powering_members (act := fun s => _) ?_
    split
    · refine Members.trans (t := s.newRound) (.rest rfl rfl rfl) ?_
      show Members s.newRound s.newRound.countRound
      generalize s.newRound = t
      have round : ∀ n, Members t { t with scanner := { t.scanner with round := n } } := fun _ => .rest rfl rfl rfl
      unfold State.countRound
      split
      · exact .refl _
      · split
        · exact round _
        · exact (round 0).trans (TripQuiet.members (fun _ => reportAll_trip _ _)
            ((reportAll_moves _ _).keep fun _ _ => move_holdLaw))
    · exact .refl _
  | faultInputActive k =>
    show MembersAfter s (execFaultInputActive k s)
    unfold execFaultInputActive
    split
    · trivial
    · refine powering_members (act := fun s => _) ?_
      split
      · exact .refl _
      · exact supervise_members _ _
  | faultInputInactive k =>
    show MembersAfter s (execFaultInputInactive k s)
    unfold execFaultInputInactive
    split
    · trivial
    · refine powering_members (act := fun s => _) ?_
      split
      · exact supervise_members _ _
      · exact .refl _
  | unitSupervisorTick => exact powering_members (act := fun s => _) (.rest rfl rfl rfl)
  | recoveryWindowExpiry k =>
    show MembersAfter s (execRecoveryWindowExpiry k s)
    unfold execRecoveryWindowExpiry
    split
    · trivial
    · refine powering_members (act := fun s => _) ?_
      split
      · exact supervise_members _ _
      · exact .refl _
  | tripInputActive k =>
    show MembersAfter s (execTripInputActive k s)
    unfold execTripInputActive
    split
    · trivial
    · refine powering_members (act := fun s => _) ?_
      split
      · exact .refl _
      · exact inputActive_members _ _
  | tripInputInactive k =>
    show MembersAfter s (execTripInputInactive k s)
    unfold execTripInputInactive
    split
    · trivial
    · refine powering_members (act := fun s => _) ?_
      split
      · exact inputInactive_members _ _
      · exact .refl _
  | telegramDiscardedInAssembly why =>
    exact powering_members (act := fun s => s.setReceiver s.link.receiver.hunt) (line _)
  | lineReturnToIdle =>
    refine powering_members (act := fun s => _) ?_
    split
    · exact line _
    · exact .refl _
  | powerLoss => exact powering_members (act := State.lose) (lose_members s)

/-- R147: a part just powered up has no TRIPPED group. -/
theorem boot_memberLaw (s : State) (faults : BitVec 48) (levels : BitVec 8) :
    (s.boot faults levels).memberLaw := memberLaw_normal fun _ => by
  show (Table.get (Table.replicate 4 TripGroup.powerUp) _).state = _
  rw [Table.get_replicate]
  rfl

end Sys2Proof.Machine
end

