-- ==== Sys2Proof/Laws/PowerUp.lean ====
section
/-! SUPPORT. The laws of the allocator and of the pool at power-up (R128, R172, R176). -/

namespace Sys2Proof.Machine

theorem sec_boot (s : State) (f : BitVec 48) (l : BitVec 8) (i : SectionId) :
    (s.boot f l).sec i =
      (s.store.inForce.1.slots.get i).section (dutyList s.store.inForce.1.units i) s.store.markRead :=
  Table.get_ofFn _ _

/-- What a section record holds at power-up (R1, R10, R14). -/
theorem slot_section_spec (sl : Slot) (duty : List UnitId) (m : Mark) :
    (sl.section duty m).holdLaw ∧ (sl.section duty m).heldFrom = none ∧
      HoldReason.steam ∉ (sl.section duty m).holds ∧ (sl.section duty m).state.runsUnits = false ∧
      (sl.fitted = true → (sl.section duty m).state.partakes = true ∧ (sl.section duty m).dutyUnits = duty) ∧
      (sl.fitted = false → (sl.section duty m).dutyUnits = []) := by
  unfold Slot.section Section.holdLaw
  split
  · next h => cases m <;> simp [Section.unfitted, h] <;> decide
  · next h => simp [Section.unfitted, h]; decide

theorem boot_steamLaws (s : State) (f : BitVec 48) (l : BitVec 8) : (s.boot f l).steamLaws := by
  refine ⟨fun i => by rw [sec_boot]; exact (slot_section_spec _ _ _).1, ?_, fun i => ?_⟩
  · show Steam.law Steam.powerUp
    exact ⟨by decide, by decide, fun c h => absurd h List.not_mem_nil⟩
  · refine Section.claimLaw_steaming ?_ (fun h => absurd h Bool.false_ne_true) fun h =>
      absurd h Bool.false_ne_true
    rw [sec_boot]
    exact (slot_section_spec _ _ _).2.2.1

/-! ### The first coverage requests (R128, R134) -/

theorem requestFold_law (failed : List UnitId) : ∀ us : UnitSupervisor, failed.Nodup → us.coverLaw →
    (∀ u ∈ failed, (us.units.get u).role = .duty ∧ (us.units.get u).condition = .failed ∧
      us.attended u = false) →
    (failed.foldl UnitSupervisor.requestCoverage us).coverLaw ∧
      Attends us (failed.foldl UnitSupervisor.requestCoverage us) fun v =>
        v ∈ failed ∨ us.attended v = true := by
  induction failed with
  | nil => exact fun us _ h _ => ⟨h, fun _ => .refl _, fun v => by simp⟩
  | cons u l ih =>
    intro us nodup h k
    have n := List.nodup_cons.1 nodup
    have f := k u List.mem_cons_self
    have a := requestCoverage_attends us u
    obtain ⟨law, b⟩ := ih (us.requestCoverage u) n.2 (requestCoverage_law h f.1 f.2.1 f.2.2) (fun v hv => by
      have x := k v (List.mem_cons_of_mem _ hv)
      rw [(a.same v).role, (a.same v).condition]
      refine ⟨x.1, x.2.1, ?_⟩
      rw [← Bool.not_eq_true, a.attended, x.2.2]
      rintro (e | e)
      · exact n.1 (e ▸ hv)
      · exact absurd e (by decide))
    refine ⟨law, fun v => (a.same v).trans (b.same v), fun v => ?_⟩
    rw [List.foldl_cons, b.attended, a.attended, List.mem_cons]
    tauto

/-! ### The units of the record in force (R127, R172, R174) -/

/-- The duty units of a site record belong to fitted sections, and no unit of it covers another or runs. -/
structure SiteRecord.staffed (r : SiteRecord) : Prop where
  duty : ∀ u, (r.units.get u).role = .duty →
    ∃ i, (r.units.get u).sec = some i ∧ (r.slots.get i).fitted = true
  blank : ∀ u, (r.units.get u).covering = none ∧ (r.units.get u).coveredBy = none ∧
    (r.units.get u).runOutput = false

theorem default_staffed : SiteRecord.default.staffed :=
  ⟨fun u h => by simp [SiteRecord.default, UnitRecord.none] at h,
    fun u => by simp [SiteRecord.default, UnitRecord.none]⟩

theorem record_staffed {w : RawSite} (slots : w.slots.length = 24) (ok : w.unitsOk = true) :
    w.record.staffed := by
  refine ⟨fun u h => ?_, fun u => ?_⟩
  · simp only [RawSite.record, Table.get_ofFn] at h ⊢
    unfold RawSite.unit at h ⊢
    dsimp only at h ⊢
    split at h
    · next e =>
      simp only [RawSite.unitsOk, Bool.and_eq_true] at ok
      have fit := List.all_eq_true.1 ok.2 (w.units.getD u.val (0, (0, 0))) (by
        have lt : u.val < w.units.length := by
          by_contra c
          rw [List.getD_eq_default _ _ (by omega)] at e
          exact absurd e (by decide)
        rw [List.getD_eq_getElem _ _ lt]
        exact List.getElem_mem _)
      simp only [e, bne_self_eq_false, Bool.false_or] at fit
      have lt : (w.units.getD u.val (0, (0, 0))).2.2 < 24 := by
        by_contra c
        unfold RawSite.fitted at fit
        rw [List.getD_eq_default _ _ (by omega)] at fit
        exact absurd fit (by decide)
      refine ⟨⟨_, lt⟩, by unfold idOf; rw [dif_pos lt], ?_⟩
      unfold RawSite.slot
      rw [if_pos fit]
    · exact absurd h (by simp)
    · exact absurd h (by simp [UnitRecord.none])
  · simp only [RawSite.record, Table.get_ofFn]
    unfold RawSite.unit
    dsimp only
    split <;> exact ⟨rfl, rfl, rfl⟩

theorem inForce_staffed {st : OptionStore} (h : st.sound) : st.inForce.1.staffed := by
  unfold OptionStore.inForce
  split
  · next e =>
    have ok := h e
    unfold siteRefusal at ok
    split
    · next w k =>
      rw [k] at ok
      dsimp only at ok
      split at ok
      · exact absurd ok (by simp)
      · next x =>
        simp only [Bool.not_eq_true', Bool.not_eq_false, Bool.and_eq_true] at x
        exact record_staffed (readSite_slots k) x.1.2
    · exact default_staffed
  · exact default_staffed

/-- The pool at power-up, from a sound option store. -/
theorem boot_poolLaws (s : State) (f : BitVec 48) (l : BitVec 8) (h : s.store.sound) :
    (s.boot f l).poolLaws := by
  have staffed := inForce_staffed h
  have secs := sec_boot s f l
  refine ⟨(boot_steamLaws s f l).hold, ?_⟩
  have sup : (s.boot f l).supervisor = powerUpSupervisor s.store.inForce.1.units f := rfl
  generalize s.store.inForce.1 = r at staffed secs sup
  -- the units before the first coverage requests
  let us : UnitSupervisor :=
    { units := powerUpUnits r.units f, watch := [], demands := [], reserve := 2, window := 10
      short := Table.replicate 24 false }
  have units : ∀ u, (us.units.get u).role = (r.units.get u).role ∧ (us.units.get u).sec = (r.units.get u).sec ∧
      (us.units.get u).covering = none ∧ (us.units.get u).coveredBy = none ∧
      (us.units.get u).runOutput = false := by
    intro u
    simp [us, powerUpUnits, staffed.blank u]
  have free : ∀ u, us.attended u = false := by
    intro u
    rw [← Bool.not_eq_true, attended_iff]
    simp [(units u).2.2.2.1]
    simp [us]
  have start : us.coverLaw := by
    refine ⟨fun u sp => ?_, fun u sp e => ?_, List.nodup_nil, fun d m => absurd m List.not_mem_nil,
      fun d m => absurd m List.not_mem_nil⟩
    · rw [(units u).2.2.2.1, (units sp).2.2.1]; simp
    · rw [(units u).2.2.2.1] at e; exact absurd e (by simp)
  generalize hf : ((allIds 48).filter fun u =>
    (us.units.get u).role == .duty && (us.units.get u).condition == .failed) = failed
  have mem : ∀ u, u ∈ failed ↔ (us.units.get u).role = .duty ∧ (us.units.get u).condition = .failed := by
    intro u
    rw [← hf]
    simp [allIds]
  obtain ⟨law, a⟩ := requestFold_law failed us (by rw [← hf]; exact (List.nodup_finRange 48).filter _) start
    fun u m => ⟨((mem u).1 m).1, ((mem u).1 m).2, free u⟩
  have e : powerUpSupervisor r.units f = failed.foldl UnitSupervisor.requestCoverage us := by rw [← hf]; rfl
  rw [← e] at law a
  rw [← sup] at law a
  generalize s.boot f l = t at secs law a ⊢
  have role : ∀ u, (t.supervisor.units.get u).role = (r.units.get u).role := fun u =>
    (a.same u).role.trans (units u).1
  have sec : ∀ u, (t.supervisor.units.get u).sec = (r.units.get u).sec := fun u =>
    (a.same u).sec.trans (units u).2.1
  refine ⟨fun i b x => ?_, ⟨fun i u => ?_, fun u k => ?_⟩, law, fun u i k n c => ?_, fun u => .inl ?_⟩
  · rw [secs, (slot_section_spec _ _ _).2.1] at x
    exact absurd x (by simp)
  · rw [secs, role, sec]
    cases fit : (r.slots.get i).fitted
    · rw [(slot_section_spec _ _ _).2.2.2.2.2 fit]
      simp only [List.not_mem_nil, false_iff, not_and]
      intro k n
      obtain ⟨j, x, y⟩ := staffed.duty u k
      rw [n, Option.some.injEq] at x
      subst x
      rw [fit] at y
      exact absurd y (by decide)
    · rw [((slot_section_spec _ _ _).2.2.2.2.1 fit).2]
      simp [dutyList, allIds]
  · rw [sec]
    rw [role] at k
    obtain ⟨j, x, _⟩ := staffed.duty u k
    exact ⟨j, x⟩
  · have k' := (role u).symm.trans k
    have n' := (sec u).symm.trans n
    obtain ⟨j, x, y⟩ := staffed.duty u k'
    rw [n', Option.some.injEq] at x
    subst x
    rw [secs, ((slot_section_spec _ _ _).2.2.2.2.1 y).1]
    exact ⟨fun _ => .inl ((a.attended u).2 (.inl ((mem u).2 ⟨(units u).1.trans k',
      (a.same u).condition.symm.trans c⟩))), fun q => absurd q (by simp)⟩
  · rw [runs_eq, (a.same u).runOutput, (units u).2.2.2.2]
    cases t.supervisor.serves u with
    | none => simp [callsFor]
    | some i =>
      show _ = (_ && (t.sec i).state.runsUnits)
      rw [secs, (slot_section_spec _ _ _).2.2.2.1]
      simp

end Sys2Proof.Machine
end

