-- ==== Sys2Proof/Laws/Readers.lean ====
section
/-! SUPPORT. Each reader of fields undoes the writer of its form and reads all that the writer writes (R169),
and a part's reader its fields (R171): two lemmas for each reader. -/

namespace Sys2Proof.Machine

/-- A reader undoes a writer: what it reads is what was written, with a property. -/
def Undoes {α} (r : Reader α) (w : α → List Byte) (P : α → Prop) : Prop :=
  ∀ bs a rest, r bs = some (a, rest) → bs = w a ++ rest ∧ P a

/-- R169: each field form, and the parts of R171, read what was written and nothing else. -/
theorem readByte_undoes : Undoes readByte (fun n => [byte n]) (· < 256) := by
  intro bs a rest h
  cases bs with
  | nil => simp [readByte] at h
  | cons b bs => simp [readByte] at h; obtain ⟨rfl, rfl⟩ := h; refine ⟨by simp [byte], by show b.toNat < 256; have := b.isLt; omega⟩

theorem readWord_undoes : Undoes readWord word (· < 65536) := by
  intro bs a rest h
  match bs, h with
  | [], h => simp [readWord] at h
  | [_], h => simp [readWord] at h
  | b :: c :: bs, h =>
    simp [readWord] at h; obtain ⟨rfl, rfl⟩ := h
    have := b.isLt; have := c.isLt
    refine ⟨?_, by show b.toNat * 256 + c.toNat < 65536; omega⟩
    have : (b.toNat * 256 + c.toNat) / 256 = b.toNat := by omega
    simp [word, byte, this]
    apply BitVec.eq_of_toNat_eq
    simp only [BitVec.toNat_ofNat]
    omega

theorem readBoth_undoes {α β} {r : Reader α} {q : Reader β} {w v P Q} (h : Undoes r w P) (k : Undoes q v Q) :
    Undoes (readBoth r q) (fun x => w x.1 ++ v x.2) (fun x => P x.1 ∧ Q x.2) := by
  intro bs a rest e
  unfold readBoth at e
  split at e
  · cases e
  · next x r1 e1 =>
    split at e
    · cases e
    · next y r2 e2 =>
      simp at e; obtain ⟨rfl, rfl⟩ := e
      obtain ⟨rfl, p⟩ := h _ _ _ e1
      obtain ⟨rfl, q⟩ := k _ _ _ e2
      exact ⟨by simp, p, q⟩

theorem readMany_undoes {α} {r : Reader α} {w P} (h : Undoes r w P) (n : Nat) :
    Undoes (readMany r n) (fun l => l.flatMap w) (fun l => l.length = n ∧ ∀ a ∈ l, P a) := by
  induction n with
  | zero => intro bs a rest e; simp [readMany] at e; obtain ⟨rfl, rfl⟩ := e; simp
  | succ n ih =>
    intro bs a rest e
    unfold readMany at e
    split at e
    · cases e
    · next x r1 e1 =>
      split at e
      · cases e
      · next y r2 e2 =>
        simp at e; obtain ⟨rfl, rfl⟩ := e
        obtain ⟨rfl, p⟩ := h _ _ _ e1
        obtain ⟨rfl, q, q'⟩ := ih _ _ _ e2
        refine ⟨by simp, by simp [q], ?_⟩
        intro z hz; rcases List.mem_cons.1 hz with rfl | hz
        · exact p
        · exact q' z hz

theorem readList_undoes {α} {r : Reader α} {w P} (h : Undoes r w P) :
    Undoes (readList r) (fun l => byte l.length :: l.flatMap w) (fun l => l.length < 256 ∧ ∀ a ∈ l, P a) := by
  intro bs a rest e
  unfold readList at e
  split at e
  · cases e
  · next n r1 e1 =>
    obtain ⟨rfl, p⟩ := readByte_undoes _ _ _ e1
    obtain ⟨rfl, rfl, q⟩ := readMany_undoes h n _ _ _ e
    exact ⟨rfl, p, q⟩

theorem readOptional_undoes {α} {r : Reader α} {w P} (h : Undoes r w P) :
    Undoes (readOptional r) (fun x => byte x.1 :: (x.2.map w).getD []) (fun x => x.1 < 256 ∧ (x.2.isSome = true ↔ x.1 = 1) ∧ ∀ a ∈ x.2, P a) := by
  intro bs a rest e
  unfold readOptional at e
  split at e
  · cases e
  · next n r1 e1 =>
    obtain ⟨rfl, p⟩ := readByte_undoes _ _ _ e1
    split at e
    · next hn =>
      split at e
      · cases e
      · next x r2 e2 =>
        simp at e; obtain ⟨rfl, rfl⟩ := e
        obtain ⟨rfl, q⟩ := h _ _ _ e2
        exact ⟨by simp, p, by simp [hn], by simpa using q⟩
    · next hn =>
      simp at e; obtain ⟨rfl, rfl⟩ := e
      exact ⟨by simp, p, by simp [hn], by simp⟩

theorem readPart_undoes {α} {r : Reader α} {w P} (h : Undoes r w P) (part : List Byte) (a : α) (e : readPart r part = some a) :
    (∃ b, part = b :: w a) ∧ P a := by
  unfold readPart at e
  simp only [Option.map_eq_some_iff] at e
  obtain ⟨⟨n, x⟩, e, rfl⟩ := e
  unfold readAll at e
  split at e
  · next y e' => 
    simp at e; subst e
    obtain ⟨rfl, p⟩ := readBoth_undoes readByte_undoes h _ _ _ e'
    exact ⟨⟨byte n, by simp⟩, p.2⟩
  · cases e

/-! ### The converse: what a writer writes is read -/

/-- A reader reads all that a writer writes of values with a property, and leaves the rest. -/
def Reads {α} (r : Reader α) (w : α → List Byte) (P : α → Prop) : Prop :=
  ∀ a rest, P a → r (w a ++ rest) = some (a, rest)

theorem byte_toNat {n : Nat} (h : n < 256) : (byte n).toNat = n := by
  simp [byte, Nat.mod_eq_of_lt h]

theorem readByte_reads : Reads readByte (fun n => [byte n]) (· < 256) := fun n rest h => by
  simp [readByte, byte_toNat h]

theorem readWord_reads : Reads readWord word (· < 65536) := by
  intro n rest h
  have hi : (byte (n / 256)).toNat = n / 256 := byte_toNat (by change n < 65536 at h; omega)
  have lo : (byte n).toNat = n % 256 := by simp [byte]
  simp only [word, List.cons_append, List.nil_append, readWord, hi, lo]
  congr 2
  omega

theorem readBoth_reads {α β} {r : Reader α} {q : Reader β} {w v P Q} (h : Reads r w P) (k : Reads q v Q) :
    Reads (readBoth r q) (fun x => w x.1 ++ v x.2) (fun x => P x.1 ∧ Q x.2) := by
  intro a rest p
  simp [readBoth, h _ _ p.1, k _ _ p.2]

theorem readMany_reads {α} {r : Reader α} {w P} (h : Reads r w P) (n : Nat) :
    Reads (readMany r n) (fun l => l.flatMap w) (fun l => l.length = n ∧ ∀ a ∈ l, P a) := by
  induction n with
  | zero => rintro l rest ⟨e, -⟩; rw [List.length_eq_zero_iff.1 e]; rfl
  | succ n ih =>
    rintro l rest ⟨e, p⟩
    match l with
    | [] => cases e
    | a :: l =>
      have tail := ih l rest ⟨by simpa using e, fun b m => p b (by simp [m])⟩
      simp [readMany, h a _ (p a (by simp)), tail]

theorem readList_reads {α} {r : Reader α} {w P} (h : Reads r w P) :
    Reads (readList r) (fun l => byte l.length :: l.flatMap w) (fun l => l.length < 256 ∧ ∀ a ∈ l, P a) := by
  rintro l rest ⟨e, p⟩
  simp [readList, readByte, byte_toNat e, readMany_reads h l.length l rest ⟨rfl, p⟩]

theorem readOptional_reads {α} {r : Reader α} {w P} (h : Reads r w P) :
    Reads (readOptional r) (fun x => byte x.1 :: (x.2.map w).getD [])
      (fun x => x.1 < 256 ∧ (x.2.isSome = true ↔ x.1 = 1) ∧ ∀ a ∈ x.2, P a) := by
  rintro ⟨p, v⟩ rest ⟨e, k, q⟩
  cases v with
  | none => have : p ≠ 1 := by simpa using k
            simp [readOptional, readByte, byte_toNat e, this]
  | some a =>
    have one : p = 1 := by simpa using k
    subst one
    simp [readOptional, readByte, byte_toNat e, h a rest (q a rfl)]

theorem readAll_iff {α} {r : Reader α} {w P} (h : Undoes r w P) (k : Reads r w P) (bs : List Byte) (a : α) :
    readAll r bs = some a ↔ bs = w a ∧ P a := by
  unfold readAll
  constructor
  · intro e
    split at e
    · next x e' =>
      obtain rfl : x = a := by simpa using e
      simpa using h _ _ _ e'
    · cases e
  · rintro ⟨rfl, p⟩
    have e := k a [] p
    rw [List.append_nil] at e
    rw [e]

theorem readPart_iff {α} {r : Reader α} {w P} (h : Undoes r w P) (k : Reads r w P) (part : List Byte) (a : α) :
    readPart r part = some a ↔ (∃ b, part = b :: w a) ∧ P a := by
  constructor
  · exact readPart_undoes h part a
  · rintro ⟨⟨b, rfl⟩, p⟩
    have e : readAll (readBoth readByte r) (b :: w a) = some (b.toNat, a) :=
      (readAll_iff (readBoth_undoes readByte_undoes h) (readBoth_reads readByte_reads k) _ _).2
        ⟨by simp [byte], b.isLt, p⟩
    simp [readPart, e]

end Sys2Proof.Machine
end

