-- ==== Sys2Proof/Laws/Requests.lean ====
section
/-! SUPPORT. What taking a request does, said once (R161). -/

namespace Sys2Proof.Machine

/-- A request row being taken runs its owner on the fields read, and the port concludes. -/
theorem takeRequest_of_taking {c : Instr} {kind : RequestKind} {s : State} {t : Telegram} {f : Fields}
    (h : s.taking c t f) (row : rowKind c = some kind) (owner : Owner) :
    (s.powering fun s => s.takeRequest kind owner) = (owner f s).1.conclude t (owner f s).2 := by
  obtain ⟨p, r, w, b, k⟩ := h
  unfold rowOf at w
  rw [row] at w b
  simp only [Bool.and_eq_true, beq_iff_eq, Option.bind_some] at w b
  simp only [State.powering, p, if_true, State.takeRequest, r, w.1, State.handle, b, k]

/-- A SET MODE being taken, for the row of its scope. -/
theorem takeMode_of_taking {c : Instr} {s : State} {t : Telegram} {f : Fields} {campaign : Bool}
    (h : s.taking c t f) (row : c = if campaign then .setModeCampaign else .setModeSection)
    (owner : Owner) :
    (s.powering fun s => s.takeMode campaign owner) = (owner f s).1.conclude t (owner f s).2 := by
  obtain ⟨p, r, w, b, k⟩ := h
  subst row
  cases campaign
  all_goals
    simp only [rowOf, rowKind, Bool.false_eq_true, if_false, if_true, Bool.and_eq_true, beq_iff_eq,
      Bool.or_eq_true, bne_iff_ne, ne_eq, not_true, false_or, Option.bind_some] at w b
    obtain ⟨w1, w2⟩ := w
    split at w2 <;> first
      | exact absurd w2 (by decide)
      | (next q => simp [State.powering, p, State.takeMode, r, w1, q, State.handle, b, k])

end Sys2Proof.Machine
end

