-- ==== Sys2Proof/Laws/Stores.lean ====
section
/-! SUPPORT. The option store along a step (R172 to R174): only a site record's own write changes what is
stored, and what is written has passed the checks. -/

namespace Sys2Proof.Machine

/-- The law of the option store survives. -/
def Stores (s t : State) : Prop := s.storeLaw → t.storeLaw

theorem Stores.refl (s : State) : Stores s s := id

/-- The store and the staged parts stand, and so does a wait for the option store. -/
theorem Stored.stores {s t : State} (k : Stored s t)
    (a : s.site.siteWriting = true → ∀ w, s.link.awaited = some w → w.owner = .optionStore →
      ∃ v, t.link.awaited = some v ∧ v.owner = .optionStore) : Stores s t := by
  rintro ⟨sound, law⟩
  refine ⟨?_, fun w => ?_⟩
  · unfold OptionStore.sound at *
    rw [k.parts, k.check]
    exact sound
  · rw [k.writing] at w
    obtain ⟨⟨v, e, o⟩, parts⟩ := law w
    refine ⟨a w v e o, ?_⟩
    rw [k.staging]
    exact parts

theorem Done.stores {s t : State} (h : Done s t) : Stores s t :=
  h.stored.stores fun _ w e o => ⟨w, by rw [h.effect.awaited, e], o⟩

/-- A change of the link port that leaves the answer awaited. -/
theorem link_stores {s : State} {l : LinkPort} (h : l.awaited = s.link.awaited) :
    Stores s { s with link := l } :=
  Stored.stores (.same rfl rfl) fun _ w e o => ⟨w, h.trans e, o⟩

theorem sound_idle {s t : State} (h : s.storeLaw) (idle : s.link.awaited = none) (k : Stored s t) :
    t.storeLaw := by
  refine k.stores (fun w _ e _ => ?_) h
  rw [idle] at e
  exact absurd e (by simp)

theorem conclude_stored (s : State) (t : Telegram) (v : Verdict) : Stored s (s.conclude t v) := by
  unfold State.conclude
  split <;> exact .same rfl rfl

theorem handle_stores {s : State} {t : Telegram} {owner : Owner} (kind : RequestKind)
    (h : s.link.ready = some t) (e : ∀ f, s.storeLaw → s.link.awaited = none →
      ((owner f s).1.conclude t (owner f s).2).storeLaw) : Stores s (s.handle t kind owner) := by
  intro law
  obtain ⟨_, idle, _⟩ := ready_spec h
  unfold State.handle
  split
  · exact sound_idle law idle (conclude_stored _ _ _)
  · next f _ =>
    split
    · exact e f law idle
    · exact sound_idle law idle (conclude_stored _ _ _)

theorem takeWork_stores {s : State} {owner : Owner} (kind : RequestKind)
    (e : ∀ f t, s.storeLaw → s.link.awaited = none →
      ((owner f s).1.conclude t (owner f s).2).storeLaw) : Stores s (s.takeRequest kind owner) := by
  unfold State.takeRequest
  split
  · exact .refl _
  · next t h =>
    split
    · exact handle_stores kind h fun f => e f t
    · exact .refl _

theorem takeRequest_stores {s : State} {owner : Owner} (kind : RequestKind)
    (e : ∀ f s, Done s (owner f s).1) : Stores s (s.takeRequest kind owner) :=
  takeWork_stores kind fun f _ law idle => sound_idle law idle ((e f s).stored.trans (conclude_stored _ _ _))

theorem takeMode_stores {s : State} {owner : Owner} (campaign : Bool)
    (e : ∀ f s, Done s (owner f s).1) : Stores s (s.takeMode campaign owner) := by
  unfold State.takeMode
  split
  · exact .refl _
  · next t h =>
    split
    · exact handle_stores .setMode h fun f law idle =>
        sound_idle law idle ((e f s).stored.trans (conclude_stored _ _ _))
    · exact .refl _

theorem takeUnknown_stores (s : State) : Stores s s.takeUnknown := by
  unfold State.takeUnknown
  split
  · exact .refl _
  · next t h =>
    split
    · exact fun law => sound_idle law (ready_spec h).2.1 (conclude_stored _ _ _)
    · exact .refl _

theorem not_writing {s : State} (h : s.storeLaw) (idle : s.link.awaited = none) :
    s.site.siteWriting = false := by
  rw [← Bool.not_eq_true]
  intro w
  obtain ⟨⟨v, e, _⟩, _⟩ := h.2 w
  rw [idle] at e
  exact absurd e (by simp)

/-- R173: a part is staged while no site record is being written. -/
theorem sitePart_stores {f : Fields} {s : State} (t : Telegram) (law : s.storeLaw)
    (idle : s.link.awaited = none) : ((sitePartOrder f s).1.conclude t (sitePartOrder f s).2).storeLaw := by
  have off := not_writing law idle
  unfold sitePartOrder
  split
  · split
    · exact sound_idle law idle (conclude_stored _ _ _)
    · split
      · refine ⟨law.1, fun w => ?_⟩
        have w' : s.site.siteWriting = true := w
        rw [off] at w'
        exact absurd w' (by decide)
      · exact sound_idle law idle (conclude_stored _ _ _)
  · exact sound_idle law idle (conclude_stored _ _ _)

theorem staged_all {staging : Table (Option (List Byte)) 8}
    (h : ¬ staging.items.any Option.isNone = true) (k : Fin 8) :
    staging.get k = some ((stagedParts staging).get k) := by
  unfold stagedParts
  rw [Table.get_map]
  have n : (staging.get k).isNone = false := by
    rw [← Bool.not_eq_true]
    exact fun e => h (List.any_eq_true.2 ⟨_, Table.get_mem _ _, e⟩)
  cases e : staging.get k with
  | none => rw [e] at n; exact absurd n (by decide)
  | some p => rfl

/-- R174: what an accepted COMMIT SITE RECORD begins to write has passed the checks, and is awaited. -/
theorem commit_stores {f : Fields} {s : State} (t : Telegram) (law : s.storeLaw)
    (idle : s.link.awaited = none) : ((commitOrder f s).1.conclude t (commitOrder f s).2).storeLaw := by
  unfold commitOrder
  split
  · exact sound_idle law idle (conclude_stored _ _ _)
  · split
    · exact sound_idle law idle (conclude_stored _ _ _)
    · next all =>
      split
      · exact sound_idle law idle (conclude_stored _ _ _)
      · next ok => exact ⟨law.1, fun _ => ⟨⟨_, rfl, rfl⟩, _, staged_all all, ok⟩⟩

/-- R174: the write done, its parts stand under their own check value. -/
theorem siteWritten_storeLaw {s : State} (h : s.storeLaw) (w : s.site.siteWriting = true) :
    s.siteWritten.storeLaw := by
  obtain ⟨_, parts, e, ok⟩ := h.2 w
  have same : stagedParts s.site.staging = parts := Table.ext_get fun k => by
    unfold stagedParts
    rw [Table.get_map, e]
    rfl
  refine ⟨fun _ => ?_, fun x => absurd x (by simp [State.siteWritten])⟩
  show siteRefusal (stagedParts s.site.staging) = none
  rw [same]
  exact ok

theorem completeAwaited_stored (s : State) (w : Awaited) : Stored s (s.completeAwaited w) := by
  unfold State.completeAwaited
  dsimp only
  split <;> exact .same rfl rfl

/-- An answer awaited by another owner than the option store is completed. -/
theorem completeAwaited_stores {s : State} {w : Awaited} (h : s.link.awaited = some w)
    (o : w.owner ≠ .optionStore) : Stores s (s.completeAwaited w) := by
  refine (completeAwaited_stored s w).stores fun _ v e own => absurd ?_ o
  rw [h, Option.some.injEq] at e
  rw [e]
  exact own

theorem markReported_stores (s : State) (v : Mark) : Stores s (s.markReported v) := by
  have met : Stores s { s with campaign := { s.campaign with pendingMark := none } } :=
    Stored.stores (.same rfl rfl) fun _ w e o => ⟨w, e, o⟩
  unfold State.markReported
  split
  · dsimp only
    split
    · next w e =>
      split
      · next o => exact fun law => completeAwaited_stores (w := w) e (by rw [o]; decide) (met law)
      · exact met
    · exact met
  · exact .refl _

theorem lose_sound {s : State} (h : s.store.sound) : s.storeAfterLoss.sound := by
  have kept : OptionStore.sound (if s.site.siteWriting then
      { s.store with
        parts := tornParts s.store.parts s.site.staging s.drawn
        siteCheck := some (tornCheck (tornParts s.store.parts s.site.staging s.drawn)
          (Config.freeCheck s.drawn)) }
      else s.store) := by
    split
    · intro e
      have x : ∀ (parts : Table (List Byte) 8) (free : BitVec 16), tornCheck parts free ≠ partsCheck parts := by
        intro parts free
        unfold tornCheck
        split
        · next y =>
          intro z
          rw [y] at z
          have := congrArg (partsCheck parts ^^^ ·) z
          simp at this
        · next y => exact y
      exact absurd (Option.some.inj e) (x _ _)
    · exact h
  unfold State.storeAfterLoss
  dsimp only
  split
  · unfold OptionStore.sound at *
    exact kept
  · exact kept

theorem lose_stores (s : State) : Stores s s.lose := fun law =>
  ⟨lose_sound law.1, fun w => absurd w (by simp [State.lose, State.reset])⟩

theorem powering_stores {s : State} {act : State → State} (h : Stores s (act s)) :
    Stores s (s.powering act) := by
  unfold State.powering
  split
  · exact h
  · exact .refl _

/-- What an outcome says of the store: nothing where no state follows. -/
def StoresAfter (s : State) : Host.Outcome State Fault Refusal → Prop
  | .next t => Stores s t
  | .fault _ => True
  | .refused _ => True

theorem takeTelegram_stores (s : State) (t : Telegram) : Stores s (s.takeTelegram t) := by
  unfold State.takeTelegram
  dsimp only
  intro law
  have heard := link_stores (l := { s.link with receiver := .hunting, silenceExpired := false }) rfl law
  have regained := (regainSupervision_effect _).stores heard
  refine (Done.refl _).settle.stores (link_stores ?_ regained)
  unfold LinkPort.buffer
  split <;> rfl

/-- Every command but POWER_UP keeps the law of the option store. -/
theorem exec_stores (c : Instr) (s : State) (running : ∀ f l, c ≠ .powerUp f l) :
    StoresAfter s (exec c s) := by
  have silent : ∀ l : LinkPort, l.awaited = s.link.awaited → Stores s { s with link := l } := fun _ => link_stores
  cases c with
  | powerUp f l => exact absurd rfl (running f l)
  | telegramReceived kind tag body check =>
    refine powering_stores (act := fun s => _) ?_
    split
    · exact .refl _
    · split
      · exact takeTelegram_stores _ _
      · exact silent _ rfl
  | interByteTimeout late =>
    refine powering_stores (act := fun s => _) ?_
    split
    · exact .refl _
    · exact silent _ rfl
  | lineBreak =>
    refine powering_stores (act := fun s => _) ?_
    split
    · exact .refl _
    · refine Stored.stores (.same rfl rfl) fun _ w e o => ⟨{ w with dropped := true }, ?_, o⟩
      show (LinkPort.report _ _).awaited = _
      rw [LinkPort.report_eq]
      show s.link.awaited.map _ = _
      rw [e]
      rfl
  | silenceExpiry =>
    refine powering_stores (act := fun s => _) ?_
    split
    · exact fun law => (loseSupervision_effect _).stores (silent { s.link with silenceExpired := true } rfl law)
    · exact .refl _
  | transmitNextTelegram =>
    refine powering_stores ?_
    unfold State.transmit
    split <;> exact silent _ rfl
  | unknownKindRequest => exact powering_stores (takeUnknown_stores s)
  | readIdent => exact powering_stores (takeRequest_stores _ (query_effect fun _ _ => rfl))
  | readCampaign => exact powering_stores (takeRequest_stores _ (query_effect fun _ _ => rfl))
  | readSection => exact powering_stores (takeRequest_stores _ (query_effect sectionQuery_same))
  | readSteam => exact powering_stores (takeRequest_stores _ (query_effect fun _ _ => rfl))
  | readUnit => exact powering_stores (takeRequest_stores _ (query_effect unitQuery_same))
  | readTrips => exact powering_stores (takeRequest_stores _ (query_effect fun _ _ => rfl))
  | readCapture => exact powering_stores (takeRequest_stores _ (query_effect captureQuery_same))
  | readChannel => exact powering_stores (takeRequest_stores _ (query_effect channelQuery_same))
  | readSiteRecord => exact powering_stores (takeRequest_stores _ (query_effect sitePartQuery_same))
  | openCampaign => exact powering_stores (takeRequest_stores _ opening_effect)
  | closeCampaign => exact powering_stores (takeRequest_stores _ closing_effect)
  | resumeCampaign => exact powering_stores (takeRequest_stores _ resuming_effect)
  | advance => exact powering_stores (takeRequest_stores _ advance_effect)
  | hold => exact powering_stores (takeRequest_stores _ hold_effect)
  | release => exact powering_stores (takeRequest_stores _ release_effect)
  | adopt => exact powering_stores (takeRequest_stores _ adopting_effect)
  | excludeSection => exact powering_stores (takeRequest_stores _ excluding_effect)
  | includeSection => exact powering_stores (takeRequest_stores _ including_effect)
  | setLinks => exact powering_stores (takeRequest_stores _ links_effect)
  | setLimits => exact powering_stores (takeRequest_stores _ limits_effect)
  | setTiming => exact powering_stores (takeRequest_stores _ timing_effect)
  | setModeSection => exact powering_stores (takeMode_stores _ mode_effect)
  | setModeCampaign => exact powering_stores (takeMode_stores _ overlap_effect)
  | setBudget => exact powering_stores (takeRequest_stores _ budgeting_effect)
  | liftCeiling => exact powering_stores (takeRequest_stores _ lift_effect)
  | returnUnit => exact powering_stores (takeRequest_stores _ returning_effect)
  | setUnits => exact powering_stores (takeRequest_stores _ unitsOrder_effect)
  | setGroup => exact powering_stores (takeRequest_stores _ grouping_effect)
  | forceTrip => exact powering_stores (takeRequest_stores _ forcing_effect)
  | clearTrip => exact powering_stores (takeRequest_stores _ clearing_effect)
  | setCapture => exact powering_stores (takeRequest_stores _ capture_effect)
  | setReporting => exact powering_stores (takeRequest_stores _ reporting_effect)
  | writeSitePart => exact powering_stores (takeWork_stores _ fun _ t => sitePart_stores t)
  | commitSiteRecord => exact powering_stores (takeWork_stores _ fun _ t => commit_stores t)
  | siteRecordWriteDone =>
    refine powering_stores (act := fun s => _) ?_
    split
    · next w =>
      have done : Stores s s.siteWritten := fun law => siteWritten_storeLaw law w
      split
      · split
        · exact fun law => Stored.stores (completeAwaited_stored _ _) (fun x => absurd x (by
            simp [State.siteWritten])) (done law)
        · exact done
      · exact done
    · exact .refl _
  | markWriteComplete =>
    refine powering_stores (act := fun s => _) ?_
    split
    · exact .refl _
    · next v _ =>
      exact fun law => markReported_stores _ _ (Stored.stores (s := s) (t := s.markWritten v) ⟨rfl, rfl, rfl, rfl⟩
        (fun _ w e o => ⟨w, e, o⟩) law)
  | clockAdvance =>
    refine powering_stores (act := fun s => _) ?_
    split
    · exact .refl _
    · exact Stored.stores (.same rfl rfl) fun _ w e o => ⟨w, e, o⟩
  | conditioningExpiry k =>
    show StoresAfter s (execConditioningExpiry k s)
    unfold execConditioningExpiry
    split
    · trivial
    · refine powering_stores (act := fun s => _) ?_
      split
      · exact (Done.moves (reexamine_moves _ _ _) (reexamine_lawful _ _ _)).settle.stores
      · exact .refl _
  | lagCompletion k l =>
    show StoresAfter s (execLagCompletion k l s)
    unfold execLagCompletion
    split
    · refine powering_stores (act := fun s => _) ?_
      split
      · exact (Done.moves (reexamine_moves _ _ _) (reexamine_lawful _ _ _)).settle.stores
      · exact .refl _
    · trivial
  | channelSample k raw =>
    show StoresAfter s (execChannelSample k raw s)
    unfold execChannelSample
    split
    · trivial
    · split
      · refine powering_stores (act := fun s => _) ?_
        split
        · exact (sample_effect _ _ _).stores
        · exact .refl _
      · trivial
  | scanRoundComplete =>
    refine powering_stores (act := fun s => _) ?_
    split
    · have turned : Stores s s.newRound := Stored.stores (.same rfl rfl) fun _ w e o => ⟨w, e, o⟩
      refine fun law => ?_
      have h := turned law
      generalize s.newRound = t at h
      revert h
      have round : ∀ n, Stores t { t with scanner := { t.scanner with round := n } } := fun n =>
        Stored.stores (.same rfl rfl) fun _ w e o => ⟨w, e, o⟩
      show Stores t t.countRound
      unfold State.countRound
      split
      · exact .refl _
      · split
        · exact round _
        · exact fun law => ((Done.refl _).reportAll _).stores (round 0 law)
    · exact .refl _
  | faultInputActive k =>
    show StoresAfter s (execFaultInputActive k s)
    unfold execFaultInputActive
    split
    · trivial
    · refine powering_stores (act := fun s => _) ?_
      split
      · exact .refl _
      · exact (supervise_effect (watch_faultActive _ _) fun law => faultActive_kept _ _ law).settle.stores
  | faultInputInactive k =>
    show StoresAfter s (execFaultInputInactive k s)
    unfold execFaultInputInactive
    split
    · trivial
    · refine powering_stores (act := fun s => _) ?_
      split
      · exact (supervise_effect (watch_faultInactive _) fun law => faultInactive_kept _ _ law).settle.stores
      · exact .refl _
  | unitSupervisorTick =>
    exact powering_stores (act := fun s => _) (Stored.stores (.same rfl rfl) fun _ w e o => ⟨w, e, o⟩)
  | recoveryWindowExpiry k =>
    show StoresAfter s (execRecoveryWindowExpiry k s)
    unfold execRecoveryWindowExpiry
    split
    · trivial
    · refine powering_stores (act := fun s => _) ?_
      split
      · next out => exact (supervise_effect (watch_fail _ _) fun law => windowOut_kept _ law out).settle.stores
      · exact .refl _
  | tripInputActive k =>
    show StoresAfter s (execTripInputActive k s)
    unfold execTripInputActive
    split
    · trivial
    · refine powering_stores (act := fun s => _) ?_
      split
      · exact .refl _
      · exact (inputActive_effect _ _).stores
  | tripInputInactive k =>
    show StoresAfter s (execTripInputInactive k s)
    unfold execTripInputInactive
    split
    · trivial
    · refine powering_stores (act := fun s => _) ?_
      split
      · exact (inputInactive_effect _ _).stores
      · exact .refl _
  | telegramDiscardedInAssembly why =>
    exact powering_stores (act := fun s => s.setReceiver s.link.receiver.hunt) (silent _ rfl)
  | lineReturnToIdle =>
    refine powering_stores (act := fun s => _) ?_
    split
    · exact silent _ rfl
    · exact .refl _
  | powerLoss => exact powering_stores (act := State.lose) (lose_stores s)

end Sys2Proof.Machine
end

