-- ==== Sys2Proof/Tests/Slice0.lean ====
section
/-! SUPPORT. The model's own tests: the well-formedness checks, the check of R158, the conversion of R38,
small steps, and for each obligation with hypotheses states that meet them, clause by clause. -/

namespace Sys2Proof.Tests

set_option Elab.async false

open Sys2Proof.Machine

/-! ### Helpers: small states -/

/-- A telegram with tag 7. -/
def tg (kind : Nat) (body : List Nat) : Telegram := { kind := byte kind, tag := 7, body := body.map byte }

/-- The state with this request at the head of its buffer. -/
def ask (kind : Nat) (body : List Nat) (s : State) : State :=
  { s with link := { s.link with requests := [tg kind body] } }

/-- The state with section `i` fitted, in state `st`, and its record then changed by `f`. -/
def at' (i : SectionId) (st : SectionState) (f : Section → Section) (s : State) : State :=
  s.setSec i (f { s.sec i with
    fitted := true, state := st, intake := st.intake, discharge := st.discharge (s.sec i).phase })

/-- The state with the campaign in this state, at clock 100. -/
def camp (st : CampaignState) (s : State) : State :=
  { s with campaign := { s.campaign with
    state := st, lock := decide (st ≠ .closed), clock := 100
    resume := if st = .restoring then some .opened else none } }

def held (rs : List HoldReason) (back : Option SectionState) (r : Section) : Section :=
  { r with holds := rs, heldFrom := back }

def storage (r : Section) : Section := { r with cls := .storage, nativeCeiling := some 900 }

/-- Section `i`'s level channel changed. -/
def level (i : SectionId) (f : Channel → Channel) (s : State) : State :=
  { s with scanner := { s.scanner with
    channels := s.scanner.channels.set (levelChannel i) (f (s.level i)) } }

def unit (u : UnitId) (f : UnitRecord → UnitRecord) (s : State) : State :=
  { s with supervisor := s.supervisor.setUnit u (f (s.supervisor.units.get u)) }

def group (g : GroupId) (f : TripGroup → TripGroup) (s : State) : State := s.setGroup g (f (s.group g))

def input (i : InputId) (active : Bool) (s : State) : State :=
  s.setInput i ((s.trips.inputs.get i).becoming active)

/-- An OPEN campaign with section 3 in COLD. -/
def plant : State := camp .opened (at' 3 .cold id State.reset)

/-- The state a step answers, where it answers one. -/
def after : Host.Outcome State Fault Refusal → Option State
  | .next s => some s
  | .fault _ => none
  | .refused _ => none

/-- A mark write in progress that an OPEN CAMPAIGN waits for. -/
def marking (dropped : Bool) : State :=
  { plant.awaitMark .opened with
    link := { plant.link with
      awaited := some { request := tg 0x10 [], owner := .campaignController, dropped := dropped } } }

def duty (r : UnitRecord) : UnitRecord := { r with role := .duty, sec := some 3, runOutput := true }

/-- Group 2 tripped by input 6, its one input. -/
def tripped (mode : TripMode) (active : Bool) : State :=
  group 2 (fun g => { g with
    inputs := [6], mode := mode, state := .tripped, firstCause := some (.input 6)
    activeInputs := if active then [6] else [] }) (input 6 active plant)

/-! ### Well-formedness: each check refuses an ill-formed term -/

theorem test_wf_wrong_check_refused :
    (Instr.telegramReceived 1 0 [] (Telegram.check ⟨1, 0, []⟩ + 1)).wellFormed = false ∧
    (Instr.telegramReceived 1 0 [] (Telegram.check ⟨1, 0, []⟩)).wellFormed = true := by decide +kernel

theorem test_wf_long_body_refused :
    (Instr.telegramReceived 1 0 (List.replicate 241 0)
      (Telegram.check ⟨1, 0, List.replicate 241 0⟩)).wellFormed = false := by decide +kernel

theorem test_wf_expiry : (Instr.conditioningExpiry 24).wellFormed = false ∧
    (Instr.conditioningExpiry 23).wellFormed = true := by decide

theorem test_wf_lag : (Instr.lagCompletion 24 0).wellFormed = false ∧
    (Instr.lagCompletion 0 24).wellFormed = false ∧ (Instr.lagCompletion 23 23).wellFormed = true := by decide

theorem test_wf_sample : (Instr.channelSample 48 0).wellFormed = false ∧
    (Instr.channelSample 0 4096).wellFormed = false ∧ (Instr.channelSample 47 4095).wellFormed = true := by
  decide

theorem test_wf_unit_events : (Instr.faultInputActive 48).wellFormed = false ∧
    (Instr.faultInputInactive 48).wellFormed = false ∧ (Instr.recoveryWindowExpiry 48).wellFormed = false ∧
    (Instr.faultInputActive 47).wellFormed = true := by decide

theorem test_wf_trip_events : (Instr.tripInputActive 8).wellFormed = false ∧
    (Instr.tripInputInactive 8).wellFormed = false ∧ (Instr.tripInputActive 7).wellFormed = true := by decide

/-! ### Values written out -/

/-- R158: the check of the nine bytes 31 to 39 hex. -/
theorem test_check_of_nine_digits :
    crc16 [0x31, 0x32, 0x33, 0x34, 0x35, 0x36, 0x37, 0x38, 0x39] = 0x29B1#16 := by decide +kernel

/-- R38: the ends and the middle of both spans. -/
theorem test_conversion : scaled 1000 100 = 0 ∧ scaled 1000 4000 = 1000 ∧ scaled 850 100 = 0 ∧
    scaled 850 4000 = 850 ∧ scaled 1000 2050 = 500 ∧ scaled 850 2050 = 425 := by decide

/-- R161: a telegram of an unknown kind, and a body of a wrong length, are refused by the port. -/
theorem test_port_refusals :
    ((after (exec .unknownKindRequest (ask 0x30 [] plant))).map fun s => s.link.answers.map Telegram.body) =
      some [[1, Cause.unknownKind.code]] ∧
    ((after (exec .advance (ask 0x13 [] plant))).map fun s => s.link.answers.map Telegram.body) =
      some [[1, Cause.malformed.code]] := by decide +kernel

/-- R71: ADVANCE takes section 3 from COLD to FILLING. -/
theorem test_advance :
    ((after (exec .advance (ask 0x13 [3] plant))).map fun s =>
      ((s.sec 3).state, (s.sec 3).intake, (s.sec 3).enteredAt)) = some (.filling, .diverted, 100) := by
  decide +kernel

/-- R103, R104: HOLD makes RUNNING section 3 HELD with closed routes; RELEASE of that hold returns it. -/
theorem test_hold_and_release :
    ((after (exec .hold (ask 0x14 [3] (at' 3 .running id plant)))).map fun s =>
      ((s.sec 3).state, (s.sec 3).holds, (s.sec 3).heldFrom, (s.sec 3).intake)) =
      some (.held, [.host], some .running, .closed) ∧
    ((after (exec .release (ask 0x15 [3] (at' 3 .held (held [.host] (some .running)) plant)))).map fun s =>
      ((s.sec 3).state, (s.sec 3).holds, (s.sec 3).heldFrom, (s.sec 3).intake)) =
      some (.running, [], none, .through) := by decide +kernel

/-- R20: OPEN CAMPAIGN takes LAID_UP section 3 to COLD, at clock 0, and waits for the mark. -/
theorem test_open_campaign :
    ((after (exec .openCampaign (ask 0x10 [] (camp .closed (at' 3 .laidUp id State.reset))))).map fun s =>
      ((s.sec 3).state, s.campaign.state, s.campaign.clock, s.campaign.lock, s.site.markWriting)) =
      some (.cold, .opened, 0, true, some .opened) ∧
    ((after (exec .markWriteComplete (marking false))).map fun s =>
      (s.link.awaited, s.link.answers.map Telegram.kind, s.store.mark)) =
      some (none, [0x90#8], some .opened) := by decide +kernel

/-- R21, R22: CLOSE CAMPAIGN with COLD section 3 alone runs through WINDING_DOWN to CLOSED. -/
theorem test_close_campaign :
    ((after (exec .closeCampaign (ask 0x11 [] { plant with order := List.replicate 60 0 }))).map fun s =>
      ((s.sec 3).state, s.campaign.state, s.campaign.lock, s.campaign.pendingMark)) =
      some (.laidUp, .closed, false, some .closed) := by decide +kernel

/-- R38, R41, R46: a level sample of 500 leaves the empty band, and the phase of section 3 turns to WATER. -/
theorem test_sample :
    ((after (exec (.channelSample 6 2050) (level 3 (fun c => { c with converted := true }) plant))).map fun s =>
      ((s.level 3).value, (s.level 3).bands.empty, (s.sec 3).phase, (s.sec 3).phaseSince)) =
      some (500, some false, .water, 100) := by decide +kernel

/-- R60, R79, R81, R83: with steam for it, FILLING section 3 at fill-done goes on to CONDITIONING. -/
theorem test_budget_grants :
    ((after (exec .setBudget (ask 0x1D [10] { at' 3 .filling (fun r => { r with demand := 6 }) plant with
      steam := { plant.steam with queue := [{ sec := 3, demand := 6, since := 90 }] } }))).map fun s =>
      ((s.sec 3).state, (s.sec 3).deadline, s.steam.claims, s.steam.queue)) =
      some (.conditioning, some 700, [{ sec := 3, demand := 6, since := 100 }], []) := by decide +kernel

/-- R148, R150, R151: trip input 6 trips its group and holds member 3; its return clears a SELF_CLEARING
group and releases the section. -/
theorem test_trip_and_clear :
    ((after (exec (.tripInputActive 6) (group 2 (fun g => { g with inputs := [6], members := [3] })
      (at' 3 .running id plant)))).map fun s =>
      ((s.group 2).state, (s.group 2).firstCause, (s.sec 3).state, (s.sec 3).holds)) =
      some (.tripped, some (.input 6), .held, [.trip 2]) ∧
    ((after (exec (.tripInputInactive 6) (at' 3 .held (held [.trip 2] (some .running))
      (group 2 (fun g => { g with members := [3] }) (tripped .selfClearing true))))).map fun s =>
      ((s.group 2).state, (s.group 2).firstCause, (s.sec 3).state, (s.sec 3).holds)) =
      some (.normal, none, .running, []) := by decide +kernel

/-- R130, R131: a running unit's fault opens its window of 10 s; the tick counts it down; its return makes
the unit HEALTHY and puts it on the watch list. -/
theorem test_unit_fault :
    ((after (exec (.faultInputActive 5) (unit 5 duty (at' 3 .running id plant)))).map fun s =>
      ((s.supervisor.units.get 5).condition, (s.supervisor.units.get 5).window)) =
      some (.faultPending, some 10) ∧
    ((after (exec (.faultInputInactive 5) (unit 5 (fun r => { duty r with
      faultActive := true, condition := .faultPending, window := some 4 }) (at' 3 .running id plant)))).map fun s =>
      ((s.supervisor.units.get 5).condition, s.supervisor.watch)) = some (.healthy, [5]) := by decide +kernel

/-! ### States that meet the hypotheses of the obligations -/

/-- The part after a loss of power, which POWER_UP brings up; and events at the ends of their ranges. -/
theorem test_hyp_wellFormedCommandsComplete :
    State.reset.pending = [] ∧ State.reset.lose.powered = false ∧
    (∀ f l, Instr.lineBreak ≠ .powerUp f l) ∧ (Instr.channelSample 47 4095).wellFormed = true := by
  refine ⟨rfl, rfl, by simp, by decide⟩

theorem test_hyp_powerUpGivesBlocksTheirValues :
    ({ State.reset with powered := false } : State).powered = false ∧ State.reset.store.markRead ≠ .closed ∧
    State.reset.powered = true ∧ State.reset.store.mark = none ∧ State.reset.store.markCheckAgrees = false ∧
    ({ State.reset.store with mark := some .closed, markCheckAgrees := true } : OptionStore).mark = some .closed := by
  decide +kernel

theorem test_hyp_powerUpGivesSectionsTheirValues :
    ({ State.reset with powered := false } : State).powered = false ∧
    ({ State.reset.store with mark := some .closed, markCheckAgrees := true } : OptionStore).markRead = .closed := by
  decide +kernel

theorem test_hyp_powerLossTearsWritesInProgress :
    State.reset.powered = true ∧ State.reset.site.siteWriting = false ∧ State.reset.site.markWriting = none ∧
    ({ State.reset.site with siteWriting := true, markWriting := some .opened } : SiteService).siteWriting = true := by
  decide +kernel

theorem test_hyp_validTelegramIsBuffered : (plant.setReceiver .spacing).link.receiver = .spacing ∧
    plant.powered = true ∧ plant.link.receiver ≠ .spacing ∧ (List.replicate 240 (0 : Byte)).length ≤ 240 ∧
    plant.campaign.supervisionLost = false ∧ plant.work = [] ∧ plant.link.mask.campaign = true ∧
    plant.loseSupervision.campaign.supervisionLost = true ∧ plant.loseSupervision.powered = true ∧
    plant.loseSupervision.link.receiver ≠ .spacing := by
  decide +kernel

theorem test_hyp_receiverDiscardsAndRestarts :
    plant.powered = true ∧ plant.link.receiver ≠ .spacing ∧ 240 < (List.replicate 241 (0 : Byte)).length ∧
    (1 : BitVec 16) ≠ Telegram.check ⟨1, 7, []⟩ ∧ (0xA4#8 : Byte) ≠ 0xA5#8 ∧
    (plant.setReceiver .spacing).powered = true ∧ (plant.setReceiver .spacing).link.receiver = .spacing := by
  decide +kernel

theorem test_hyp_silenceExpirySetsSupervisionLost :
    plant.powered = true ∧ 0 < plant.link.silenceLimit ∧ plant.link.silenceExpired = false ∧
    plant.campaign.supervisionLost = false ∧ plant.loseSupervision.campaign.supervisionLost = true ∧
    ({ plant.link with silenceLimit := 0 } : LinkPort).silenceLimit = 0 := by
  decide +kernel

theorem test_hyp_transmitterSendsAnswersFirst :
    plant.powered = true ∧ plant.link.answers = [] ∧ plant.link.reports = [.campaign] ∧
    ({ plant.link with answers := [tg 0x81 []] } : LinkPort).answers = [tg 0x81 []] ∧
    ({ plant.link with reports := [] } : LinkPort).reports = [] := by
  decide +kernel

theorem test_hyp_reportEntersPendingSetOnce :
    plant.link.mask.allows (.sec 3) = true ∧ ReportKey.sec 3 ∉ plant.link.reports ∧
    ReportKey.campaign ∈ plant.link.reports ∧ plant.link.reports.Nodup ∧
    ({ plant.link.mask with sec := false } : ReportMask).allows (.sec 3) = false := by
  decide +kernel

theorem test_hyp_portChecksAndAnswersRequests :
    (ask 0x30 [] plant).link.ready = some (tg 0x30 []) ∧ requestKind (tg 0x30 []).kind = none ∧
    (ask 0x13 [] plant).link.ready = some (tg 0x13 []) ∧ rowOf .advance (tg 0x13 []) = true ∧
    RequestKind.advance.readBody (tg 0x13 []).body = none ∧
    RequestKind.setMode.readBody (tg 0x1C [1, 3, 2]).body = some (.mode 1 3 2) ∧
    (Fields.mode 1 3 2).codesInRange = false ∧ rowOf .setModeCampaign (tg 0x1C [1, 3, 2]) = true ∧
    rowOf .setModeSection (tg 0x1C [1, 3, 2]) = false ∧ plant.link.ready = none := by
  decide +kernel

theorem test_hyp_queriesAnswerRecords :
    (ask 1 [] plant).taking .readIdent (tg 1 []) .nothing ∧
    (ask 2 [] plant).taking .readCampaign (tg 2 []) .nothing ∧
    (ask 4 [] plant).taking .readSteam (tg 4 []) .nothing ∧
    (ask 6 [] plant).taking .readTrips (tg 6 []) .nothing ∧
    (∀ id ∈ [0, 23, 24], (ask 3 [id] plant).taking .readSection (tg 3 [id]) (.oneId id)) ∧
    (∀ id ∈ [0, 23, 24], (ask 7 [id] plant).taking .readCapture (tg 7 [id]) (.oneId id)) ∧
    (∀ id ∈ [0, 47, 48], (ask 5 [id] plant).taking .readUnit (tg 5 [id]) (.oneId id)) ∧
    (∀ id ∈ [0, 47, 48], (ask 8 [id] plant).taking .readChannel (tg 8 [id]) (.oneId id)) ∧
    (∀ id ∈ [0, 7, 8], ∀ half ∈ [0, 1, 2],
      (ask 9 [id, half] plant).taking .readSiteRecord (tg 9 [id, half]) (.siteHalf id half)) := by
  decide +kernel

/-- R35: a full ring is listed from its next slot on. -/
theorem test_oldestFirst :
    let c (time : Nat) : Option Capture :=
      some { leaving := .cold, entering := .filling, cause := .order, time := time, phase := .empty }
    let ring : CaptureRing :=
      { CaptureRing.emptied .absolute .continuous with
        count := 4, next := 2, slots := Table.ofFn fun k => c k.val }
    ring.oldestFirst.map Capture.time = [2, 3, 0, 1] ∧
    ({ ring with count := 2 } : CaptureRing).oldestFirst.map Capture.time = [0, 1] := by
  decide +kernel

theorem test_hyp_openCampaignStages :
    plant.site.markWriting = none ∧ (plant.requestMark .closed).site.markWriting = some .closed ∧
    ((at' 3 .laidUp id plant).sec 3).state = .laidUp ∧ plant.link.mask.sec = true ∧
    (plant.sec 3).state ≠ .absent ∧ (plant.sec 3).state ≠ .excluded := by
  decide +kernel

theorem test_hyp_openCampaignStartsAtZero :
    (ask 0x10 [] (camp .closed State.reset)).taking .openCampaign (tg 0x10 []) .nothing ∧
    (camp .closed State.reset).campaign.state = .closed ∧ (camp .closed State.reset).site.markWriting = none ∧
    (ask 0x10 [] plant).taking .openCampaign (tg 0x10 []) .nothing ∧ plant.campaign.state ≠ .closed := by
  decide +kernel

theorem test_hyp_closeCampaignWindsDown :
    (ask 0x11 [] plant).taking .closeCampaign (tg 0x11 []) .nothing ∧ plant.campaign.state = .opened ∧
    (ask 0x11 [] (camp .closed plant)).taking .closeCampaign (tg 0x11 []) .nothing ∧
    (camp .closed plant).campaign.state ≠ .opened := by
  decide +kernel

/-- Section 3 FILLING and section 4 held from CONDITIONING with STEAM, both with a claim queued. -/
def closing : State :=
  { at' 4 .held (held [.steam] (some .conditioning)) (at' 3 .filling id plant) with
    order := List.replicate 60 0
    steam := { plant.steam with queue := [{ sec := 3, demand := 6, since := 1 }, { sec := 4, demand := 5, since := 2 }] } }

theorem test_hyp_mapping :
    (closing.sec 3).state ≠ .held ∧ (closing.sec 4).state = .held ∧ (closing.sec 4).heldFrom = some .conditioning ∧
    ((at' 3 .held (held [.restart] none) plant).sec 3).heldFrom = none ∧
    windDownState .process .empty .filling ≠ .filling ∧ windDownState .process .empty .running = .running ∧
    (∃ c ∈ closing.steam.claims ++ closing.steam.queue, c.sec ∈ [(3 : SectionId), 4]) ∧
    ∀ c ∈ closing.steam.claims ++ closing.steam.queue, c.sec ∉ [(5 : SectionId)] := by
  decide +kernel

/-- R86, R112, R113, R114: the mapping takes both sections to DRAINING and both claims off the queue. -/
theorem test_mapping :
    ((closing.mapSections.sec 3).state, (closing.mapSections.sec 4).state, (closing.mapSections.sec 4).holds,
      closing.mapSections.steam.queue) = (.draining, .draining, [], []) := by
  decide +kernel

theorem test_hyp_resumeCampaignTakesItsTarget :
    (ask 0x12 [] (camp .restoring plant)).taking .resumeCampaign (tg 0x12 []) .nothing ∧
    (camp .restoring plant).campaign.state = .restoring ∧
    (camp .restoring plant).campaign.resume = some .opened ∧
    (∀ i, HoldReason.restart ∉ ((camp .restoring plant).sec i).holds) ∧
    (∃ i, HoldReason.restart ∈ ((camp .restoring (at' 3 .held (held [.restart] none) plant)).sec i).holds) ∧
    plant.campaign.state ≠ .restoring := by
  decide +kernel

theorem test_hyp_closingTestClosesFinishedCampaign :
    plant.campaign.state ≠ .windingDown ∧
    (∃ i, (plant.sec i).fitted = true ∧ (plant.sec i).state ≠ .laidUp ∧ (plant.sec i).state ≠ .excluded) ∧
    (camp .windingDown (at' 3 .laidUp id plant)).campaign.state = .windingDown ∧
    (∀ i, ((camp .windingDown (at' 3 .laidUp id plant)).sec i).fitted = true →
      ((camp .windingDown (at' 3 .laidUp id plant)).sec i).state = .laidUp ∨
      ((camp .windingDown (at' 3 .laidUp id plant)).sec i).state = .excluded) ∧
    plant.site.markWriting = none ∧ plant.link.mask.campaign = true ∧
    (plant.requestMark .opened).site.markWriting ≠ none := by
  decide +kernel

theorem test_hyp_markWriteCompletes :
    (marking false).powered = true ∧ (marking false).site.markWriting = some .opened ∧
    (marking false).campaign.pendingMark = some .opened ∧
    (∀ d, ∃ w, (marking d).link.awaited = some w ∧ w.owner = .campaignController ∧ w.dropped = d) ∧
    plant.site.markWriting = none ∧ (plant.requestMark .opened).campaign.pendingMark ≠ some .opened := by
  decide +kernel

theorem test_hyp_clockCountsWhileCampaignRuns :
    plant.powered = true ∧ plant.campaign.state ≠ .closed ∧ plant.campaign.clock < 4294967295 ∧
    (camp .closed plant).campaign.state = .closed ∧
    ({ plant.campaign with clock := 4294967295 } : Campaign).clock = 4294967295 := by
  decide +kernel

/-- The plant with section 3 in CIRCULATING and an overlapped start requested. -/
def overlapping : State :=
  let s := at' 3 .circulating id plant
  { s with campaign := { s.campaign with overlapRequested := true } }

theorem test_hyp_overlappedStartIsRequested :
    (∀ setting ∈ [0, 1], (ask 0x1C [1, 255, setting] plant).taking .setModeCampaign
      (tg 0x1C [1, 255, setting]) (.mode 1 255 setting)) ∧
    plant.campaign.overlapRequested = false ∧ plant.work = [] ∧ plant.link.mask.campaign = true ∧
    plant.campaign.overlapEffective = false ∧
    (overlapping.runDelivery (.spareSupply 3 2)).campaign.overlapEffective = true ∧
    (overlapping.runDelivery (.spareSupply 3 2)).work = [.reexamine 3 .other] ∧
    (overlapping.runDelivery (.spareSupply 2 2)).campaign.overlapEffective = false := by
  decide +kernel

theorem test_hyp_captureFollowsModeAndFill :
    (CaptureRing.emptied .difference .single).armed = true ∧
    ({ CaptureRing.emptied .absolute .single with count := 3 } : CaptureRing).armed = true ∧
    ({ CaptureRing.emptied .absolute .single with armed := false } : CaptureRing).armed = false := by
  decide

theorem test_hyp_permitsHoldWhenConditionsDo :
    (∀ st ∈ [SectionState.cold, .filling, .conditioning, .circulating, .running, .sweeteningOff, .draining],
      ((at' 3 st id plant).sec 3).state = st ∧ ((at' 3 st id plant).sec 3).cls = .process) ∧
    (∀ st ∈ [SectionState.cold, .circulating, .running],
      ((at' 3 st storage plant).sec 3).state = st ∧ ((at' 3 st storage plant).sec 3).cls = .storage) := by
  decide +kernel

theorem test_hyp_advanceTakesPermittedStep :
    (∀ id ∈ [0, 3, 23, 24], (ask 0x13 [id] plant).taking .advance (tg 0x13 [id]) (.oneId id)) ∧
    plant.named 24 = none ∧ plant.named 0 = none ∧ plant.named 3 = some 3 ∧
    (plant.sec 3).mode = .manual ∧ nextStep .process .cold = some .filling ∧ plant.failing 3 = [] ∧
    (camp .closed plant).failing 3 ≠ [] ∧ nextStep .process .laidUp = none := by
  decide +kernel

/-- R31, R60: AUTO section 3 takes its step with cause AUTO; FILLING at fill-done it asks for steam. -/
theorem test_reexamine :
    let auto := at' 3 .cold (fun r => { r with mode := .auto }) plant
    let full := level 3 (fun c => { c with bands := { c.bands with fillDone := some true } })
      (at' 3 .filling (fun r => { r with demand := 6 }) plant)
    auto.failing 3 = [] ∧ (auto.sec 3).mode = .auto ∧ ((auto.reexamine 3 .other).sec 3).state = .filling ∧
    full.failing 3 ≠ [] ∧ (full.sec 3).state = .filling ∧ (full.level 3).bands.fillDone = some true ∧
    (full.reexamine 3 .crossing).steam.queue = [{ sec := 3, demand := 6, since := 100 }] ∧
    nextStep .process .conditioning = some .circulating ∧ nextStep .process .held = none := by
  decide +kernel

theorem test_hyp_holdLeavesSectionHeld :
    (∀ id ∈ [3, 24], (ask 0x14 [id] plant).taking .hold (tg 0x14 [id]) (.oneId id)) ∧
    plant.named 24 = none ∧ plant.named 3 = some 3 ∧ (plant.sec 3).state = .cold ∧
    ((at' 3 .running id plant).sec 3).state = .running ∧ ((at' 3 .running id plant).sec 3).holdLaw := by
  unfold Section.holdLaw
  decide +kernel

theorem test_hyp_releaseRemovesHost :
    (∀ id ∈ [3, 24], (ask 0x15 [id] plant).taking .release (tg 0x15 [id]) (.oneId id)) ∧
    HoldReason.host ∉ (plant.sec 3).holds ∧
    HoldReason.host ∈ ((at' 3 .held (held [.host, .steam] (some .running)) plant).sec 3).holds ∧
    (∃ r ∈ ((at' 3 .held (held [.host, .steam] (some .running)) plant).sec 3).holds, r ≠ HoldReason.host) ∧
    (at' 3 .held (held [.host, .steam] (some .running)) plant).work = [] ∧
    ((at' 3 .held (held [.host] (some .running)) plant).sec 3).holds = [HoldReason.host] ∧
    ((at' 3 .held (held [.host] (some .running)) plant).sec 3).heldFrom = some .running ∧
    (level 3 (fun c => { c with validity := .bad }) plant).levelBad 3 = true := by
  decide +kernel

/-- The plant with section 3 above section 4, which stands full at its high position. -/
def filled (st : SectionState) (f : Section → Section) : State :=
  level 4 (fun c => { c with bands := { c.bands with high := some true } })
    (at' 4 .running (fun r => { r with upstream := [{ id := 3, lag := 120 }] })
      (at' 3 st (fun r => f { r with downstream := [4] }) plant))

/-- Section 4, full, lies below section 3, which does not lie below itself. -/
theorem test_hyp_fullDownstream :
    (filled .running id).downstreamOf 3 = [4] ∧ (filled .running id).full 4 = true ∧
    plant.full 4 = false ∧ plant.downstreamOf 3 = [] ∧
    (3 : SectionId) ∉ ((filled .running id).sec 3).downstream := by
  decide +kernel

/-- R101, R105, R106, R107: an entry into RUNNING above a full section is HELD with FULL; the crossing hands
FULL to a RUNNING feeder and its removal to the holder. -/
theorem test_full :
    (((filled .circulating id).enterState 3 .running .auto).sec 3).holds = [.full 4] ∧
    (filled .running id).crossingHandings 4 .highReached = [.addReason 3 (.full 4)] ∧
    (filled .held (held [.full 4] (some .running))).crossingHandings 4 .highCleared =
      [.removeReason 3 (.full 4)] := by
  decide +kernel

theorem test_hyp_reasonsHoldAndReleaseSections :
    ((at' 3 .running id plant).sec 3).takes .units = true ∧ (plant.sec 3).takes .units = false ∧
    HoldReason.units ∉ ((at' 3 .running id plant).sec 3).holds ∧
    ((at' 3 .held (held [.host] (some .running)) plant).sec 3).heldFrom = some .running ∧
    (∀ x ∈ ((at' 3 .held (held [.host] (some .running)) plant).sec 3).holds, x = HoldReason.host) ∧
    (level 3 (fun c => { c with validity := .bad }) plant).levelBad 3 = true ∧
    plant.levelBad 3 = false ∧ plant.supervisor.short.get 3 = false ∧ SectionState.filling.working = true ∧
    SectionState.filling.passesLiquor = false := by
  decide +kernel

theorem test_hyp_adoptRestoresSection :
    (∀ code ∈ [0, 2, 6, 10], (ask 0x16 [3, code] (at' 3 .held (held [.restart] none) plant)).taking .adopt
      (tg 0x16 [3, code]) (.adoption 3 code)) ∧
    (ask 0x16 [24, 2] plant).taking .adopt (tg 0x16 [24, 2]) (.adoption 24 2) ∧
    (at' 3 .held (held [.restart] none) plant).named 3 = some 3 ∧
    HoldReason.restart ∉ (plant.sec 3).holds ∧
    HoldReason.restart ∈ ((at' 3 .held (held [.restart] none) plant).sec 3).holds ∧
    sectionStateOf 2 = some .cold ∧ adoptable .process .cold = true ∧ SectionState.cold.working = false ∧
    SectionState.cold.steamState = false ∧ sectionStateOf 0 = some .absent ∧ adoptable .process .absent = false ∧
    (∃ r ∈ ((at' 3 .held (held [.restart, .host] none) plant).sec 3).holds, r ≠ HoldReason.restart) := by
  decide +kernel

/-- Section 3 of demand 6 held by RESTART above a full section, with a host budget. -/
def restarting (budget : Nat) : State :=
  { filled .held (fun r => { held [.restart] none r with demand := 6 }) with
    steam := { plant.steam with hostBudget := budget } }

theorem test_hyp_adoptionStages :
    ((restarting 6).sec 3).state = .held ∧ ((restarting 6).sec 3).holds = [HoldReason.restart] ∧
    ((restarting 6).sec 3).demand ≠ 0 ∧ (restarting 6).steam.queue = [] ∧
    (restarting 6).steam.claimedSum + 6 ≤ (restarting 6).steam.effective ∧
    (restarting 5).steam.effective < (restarting 5).steam.claimedSum + 6 ∧
    (∀ c ∈ (restarting 6).steam.claims ++ (restarting 6).steam.queue, c.sec ≠ 3) ∧
    (restarting 6).full 4 = true ∧ (restarting 6).levelBad 3 = false ∧
    (restarting 6).supervisor.short.get 3 = false ∧
    (3 : SectionId) ∉ ((restarting 6).sec 3).downstream := by
  decide +kernel

/-- R177: an adoption into CIRCULATING takes its steam and leaves HELD; without steam it is queued and HELD
with STEAM; into RUNNING it gains FULL. -/
theorem test_adoption :
    ((((restarting 6).adopt 3 .circulating).sec 3).state, ((restarting 6).adopt 3 .circulating).steam.claims) =
      (.circulating, [{ sec := 3, demand := 6, since := 100 }]) ∧
    ((((restarting 5).adopt 3 .circulating).sec 3).holds, ((restarting 5).adopt 3 .circulating).steam.queue) =
      ([.steam], [{ sec := 3, demand := 6, since := 100 }]) ∧
    (((restarting 6).adopt 3 .running).sec 3).holds = [.full 4] := by
  decide +kernel

theorem test_hyp_excludeAndIncludeMoveSections :
    (∀ id ∈ [3, 24], (ask 0x17 [id] plant).taking .excludeSection (tg 0x17 [id]) (.oneId id)) ∧
    (∀ id ∈ [3, 24], (ask 0x18 [id] plant).taking .includeSection (tg 0x18 [id]) (.oneId id)) ∧
    plant.named 3 = some 3 ∧ plant.named 24 = none ∧ plant.campaign.state = .opened ∧
    (camp .windingDown plant).campaign.state = .windingDown ∧ (plant.sec 3).state = .cold ∧
    ((at' 3 .running id plant).sec 3).state ≠ .cold ∧ ((at' 3 .running id plant).sec 3).state ≠ .laidUp ∧
    ((at' 3 .excluded id plant).sec 3).state = .excluded := by
  decide +kernel

/-- R12, R105: the inclusion of section 4, which stands full, hands FULL to RUNNING section 3 above it. -/
theorem test_include_full :
    let s := at' 4 .excluded id (filled .running id)
    (s.sec 4).state = .excluded ∧ s.full 4 = true ∧ .addReason 3 (.full 4) ∈ (s.incorporate 4).work := by
  decide +kernel

/-- The choices of order the cascade of a test may ask for. -/
def ordered (s : State) : State := { s with order := List.replicate 60 0 }

/-- A CLOSED campaign with sections 3, 4 and 5 in COLD. -/
def three : State := camp .closed (at' 5 .cold id (at' 4 .cold id plant))

theorem test_hyp_setLinksEditsBothEnds :
    (ask 0x19 [3, 1, 4, 14, 16, 1, 5] three).taking .setLinks (tg 0x19 [3, 1, 4, 14, 16, 1, 5])
      (.links 3 [(4, 3600)] [5]) ∧
    (ask 0x19 [3, 1, 24, 0, 0, 0] three).taking .setLinks (tg 0x19 [3, 1, 24, 0, 0, 0]) (.links 3 [(24, 0)] []) ∧
    three.named 3 = some 3 ∧ three.named 24 = none ∧ three.campaign.lock = false ∧ plant.campaign.lock = true ∧
    linksInRange three.sections 3 [{ id := 4, lag := 3600 }] [5] = true ∧
    linksCyclic three.sections 3 [{ id := 4, lag := 3600 }] [5] = false ∧
    linksInRange three.sections 3 [{ id := 4, lag := 3601 }] [5] = false ∧
    linksCyclic three.sections 3 [{ id := 4, lag := 0 }] [4] = true ∧
    linksInRange three.sections 3 [{ id := 4, lag := 0 }, { id := 4, lag := 1 }] [] = false ∧
    linksCyclic three.sections 3 [{ id := 3, lag := 0 }] [] = true ∧
    (three.sec 4).state ≠ .absent ∧ (three.sec 5).state ≠ .absent := by
  decide +kernel

/-- R8: section 4 placed above section 3 changes both records, and section 5 is told nothing. -/
theorem test_relink :
    let s := ordered three
    let t := s.relink 3 [{ id := 4, lag := 9 }] []
    (t.sec 3).upstream ≠ (s.sec 3).upstream ∧ (t.sec 4).downstream ≠ (s.sec 4).downstream ∧
    .sec 3 ∈ t.link.reports ∧ .sec 4 ∈ t.link.reports ∧ .sec 5 ∉ t.link.reports ∧
    .reexamine 4 .other ∈ t.work ∧ .reexamine 5 .other ∉ t.work := by
  decide +kernel

theorem test_hyp_limitsAndCeilingAreSet :
    (ask 0x1A [3, 0, 30, 2, 88, 3, 132, 0, 5, 3, 82, 0, 5, 3, 132] plant).taking .setLimits
      (tg 0x1A [3, 0, 30, 2, 88, 3, 132, 0, 5, 3, 82, 0, 5, 3, 132])
      (.limits 3 { empty := 30, fillDone := 600, high := 900, hysteresis := 5, sweetOn := 850, sweetOff := 5 } 900) ∧
    (plant.sec 3).cls = .process ∧ ((at' 3 .cold storage plant).sec 3).nativeCeiling.getD 0 = 900 ∧
    (ask 0x1E [3] plant).taking .liftCeiling (tg 0x1E [3]) (.oneId 3) ∧ plant.campaign.state ≠ .closed ∧
    ((at' 3 .cold storage plant).sec 3).cls = .storage ∧ (camp .closed plant).campaign.state = .closed ∧
    plant.named 3 = some 3 ∧ plant.named 24 = none := by
  decide +kernel

theorem test_hyp_setTimingReplacesTiming :
    (ask 0x1B [3, 28, 32, 63] plant).taking .setTiming (tg 0x1B [3, 28, 32, 63]) (.timing 3 7200 63) ∧
    (ask 0x1B [3, 28, 33, 64] plant).taking .setTiming (tg 0x1B [3, 28, 33, 64]) (.timing 3 7201 64) ∧
    plant.named 3 = some 3 ∧ (plant.sec 3).state = .cold ∧ (plant.sec 3).demand = 0 ∧
    ((at' 3 .running id plant).sec 3).state = .running ∧
    HoldReason.restart ∉ ((at' 3 .running id plant).sec 3).holds := by
  decide +kernel

/-- The plant with section 3 in AUTO and FILLING, its level at the fill-done position or below it. -/
def fillingTo (done : Bool) : State :=
  level 3 (fun c => { c with bands := { c.bands with fillDone := some done } })
    (at' 3 .filling (fun r => { r with mode := .auto }) plant)

theorem test_hyp_setModeTurnsSection :
    (∀ setting ∈ [0, 1], (ask 0x1C [0, 3, setting] plant).taking .setModeSection
      (tg 0x1C [0, 3, setting]) (.mode 0 3 setting)) ∧
    (plant.sec 3).mode = .manual ∧ ((at' 3 .cold (fun r => { r with mode := .auto }) plant).sec 3).mode = .auto ∧
    plant.named 3 = some 3 ∧ plant.work = [] ∧ (plant.sec 3).state ≠ .filling ∧
    (∀ b, (fillingTo b).named 3 = some 3 ∧ ((fillingTo b).sec 3).mode = .auto ∧
      ((fillingTo b).sec 3).state = .filling ∧ ((fillingTo b).sec 3).cls = .process ∧ (fillingTo b).work = [] ∧
      ((fillingTo b).level 3).bands.fillDone = some b ∧ ∀ c ∈ (fillingTo b).steam.queue, c.sec ≠ 3) ∧
    ((at' 3 .cold storage plant).sec 3).cls = .storage := by
  decide +kernel

theorem test_hyp_setCaptureArmsEmptiedRing :
    (∀ id ∈ [0, 3, 23, 24], (ask 0x24 [id, 1, 1] plant).taking .setCapture (tg 0x24 [id, 1, 1])
      (.capture id 1 1)) ∧
    (plant.sec 3).state ≠ .absent ∧ (plant.sec 0).state = .absent := by
  decide +kernel

/-- Section 3 in CONDITIONING in AUTO, entered at 50, with its deadline at the clock. -/
def heating : State := at' 3 .conditioning (fun r => { r with
  mode := .auto, enteredAt := 50, deadline := some 100 }) plant

/-- Section 3 RUNNING in AUTO below section 4, which is LAID_UP, in a campaign winding down. -/
def winding : State := camp .windingDown (at' 3 .running (fun r => { r with
  mode := .auto, upstream := [{ id := 4, lag := 100 }] }) (at' 4 .laidUp id plant))

theorem test_hyp_timedEventsReexamineSection :
    heating.powered = true ∧ heating.work = [] ∧ (heating.sec 3).state = .conditioning ∧
    (heating.sec 3).cls = .process ∧ (heating.sec 3).mode = .auto ∧ (heating.sec 3).deadline = some 100 ∧
    (100 : Nat) ≤ heating.campaign.clock ∧ (heating.sec 3).enteredAt < heating.campaign.clock ∧
    ((at' 3 .conditioning id plant).sec 3).mode = .manual ∧
    winding.upstreamOf 3 = [{ id := 4, lag := 100 }] ∧ winding.windDownClear 4 = true ∧
    (winding.sec 4).phaseSince + 100 ≤ winding.campaign.clock ∧ winding.failing 3 = [] ∧ winding.work = [] ∧
    (winding.sec 3).state = .running ∧ (plant.sec 3).state ≠ .running ∧ (winding.sec 4).state = .laidUp ∧
    (camp .closed (at' 3 .conditioning (fun r => { r with deadline := some 101 }) plant)).campaign.clock < 101 ∧
    (at' 3 .conditioning (fun r => { r with enteredAt := 100 }) plant).campaign.clock ≤ 100 ∧
    (winding.sec 4).phaseSince + 101 > winding.campaign.clock := by
  decide +kernel

theorem test_hyp_ordersAndEventsKeepFrame :
    (∃ u, exec .advance (ask 0x13 [3] plant) = .next u) ∧ (∃ u, exec .setBudget (ask 0x1D [9] plant) = .next u) ∧
    (∃ u, exec (.conditioningExpiry 23) plant = .next u) ∧ (∃ u, exec (.lagCompletion 23 0) plant = .next u) ∧
    (∃ u, exec (.channelSample 47 4095) plant = .next u) ∧ (∃ u, exec (.faultInputActive 47) plant = .next u) ∧
    (∃ u, exec (.tripInputActive 7) plant = .next u) ∧ (∃ u, exec .openCampaign plant = .next u) ∧
    (∃ u, exec .setTiming (ask 0x1B [3, 28, 32, 63] plant) = .next u) ∧
    (∃ u, exec (.telegramReceived 1 7 [] (Telegram.check ⟨1, 7, []⟩)) plant = .next u) ∧
    (∃ u, exec .lineBreak plant = .next u) ∧ ∃ u, exec .silenceExpiry plant = .next u :=
  ⟨⟨_, rfl⟩, ⟨_, rfl⟩, ⟨_, rfl⟩, ⟨_, rfl⟩, ⟨_, rfl⟩, ⟨_, rfl⟩, ⟨_, rfl⟩, ⟨_, rfl⟩, ⟨_, rfl⟩, ⟨_, rfl⟩, ⟨_, rfl⟩, ⟨_, rfl⟩⟩

/-- The plant with section 3's level channel converted, and the round past channel `turn`. -/
def scanning (turn : Nat) : State :=
  let s := level 3 (fun c => { c with converted := true }) plant
  { s with scanner := { s.scanner with turn := turn } }

theorem test_hyp_samples :
    (scanning 0).scanner.due = some 6 ∧ (scanning 6).scanner.due = some 6 ∧
    (scanning 7).scanner.due = none ∧ plant.scanner.due ≠ some 6 ∧
    ((scanning 0).level 3).validity = .valid ∧
    ((scanning 0).level 3).bands.evaluate ((scanning 0).sec 3).limits ((scanning 0).sec 3).ceilingInForce
      ((139 - 100) * 1000 / 3900) = ((scanning 0).level 3).bands ∧
    plant.powered = true ∧ (plant.scanner.channels.get 6).converted = false ∧
    ((level 3 (fun c => { c with converted := true }) plant).scanner.channels.get 6).converted = true ∧
    ((level 3 (fun c => { c with converted := true, validity := .bad, run := 1 }) plant).level 3).validity = .bad ∧
    ((level 3 (fun c => { c with converted := true, validity := .bad, run := 1 }) plant).level 3).run < 2 ∧
    (∀ raw ∈ [99, 4001, 4095], raw ≤ 4095 ∧ (raw < 100 ∨ 4000 < raw)) ∧
    (∀ raw ∈ [100, 4000], 100 ≤ raw ∧ raw ≤ 4000) := by
  decide +kernel

/-- A full round of the level channel of section 3 alone: the sample out of turn, and the completion before
the sample, change nothing. -/
theorem test_round :
    (exec (.channelSample 7 2050) (scanning 0) = .next (scanning 0)) ∧
    (exec .scanRoundComplete (scanning 0) = .next (scanning 0)) ∧
    ((after (exec (.channelSample 6 139) (scanning 0))).map fun s => s.scanner.turn) = some 7 ∧
    ((after (exec .scanRoundComplete (scanning 7))).map fun s => s.scanner.turn) = some 0 := by
  refine ⟨rfl, rfl, ?_, ?_⟩ <;> decide +kernel

/-- R49, R50: SENSOR on the sample that makes the level BAD, and off on the third valid one. -/
theorem test_sensor :
    ((after (exec (.channelSample 6 99) (ordered (at' 3 .running id (scanning 0))))).map fun s =>
      ((s.level 3).validity, (s.sec 3).state, (s.sec 3).holds, (s.sec 3).heldFrom)) =
      some (.bad, .held, [.sensor], some .running) ∧
    ((after (exec (.channelSample 6 100) (ordered (at' 3 .held (held [.sensor] (some .draining))
      (level 3 (fun c => { c with validity := .bad, run := 2 }) (scanning 0)))))).map fun s =>
      ((s.level 3).validity, (s.sec 3).state, (s.sec 3).holds)) = some (.valid, .draining, []) := by
  decide +kernel

theorem test_hyp_deliveryMovesPhaseSensorAndFull :
    (plant.level 3).validity = .valid ∧
    ((level 3 (fun c => { c with validity := .bad }) plant).level 3).validity = .bad ∧
    ((level 3 (fun c => { c with bands := { c.bands with empty := some false } }) plant).followPhase 3 |>.sec 3).phase
      ≠ (plant.sec 3).phase ∧
    (plant.followPhase 3 |>.sec 3).phase = (plant.sec 3).phase ∧ plant.link.mask.sec = true ∧
    (let s := level 3 (fun c => { c with bands := { c.bands with empty := some false } }) (filled .running id);
      (s.followPhase 3 |>.sec 3).phase ≠ (s.sec 3).phase ∧ (s.sec 4).cls = .process ∧
      (s.followPhase 3).work = [.reexamine 4 .crossing]) := by
  decide +kernel

theorem test_hyp_roundsCountToLevelReports :
    plant.powered = true ∧ plant.scanner.prescale = 0 ∧
    (∀ c : ChannelId, plant.scanner.turn ≤ c.val → (plant.scanner.channels.get c).converted = false) ∧
    (∃ c : ChannelId, (scanning 6).scanner.turn ≤ c.val ∧
      ((scanning 6).scanner.channels.get c).converted = true) ∧
    ({ plant.scanner with prescale := 2, round := 0 } : Scanner).round + 1 < 2 ∧
    2 ≤ ({ plant.scanner with prescale := 2, round := 1 } : Scanner).round + 1 := by
  decide +kernel

theorem test_hyp_setBudgetSetsHostBudget :
    (∀ b ∈ [0, 255], (ask 0x1D [b] plant).taking .setBudget (tg 0x1D [b]) (.oneId b)) ∧
    plant.steam.hostBudget = 0 ∧ plant.steamLaw ∧ plant.work = [] := by
  unfold State.steamLaw Steam.law
  decide +kernel

/-- Two claims of 6 on the list and one on the queue, under a budget of 12. -/
def steaming : Steam :=
  { hostBudget := 12, caps := Table.replicate 4 none
    claims := [{ sec := 1, demand := 6, since := 1 }, { sec := 2, demand := 6, since := 2 }]
    queue := [{ sec := 3, demand := 6, since := 3 }] }

/-- R87: a fall to 6 sheds the newest claim to the tail of the queue, and grants none. -/
theorem test_shed :
    (steaming.setHost 9 6).1.claims = [{ sec := 1, demand := 6, since := 1 }] ∧
    (steaming.setHost 9 6).1.queue =
      [{ sec := 3, demand := 6, since := 3 }, { sec := 2, demand := 6, since := 9 }] ∧
    (steaming.setHost 9 6).2 = [.steam 2] ∧ (steaming.release 9 1).2 = [.grant 3] ∧
    (steaming.withdraw 9 3).2 = [.lift 3] := by
  decide

/-- Every branch of the allocator's rules: a section on the lists and one on neither, room and none. -/
theorem test_hyp_setHost :
    (∃ c ∈ steaming.claims, c.sec = 1) ∧ (∃ c ∈ steaming.queue, c.sec = 3) ∧
    (∀ c ∈ steaming.claims ++ steaming.queue, c.sec ≠ 4) ∧
    ({ steaming with hostBudget := 11 } : Steam).effective < ({ steaming with hostBudget := 11 } : Steam).claimedSum ∧
    steaming.claimedSum ≤ steaming.effective ∧ steaming.effective < ({ steaming with hostBudget := 13 } : Steam).effective ∧
    ({ steaming with queue := [] } : Steam).queue = [] ∧ steaming.effective < steaming.claimedSum + 1 ∧
    ({ steaming with hostBudget := 18 } : Steam).claimedSum + 6 ≤ ({ steaming with hostBudget := 18 } : Steam).effective := by
  decide

theorem test_hyp_steamAllocatorGrantsReleasesAndSheds :
    ∃ st : Steam, st.claimedSum ≤ st.effective ∧ (st.grantPass 5).1.claims.length = 1 ∧
      (st.grantPass 5).1.queue.length = 1 :=
  ⟨{ hostBudget := 10, caps := Table.replicate 4 none, claims := [],
     queue := [{ sec := 1, demand := 6, since := 0 }, { sec := 2, demand := 6, since := 0 }] },
    by decide, by decide, by decide⟩

theorem test_hyp_faultInputMovesCondition :
    plant.powered = true ∧ ((unit 5 duty plant).supervisor.units.get 5).faultActive = false ∧
    ((unit 5 duty plant).supervisor.units.get 5).condition = .healthy ∧
    ((unit 5 duty plant).supervisor.units.get 5).runOutput = true ∧
    (5 : UnitId) ∉ (unit 5 duty plant).supervisor.watch ∧ (plant.supervisor.units.get 5).role = .none ∧
    ((unit 5 (fun r => { duty r with faultActive := true, condition := .faultPending, window := some 0 })
      plant).supervisor.units.get 5).condition = .faultPending := by
  decide +kernel

/-- Unit 5 is section 3's duty unit, running, and unit 9 a free spare of its class. -/
def pool : State :=
  unit 9 (fun r => { r with role := .spare }) (unit 5 duty (at' 3 .running (fun r => { r with
    dutyUnits := [5], minUnits := 1 }) plant))

/-- R134, R135, R136: a failure takes the free spare; the spare's failure puts the demand at the head; the
spare's return covers it again. -/
theorem test_coverage :
    let one := pool.supervisor.fail pool.sections 5
    let two := one.fail pool.sections 9
    (one.units.get 5).coveredBy = some 9 ∧ (one.units.get 9).covering = some 5 ∧ one.demands = [] ∧
    (two.units.get 5).coveredBy = none ∧ two.demands = [{ unit := 5, cls := 0 }] ∧
    ((two.giveBack 9).units.get 5).coveredBy = some 9 ∧ (two.giveBack 9).demands = [] := by
  decide +kernel

/-- R139, R140: a section whose one duty unit fails with no spare becomes short and is handed UNITS. -/
theorem test_short :
    let lone := unit 9 (fun r => { r with role := .none }) pool
    let both := ordered pool
    (lone.supervise fun us => us.fail lone.sections 5).supervisor.short.get 3 = true ∧
    .addReason 3 .units ∈ (lone.supervise fun us => us.fail lone.sections 5).work ∧
    .spareSupply 0 2 ∈ (both.supervise fun us => us.fail both.sections 5).work := by
  decide +kernel

theorem test_hyp_coverage :
    pool.supervisor.lowest 0 9 ∧ (∀ sp, ¬ plant.supervisor.free 0 sp) ∧
    (pool.supervisor.units.get 5).role = .duty ∧ (pool.supervisor.units.get 9).role = .spare ∧
    (pool.supervisor.units.get 9).covering = none ∧ (pool.sec 3).state ≠ .excluded ∧
    ((pool.supervisor.requestCoverage 5).units.get 9).covering = some 5 ∧
    ((pool.supervisor.requestCoverage 5).units.get 5).coveredBy = some 9 ∧
    ({ pool.supervisor with demands := [{ unit := 5, cls := 0 }] } : UnitSupervisor).demands =
      [] ++ { unit := 5, cls := 0 } :: [] := by
  unfold UnitSupervisor.lowest UnitSupervisor.free
  decide +kernel

theorem test_hyp_recoveryWindowRunsOut :
    ((unit 5 (fun r => { duty r with faultActive := true, condition := .faultPending, window := some 0 })
      plant).supervisor.units.get 5).windowOut = true ∧
    ((unit 5 duty plant).supervisor.units.get 5).condition ≠ .faultPending := by
  decide +kernel

theorem test_hyp_returnUnitHealsUnit :
    (∀ id ∈ [0, 5, 47, 48], (ask 0x1F [id] plant).taking .returnUnit (tg 0x1F [id]) (.oneId id)) ∧
    (plant.supervisor.units.get 5).role = .none ∧
    ((unit 5 (fun r => { duty r with condition := .failed }) plant).supervisor.units.get 5).condition = .failed ∧
    ((unit 5 (fun r => { duty r with faultActive := true }) plant).supervisor.units.get 5).faultActive = true ∧
    ((unit 5 duty plant).supervisor.units.get 5).condition ≠ .failed := by
  decide +kernel

theorem test_hyp_setUnitsSetsPool :
    (ask 0x20 [3, 0, 8, 60] plant).taking .setUnits (tg 0x20 [3, 0, 8, 60]) (.units 3 0 8 60) ∧
    (ask 0x20 [3, 5, 9, 61] plant).taking .setUnits (tg 0x20 [3, 5, 9, 61]) (.units 3 5 9 61) ∧
    plant.named 3 = some 3 ∧ (plant.sec 3).dutyUnits = [] := by
  decide +kernel

theorem test_hyp_setGroupConfiguresGroup :
    (ask 0x21 [3, 1, 3, 1, 7, 1, 1, 9] plant).taking .setGroup (tg 0x21 [3, 1, 3, 1, 7, 1, 1, 9])
      (.group 3 [3] [7] 1 1 (some 9)) ∧
    (ask 0x21 [4, 1, 24, 1, 8, 0, 0] plant).taking .setGroup (tg 0x21 [4, 1, 24, 1, 8, 0, 0])
      (.group 4 [24] [8] 0 0 none) ∧
    plant.named 3 ≠ none ∧ plant.named 24 = none ∧ (plant.group 3).state = .normal ∧
    ((group 3 (fun g => { g with state := .tripped }) plant).group 3).state = .tripped ∧
    (input 7 true plant).trips.activeOf [7] = [7] ∧ plant.trips.activeOf [7] = [] := by
  decide +kernel

theorem test_hyp_forceAndClearTripGroup :
    (∀ id ∈ [0, 3, 4], (ask 0x22 [id] plant).taking .forceTrip (tg 0x22 [id]) (.oneId id)) ∧
    (∀ id ∈ [0, 2, 3, 4], (ask 0x23 [id] plant).taking .clearTrip (tg 0x23 [id]) (.oneId id)) ∧
    (plant.group 2).state = .normal ∧ ((tripped .latched true).group 2).state = .tripped ∧
    (∃ k ∈ ((tripped .latched true).group 2).inputs, ((tripped .latched true).trips.inputs.get k).active = true) ∧
    (∀ k ∈ ((tripped .latched false).group 2).inputs, ((tripped .latched false).trips.inputs.get k).active = false) := by
  decide +kernel

theorem test_hyp_tripInputMovesItsGroups :
    plant.powered = true ∧ (plant.trips.inputs.get 6).active = false ∧
    ((tripped .selfClearing true).trips.inputs.get 6).active = true ∧
    (6 : InputId) ∈ ((tripped .selfClearing true).group 2).inputs ∧
    ((tripped .selfClearing true).group 2).forced = false ∧
    ((tripped .selfClearing true).group 2).mode = .selfClearing ∧
    ((tripped .latched true).group 2).mode = .latched ∧ (6 : InputId) ∉ (plant.group 1).inputs := by
  decide +kernel

/-- Group 2 with member 3 and a cap of 9, NORMAL. -/
def capped2 : State := group 2 (fun g => { g with members := [3], inputs := [6], cap := some 9 }) plant

/-- R148, R151: what a trip and a clearing hand on. -/
theorem test_trip_handings :
    let running := at' 3 .running id capped2
    let stopped := at' 3 .held (held [.trip 2] (some .running)) capped2
    (running.tripGroup 2 .forced [] true).work =
      [.addReason 3 (.trip 2), .cap 2 (some 9), .reexamine 3 .other] ∧
    (stopped.clearGroup 2).work = [.removeReason 3 (.trip 2), .cap 2 none, .reexamine 3 .other] ∧
    (capped2.tripGroup 2 .forced [] true).work = [.cap 2 (some 9), .reexamine 3 .other] ∧
    (capped2.group 2).cap = some 9 ∧ (plant.group 2).cap = none ∧ (capped2.group 2).state = .normal ∧
    ((tripped .latched true).group 2).forced = false ∧ ((tripped .latched true).group 2).state = .tripped ∧
    ((capped2.forceGroup 2).group 2).forced = true := by
  decide +kernel

theorem test_hyp_writeSitePartStagesPart :
    (∀ k ∈ [0, 7, 8], (ask 0x26 [k, 1] (camp .closed plant)).taking .writeSitePart (tg 0x26 [k, 1])
      (.sitePart [byte k, 1])) ∧
    (camp .closed plant).campaign.state = .closed ∧ plant.campaign.state ≠ .closed := by
  decide +kernel

/-- Eight staged parts that describe no section, no unit and no link. -/
def blankParts : Table (List Byte) 8 := Table.ofFn fun k =>
  match k.val with
  | 0 => 0 :: List.replicate 57 0
  | 1 => 1 :: List.replicate 24 0
  | 2 => 2 :: List.replicate 24 0
  | 3 => 3 :: List.replicate 24 0
  | 4 => 4 :: List.replicate 24 0
  | 5 => 5 :: List.replicate 144 0
  | 6 => 6 :: List.replicate 144 0
  | _ => [7, 0, 0]

/-- A store whose check agrees with its parts: section 3 fitted, of class STORAGE, with no native ceiling. -/
def stored (parts : Table (List Byte) 8) : State :=
  { State.reset with
    powered := false
    store := { State.reset.store with parts := parts, siteCheck := some (crc16 parts.items.flatten) } }

def tankParts : Table (List Byte) 8 :=
  blankParts.set 0 (List.replicate 16 0 ++ [1, 1] ++ List.replicate 40 0)

/-- R1, R172: what POWER_UP loads from it, and what it loads from a store never written. -/
theorem test_hyp_powerUpLoadsStoredRecord :
    (stored tankParts).powered = false ∧
    (stored tankParts).store.siteCheck = some (crc16 (stored tankParts).store.parts.items.flatten) ∧
    siteRefusal tankParts = none ∧
    ((readSite tankParts).map fun w =>
      ((w.slot 3).fitted, (w.slot 3).cls, (w.slot 3).native, (w.slot 4).fitted)) =
      some (true, .storage, some 980, false) ∧
    State.reset.store.siteCheck ≠ some (crc16 State.reset.store.parts.items.flatten) ∧
    readSite (tankParts.set 7 [7]) = none := by
  refine ⟨rfl, rfl, ?_, ?_, by simp [State.reset, OptionStore.blank], ?_⟩
  · decide +kernel
  · decide +kernel
  · decide +kernel

def staged : State :=
  { camp .closed plant with site := { plant.site with staging := blankParts.map some } }

theorem test_hyp_commitWritesSiteRecord :
    (ask 0x27 [] (camp .closed plant)).taking .commitSiteRecord (tg 0x27 []) .nothing ∧
    (∃ k, (camp .closed plant).site.staging.get k = none) ∧
    (∀ k, staged.site.staging.get k = some (blankParts.get k)) ∧ siteRefusal blankParts = none ∧
    siteRefusal (blankParts.set 7 [7]) = some .range ∧ plant.site.siteWriting = false ∧
    ({ staged.site with siteWriting := true } : SiteService).siteWriting = true ∧
    (readSite blankParts).isSome = true ∧ readSite (blankParts.set 7 [7]) = none ∧
    (blankParts.get 0).length = 58 ∧ (blankParts.get 5).length = 145 ∧ (blankParts.get 6).length = 145 := by
  decide +kernel

theorem test_hyp_setReportingSetsMaskAndLimits :
    (ask 0x25 [0, 1, 0, 1, 0, 1, 255, 0] plant).taking .setReporting (tg 0x25 [0, 1, 0, 1, 0, 1, 255, 0])
      (.reporting [0, 1, 0, 1, 0, 1] 255 0) := by
  decide +kernel

/-- An OPEN campaign with section 3 in COLD, its ADVANCE at the head of the request buffer, and the command
that takes it queued. -/
def advancing : State := { ordered (ask 0x13 [3] plant) with pending := [.advance] }

/-- The laws of the device hold together at reset, where nothing is queued, and beside a queued command whose
step takes section 3 to FILLING. -/
theorem test_hyp_stepKeepsLaws : ∀ s ∈ [State.reset, advancing],
    s.reportsOnce ∧ s.portLaw ∧ s.holdLaw ∧ s.deadlineLaw ∧ s.campaignLaw ∧ s.clockLaw ∧ s.overlapLaw ∧
    s.fittedLaw ∧ s.closedLaw ∧ s.outputLaw ∧ s.steamLaw ∧ s.watchLaw ∧ s.tripLaw ∧
    s.holdOrderLaw ∧ s.groupSetsLaw := by
  intro s h
  simp only [List.mem_cons, List.not_mem_nil, or_false] at h
  rcases h with rfl | rfl
  all_goals
    refine ⟨?_, ?_, ?_, ?_, ?_, ?_, ?_, ?_, ?_, ?_, ?_, ?_, ?_, ?_, ?_⟩
    all_goals
      first
        | (unfold State.reportsOnce; decide +kernel)
        | (unfold State.portLaw; decide +kernel)
        | (unfold State.holdLaw Section.holdLaw; decide +kernel)
        | (unfold State.deadlineLaw; decide +kernel)
        | (unfold State.campaignLaw; decide +kernel)
        | (unfold State.clockLaw; decide +kernel)
        | (unfold State.overlapLaw; decide +kernel)
        | (unfold State.fittedLaw; decide +kernel)
        | (unfold State.closedLaw; decide +kernel)
        | (unfold State.outputLaw Section.routeLaw; decide +kernel)
        | (unfold State.steamLaw Steam.law; decide +kernel)
        | (unfold State.watchLaw UnitSupervisor.watchLaw; decide +kernel)
        | (unfold State.tripLaw; decide +kernel)
        | (unfold State.holdOrderLaw HoldsOrdered; decide +kernel)
        | (unfold State.groupSetsLaw TripGroup.setsOrdered; decide +kernel)

theorem test_step_advancing :
    step State.reset = .next State.reset ∧
    ((after (step advancing)).map fun s => ((s.sec 3).state, s.pending, s.link.answers.length)) =
      some (.filling, [], 1) := by
  refine ⟨rfl, ?_⟩
  decide +kernel

/-- A state with no claim agrees with its sections where none has STEAM. -/
theorem claimLaw_bare {s : State} (h : s.steam.claims = []) (k : s.steam.queue = [])
    (n : ∀ i, HoldReason.steam ∉ (s.sec i).holds) : s.claimLaw := fun i =>
  ⟨fun c => by simp [h, hasClaim] at c, fun c => by simp [k, hasClaim] at c, fun c => absurd c (n i)⟩

/-- R76: beside a claim on the list and one on the queue. -/
theorem test_hyp_claimLaw :
    (∀ s ∈ [State.reset, advancing], s.claimLaw ∧ s.work = []) ∧
    ({ at' 3 .filling id advancing with
      steam := { steaming with claims := [], queue := [{ sec := 3, demand := 6, since := 3 }] } } : State).claimLaw := by
  refine ⟨fun s h => ?_, fun i => ⟨fun c => ?_, fun c => ?_, fun c => ?_⟩⟩
  · simp only [List.mem_cons, List.not_mem_nil, or_false] at h
    rcases h with rfl | rfl
    all_goals exact ⟨claimLaw_bare rfl rfl (by decide +kernel), rfl⟩
  · exact absurd c (by simp [hasClaim])
  · have e : (3 : SectionId) = i := by simpa [hasClaim] using c
    subst e
    exact .inr (.inl (by decide +kernel))
  · revert c
    revert i
    decide +kernel

/-- R129, R133: beside a duty unit that runs and a free spare, and beside the one covered by the other. -/
theorem test_hyp_poolLaw : ∀ s ∈ [State.reset, advancing, pool,
      (ordered pool).supervise fun us => us.fail pool.sections 5],
    (∀ i, (s.sec i).heldFrom = none) ∧ s.dutyLaw ∧ s.supervisor.coverLaw ∧ s.needLaw ∧ s.runLaw := by
  intro s h
  simp only [List.mem_cons, List.not_mem_nil, or_false] at h
  unfold State.dutyLaw UnitSupervisor.coverLaw State.needLaw State.runLaw
  rcases h with rfl | rfl | rfl | rfl
  all_goals
    refine ⟨?_, ⟨?_, ?_⟩, ⟨?_, ?_, ?_, ?_, ?_⟩, ?_, ?_⟩
    all_goals decide +kernel

theorem poolLaw_unheld {s : State} (h : ∀ i, (s.sec i).heldFrom = none) (k : s.dutyLaw)
    (c : s.supervisor.coverLaw) (n : s.needLaw) (r : s.runLaw) : s.poolLaw :=
  ⟨fun i back e => by rw [h i] at e; exact absurd e (by simp), k, c, n, r⟩

theorem test_hyp_poolLaw_holds : State.reset.poolLaw ∧ advancing.poolLaw ∧ pool.poolLaw :=
  have k := fun s h => test_hyp_poolLaw s h
  have w := fun s h => poolLaw_unheld (k s h).1 (k s h).2.1 (k s h).2.2.1 (k s h).2.2.2.1 (k s h).2.2.2.2
  ⟨w _ (by simp), w _ (by simp), w _ (by simp)⟩

/-- R149: beside a TRIPPED group whose one member is HELD with its reason. -/
theorem test_hyp_memberLaw :
    let s := at' 3 .held (held [.trip 2] (some .running)) (group 2 (fun g => { g with members := [3] })
      (tripped .latched true))
    s.memberLaw ∧ s.work = [] ∧ (s.sec 3).holdLaw ∧ (s.group 2).state = .tripped ∧ 3 ∈ (s.group 2).members ∧
    (s.sec 3).state ∉ [SectionState.cold, .laidUp, .absent, .excluded] ∧
    State.reset.memberLaw ∧ advancing.memberLaw := by
  refine ⟨?_, ?_, ?_, ?_, ?_, ?_, memberLaw_normal ?_, memberLaw_normal ?_⟩
  · intro g i
    revert i
    revert g
    have : ∀ g i, ((at' 3 .held (held [.trip 2] (some .running)) (group 2 (fun g => { g with members := [3] })
        (tripped .latched true))).group g).state = .tripped →
        i ∈ ((at' 3 .held (held [.trip 2] (some .running)) (group 2 (fun g => { g with members := [3] })
          (tripped .latched true))).group g).members → g = 2 ∧ i = 3 := by decide +kernel
    intro g i h k _
    obtain ⟨rfl, rfl⟩ := this g i h k
    exact .inl ⟨by decide +kernel, by decide +kernel⟩
  · decide +kernel
  · unfold Section.holdLaw
    decide +kernel
  · decide +kernel
  · decide +kernel
  · decide +kernel
  · decide +kernel
  · decide +kernel

/-- R172, R174: the store is sound, with no write and with one in progress. -/
theorem test_hyp_storeLaw : State.reset.storeLaw ∧ advancing.storeLaw ∧
    ({ staged with
      site := { staged.site with siteWriting := true }
      link := { staged.link with
        awaited := some { request := tg 0x27 [], owner := .optionStore, dropped := false } } } : State).storeLaw := by
  have bare : State.reset.store.sound := fun h => absurd h (by decide +kernel)
  refine ⟨⟨bare, fun h => absurd h (by decide)⟩, ⟨bare, fun h => absurd h (by decide)⟩, bare, fun _ =>
    ⟨⟨_, rfl, rfl⟩, blankParts, by decide +kernel, by decide +kernel⟩⟩

/-- The law of the line graph holds where no section has a link, and the option store is sound. -/
theorem test_hyp_stepKeepsGraphLaw : ∀ s ∈ [State.reset, advancing],
    s.graphLaw ∧ s.store.sound ∧ s.storeAtPowerUp.sound := by
  have bare : ∀ s ∈ [State.reset, advancing], ∀ i, (s.sections.get i).downstream = [] := by decide +kernel
  intro s h
  refine ⟨⟨?_, ?_, fun i c => ?_⟩, ?_⟩
  · simp only [List.mem_cons, List.not_mem_nil, or_false] at h
    rcases h with rfl | rfl
    all_goals decide +kernel
  · simp only [List.mem_cons, List.not_mem_nil, or_false] at h
    rcases h with rfl | rfl
    all_goals decide +kernel
  · obtain ⟨j, k, _⟩ := Relation.TransGen.head'_iff.1 c
    rw [bare s h] at k
    exact absurd k (by simp)
  · simp only [List.mem_cons, List.not_mem_nil, or_false] at h
    rcases h with rfl | rfl
    all_goals exact ⟨fun h => absurd h (by decide +kernel), fun h => absurd h (by decide +kernel)⟩

end Sys2Proof.Tests
end

/-! RELEASE (R104): what removing a reason does to a hold set with and without other reasons, and when
the section that leaves HELD is HELD again (R101). -/

namespace Sys2Proof.Machine

/-! ### Removing a reason (R97, R99) -/

/-- Where other reasons are left, the removal changes the hold set and enters a report, and nothing else. -/
theorem removeReason_of_others {s : State} {i : SectionId} {r : HoldReason} (c : CaptureCause)
    (held : r ∈ (s.sec i).holds) (others : ∃ x ∈ (s.sec i).holds, x ≠ r) :
    s.removeReason i r c =
      (s.setSec i { s.sec i with holds := removeFrom r (s.sec i).holds }).report (.sec i) := by
  obtain ⟨x, hx, ne⟩ := others
  have left : removeFrom r (s.sec i).holds ≠ [] := List.ne_nil_of_mem (mem_removeFrom.2 ⟨hx, ne⟩)
  simp [State.removeReason, held, left]

/-- The removal of the last reason returns the section to its held-from. -/
theorem removeReason_of_last {s : State} {i : SectionId} {r : HoldReason} {back : SectionState}
    (c : CaptureCause) (last : (s.sec i).holds = [r]) (source : (s.sec i).heldFrom = some back) :
    s.removeReason i r c = (s.setSec i { s.sec i with holds := [] }).enterState i back c := by
  simp [State.removeReason, removeFrom, last, source]

/-! ### Entering a state while the cause of a hold stands (R101) -/

/-- What leaves the scanner and the supervisor alone leaves the causes of SENSOR and UNITS alone, so
their reasons are found at the entry. -/
theorem OnlySections.entryReasons_ne_nil {s t : State} (h : OnlySections s t) {i : SectionId}
    (cause : s.levelBad i = true ∨ s.supervisor.short.get i = true) (dest : SectionState) :
    t.entryReasons i dest ≠ [] := by
  have bad : t.levelBad i = s.levelBad i := by simp only [State.levelBad, State.level, h.scanner]
  rcases cause with cause | cause
  · have : HoldReason.sensor ∈ t.entryReasons i dest := by simp [State.entryReasons, bad, cause]
    exact List.ne_nil_of_mem this
  · have : HoldReason.units ∈ t.entryReasons i dest := by
      simp [State.entryReasons, h.supervisor, cause]
    exact List.ne_nil_of_mem this

/-- An entry at which reasons are found goes on into HELD. -/
theorem enterState_of_entryReasons {s : State} {i : SectionId} {dest : SectionState} {c : CaptureCause}
    (work : dest.working = true) (found : (s.enter i dest c).entryReasons i dest ≠ []) :
    s.enterState i dest c =
      (s.enter i dest c).holdWith i ((s.enter i dest c).entryReasons i dest) := by
  simp [State.enterState, work, found]

/-- A section held with reasons is HELD. -/
theorem holdWith_state (s : State) (i : SectionId) (rs : List HoldReason) :
    ((s.holdWith i rs).sec i).state = .held := by
  rw [sec_holdWith, if_pos rfl]
  rfl

/-- A section that enters a working state while its level is BAD or its units are short is HELD. -/
theorem enterState_held_of_cause {s : State} {i : SectionId} {dest : SectionState} (c : CaptureCause)
    (work : dest.working = true)
    (cause : s.levelBad i = true ∨ s.supervisor.short.get i = true) :
    ((s.enterState i dest c).sec i).state = .held := by
  have found := (enter_onlySections s i dest c).entryReasons_ne_nil cause dest
  rw [enterState_of_entryReasons work found]
  exact holdWith_state _ _ _

/-! ### The order -/

/-- A RELEASE being taken: the section table carries it out, and the port concludes (R161). -/
theorem exec_release_of_taking {s : State} {t : Telegram} {id : Nat}
    (h : s.taking .release t (.oneId id)) :
    exec .release s =
      .next ((releaseOrder (.oneId id) s).1.conclude t (releaseOrder (.oneId id) s).2) :=
  congrArg _ (takeRequest_of_taking h rfl releaseOrder)

theorem releaseOrder_noSection {s : State} {id : Nat} (h : s.named id = none) :
    releaseOrder (.oneId id) s = s.refuse .noSection := by
  simp [releaseOrder, h]

theorem releaseOrder_notHeld {s : State} {id : Nat} {i : SectionId} (h : s.named id = some i)
    (host : .host ∉ (s.sec i).holds) : releaseOrder (.oneId id) s = s.refuse .notHeld := by
  simp [releaseOrder, h, host]

theorem releaseOrder_accepted {s : State} {id : Nat} {i : SectionId} (h : s.named id = some i)
    (host : .host ∈ (s.sec i).holds) :
    releaseOrder (.oneId id) s = ((s.removeReason i .host .release).settle).accept := by
  simp [releaseOrder, h, host]

/-- Settles O25, by the three outcomes of the order and the two of the removal it makes. -/
theorem releaseRemovesHost : Obligations.ReleaseRemovesHost := by
  intro s t id taken
  have run := exec_release_of_taking taken
  refine ⟨fun absent => ?_, fun i named => ?_⟩
  · rw [State.refusedAs, run, releaseOrder_noSection absent]
    rfl
  have accepted (host : .host ∈ (s.sec i).holds) :
      s.acceptedAs .release t (s.removeReason i .host .release).settle := by
    rw [State.acceptedAs, run, releaseOrder_accepted named host]
    rfl
  refine ⟨fun free => ?_, accepted, fun host idle others => ?_, fun back last held => ⟨?_, ?_⟩⟩
  · rw [State.refusedAs, run, releaseOrder_notHeld named free]
    rfl
  · have stays := accepted host
    rw [removeReason_of_others .release host others, settle_idle (by simpa using idle)] at stays
    exact stays
  · have leaves := accepted (by simp [last])
    rwa [removeReason_of_last .release last held] at leaves
  · exact fun work cause => enterState_held_of_cause .release work cause

end Sys2Proof.Machine

/-! The report pending set (R163): what an entry handed to it does, and how many keys there are. -/

namespace Sys2Proof.Machine

/-! ### An entry handed to the pending set -/

/-- The reporting mask disables the kind of the entry. -/
theorem report_of_disabled {s : State} {k : ReportKey} (disabled : s.link.mask.allows k = false) :
    s.report k = s := by
  simp [State.report, LinkPort.report, disabled]

/-- The pending entry with an equal key keeps its place. -/
theorem report_of_pending {s : State} {k : ReportKey} (pending : k ∈ s.link.reports) : s.report k = s := by
  simp [State.report, LinkPort.report, pending]

/-- A new entry of an enabled kind joins at the newest end. -/
theorem report_of_new {s : State} {k : ReportKey} (enabled : s.link.mask.allows k = true)
    (new : k ∉ s.link.reports) :
    s.report k = { s with link := { s.link with reports := s.link.reports ++ [k] } } := by
  simp [State.report, LinkPort.report, enabled, new]

/-! ### The report keys -/

/-- R163: every pair of report kind and source, 24 + 24 + 1 + 48 + 4 + 1 of them. -/
def allReportKeys : List ReportKey :=
  (allIds 24).map .sec ++ (allIds 24).map .level ++ [.steam] ++ (allIds 48).map .unit ++
    (allIds 4).map .trip ++ [.campaign]

theorem mem_allReportKeys (k : ReportKey) : k ∈ allReportKeys := by
  cases k <;> simp [allReportKeys]

theorem length_allReportKeys : allReportKeys.length = 102 := by
  simp [allReportKeys]

/-- Entries with no key twice are among the report keys, each at most once. -/
theorem length_le_of_reportsOnce {s : State} (once : s.reportsOnce) : s.link.reports.length ≤ 102 :=
  calc s.link.reports.length
    _ ≤ allReportKeys.length := (List.Nodup.subperm once fun k _ => mem_allReportKeys k).length_le
    _ = 102 := length_allReportKeys

/-- Settles O10, by the port's three cases for an entry and the number of keys. -/
theorem reportEntersPendingSetOnce : Obligations.ReportEntersPendingSetOnce :=
  ⟨fun _ k => ⟨report_of_disabled, report_of_pending, report_of_new, report_nodup k⟩,
    fun _ => length_le_of_reportsOnce⟩

end Sys2Proof.Machine

/-! Every step, law by law: what the coming up of a POWER_UP gives, and what one change keeps. -/

namespace Sys2Proof.Machine

/-- A property that each change keeps, and that every coming up gives, is kept by every step. -/
theorem step_induct {P : State → Prop} (change : ∀ s t, Change s t → P s → P t)
    (boot : ∀ (s : State) (f : BitVec 48) (l : BitVec 8), P (s.boot f l)) {s t : State}
    (run : step s = .next t) (h : P s) : P t := by
  obtain ⟨u, steps, rfl | ⟨f, l, _, _, rfl, _⟩⟩ := step_steps run
  · exact steps.changes.keep change h
  · exact boot u f l

/-! ### The link port (R160, R161, R163) -/

/-- The link port after a state entry: its SECTION report joins the pending set. -/
theorem link_enter (s : State) (i : SectionId) (dest : SectionState) (c : CaptureCause) :
    (s.enter i dest c).link = s.link.report (.sec i) := rfl

/-- R163: a change keeps the report keys distinct. -/
theorem change_reportsOnce {s t : State} (c : Change s t) (h : s.reportsOnce) : t.reportsOnce := by
  cases c with
  | move m => exact move_reportsOnce m h
  | lose => exact List.nodup_singleton _
  | port l k => exact k.once h
  | adoptLeave i st c => exact report_nodup (l := s.link) (.sec i) h
  | _ => exact h

/-- R160, R161: a change keeps the bounds of the buffers. -/
theorem change_portLaw {s t : State} (c : Change s t) (h : s.portLaw) : t.portLaw := by
  cases c with
  | move m => exact move_portLaw m h
  | lose => exact ⟨Nat.zero_le _, Nat.zero_le _⟩
  | port l k => exact k.bounds h
  | adoptLeave i st c =>
    unfold State.portLaw
    rw [link_enter, LinkPort.report_eq]
    exact h
  | _ => exact h

/-- R168: the link port at power-up keeps its laws. -/
theorem boot_linkPortLaws (s : State) (f : BitVec 48) (l : BitVec 8) :
    (s.boot f l).reportsOnce ∧ (s.boot f l).portLaw :=
  ⟨List.nodup_singleton _, Nat.zero_le _, Nat.zero_le _⟩

/-- Settles O53, change by change. -/
theorem stepKeepsLinkPortLaws : Obligations.StepKeepsLinkPortLaws := fun _ _ once port run =>
  ⟨step_induct (fun _ _ => change_reportsOnce) (fun s f l => (boot_linkPortLaws s f l).1) run once,
    step_induct (fun _ _ => change_portLaw) (fun s f l => (boot_linkPortLaws s f l).2) run port⟩

/-! ### Hold sets and deadlines (R63, R94) -/

/-- R63: a change keeps the deadlines with CONDITIONING. -/
theorem change_deadlineLaw {s t : State} (c : Change s t) (h : s.deadlineLaw) : t.deadlineLaw := by
  have one : ∀ (i : SectionId) (r : Section), (r.deadline.isSome = true ↔ r.state = .conditioning) →
      (s.setSec i r).deadlineLaw := by
    intro i r k j
    rw [State.sec_setSec]
    split
    · exact k
    · exact h j
  cases c with
  | move m => exact move_deadlineLaw m h
  | lose => intro i; rw [sec_lose]; simp [Section.unfitted]
  | setting _ k _ =>
    intro i
    have e := k i
    show (Section.deadline (Table.get _ i)).isSome = true ↔ Section.state (Table.get _ i) = _
    rw [e.deadline, e.state]
    exact h i
  | phase i p => exact one i _ (h i)
  | opened =>
    intro i
    show (Section.deadline (Table.get _ i)).isSome = true ↔ Section.state (Table.get _ i) = _
    rw [Table.get_map]
    exact h i
  | rewrite i old new => exact one i _ (h i)
  | adoptStay i st hs => exact one i _ (h i)
  | adoptLeave i st c =>
    intro j
    rw [sec_enter]
    split
    · by_cases e : st = .conditioning <;> simp [Section.entering, e]
    · next e => rw [State.sec_setSec, if_neg e]; exact h j
  | _ => exact h

/-- R63, R94: the hold set and the deadline of a section at power-up. -/
theorem slot_section_holds (sl : Slot) (duty : List UnitId) (m : Mark) :
    HoldsOrdered (sl.section duty m).holds ∧ (sl.section duty m).deadline = none ∧
      (sl.section duty m).state ≠ .conditioning := by
  unfold Slot.section HoldsOrdered
  split
  · cases m <;> simp [Section.unfitted]
  · simp [Section.unfitted]

theorem boot_deadlineLaw (s : State) (f : BitVec 48) (l : BitVec 8) : (s.boot f l).deadlineLaw := by
  intro i
  obtain ⟨-, deadline, state⟩ := slot_section_holds (s.store.inForce.1.slots.get i)
    (dutyList s.store.inForce.1.units i) s.store.markRead
  rw [sec_boot, deadline]
  simp [state]

theorem boot_holdOrderLaw (s : State) (f : BitVec 48) (l : BitVec 8) : (s.boot f l).holdOrderLaw :=
  fun i => by rw [sec_boot]; exact (slot_section_holds _ _ _).1

/-- Every step keeps the law of the hold sets. -/
theorem step_holdLaw {s t : State} (run : step s = .next t) (h : s.holdLaw) : t.holdLaw :=
  step_induct (fun _ _ => change_holdLaw) (fun s f l => (boot_steamLaws s f l).hold) run h

/-- Settles O54, change by change. -/
theorem stepKeepsHoldLaw : Obligations.StepKeepsHoldLaw := by
  refine ⟨fun s t hold deadline run => ⟨step_holdLaw run hold, ?_⟩, fun s t order run => ?_,
    fun _ => Iff.rfl, fun _ _ => rfl, fun s order i => (order i).nodup⟩
  · exact step_induct (fun _ _ => change_deadlineLaw) boot_deadlineLaw run deadline
  · exact step_induct (fun _ _ => change_holdOrderLaw) boot_holdOrderLaw run order

end Sys2Proof.Machine

/-! Every step and the campaign: its record and its clock, CLOSED campaigns, and the outputs. -/

namespace Sys2Proof.Machine

/-! ### The campaign record (R17, R24, R25, R29) -/

/-- R29: the law of the effective flag, by the value the record calls for. -/
theorem overlapLaw_iff (s : State) : s.overlapLaw ↔ s.campaign.overlapEffective = s.campaign.overlapDue := by
  unfold State.overlapLaw Campaign.overlapDue
  rw [Bool.eq_iff_iff (b := _ && _), Bool.and_eq_true, decide_eq_true_iff]

theorem change_campaignLaw {s t : State} (c : Change s t) (h : s.campaignLaw) : t.campaignLaw := by
  obtain ⟨lock, resume, target⟩ := h
  cases c with
  | move m => exact move_campaignLaw m ⟨lock, resume, target⟩
  | lose => simp [State.campaignLaw, State.lose, State.reset]
  | campaign c k => exact k.lock lock resume target
  | opened closed =>
    have absent : s.campaign.resume.isSome ≠ true := fun some => by simp [closed] at resume; simp_all
    exact ⟨by simp, iff_of_false absent (by simp), target⟩
  | _ => exact ⟨lock, resume, target⟩

theorem change_overlapLaw {s t : State} (c : Change s t) (h : s.overlapLaw) : t.overlapLaw := by
  cases c with
  | move m => exact move_overlapLaw m h
  | lose => exact (overlapLaw_iff _).2 rfl
  | campaign c k => exact (overlapLaw_iff _).2 (k.overlap ((overlapLaw_iff s).1 h))
  | _ => exact h

theorem boot_campaignLaw (s : State) (f : BitVec 48) (l : BitVec 8) : (s.boot f l).campaignLaw := by
  unfold State.campaignLaw State.boot powerUpCampaign
  cases s.store.markRead <;> simp

theorem boot_overlapLaw (s : State) (f : BitVec 48) (l : BitVec 8) : (s.boot f l).overlapLaw :=
  (overlapLaw_iff _).2 rfl

/-! ### Times (R13, R24, R47) -/

/-- R13, R47: the times of a section do not lie ahead of a clock. -/
def Section.timely (clock : Nat) (r : Section) : Prop := r.enteredAt ≤ clock ∧ r.phaseSince ≤ clock

theorem clockLaw_iff (s : State) : s.clockLaw ↔
    s.campaign.clock ≤ Config.maxTime ∧ ∀ i, (s.sec i).timely s.campaign.clock := Iff.rfl

theorem clockLaw_setSec {s : State} (h : s.clockLaw) (i : SectionId) {r : Section}
    (k : r.timely s.campaign.clock) : (s.setSec i r).clockLaw := by
  refine ⟨h.1, fun j => ?_⟩
  rw [State.sec_setSec]
  split
  · exact k
  · exact h.2 j

theorem change_clockLaw {s t : State} (c : Change s t) (h : s.clockLaw) : t.clockLaw := by
  obtain ⟨bound, times⟩ := (clockLaw_iff s).1 h
  cases c with
  | move m => exact move_clockLaw m h
  | lose => exact ⟨Nat.zero_le _, fun i => by rw [sec_lose]; exact ⟨le_rfl, le_rfl⟩⟩
  | setting _ k _ =>
    refine ⟨bound, fun i => ?_⟩
    show Section.timely _ (Table.get _ i)
    unfold Section.timely
    rw [(k i).enteredAt, (k i).phaseSince]
    exact times i
  | phase i p => exact clockLaw_setSec h i ⟨(times i).1, le_rfl⟩
  | campaign c k =>
    have later : s.campaign.clock ≤ c.clock := k.later.resolve_right (by omega)
    exact ⟨k.bound bound, fun i => ⟨(times i).1.trans later, (times i).2.trans later⟩⟩
  | opened closed =>
    refine ⟨Nat.zero_le _, fun i => ?_⟩
    show Section.timely 0 (Table.get _ i)
    rw [Table.get_map]
    exact ⟨le_rfl, le_rfl⟩
  | rewrite i old new => exact clockLaw_setSec h i (times i)
  | adoptStay i st hs => exact clockLaw_setSec h i (times i)
  | adoptLeave i st c =>
    refine ⟨bound, fun j => ?_⟩
    rw [sec_enter, State.sec_setSec, if_pos rfl]
    split
    · exact ⟨le_rfl, (times i).2⟩
    · next e => rw [State.sec_setSec, if_neg e]; exact times j
  | _ => exact h

/-- R13, R47: a section at power-up has the time 0. -/
theorem slot_section_times (sl : Slot) (duty : List UnitId) (m : Mark) :
    (sl.section duty m).enteredAt = 0 ∧ (sl.section duty m).phaseSince = 0 := by
  unfold Slot.section
  split <;> exact ⟨rfl, rfl⟩

theorem boot_clockLaw (s : State) (f : BitVec 48) (l : BitVec 8) : (s.boot f l).clockLaw := by
  refine ⟨Nat.zero_le _, fun i => ?_⟩
  obtain ⟨entered, since⟩ := slot_section_times (s.store.inForce.1.slots.get i)
    (dutyList s.store.inForce.1.units i) s.store.markRead
  rw [sec_boot, entered, since]
  exact ⟨Nat.zero_le _, Nat.zero_le _⟩

/-- Every step keeps the law of the campaign record. -/
theorem step_campaignLaw {s t : State} (run : step s = .next t) (h : s.campaignLaw) : t.campaignLaw :=
  step_induct (fun _ _ => change_campaignLaw) boot_campaignLaw run h

/-- Settles O55, change by change. -/
theorem stepKeepsCampaignLaw : Obligations.StepKeepsCampaignLaw := fun _ _ campaign clock overlap run =>
  ⟨step_campaignLaw run campaign,
    step_induct (fun _ _ => change_clockLaw) boot_clockLaw run clock,
    step_induct (fun _ _ => change_overlapLaw) boot_overlapLaw run overlap⟩

/-! ### Fitted slots and CLOSED campaigns (R10, R22) -/

/-- R10 for one section. -/
def Section.fittedLaw (r : Section) : Prop :=
  (r.state = .absent ↔ r.fitted = false) ∧ r.heldFrom ≠ some .absent

/-- R22: a section of a CLOSED campaign. -/
def Section.resting (r : Section) : Prop := r.state.working = false ∧ r.state ≠ .held

/-- The laws that the law of CLOSED campaigns leans on. -/
structure State.restLaws (s : State) : Prop where
  hold : s.holdLaw
  campaign : s.campaignLaw
  fitted : s.fittedLaw
  closed : s.closedLaw

theorem fittedLaw_setSec {s : State} (h : s.fittedLaw) (i : SectionId) {r : Section} (k : r.fittedLaw) :
    (s.setSec i r).fittedLaw := by
  intro j
  rw [State.sec_setSec]
  split
  · exact k
  · exact h j

theorem closedLaw_setSec {s : State} (h : s.closedLaw) (i : SectionId) {r : Section}
    (k : s.campaign.state = .closed → r.resting) : (s.setSec i r).closedLaw := by
  intro shut j
  rw [State.sec_setSec]
  split
  · exact k shut
  · exact h shut j

/-- A section with a hold reason is HELD, so its campaign is not CLOSED. -/
theorem State.restLaws.running_of_reason {s : State} (h : s.restLaws) {i : SectionId} {r : HoldReason}
    (m : r ∈ (s.sec i).holds) : s.campaign.state ≠ .closed := fun shut =>
  (h.closed shut i).2 ((h.hold i).1.2 (List.ne_nil_of_mem m))

/-- A section with a reason is HELD, and so not ABSENT. -/
theorem State.restLaws.fitted_of_reason {s : State} (h : s.restLaws) {i : SectionId} {r : HoldReason}
    (m : r ∈ (s.sec i).holds) : (s.sec i).fitted ≠ false := fun e => by
  have held := (h.hold i).1.2 (List.ne_nil_of_mem m)
  rw [(h.fitted i).1.2 e] at held
  exact absurd held (by decide)

theorem change_fittedLaw {s t : State} (c : Change s t) (h : s.restLaws) : t.fittedLaw := by
  cases c with
  | move m => exact move_fittedLaw m h.hold h.fitted
  | lose => intro i; rw [sec_lose]; simp [Section.unfitted]
  | setting _ k _ =>
    intro i
    have e := k i
    show Section.fittedLaw (Table.get _ i)
    unfold Section.fittedLaw
    rw [e.state, e.fitted, e.heldFrom]
    exact h.fitted i
  | phase i p => exact fittedLaw_setSec h.fitted i (h.fitted i)
  | opened =>
    intro i
    show Section.fittedLaw (Table.get _ i)
    rw [Table.get_map]
    exact h.fitted i
  | rewrite i old new source _ absent =>
    refine fittedLaw_setSec h.fitted i ⟨(h.fitted i).1, fun e => ?_⟩
    exact absent (fun e => (h.fitted i).2 (e ▸ source)) (Option.some.inj e)
  | adoptStay i st hs m _ _ _ absent =>
    exact fittedLaw_setSec h.fitted i ⟨(h.fitted i).1, fun e => absent (Option.some.inj e)⟩
  | adoptLeave i st c m _ absent =>
    intro j
    rw [sec_enter, State.sec_setSec, if_pos rfl]
    split
    · next e =>
      refine ⟨iff_of_false absent (h.fitted_of_reason m), ?_⟩
      have held : (s.sec i).state ≠ .absent := fun e => h.fitted_of_reason m ((h.fitted i).1.1 e)
      by_cases x : st = .held <;> simp [Section.entering, x, held]
    · next e => rw [State.sec_setSec, if_neg e]; exact h.fitted j
  | _ => exact h.fitted

theorem change_closedLaw {s t : State} (c : Change s t) (h : s.restLaws) : t.closedLaw := by
  cases c with
  | move m => exact move_closedLaw m h.hold h.fitted h.closed
  | lose => intro shut; simp [State.lose, State.reset] at shut
  | setting _ k _ =>
    intro shut i
    show Section.resting (Table.get _ i)
    unfold Section.resting
    rw [(k i).state]
    exact h.closed shut i
  | phase i p => exact closedLaw_setSec h.closed i fun shut => h.closed shut i
  | campaign c k => exact fun shut => h.closed (k.closes h.campaign.2.2 shut)
  | opened => intro shut; exact absurd shut (by simp)
  | rewrite i old new => exact closedLaw_setSec h.closed i fun shut => h.closed shut i
  | adoptStay i st hs m =>
    exact closedLaw_setSec h.closed i fun shut => absurd shut (h.running_of_reason m)
  | adoptLeave i st c m => exact fun shut => absurd shut (h.running_of_reason m)
  | _ => exact h.closed

theorem change_restLaws {s t : State} (c : Change s t) (h : s.restLaws) : t.restLaws :=
  ⟨change_holdLaw c h.hold, change_campaignLaw c h.campaign, change_fittedLaw c h, change_closedLaw c h⟩

/-- R10, R17: the state of a section at power-up, by its slot and the mark. -/
theorem slot_section_rest (sl : Slot) (duty : List UnitId) (m : Mark) :
    (sl.section duty m).fittedLaw ∧ (m = .closed → (sl.section duty m).resting) := by
  unfold Slot.section Section.fittedLaw Section.resting
  split
  · next fitted => cases m <;> simp [Section.unfitted, SectionState.working]
  · simp [Section.unfitted, SectionState.working]

theorem boot_fittedLaw (s : State) (f : BitVec 48) (l : BitVec 8) : (s.boot f l).fittedLaw :=
  fun i => by rw [sec_boot]; exact (slot_section_rest _ _ _).1

theorem boot_closedLaw (s : State) (f : BitVec 48) (l : BitVec 8) : (s.boot f l).closedLaw := by
  intro shut i
  have mark : s.store.markRead = .closed := by
    by_contra other
    change (if s.store.markRead = .closed then CampaignState.closed else .restoring) = .closed at shut
    rw [if_neg other] at shut
    exact absurd shut (by decide)
  rw [sec_boot]
  exact (slot_section_rest _ _ _).2 mark

theorem boot_restLaws (s : State) (f : BitVec 48) (l : BitVec 8) : (s.boot f l).restLaws :=
  ⟨(boot_steamLaws s f l).hold, boot_campaignLaw s f l, boot_fittedLaw s f l, boot_closedLaw s f l⟩

/-- Settles O56, change by change. -/
theorem stepKeepsClosedLaw : Obligations.StepKeepsClosedLaw := fun _ _ hold campaign fitted closed run =>
  have kept := step_induct (fun _ _ => change_restLaws) boot_restLaws run ⟨hold, campaign, fitted, closed⟩
  ⟨kept.fitted, kept.closed⟩

end Sys2Proof.Machine

/-! Every step and the outputs: the route table, the levels, and the latches that follow them. -/

namespace Sys2Proof.Machine

/-! ### The route table and the levels (R4, R5) -/

/-- R4: the states in which no route is open. -/
theorem routes_closed (p : Phase) {st : SectionState}
    (h : st ∈ [SectionState.absent, .excluded, .cold, .conditioning, .circulating, .held, .laidUp]) :
    st.intake = .closed ∧ st.discharge p = .closed := by
  simp only [List.mem_cons, List.not_mem_nil, or_false] at h
  rcases h with rfl | rfl | rfl | rfl | rfl | rfl | rfl <;> exact ⟨rfl, rfl⟩

theorem drive_eq (p : RouteQuad Polarity) (intake discharge : Route) : p.drive intake discharge =
    { intakeThrough := p.intakeThrough.level (decide (intake = .through))
      intakeDivert := p.intakeDivert.level (decide (intake = .diverted))
      dischargeThrough := p.dischargeThrough.level (decide (discharge = .through))
      dischargeDivert := p.dischargeDivert.level (decide (discharge = .diverted)) } := by
  simp only [RouteQuad.drive, beq_eq_decide]

/-! ### The outputs of a section and of a unit -/

/-- R131: a unit after a tick of the supervisor. -/
theorem get_tick (us : UnitSupervisor) (u : UnitId) : us.tick.units.get u =
    { us.units.get u with window := (us.units.get u).window.map fun w => w - 1 } := Table.get_map _ _ _

/-- R4, R5: the routes of a section, and its latches. -/
def Section.driven (r : Section) (polarity : RouteQuad Polarity) (latch : RouteQuad Bool) : Prop :=
  r.routeLaw ∧ latch = polarity.drive r.intake r.discharge

/-- The law of the outputs, section by section and unit by unit. -/
theorem outputLaw_iff (s : State) : s.outputLaw ↔
    (∀ i, (s.sec i).driven (s.lines.routePolarity.get i) (s.lines.routeLatch.get i)) ∧
    ∀ u, s.lines.runLatch.get u = (s.lines.runPolarity.get u).level (s.supervisor.units.get u).runOutput := by
  unfold State.outputLaw Section.driven
  rw [forall_and, and_assoc]

/-- Routes that are all closed, with each latch at its rest level. -/
theorem driven_of_rest {r : Section} {polarity : RouteQuad Polarity} (h : r.routeLaw)
    (intake : r.intake = .closed) (discharge : r.discharge = .closed) :
    r.driven polarity (polarity.drive .closed .closed) := ⟨h, by rw [intake, discharge]⟩

/-- The record of a section after its phase has been set (R4, R47). -/
def Section.phased (r : Section) (now : Nat) (p : Phase) : Section :=
  { r with
    phase := p, phaseSince := now
    discharge := if r.state.passesLiquor then r.state.discharge p else r.discharge }

/-- R4: the discharge follows the phase in RUNNING and SWEETENING_OFF alone. -/
theorem routeLaw_phased {r : Section} (h : r.routeLaw) (now : Nat) (p : Phase) :
    (r.phased now p).routeLaw := by
  obtain ⟨intake, discharge⟩ := h
  refine ⟨intake, ?_⟩
  simp only [Section.phased]
  split
  · rfl
  · next closed =>
    rw [discharge]
    revert closed
    cases r.state <;> simp [SectionState.passesLiquor, SectionState.discharge]

/-- The latches of a section that is driven anew. -/
theorem routeLatch_driveRoutes (s : State) (i j : SectionId) :
    (s.driveRoutes i).lines.routeLatch.get j =
      if j = i then (s.lines.routePolarity.get i).drive (s.sec i).intake (s.sec i).discharge
      else s.lines.routeLatch.get j := Table.get_set _ _ _ _

theorem change_outputLaw {s t : State} (c : Change s t) (h : s.outputLaw) : t.outputLaw := by
  obtain ⟨routes, runs⟩ := (outputLaw_iff s).1 h
  cases c with
  | move m => exact move_outputLaw m h
  | lose =>
    refine (outputLaw_iff _).2 ⟨fun i => ?_, fun u => ?_⟩
    · rw [sec_lose]
      simp [State.lose, State.reset, Section.driven, Section.routeLaw, Section.unfitted, RouteQuad.drive,
        RouteQuad.all, Polarity.level, SectionState.intake, SectionState.discharge]
    · simp [State.lose, State.reset, UnitRecord.none, Polarity.level]
  | setting _ k _ =>
    refine (outputLaw_iff _).2 ⟨fun i => ?_, runs⟩
    have e := k i
    show Section.driven (Table.get _ i) _ _
    unfold Section.driven Section.routeLaw
    rw [e.state, e.phase, e.intake, e.discharge]
    exact routes i
  | phase i p =>
    refine (outputLaw_iff _).2 ⟨fun j => ?_, runs⟩
    rw [State.sec_driveRoutes, routeLatch_driveRoutes, State.sec_setSec]
    by_cases e : j = i
    · subst e
      rw [if_pos rfl, if_pos rfl, State.sec_setSec_self]
      exact ⟨routeLaw_phased (routes j).1 s.now p, rfl⟩
    · rw [if_neg e, if_neg e]
      exact routes j
  | units us _ => exact (outputLaw_iff _).2 ⟨routes, fun u => Table.get_ofFn _ _⟩
  | tick =>
    refine (outputLaw_iff _).2 ⟨routes, fun u => ?_⟩
    show _ = Polarity.level _ (s.supervisor.tick.units.get u).runOutput
    rw [get_tick]
    exact runs u
  | opened =>
    refine (outputLaw_iff _).2 ⟨fun i => ?_, runs⟩
    show Section.driven (Table.get _ i) _ _
    rw [Table.get_map]
    exact routes i
  | rewrite i old new => exact outputLaw_setSec h i rfl rfl rfl rfl
  | adoptStay i st hs => exact outputLaw_setSec h i rfl rfl rfl rfl
  | adoptLeave i st c =>
    exact outputLaw_enter
      (outputLaw_setSec (r := { s.sec i with heldFrom := some st, holds := [] }) h i rfl rfl rfl rfl) _ _ _
  | _ => exact h

/-! ### Power-up (R176) -/

/-- R4, R176: the routes of a section at power-up. -/
theorem slot_section_routes (sl : Slot) (duty : List UnitId) (m : Mark) :
    (sl.section duty m).routeLaw ∧ (sl.section duty m).intake = .closed ∧
      (sl.section duty m).discharge = .closed := by
  unfold Slot.section Section.routeLaw
  split
  · cases m <;> simp [Section.unfitted, SectionState.intake, SectionState.discharge]
  · simp [Section.unfitted, SectionState.intake, SectionState.discharge]

/-- The run outputs of a record in force are not asserted. -/
theorem inForce_runOutput (st : OptionStore) (u : UnitId) : (st.inForce.1.units.get u).runOutput = false := by
  have blank (w : RawSite) : (w.unit u).runOutput = false := by
    unfold RawSite.unit
    dsimp only
    split <;> rfl
  unfold OptionStore.inForce
  split
  · split
    · next w _ =>
      show ((Table.ofFn w.unit).get u).runOutput = false
      rw [Table.get_ofFn]
      exact blank w
    · rw [show SiteRecord.default.units = Table.replicate 48 UnitRecord.none from rfl, Table.get_replicate]
      rfl
  · rw [show SiteRecord.default.units = Table.replicate 48 UnitRecord.none from rfl, Table.get_replicate]
    rfl

/-- R128, R176: no run output is asserted at power-up. -/
theorem powerUp_runOutput (units : Table UnitRecord 48) (faults : BitVec 48)
    (blank : ∀ u, (units.get u).runOutput = false) (u : UnitId) :
    ((powerUpSupervisor units faults).units.get u).runOutput = false := by
  unfold powerUpSupervisor
  rw [(SameRun.ofFold UnitSupervisor.requestCoverage SameRun.requestCoverage _ _ u).2]
  simpa [powerUpUnits] using blank u

theorem boot_outputLaw (s : State) (f : BitVec 48) (l : BitVec 8) : (s.boot f l).outputLaw := by
  refine (outputLaw_iff _).2 ⟨fun i => ?_, fun u => ?_⟩
  · obtain ⟨law, intake, discharge⟩ := slot_section_routes (s.store.inForce.1.slots.get i)
      (dutyList s.store.inForce.1.units i) s.store.markRead
    rw [sec_boot]
    show Section.driven _ _ (Table.get (Table.map _ _) i)
    rw [Table.get_map]
    exact driven_of_rest law intake discharge
  · show Table.get (Table.map _ _) u = Polarity.level _ (Table.get (powerUpSupervisor _ _).units u).runOutput
    rw [Table.get_map, powerUp_runOutput _ _ (inForce_runOutput s.store)]
    rfl

/-- Settles O57: the tables state by state, the law change by change. -/
theorem stepKeepsOutputLaw : Obligations.StepKeepsOutputLaw := by
  refine ⟨fun p => ⟨⟨rfl, rfl⟩, ⟨rfl, rfl⟩, ⟨rfl, rfl⟩, ⟨rfl, rfl⟩, fun st => routes_closed p⟩,
    fun _ => ⟨rfl, rfl⟩, drive_eq, fun s i law => ?_, fun s t law run => ?_⟩
  · obtain ⟨routes, latches, runs⟩ := law
    exact ⟨(routes i).1, (routes i).2, latches i, runs⟩
  · exact step_induct (fun _ _ => change_outputLaw) boot_outputLaw run law

end Sys2Proof.Machine

/-! Every step and the steam allocator: the claimed sum, and the lists with the states (R75, R76). -/

namespace Sys2Proof.Machine

/-- R75: a change keeps the claimed sum within the effective budget. -/
theorem change_steamLaw {s t : State} (c : Change s t) (h : s.steamLaw) : t.steamLaw := by
  cases c with
  | move m => exact move_steamLaw m h
  | lose => exact (boot_steamLaws s 0 0).steam
  | steam st k => exact k h
  | _ => exact h

/-- Every step keeps the laws of the allocator with those of the hold sets. -/
theorem step_steamLaws {s t : State} (run : step s = .next t) (h : s.steamLaws) : t.steamLaws := by
  obtain ⟨u, steps, rfl | ⟨f, l, _, _, rfl, _⟩⟩ := step_steps run
  · exact steps.lawful.steam h
  · exact boot_steamLaws u f l

/-! ### R76 with nothing on its way -/

theorem steamState_iff (st : SectionState) :
    st.steamState = true ↔ st ∈ [.conditioning, .circulating, .running, .sweeteningOff] := by
  cases st <;> simp [SectionState.steamState]

theorem hasClaim_of_mem {c : Claim} {cs : List Claim} (h : c ∈ cs) : hasClaim c.sec cs = true :=
  hasClaim_iff.2 (List.mem_map_of_mem h)

/-- R76: a section on the claim list is in one of the four states, or HELD, without STEAM. -/
theorem claimed_section {s : State} (hold : s.holdLaw) (law : s.claimLaw) (idle : s.work = [])
    {c : Claim} (m : c ∈ s.steam.claims) : .steam ∉ (s.sec c.sec).holds ∧
      (s.sec c.sec).state ∈ [.conditioning, .circulating, .running, .sweeteningOff, .held] := by
  rcases (law c.sec).1 (hasClaim_of_mem m) with onWay | steams | ⟨⟨held, _⟩, free⟩
  · simp [idle] at onWay
  · rw [Section.holds_nil (hold c.sec) (Section.steam_ne_held steams)]
    have four := (steamState_iff _).1 steams
    exact ⟨List.not_mem_nil, by simp only [List.mem_cons] at four ⊢; tauto⟩
  · exact ⟨free, by simp [held]⟩

/-- R76: a section on the wait queue is FILLING, or HELD with STEAM. -/
theorem queued_section {s : State} (law : s.claimLaw) (idle : s.work = [])
    {c : Claim} (m : c ∈ s.steam.queue) : (s.sec c.sec).state = .filling ∨
      ((s.sec c.sec).state = .held ∧ .steam ∈ (s.sec c.sec).holds) := by
  rcases (law c.sec).2.1 (hasClaim_of_mem m) with onWay | filling | ⟨⟨held, _⟩, steam⟩ | ⟨onWay, _⟩
  · simp [idle] at onWay
  · exact .inl filling
  · exact .inr ⟨held, steam⟩
  · simp [idle] at onWay

/-- R76: a section with STEAM is on the wait queue. -/
theorem steam_queued {s : State} (law : s.claimLaw) {i : SectionId} (m : .steam ∈ (s.sec i).holds) :
    ∃ c ∈ s.steam.queue, c.sec = i :=
  List.mem_map.1 (hasClaim_iff.1 ((law i).2.2 m))

/-- Settles O58: the sum change by change, the lists by what every order and event keeps. -/
theorem stepKeepsSteamLaw : Obligations.StepKeepsSteamLaw := by
  refine ⟨fun s t law run => ?_, fun s t hold law claims run => ?_, fun s hold claims idle => ?_⟩
  · exact step_induct (fun _ _ => change_steamLaw) (fun s f l => (boot_steamLaws s f l).steam) run law
  · exact (step_steamLaws run ⟨hold, law, claims⟩).claim
  · exact ⟨fun c m => claimed_section hold claims idle m, fun c m => queued_section claims idle m,
      fun i _ m => steam_queued claims m⟩

end Sys2Proof.Machine

/-! Every step, the spare pool and the trip groups (R129, R132, R133, R147, R149, R154). -/

namespace Sys2Proof.Machine

/-! ### The watch list and the trip groups -/

/-- R132: a change keeps the watch list. -/
theorem change_watchLaw {s t : State} (c : Change s t) (h : s.watchLaw) : t.watchLaw := by
  cases c with
  | move m => exact move_watchLaw m h
  | lose => exact ⟨Nat.zero_le _, List.nodup_nil, fun u m => absurd m List.not_mem_nil⟩
  | units us k => exact k h
  | tick =>
    obtain ⟨short, once, healthy⟩ := h
    refine ⟨short, once, fun u m => ?_⟩
    show (s.supervisor.tick.units.get u).condition = .healthy
    rw [get_tick]
    exact healthy u m
  | _ => exact h

theorem boot_watchLaw (s : State) (f : BitVec 48) (l : BitVec 8) : (s.boot f l).watchLaw := by
  have empty : (s.boot f l).supervisor.watch = [] :=
    (SameFaults.ofFold UnitSupervisor.requestCoverage requestCoverage_sameFaults _ _).watch
  unfold State.watchLaw UnitSupervisor.watchLaw
  rw [empty]
  exact ⟨Nat.zero_le _, List.nodup_nil, fun u m => absurd m List.not_mem_nil⟩

/-- R147: a change keeps the groups' active inputs. -/
theorem change_tripLaw {s t : State} (c : Change s t) (h : s.tripLaw) : t.tripLaw := by
  cases c with
  | move m => exact move_tripLaw m h
  | lose => intro g; simp [State.lose, State.reset, State.group, TripGroup.powerUp, TripUnit.activeOf]
  | trips x k _ => exact k h
  | _ => exact h

/-- R147: a group at power-up. -/
theorem group_boot (s : State) (f : BitVec 48) (l : BitVec 8) (g : GroupId) :
    (s.boot f l).group g = TripGroup.powerUp := Table.get_replicate _ _

theorem boot_tripLaw (s : State) (f : BitVec 48) (l : BitVec 8) : (s.boot f l).tripLaw := by
  intro g
  rw [group_boot]
  exact ⟨rfl, fun _ => ⟨rfl, rfl, rfl⟩⟩

theorem boot_groupSetsLaw (s : State) (f : BitVec 48) (l : BitVec 8) : (s.boot f l).groupSetsLaw := by
  intro g
  rw [group_boot]
  exact ⟨List.Pairwise.nil, List.Pairwise.nil⟩

/-! ### The members of a TRIPPED group (R149) -/

/-- Every step keeps the TRIP reasons of the members. -/
theorem step_memberLaws {s t : State} (run : step s = .next t) (h : s.memberLaws) : t.memberLaws := by
  refine ⟨step_holdLaw run h.hold, ?_⟩
  unfold step at run
  split at run
  · obtain rfl := Host.Outcome.next.inj run
    exact h.member
  · next c rest _ =>
    by_cases up : ∃ f l, c = .powerUp f l
    · obtain ⟨f, l, rfl⟩ := up
      obtain rfl := Host.Outcome.next.inj run
      exact boot_memberLaw _ f l
    · have kept := exec_members c { s with pending := rest } fun f l e => up ⟨f, l, e⟩
      rw [run] at kept
      exact (kept ⟨h.hold, h.member⟩).member

/-- A state that is in none of COLD, LAID_UP, ABSENT and EXCLUDED takes TRIP reasons. -/
theorem takes_trip_of_state {r : Section} (g : GroupId)
    (h : r.state ∉ [SectionState.cold, .laidUp, .absent, .excluded]) : r.takes (.trip g) = true := by
  revert h
  unfold Section.takes
  cases r.state <;> simp [SectionState.working]

/-- R149: with nothing on its way, each such member of a TRIPPED group is HELD with its reason. -/
theorem member_held {s : State} (hold : s.holdLaw) (law : s.memberLaw) (idle : s.work = []) {g : GroupId}
    (tripped : (s.group g).state = .tripped) {i : SectionId} (m : i ∈ (s.group g).members)
    (state : (s.sec i).state ∉ [SectionState.cold, .laidUp, .absent, .excluded]) :
    (s.sec i).state = .held ∧ .trip g ∈ (s.sec i).holds := by
  rcases law g i tripped m (takes_trip_of_state g state) with ⟨reason, _⟩ | ⟨before, after, e, _⟩
  · exact ⟨(hold i).1.2 (List.ne_nil_of_mem reason), reason⟩
  · rw [idle] at e
    exact absurd e (by simp)

/-! ### The pool (R129, R133) -/

/-- Every step keeps the pool; a POWER_UP does so from a sound option store. -/
theorem step_poolLaws {s t : State} (run : step s = .next t)
    (sound : ∀ faults levels rest, s.pending = .powerUp faults levels :: rest → s.storeAtPowerUp.sound)
    (h : s.poolLaws) : t.poolLaws := by
  obtain ⟨u, steps, rfl | ⟨f, l, rest, next, rfl, store⟩⟩ := step_steps run
  · exact steps.lawful.pool h
  · exact boot_poolLaws u f l (store ▸ sound f l rest next)

theorem runsUnits_iff (st : SectionState) :
    st.runsUnits = true ↔ st ∈ [.conditioning, .circulating, .running, .sweeteningOff, .draining] := by
  cases st <;> simp [SectionState.runsUnits]

theorem callsFor_iff (secs : Table Section 24) (o : Option SectionId) : callsFor secs o = true ↔
    ∃ i, (secs.get i).state ∈ [.conditioning, .circulating, .running, .sweeteningOff, .draining] ∧
      o = some i := by
  cases o with
  | none => simp [callsFor]
  | some i =>
    rw [callsFor, runsUnits_iff]
    exact ⟨fun h => ⟨i, h, rfl⟩, fun ⟨j, h, e⟩ => Option.some.inj e ▸ h⟩

/-- R129: the section a unit runs for. -/
theorem serves_iff (us : UnitSupervisor) (u : UnitId) (i : SectionId) : us.serves u = some i ↔
    ((us.units.get u).role = .duty ∧ (us.units.get u).sec = some i) ∨
      ((us.units.get u).role = .spare ∧ ∃ d, (us.units.get u).covering = some d ∧
        (us.units.get d).sec = some i) := by
  unfold UnitSupervisor.serves
  cases (us.units.get u).role <;> cases (us.units.get u).covering <;> simp

/-- R129: when the rule asserts a run output. -/
theorem runs_iff (us : UnitSupervisor) (secs : Table Section 24) (u : UnitId) :
    us.runs secs u = true ↔ (us.units.get u).condition ≠ .failed ∧ ∃ i,
      (secs.get i).state ∈ [.conditioning, .circulating, .running, .sweeteningOff, .draining] ∧
      (((us.units.get u).role = .duty ∧ (us.units.get u).sec = some i) ∨
        ((us.units.get u).role = .spare ∧ ∃ d, (us.units.get u).covering = some d ∧
          (us.units.get d).sec = some i)) := by
  simp only [runs_eq, Bool.and_eq_true, bne_iff_ne, callsFor_iff, serves_iff]

theorem free_iff (us : UnitSupervisor) (cls : Nat) (sp : UnitId) :
    us.free cls sp ↔ (us.units.get sp).freeSpare = true ∧ (us.units.get sp).cls = cls := by
  rw [freeSpare_iff]
  unfold UnitSupervisor.free
  tauto

/-! ### The pool with nothing on its way -/

/-- R133: a covered unit is not queued. -/
theorem not_queued_of_covered {us : UnitSupervisor} (law : us.coverLaw) {u sp : UnitId}
    (h : (us.units.get u).coveredBy = some sp) : ∀ d ∈ us.demands, d.unit ≠ u := by
  obtain ⟨_, _, _, queue, _⟩ := law
  rintro d m rfl
  rw [(queue d m).2.2.1] at h
  exact absurd h (by simp)

/-- R133: a unit that is attended is covered, or stands once on the queue. -/
theorem covered_or_queued {us : UnitSupervisor} (law : us.coverLaw) {u : UnitId}
    (h : us.attended u = true) :
    ((∃ sp, (us.units.get u).coveredBy = some sp) ∧ ∀ d ∈ us.demands, d.unit ≠ u) ∨
      ((us.units.get u).coveredBy = none ∧ (us.demands.map SpareDemand.unit).count u = 1) := by
  cases e : (us.units.get u).coveredBy with
  | some sp => exact .inl ⟨⟨sp, rfl⟩, not_queued_of_covered law e⟩
  | none =>
    obtain ⟨d, m, rfl⟩ := (attended_iff.1 h).resolve_left (not_not_intro e)
    exact .inr ⟨rfl, List.count_eq_one_of_mem law.2.2.1 (List.mem_map_of_mem m)⟩

/-- R133, R138: the coverings and demands of the FAILED duty units, with nothing on its way. -/
theorem need_idle {s : State} (law : s.poolLaw) (idle : s.work = []) {u : UnitId} {i : SectionId}
    (role : (s.supervisor.units.get u).role = .duty) (sec : (s.supervisor.units.get u).sec = some i)
    (failed : (s.supervisor.units.get u).condition = .failed) :
    ((s.sec i).state.partakes = true → s.supervisor.attended u = true) ∧
      ((s.sec i).state.partakes = false → s.supervisor.attended u = false) := by
  obtain ⟨_, _, _, need, _⟩ := law
  obtain ⟨serving, resting⟩ := need u i role sec failed
  rw [idle] at serving resting
  exact ⟨fun p => (serving p).resolve_right List.not_mem_nil,
    fun p => (resting p).resolve_right List.not_mem_nil⟩

/-- R129: the run outputs, with nothing on its way. -/
theorem run_idle {s : State} (law : s.poolLaw) (idle : s.work = []) (u : UnitId) :
    (s.supervisor.units.get u).runOutput = s.supervisor.runs s.sections u := by
  obtain ⟨_, _, _, _, run⟩ := law
  refine (run u).resolve_right ?_
  rintro ⟨i, _, m⟩
  simp [idle] at m

/-- Settles O59: the laws change by change or by what every order and event keeps. -/
theorem stepKeepsPoolAndTripLaws : Obligations.StepKeepsPoolAndTripLaws := by
  refine ⟨fun s t run => ⟨?_, ?_, ?_⟩, fun s t hold law run => (step_memberLaws run ⟨hold, law⟩).member,
    fun s hold law idle g tripped i m state => member_held hold law idle tripped m state,
    fun s t hold law sound run => (step_poolLaws run sound ⟨hold, law⟩).pool,
    runs_iff, fun s law idle => ?_⟩
  · exact step_induct (fun _ _ => change_watchLaw) boot_watchLaw run
  · exact step_induct (fun _ _ => change_tripLaw) boot_tripLaw run
  · exact step_induct (fun _ _ => change_groupSetsLaw) boot_groupSetsLaw run
  · obtain ⟨both, pairs, _, _, spares⟩ := law.2.2.1
    refine ⟨run_idle law idle, fun u i role sec failed => ⟨fun absent excluded => ?_, fun out => ?_⟩,
      fun u v sp a b => Option.some.inj (((both u sp).1 a).symm.trans ((both v sp).1 b)),
      fun sp failed => ?_, fun d m sp free => ?_⟩
    · exact covered_or_queued law.2.2.1
        ((need_idle law idle role sec failed).1 ((partakes_iff _).2 ⟨absent, excluded⟩))
    · have bare : s.supervisor.attended u = false :=
        (need_idle law idle role sec failed).2 (by rcases out with e | e <;> rw [e] <;> rfl)
      rw [← Bool.not_eq_true, attended_iff] at bare
      simpa only [not_or, not_not, not_exists, not_and] using bare
    · by_contra covers
      obtain ⟨u, e⟩ := Option.ne_none_iff_exists'.1 covers
      exact (pairs u sp ((both u sp).2 e)).2.2.2 failed
    · obtain ⟨free, cls⟩ := (free_iff _ _ _).1 free
      exact spares d m sp free cls

end Sys2Proof.Machine

/-! Every step, the option store and the line graph (R6, R172, R174). -/

namespace Sys2Proof.Machine

/-! ### The line graph (R6) -/

/-- A change of one section that keeps its links keeps the law of the graph. -/
theorem graphLaw_setSec {s : State} (h : s.graphLaw) (i : SectionId) {r : Section}
    (up : r.upstream = (s.sec i).upstream) (down : r.downstream = (s.sec i).downstream) :
    (s.setSec i r).graphLaw := by
  refine graphLaw_congr (fun j => ?_) h
  show ((s.setSec i r).sec j).upstream = (s.sec j).upstream ∧
    ((s.setSec i r).sec j).downstream = (s.sec j).downstream
  rw [State.sec_setSec]
  split
  · next e => exact e ▸ ⟨up, down⟩
  · exact ⟨rfl, rfl⟩

/-- What a cascade leaves alone includes the line graph. -/
theorem CascadeFrame.graphLaw {s t : State} (f : CascadeFrame s t) (h : s.graphLaw) : t.graphLaw :=
  graphLaw_congr (fun i =>
    have ⟨_, _, _, _, up, down, _⟩ := f.settings i
    ⟨up, down⟩) h

/-- R14, R172: sections without a link. -/
theorem graphLaw_unlinked {t : Table Section 24}
    (h : ∀ i, (t.get i).upstream = [] ∧ (t.get i).downstream = []) : Machine.graphLaw t := by
  refine ⟨fun i => by simp [h i], fun i j => by simp [h i, h j], fun i cycle => ?_⟩
  obtain ⟨j, edge, _⟩ := Relation.TransGen.head'_iff.1 cycle
  rw [(h i).2] at edge
  exact absurd edge List.not_mem_nil

theorem change_graphLaw {s t : State} (c : Change s t) (h : s.graphLaw) : t.graphLaw := by
  cases c with
  | move m => exact m.frame.graphLaw h
  | lose => exact graphLaw_unlinked fun i => by rw [show Table.get _ i = _ from sec_lose s i]; exact ⟨rfl, rfl⟩
  | setting _ _ k => exact k h
  | phase i p => exact graphLaw_setSec h i rfl rfl
  | opened =>
    refine graphLaw_congr (fun i => ?_) h
    rw [Table.get_map]
    exact ⟨rfl, rfl⟩
  | rewrite i old new => exact graphLaw_setSec h i rfl rfl
  | adoptStay i st hs => exact graphLaw_setSec h i rfl rfl
  | adoptLeave i st c =>
    exact (enter_frame _ i st c).graphLaw
      (graphLaw_setSec (r := { s.sec i with heldFrom := some st, holds := [] }) h i rfl rfl)
  | _ => exact h

/-- Every step keeps the law of the line graph; a POWER_UP does so from a sound option store. -/
theorem step_graphLaw {s t : State} (run : step s = .next t)
    (sound : ∀ faults levels rest, s.pending = .powerUp faults levels :: rest → s.storeAtPowerUp.sound)
    (h : s.graphLaw) : t.graphLaw := by
  obtain ⟨u, steps, rfl | ⟨f, l, rest, next, rfl, store⟩⟩ := step_steps run
  · exact steps.changes.keep (fun _ _ => change_graphLaw) h
  · exact graphLaw_boot u f l (store ▸ sound f l rest next)

/-! ### The option store (R172, R174) -/

/-- The store that a POWER_UP reads is sound. -/
theorem storeAtPowerUp_sound {s : State} (h : s.storeLaw) : s.storeAtPowerUp.sound := by
  unfold State.storeAtPowerUp
  split
  · exact lose_sound h.1
  · exact h.1

/-- Every step keeps the stored record sound, and what is being written. -/
theorem step_storeLaw {s t : State} (run : step s = .next t) (h : s.storeLaw) : t.storeLaw := by
  unfold step at run
  split at run
  · obtain rfl := Host.Outcome.next.inj run
    exact h
  · next c rest _ =>
    by_cases up : ∃ f l, c = .powerUp f l
    · obtain ⟨f, l, rfl⟩ := up
      obtain rfl := Host.Outcome.next.inj run
      refine ⟨?_, fun writing => absurd writing Bool.false_ne_true⟩
      have sound := storeAtPowerUp_sound h
      unfold State.storeAtPowerUp at sound
      show (if s.powered then State.lose _ else _).store.sound
      split at sound
      · next on => rw [if_pos on]; exact sound
      · next off => rw [if_neg off]; exact sound
    · have kept := exec_stores c { s with pending := rest } fun f l e => up ⟨f, l, e⟩
      rw [run] at kept
      exact kept h

/-- Settles O60: the graph change by change, the store by what every command keeps. -/
theorem stepKeepsStoreAndGraphLaws : Obligations.StepKeepsStoreAndGraphLaws :=
  ⟨fun _ _ law sound run => step_graphLaw run sound law, fun _ _ law run => step_storeLaw run law,
    fun _ => storeAtPowerUp_sound⟩

end Sys2Proof.Machine

/-! The request rows: which owner each row calls, and what follows from what the owner gives back
(R161, R162). -/

namespace Sys2Proof.Machine

/-- The owner that a request row calls. -/
def ownerOf : Instr → Option Owner
  | .readIdent => some identQuery
  | .readCampaign => some campaignQuery
  | .readSection => some sectionQuery
  | .readSteam => some steamQuery
  | .readUnit => some unitQuery
  | .readTrips => some tripsQuery
  | .readCapture => some captureQuery
  | .readChannel => some channelQuery
  | .readSiteRecord => some sitePartQuery
  | .openCampaign => some openOrder
  | .closeCampaign => some closeOrder
  | .resumeCampaign => some resumeOrder
  | .advance => some advanceOrder
  | .hold => some holdOrder
  | .release => some releaseOrder
  | .adopt => some adoptOrder
  | .excludeSection => some excludeOrder
  | .includeSection => some includeOrder
  | .setLinks => some linksOrder
  | .setLimits => some limitsOrder
  | .setTiming => some timingOrder
  | .setModeSection => some modeOrder
  | .setModeCampaign => some overlapOrder
  | .setBudget => some budgetOrder
  | .liftCeiling => some liftOrder
  | .returnUnit => some returnOrder
  | .setUnits => some unitsOrder
  | .setGroup => some groupOrder
  | .forceTrip => some forceOrder
  | .clearTrip => some clearOrder
  | .setCapture => some captureOrder
  | .setReporting => some reportingOrder
  | .writeSitePart => some sitePartOrder
  | .commitSiteRecord => some commitOrder
  | _ => none

/-- The request to be taken, handled where it is one of the row's own (R161, logs 1 and 19). -/
def State.takeRow (s : State) (own : Telegram → Bool) (kind : RequestKind) (owner : Owner) : State :=
  match s.link.ready with
  | none => s
  | some t => if own t then s.handle t kind owner else s

theorem takeRow_none {s : State} (h : s.link.ready = none) (own : Telegram → Bool) (kind : RequestKind)
    (owner : Owner) : s.takeRow own kind owner = s := by
  simp only [State.takeRow, h]

theorem takeRow_some {s : State} {t : Telegram} (h : s.link.ready = some t) (own : Telegram → Bool)
    (kind : RequestKind) (owner : Owner) :
    s.takeRow own kind owner = if own t then s.handle t kind owner else s := by
  simp only [State.takeRow, h]

theorem rowOf_eq {c : Instr} {k : RequestKind} (row : rowKind c = some k) (ne : k ≠ .setMode)
    (t : Telegram) : rowOf c t = decide (requestKind t.kind = some k) := by
  simp [rowOf, row, ne, beq_eq_decide]

theorem takeRequest_eq_takeRow {c : Instr} {k : RequestKind} (row : rowKind c = some k)
    (ne : k ≠ .setMode) (owner : Owner) (s : State) :
    s.takeRequest k owner = s.takeRow (rowOf c) k owner := by
  unfold State.takeRequest State.takeRow
  cases s.link.ready with
  | none => rfl
  | some t => simp only [rowOf_eq row ne, decide_eq_true_eq]

theorem rowOf_setMode (campaign : Bool) (t : Telegram) :
    rowOf (if campaign then .setModeCampaign else .setModeSection) t =
      decide (requestKind t.kind = some .setMode ∧ t.campaignScope = campaign) := by
  cases campaign <;> cases e : t.campaignScope <;> simp [rowOf, rowKind, e, beq_eq_decide]

theorem takeMode_eq_takeRow (campaign : Bool) (owner : Owner) (s : State) :
    s.takeMode campaign owner =
      s.takeRow (rowOf (if campaign then .setModeCampaign else .setModeSection)) .setMode owner := by
  unfold State.takeMode State.takeRow
  cases s.link.ready with
  | none => rfl
  | some t => simp only [rowOf_setMode, decide_eq_true_eq]

/-- A request row takes its own requests, for its own owner. -/
theorem exec_requestRow {c : Instr} {k : RequestKind} (row : rowKind c = some k) :
    ∃ owner, ownerOf c = some owner ∧
      ∀ s, exec c s = .next (s.powering fun s => s.takeRow (rowOf c) k owner) := by
  have plain {c : Instr} {k : RequestKind} {owner : Owner} (row : rowKind c = some k)
      (ne : k ≠ .setMode) (s : State) :
      Host.Outcome.next (φ := Fault) (ρ := Refusal) (s.powering fun s => s.takeRequest k owner) =
        .next (s.powering fun s => s.takeRow (rowOf c) k owner) := by
    simp only [takeRequest_eq_takeRow row ne]
  cases c
  case setModeSection =>
    obtain rfl := Option.some.inj row
    refine ⟨_, rfl, fun s => ?_⟩
    show Host.Outcome.next (s.powering fun s => s.takeMode false modeOrder) = _
    simp only [takeMode_eq_takeRow, Bool.false_eq_true, if_false]
  case setModeCampaign =>
    obtain rfl := Option.some.inj row
    refine ⟨_, rfl, fun s => ?_⟩
    show Host.Outcome.next (s.powering fun s => s.takeMode true overlapOrder) = _
    simp only [takeMode_eq_takeRow, if_true]
  all_goals
    first
    | obtain rfl := Option.some.inj row
      exact ⟨_, rfl, plain rfl (by simp)⟩
    | cases row

/-- With its own request to be taken, a row handles it. -/
theorem exec_of_row {c : Instr} {k : RequestKind} {owner : Owner} {s : State} {t : Telegram}
    (row : rowKind c = some k) (own : ownerOf c = some owner) (on : s.powered = true)
    (ready : s.link.ready = some t) (mine : rowOf c t = true) :
    exec c s = .next (s.handle t k owner) := by
  obtain ⟨owner', own', run⟩ := exec_requestRow row
  obtain rfl := Option.some.inj (own.symm.trans own')
  rw [run, State.powering, if_pos on, takeRow_some ready, if_pos mine]

/-- With no request of its own to be taken, a row changes nothing (log 1). -/
theorem exec_of_no_row {c : Instr} {k : RequestKind} {s : State} (row : rowKind c = some k)
    (idle : s.link.ready = none ∨ ∃ t, s.link.ready = some t ∧ rowOf c t = false) : exec c s = .next s := by
  obtain ⟨owner, _, run⟩ := exec_requestRow row
  rw [run, State.powering]
  rcases idle with none | ⟨t, some, other⟩
  · rw [takeRow_none none, ite_self]
  · rw [takeRow_some some, other]
    simp

theorem rowKind_of_ownerOf {c : Instr} {owner : Owner} (own : ownerOf c = some owner) :
    ∃ k, rowKind c = some k := by
  cases c <;> first | exact ⟨_, rfl⟩ | cases own

/-! ### A request being taken -/

section

variable {c : Instr} {owner : Owner} {s u : State} {t : Telegram} {f : Fields}

/-- Taking a request of row `c` runs the row's owner on the fields read, and the port concludes. -/
theorem exec_of_taking (own : ownerOf c = some owner) (h : s.taking c t f) :
    exec c s = .next ((owner f s).1.conclude t (owner f s).2) := by
  obtain ⟨on, ready, mine, read, codes⟩ := h
  obtain ⟨k, row⟩ := rowKind_of_ownerOf own
  rw [row, Option.bind_some] at read
  rw [exec_of_row row own on ready mine]
  simp only [State.handle, read, codes, if_true]

theorem refused_of_owner (own : ownerOf c = some owner) (h : s.taking c t f) {cause : Cause}
    (e : owner f s = s.refuse cause) : s.refusedAs c t cause := by
  rw [State.refusedAs, exec_of_taking own h, e]
  rfl

theorem accepted_of_owner (own : ownerOf c = some owner) (h : s.taking c t f) (e : owner f s = u.accept) :
    s.acceptedAs c t u := by
  rw [State.acceptedAs, exec_of_taking own h, e]
  rfl

theorem shown_of_owner (own : ownerOf c = some owner) (h : s.taking c t f) {record : List Byte}
    (e : owner f s = s.show record) : s.acceptedAs c t s record := by
  rw [State.acceptedAs, exec_of_taking own h, e]
  rfl

theorem waits_of_owner (own : ownerOf c = some owner) (h : s.taking c t f) {by_ : AwaitedOwner}
    (e : owner f s = (u, .waits by_)) : s.waitsAs c t u by_ := by
  rw [State.waitsAs, exec_of_taking own h, e]

end

/-! ### What the port concludes (R161, R162) -/

theorem conclude_accepted (s : State) (t : Telegram) (record : List Byte) :
    s.conclude t (.accepted record) = { s with link := { s.link with
      answers := s.link.answers ++ [{ kind := t.kind + 0x80#8, tag := t.tag, body := 0 :: 0 :: record }]
      requests := s.link.requests.tail } } := rfl

theorem conclude_refused (s : State) (t : Telegram) (cause : Cause) (extra : List Byte) :
    s.conclude t (.refused cause extra) = { s with link := { s.link with
      answers := s.link.answers ++
        [{ kind := t.kind + 0x80#8, tag := t.tag, body := 1 :: cause.code :: extra }]
      requests := s.link.requests.tail } } := rfl

theorem conclude_waits (s : State) (t : Telegram) (owner : AwaitedOwner) :
    s.conclude t (.waits owner) = { s with link := { s.link with
      awaited := some { request := t, owner, dropped := false } } } := rfl

/-- What the port concludes changes its own record alone. -/
theorem conclude_eq (s : State) (t : Telegram) (v : Verdict) :
    s.conclude t v = { s with link := (s.conclude t v).link } := by
  cases v <;> rfl

end Sys2Proof.Machine

/-! The link port's checks and answers (R161, R162, R169, R170): the bodies of the requests, byte by byte,
and what the port does with the request at the head of the buffer. -/

namespace Sys2Proof.Machine

/-! ### Bytes and words -/

theorem byte_of_toNat (b : Byte) : byte b.toNat = b := by simp [byte]

theorem word_lt (a b : Byte) : a.toNat * 256 + b.toNat < 65536 := by
  have := a.isLt
  have := b.isLt
  omega

/-- The two bytes of a word are those it was read from. -/
theorem word_of_bytes (a b : Byte) : word (a.toNat * 256 + b.toNat) = [a, b] := by
  obtain ⟨e, -⟩ := readWord_undoes [a, b] _ [] rfl
  simpa using e.symm

/-- A word is read from its two bytes. -/
theorem bytes_of_word {n : Nat} (h : n < 65536) : (byte (n / 256)).toNat * 256 + (byte n).toNat = n := by
  have e := readWord_reads n [] h
  simpa [word, readWord] using e

/-- R169: the value that a presence code calls for. -/
theorem readOptional_present {α : Type} (one : Reader α) (bs : List Byte) :
    readOptional one (1#8 :: bs) = (one bs).map fun a => ((1, some a.1), a.2) := by
  simp only [readOptional, readByte]
  cases one bs <;> rfl

/-- R169: a presence code other than 1 calls for no value (log 43). -/
theorem readOptional_absent {α : Type} (one : Reader α) {p : Byte} (h : p ≠ 1#8) (bs : List Byte) :
    readOptional one (p :: bs) = some ((p.toNat, none), bs) := by
  have other : p.toNat ≠ 1 := fun e => h (BitVec.eq_of_toNat_eq e)
  simp only [readOptional, readByte, if_neg other]

/-! ### The bodies of the requests (R161, R170) -/

theorem readNothing_iff (bs : List Byte) (f : Fields) :
    readNothing bs = some f ↔ bs = [] ∧ f = .nothing := by
  cases bs <;> simp [readNothing, eq_comm (a := f)]

theorem readOneId_iff (bs : List Byte) (f : Fields) :
    readOneId bs = some f ↔ ∃ id : Byte, bs = [id] ∧ f = .oneId id.toNat := by
  rcases bs with _ | ⟨a, _ | ⟨b, bs⟩⟩ <;> simp [readOneId, eq_comm (a := f)]

theorem readSiteHalf_iff (bs : List Byte) (f : Fields) : readSiteHalf bs = some f ↔
    ∃ part half : Byte, bs = [part, half] ∧ f = .siteHalf part.toNat half.toNat := by
  rcases bs with _ | ⟨a, _ | ⟨b, _ | ⟨c, bs⟩⟩⟩ <;> simp [readSiteHalf, eq_comm (a := f)]

theorem readAdoption_iff (bs : List Byte) (f : Fields) : readAdoption bs = some f ↔
    ∃ sec st : Byte, bs = [sec, st] ∧ f = .adoption sec.toNat st.toNat := by
  rcases bs with _ | ⟨a, _ | ⟨b, _ | ⟨c, bs⟩⟩⟩ <;> simp [readAdoption, eq_comm (a := f)]

theorem readMode_iff (bs : List Byte) (f : Fields) : readMode bs = some f ↔
    ∃ scope sec setting : Byte, bs = [scope, sec, setting] ∧
      f = .mode scope.toNat sec.toNat setting.toNat := by
  rcases bs with _ | ⟨a, _ | ⟨b, _ | ⟨c, _ | ⟨d, bs⟩⟩⟩⟩ <;> simp [readMode, eq_comm (a := f)]

theorem readCaptureFields_iff (bs : List Byte) (f : Fields) : readCaptureFields bs = some f ↔
    ∃ sec mode fill : Byte, bs = [sec, mode, fill] ∧
      f = .capture sec.toNat mode.toNat fill.toNat := by
  rcases bs with _ | ⟨a, _ | ⟨b, _ | ⟨c, _ | ⟨d, bs⟩⟩⟩⟩ <;> simp [readCaptureFields, eq_comm (a := f)]

theorem readUnits_iff (bs : List Byte) (f : Fields) : readUnits bs = some f ↔
    ∃ sec minimum reserve window : Byte, bs = [sec, minimum, reserve, window] ∧
      f = .units sec.toNat minimum.toNat reserve.toNat window.toNat := by
  rcases bs with _ | ⟨a, _ | ⟨b, _ | ⟨c, _ | ⟨d, _ | ⟨e, bs⟩⟩⟩⟩⟩ <;> simp [readUnits, eq_comm (a := f)]

theorem readSitePart_iff (bs : List Byte) (f : Fields) : readSitePart bs = some f ↔
    1 ≤ bs.length ∧ bs.length ≤ 240 ∧ f = .sitePart bs := by
  cases bs with
  | nil => simp [readSitePart]
  | cons b bs =>
    simp only [readSitePart, List.length_cons, eq_comm (a := f)]
    split
    · next short => simp only [Option.some.injEq]; exact ⟨fun e => ⟨by omega, by omega, e⟩, fun e => e.2.2⟩
    · next long => exact iff_of_false (by simp) fun e => long (by omega)

theorem readTiming_iff (bs : List Byte) (f : Fields) : readTiming bs = some f ↔
    ∃ sec time demand : Nat, sec < 256 ∧ time < 65536 ∧ demand < 256 ∧
      bs = byte sec :: word time ++ [byte demand] ∧ f = .timing sec time demand := by
  constructor
  · intro read
    unfold readTiming at read
    split at read
    · next s c1 c2 d =>
      refine ⟨s.toNat, _, d.toNat, s.isLt, word_lt c1 c2, d.isLt, ?_, (Option.some.inj read).symm⟩
      simp [word_of_bytes, byte_of_toNat]
    · cases read
  · rintro ⟨sec, time, demand, hs, ht, hd, rfl, rfl⟩
    simp [readTiming, word, byte_toNat hs, byte_toNat hd, bytes_of_word ht]

theorem readLimits_iff (bs : List Byte) (f : Fields) : readLimits bs = some f ↔
    ∃ sec empty fillDone high hysteresis sweetOn sweetOff ceiling : Nat,
      sec < 256 ∧ (∀ n ∈ [empty, fillDone, high, hysteresis, sweetOn, sweetOff, ceiling], n < 65536) ∧
      bs = byte sec :: [empty, fillDone, high, hysteresis, sweetOn, sweetOff, ceiling].flatMap word ∧
      f = .limits sec { empty, fillDone, high, hysteresis, sweetOn, sweetOff } ceiling := by
  constructor
  · intro read
    unfold readLimits at read
    split at read
    · next s e1 e2 f1 f2 h1 h2 y1 y2 n1 n2 o1 o2 c1 c2 =>
      refine ⟨s.toNat, _, _, _, _, _, _, _, s.isLt, ?_, ?_, (Option.some.inj read).symm⟩
      · simp [word_lt]
      · simp [word_of_bytes, byte_of_toNat]
    · cases read
  · rintro ⟨sec, empty, fillDone, high, hysteresis, sweetOn, sweetOff, ceiling, hs, hw, rfl, rfl⟩
    simp only [List.forall_mem_cons] at hw
    obtain ⟨h1, h2, h3, h4, h5, h6, h7, -⟩ := hw
    simp [readLimits, word, byte_toNat hs, bytes_of_word h1, bytes_of_word h2, bytes_of_word h3,
      bytes_of_word h4, bytes_of_word h5, bytes_of_word h6, bytes_of_word h7]

theorem readReporting_iff (bs : List Byte) (f : Fields) : readReporting bs = some f ↔
    ∃ (flags : List Byte) (prescale silence : Byte), flags.length = 6 ∧
      bs = flags ++ [prescale, silence] ∧
      f = .reporting (flags.map BitVec.toNat) prescale.toNat silence.toNat := by
  constructor
  · intro read
    unfold readReporting at read
    split at read
    · next a b c d e g p s =>
      exact ⟨[a, b, c, d, e, g], p, s, rfl, rfl, (Option.some.inj read).symm⟩
    · cases read
  · rintro ⟨flags, p, s, six, rfl, rfl⟩
    match flags, six with
    | [a, b, c, d, e, g], _ => rfl

theorem readLinks_iff (bs : List Byte) (f : Fields) : readLinks bs = some f ↔
    ∃ (sec : Nat) (up : List (Nat × Nat)) (down : List Nat),
      sec < 256 ∧ up.length < 256 ∧ (∀ l ∈ up, l.1 < 256 ∧ l.2 < 65536) ∧ down.length < 256 ∧
      (∀ d ∈ down, d < 256) ∧
      bs = byte sec :: (byte up.length :: up.flatMap fun l => byte l.1 :: word l.2) ++
        byte down.length :: down.map byte ∧
      f = .links sec up down := by
  have undoes := readBoth_undoes readByte_undoes (readBoth_undoes
    (readList_undoes (readBoth_undoes readByte_undoes readWord_undoes)) (readList_undoes readByte_undoes))
  have reads := readBoth_reads readByte_reads (readBoth_reads
    (readList_reads (readBoth_reads readByte_reads readWord_reads)) (readList_reads readByte_reads))
  simp only [readLinks, Option.map_eq_some_iff, readAll_iff undoes reads]
  constructor
  · rintro ⟨⟨sec, up, down⟩, ⟨e, hs, ⟨hu, hu'⟩, hd, hd'⟩, rfl⟩
    exact ⟨sec, up, down, hs, hu, hu', hd, hd', by simpa [← List.map_eq_flatMap] using e, rfl⟩
  · rintro ⟨sec, up, down, hs, hu, hu', hd, hd', e, rfl⟩
    exact ⟨(sec, up, down), ⟨by simpa [← List.map_eq_flatMap] using e, hs, ⟨hu, hu'⟩, hd, hd'⟩, rfl⟩

theorem readGroup_iff (bs : List Byte) (f : Fields) : readGroup bs = some f ↔
    ∃ (g : Nat) (members inputs : List Nat) (mode presence : Nat) (cap : Option Nat),
      (∀ n ∈ g :: mode :: presence :: members ++ inputs ++ cap.toList, n < 256) ∧
      members.length < 256 ∧ inputs.length < 256 ∧ (cap.isSome = true ↔ presence = 1) ∧
      bs = byte g :: (byte members.length :: members.map byte) ++
        (byte inputs.length :: inputs.map byte) ++
        byte mode :: byte presence :: cap.toList.map byte ∧
      f = .group g members inputs mode presence cap := by
  have undoes := readBoth_undoes readByte_undoes (readBoth_undoes (readList_undoes readByte_undoes)
    (readBoth_undoes (readList_undoes readByte_undoes)
      (readBoth_undoes readByte_undoes (readOptional_undoes readByte_undoes))))
  have reads := readBoth_reads readByte_reads (readBoth_reads (readList_reads readByte_reads)
    (readBoth_reads (readList_reads readByte_reads)
      (readBoth_reads readByte_reads (readOptional_reads readByte_reads))))
  have capBytes (cap : Option Nat) : (cap.map fun n => [byte n]).getD [] = cap.toList.map byte := by
    cases cap <;> rfl
  simp only [readGroup, Option.map_eq_some_iff, readAll_iff undoes reads]
  constructor
  · rintro ⟨⟨g, members, inputs, mode, presence, cap⟩,
      ⟨e, hg, ⟨hm, hm'⟩, ⟨hi, hi'⟩, hmode, hp, one, hc⟩, rfl⟩
    refine ⟨g, members, inputs, mode, presence, cap, ?_, hm, hi, one, ?_, rfl⟩
    · have hc' : ∀ n ∈ cap.toList, n < 256 := fun n m => hc n (Option.mem_toList.1 m)
      simp only [List.cons_append, List.forall_mem_cons, List.forall_mem_append]
      exact ⟨hg, hmode, hp, ⟨hm', hi'⟩, hc'⟩
    · simpa [← List.map_eq_flatMap, capBytes] using e
  · rintro ⟨g, members, inputs, mode, presence, cap, bytes, hm, hi, one, e, rfl⟩
    simp only [List.cons_append, List.forall_mem_cons, List.forall_mem_append] at bytes
    obtain ⟨hg, hmode, hp, ⟨hm', hi'⟩, hc⟩ := bytes
    refine ⟨(g, members, inputs, mode, presence, cap), ⟨?_, hg, ⟨hm, hm'⟩, ⟨hi, hi'⟩, hmode, hp, one,
      fun n m => hc n (Option.mem_toList.2 m)⟩, rfl⟩
    simpa [← List.map_eq_flatMap, capBytes] using e

/-! ### The codes in range (R161, R169) -/

theorem codesInRange_adoption (sec st : Nat) : (Fields.adoption sec st).codesInRange = true ↔ st < 11 :=
  decide_eq_true_iff

theorem codesInRange_mode (scope sec setting : Nat) :
    (Fields.mode scope sec setting).codesInRange = true ↔ scope < 2 ∧ setting < 2 := by
  simp [Fields.codesInRange]

theorem codesInRange_group (g : Nat) (members inputs : List Nat) (mode presence : Nat)
    (cap : Option Nat) :
    (Fields.group g members inputs mode presence cap).codesInRange = true ↔ mode < 2 ∧ presence < 2 := by
  simp [Fields.codesInRange]

theorem codesInRange_capture (sec mode fill : Nat) :
    (Fields.capture sec mode fill).codesInRange = true ↔ mode < 2 ∧ fill < 2 := by
  simp [Fields.codesInRange]

theorem codesInRange_reporting (flags : List Nat) (prescale silence : Nat) :
    (Fields.reporting flags prescale silence).codesInRange = true ↔ ∀ f ∈ flags, f < 2 := by
  simp [Fields.codesInRange]

/-! ### The head of the buffer (R161) -/

theorem ready_free {l : LinkPort} (free : l.awaited = none) (room : l.answers.length < 4) :
    l.ready = l.requests.head? := by
  simp [LinkPort.ready, free, Config.answerQueue, room]

theorem ready_awaiting {l : LinkPort} (awaiting : l.awaited ≠ none) : l.ready = none := by
  simp [LinkPort.ready, Option.isNone_iff_eq_none, awaiting]

theorem ready_full {l : LinkPort} (full : 4 ≤ l.answers.length) : l.ready = none := by
  simp [LinkPort.ready, Config.answerQueue, Nat.not_lt.2 full]

theorem exec_unknownKindRequest (s : State) :
    exec .unknownKindRequest s = .next (s.powering State.takeUnknown) := rfl

/-- R161: a telegram of no request kind is answered so. -/
theorem refused_unknownKind {s : State} {t : Telegram} (on : s.powered = true)
    (ready : s.link.ready = some t) (unknown : requestKind t.kind = none) :
    s.refusedAs .unknownKindRequest t .unknownKind := by
  simp only [State.refusedAs, exec_unknownKindRequest, State.powering, on, if_true, State.takeUnknown,
    ready, unknown]

/-- A telegram of a request kind is none that UNKNOWN_KIND_REQUEST takes (log 1). -/
theorem exec_unknownKindRequest_idle {s : State} (idle : s.link.ready = none ∨
    ∃ t, s.link.ready = some t ∧ rowOf .unknownKindRequest t = false) :
    exec .unknownKindRequest s = .next s := by
  have stays : s.takeUnknown = s := by
    unfold State.takeUnknown
    rcases idle with none | ⟨t, some, other⟩
    · rw [none]
    · have known : requestKind t.kind ≠ .none :=
        Option.isSome_iff_ne_none.1 (by simpa [rowOf, rowKind] using other)
      simp only [some, if_neg known]
  rw [exec_unknownKindRequest, State.powering, stays, ite_self]

/-- R161: the port's own checks of a request of row `c`, in their order. -/
theorem refused_by_port {c : Instr} {k : RequestKind} {s : State} {t : Telegram} (on : s.powered = true)
    (ready : s.link.ready = some t) (row : rowKind c = some k) (mine : rowOf c t = true) :
    (k.readBody t.body = none → s.refusedAs c t .malformed) ∧
    ∀ f, k.readBody t.body = some f → f.codesInRange = false → s.refusedAs c t .range := by
  obtain ⟨owner, own, -⟩ := exec_requestRow row
  simp only [State.refusedAs, exec_of_row row own on ready mine, State.handle]
  exact ⟨fun malformed => by simp only [malformed], fun f read range => by simp [read, range]⟩

/-! ### The codes (R162, R169, R170) -/

/-- R170: the kind bytes that name a request. -/
theorem requestKind_eq_none (k : Byte) : requestKind k = none ↔
    ¬ ((0x01 ≤ k.toNat ∧ k.toNat ≤ 0x09) ∨ (0x10 ≤ k.toNat ∧ k.toNat ≤ 0x27)) := by
  revert k
  decide

/-- Settles O11: the codes by their tables, the bodies reader by reader, and the port's own checks. -/
theorem portChecksAndAnswersRequests : Obligations.PortChecksAndAnswersRequests := by
  refine ⟨⟨rfl, rfl, rfl, rfl, requestKind_eq_none, fun α one p bs => ⟨?_, ?_⟩⟩, fun bs f => ?_, ?_,
    fun s => ⟨ready_free, ready_awaiting, ready_full⟩,
    fun s t => ⟨conclude_accepted s t, conclude_refused s t, conclude_waits s t⟩,
    fun s t => refused_unknownKind, fun c k s t on ready row mine => refused_by_port on ready row mine,
    fun c s => ?_⟩
  · rintro rfl
    exact readOptional_present one bs
  · exact fun other => readOptional_absent one other bs
  · refine ⟨?_, ?_, readSiteHalf_iff bs f, readAdoption_iff bs f, readLinks_iff bs f, readLimits_iff bs f,
      readTiming_iff bs f, readMode_iff bs f, readUnits_iff bs f, readGroup_iff bs f,
      readCaptureFields_iff bs f, readReporting_iff bs f, readSitePart_iff bs f⟩
    · simp only [List.forall_mem_cons, RequestKind.readBody, readNothing_iff]
      simp
    · simp only [List.forall_mem_cons, RequestKind.readBody, readOneId_iff]
      simp
  · refine ⟨codesInRange_adoption, codesInRange_mode, codesInRange_group, codesInRange_capture,
      codesInRange_reporting, ?_⟩
    rintro f (rfl | ⟨_, rfl⟩ | ⟨_, _, rfl⟩ | ⟨_, _, _, rfl⟩ | ⟨_, _, _, rfl⟩ | ⟨_, _, _, rfl⟩ |
      ⟨_, _, _, _, rfl⟩ | ⟨_, rfl⟩) <;> rfl
  · rintro (rfl | row) idle
    · exact exec_unknownKindRequest_idle idle
    · obtain ⟨k, row⟩ := Option.isSome_iff_exists.1 row
      exact exec_of_no_row row idle

end Sys2Proof.Machine

/-! What the queries answer (R15, R30, R35, R52, R92, R143, R155, R178), and the ids that orders and events
name. -/

namespace Sys2Proof.Machine

/-! ### Ids -/

theorem idOf_val {n : Nat} (i : Fin n) : idOf n i.val = some i := by
  unfold idOf
  rw [dif_pos i.isLt]

theorem idOf_of_le {n k : Nat} (h : n ≤ k) : idOf n k = none := by
  unfold idOf
  rw [dif_neg (by omega)]

theorem idOf_of_eq {n k : Nat} {i : Fin n} (h : i.val = k) : idOf n k = some i := h ▸ idOf_val i

/-- R10: an order names a section of the part that is not ABSENT. -/
theorem named_of_eq {s : State} {i : SectionId} {id : Nat} (h : i.val = id) (here : (s.sec i).state ≠ .absent) :
    s.named id = some i := by
  simp only [State.named, idOf_of_eq h, if_neg here]

theorem named_of_absent {s : State} {i : SectionId} {id : Nat} (h : i.val = id)
    (absent : (s.sec i).state = .absent) : s.named id = none := by
  simp only [State.named, idOf_of_eq h, if_pos absent]

theorem named_of_le {s : State} {id : Nat} (h : 24 ≤ id) : s.named id = none := by
  simp only [State.named, idOf_of_le h]

/-! ### Fields of a record -/

theorem seconds_eq (n : Nat) :
    seconds n = [byte (n / 16777216), byte (n / 65536), byte (n / 256), byte n] := by
  simp [seconds, word, Nat.div_div_eq_div_mul]

theorem unitAnswer_eq (s : State) (u : UnitId) : ∃ own, s.unitAnswer u =
    (s.supervisor.units.get u).bytes ++ [flag (decide (u ∈ s.supervisor.watch))] ++ own ++
    [byte s.supervisor.freeCount, byte s.supervisor.reserve, byte s.supervisor.window] ++
    listed (fun v : UnitId => [byte v.val]) s.supervisor.watch ++
    listed (fun d : SpareDemand => [byte d.unit.val, byte d.cls]) s.supervisor.demands ∧
    (∀ i, (s.supervisor.units.get u).role = .duty → (s.supervisor.units.get u).sec = some i →
      own = [byte (s.sec i).minUnits, byte (s.supervisor.available (s.sec i))]) ∧
    ((s.supervisor.units.get u).role ≠ .duty → own = []) := by
  simp only [State.unitAnswer, List.contains_eq_mem]
  refine ⟨_, rfl, fun i duty sec => ?_, fun other => ?_⟩
  · rw [duty, sec]
  · cases role : (s.supervisor.units.get u).role
    case duty => exact absurd role other
    all_goals rfl

/-- R35: which capture is the oldest. -/
theorem oldestFirst_partial {ring : CaptureRing} (h : ring.count < 4) : ring.oldestFirst =
    ([0, 1, 2, 3].take ring.count).filterMap fun k : Fin 4 => ring.slots.get k := by
  simp only [CaptureRing.oldestFirst, if_pos h]
  rfl

theorem oldestFirst_full {ring : CaptureRing} (h : 4 ≤ ring.count) : ring.oldestFirst =
    [ring.next, ring.next + 1, ring.next + 2, ring.next + 3].filterMap fun k => ring.slots.get k := by
  simp only [CaptureRing.oldestFirst, if_neg (Nat.not_lt.2 h)]
  rw [List.take_of_length_le h]

/-! ### Queries that name a record -/

variable {s : State} {t : Telegram} {id : Nat}

theorem sectionQuery_answers (h : s.taking .readSection t (.oneId id)) :
    (∀ i : SectionId, i.val = id → s.acceptedAs .readSection t s ((s.sec i).bytes i)) ∧
    (24 ≤ id → s.refusedAs .readSection t .noSection) :=
  ⟨fun _ e => shown_of_owner rfl h (by simp only [sectionQuery, idOf_of_eq e]),
    fun e => refused_of_owner rfl h (by simp only [sectionQuery, idOf_of_le e])⟩

theorem captureQuery_answers (h : s.taking .readCapture t (.oneId id)) :
    (∀ i : SectionId, i.val = id → s.acceptedAs .readCapture t s (s.sec i).ring.bytes) ∧
    (24 ≤ id → s.refusedAs .readCapture t .noSection) :=
  ⟨fun _ e => shown_of_owner rfl h (by simp only [captureQuery, idOf_of_eq e]),
    fun e => refused_of_owner rfl h (by simp only [captureQuery, idOf_of_le e])⟩

theorem unitQuery_answers (h : s.taking .readUnit t (.oneId id)) :
    (∀ u : UnitId, u.val = id → s.acceptedAs .readUnit t s (s.unitAnswer u)) ∧
    (48 ≤ id → s.refusedAs .readUnit t .noUnit) :=
  ⟨fun _ e => shown_of_owner rfl h (by simp only [unitQuery, idOf_of_eq e]),
    fun e => refused_of_owner rfl h (by simp only [unitQuery, idOf_of_le e])⟩

theorem channelQuery_answers (h : s.taking .readChannel t (.oneId id)) :
    (∀ c : ChannelId, c.val = id → s.acceptedAs .readChannel t s ((s.scanner.channels.get c).bytes c)) ∧
    (48 ≤ id → s.refusedAs .readChannel t .range) :=
  ⟨fun _ e => shown_of_owner rfl h (by simp only [channelQuery, idOf_of_eq e]),
    fun e => refused_of_owner rfl h (by simp only [channelQuery, idOf_of_le e])⟩

theorem sitePartQuery_answers {half : Nat} (h : s.taking .readSiteRecord t (.siteHalf id half)) :
    (∀ k : PartId, k.val = id → half ≤ 1 → s.acceptedAs .readSiteRecord t s
      (byte (s.store.parts.get k).length ::
        if half = 0 then (s.store.parts.get k).take 120 else (s.store.parts.get k).drop 120)) ∧
    (8 ≤ id ∨ 1 < half → s.refusedAs .readSiteRecord t .range) := by
  refine ⟨fun k e le => ?_, fun wrong => ?_⟩
  · exact shown_of_owner rfl h (by simp only [sitePartQuery, idOf_of_eq e, if_pos le, siteHalf])
  · refine refused_of_owner rfl h ?_
    simp only [sitePartQuery]
    split
    next k some =>
      have lt : id < 8 := by
        by_contra le
        simp [idOf_of_le (Nat.not_lt.1 le)] at some
      rw [if_neg (by omega)]
    next => rfl

/-- Settles O12: the fields of each record are the model's own, and each query shows one record. -/
theorem queriesAnswerRecords : Obligations.QueriesAnswerRecords := by
  refine ⟨⟨fun n => ⟨rfl, rfl, seconds_eq n⟩, rfl, rfl, fun _ => ⟨rfl, fun _ => rfl⟩, fun _ _ => rfl, rfl, rfl,
      rfl, rfl, rfl, rfl, rfl, fun _ _ => rfl, rfl, rfl, rfl, rfl, rfl, rfl, rfl, rfl, fun _ => rfl, rfl, rfl,
      rfl, rfl⟩, fun c => ?campaign, fun i r => ?sections, fun _ => rfl, fun _ => rfl, unitAnswer_eq, fun _ => rfl,
    fun _ => rfl, fun _ => rfl, fun _ => rfl, fun _ => ⟨oldestFirst_partial, oldestFirst_full⟩, fun _ _ => rfl,
    fun _ => rfl, fun _ _ => ?queries, fun _ _ _ => ⟨sectionQuery_answers, captureQuery_answers,
      unitQuery_answers, channelQuery_answers, fun _ => sitePartQuery_answers⟩⟩
  case campaign => simp only [Campaign.bytes, List.singleton_append]
  case sections =>
    unfold Section.bytes
    simp only [idByte, beq_iff_eq]
    rfl
  case queries =>
    exact ⟨fun h => shown_of_owner rfl h rfl, fun h => shown_of_owner rfl h rfl,
      fun h => shown_of_owner rfl h rfl, fun h => shown_of_owner rfl h rfl⟩

end Sys2Proof.Machine

/-! The commands that are no requests: the shape of their arms, the receiver, the transmitter, the clock and
the mark writes. -/

namespace Sys2Proof.Machine

/-! ### The shape of a command (R176, log 17) -/

theorem powering_on {s : State} (on : s.powered = true) (act : State → State) : s.powering act = act s := by
  rw [State.powering, if_pos on]

theorem powering_off {s : State} (off : s.powered = false) (act : State → State) : s.powering act = s := by
  rw [State.powering, off, if_neg (by simp)]

/-- An act that leaves a state as it is leaves it so with power or without. -/
theorem powering_self {s : State} {act : State → State} (h : act s = s) : s.powering act = s := by
  rw [State.powering, h, ite_self]

/-- A well-formed command other than POWER_UP acts on a part that has power, and does nothing without it. -/
theorem exec_wellFormed {c : Instr} (wf : c.wellFormed = true) (ne : ∀ f l, c ≠ .powerUp f l) :
    ∃ act : State → State, ∀ s, exec c s = .next (s.powering act) := by
  cases c
  case powerUp f l => exact absurd rfl (ne f l)
  case conditioningExpiry k =>
    simp only [exec, execConditioningExpiry, idOf_of_eq (i := ⟨k, of_decide_eq_true wf⟩) rfl]
    exact ⟨_, fun _ => rfl⟩
  case lagCompletion k l =>
    simp only [Instr.wellFormed, Bool.and_eq_true, decide_eq_true_eq] at wf
    simp only [exec, execLagCompletion, idOf_of_eq (i := ⟨k, wf.1⟩) rfl, idOf_of_eq (i := ⟨l, wf.2⟩) rfl]
    exact ⟨_, fun _ => rfl⟩
  case channelSample k raw =>
    simp only [Instr.wellFormed, Bool.and_eq_true, decide_eq_true_eq] at wf
    simp only [exec, execChannelSample, idOf_of_eq (i := ⟨k, wf.1⟩) rfl, if_pos wf.2]
    exact ⟨_, fun _ => rfl⟩
  case faultInputActive k =>
    simp only [exec, execFaultInputActive, idOf_of_eq (i := ⟨k, of_decide_eq_true wf⟩) rfl]
    exact ⟨_, fun _ => rfl⟩
  case faultInputInactive k =>
    simp only [exec, execFaultInputInactive, idOf_of_eq (i := ⟨k, of_decide_eq_true wf⟩) rfl]
    exact ⟨_, fun _ => rfl⟩
  case recoveryWindowExpiry k =>
    simp only [exec, execRecoveryWindowExpiry, idOf_of_eq (i := ⟨k, of_decide_eq_true wf⟩) rfl]
    exact ⟨_, fun _ => rfl⟩
  case tripInputActive k =>
    simp only [exec, execTripInputActive, idOf_of_eq (i := ⟨k, of_decide_eq_true wf⟩) rfl]
    exact ⟨_, fun _ => rfl⟩
  case tripInputInactive k =>
    simp only [exec, execTripInputInactive, idOf_of_eq (i := ⟨k, of_decide_eq_true wf⟩) rfl]
    exact ⟨_, fun _ => rfl⟩
  all_goals exact ⟨_, fun _ => rfl⟩

/-- Settles O1, by the definition of a step. -/
theorem stepRunsFrontCommand : Obligations.StepRunsFrontCommand := fun _ _ => rfl

/-- Settles O2, by the shape of a well-formed command and the ids of the terminals. -/
theorem wellFormedCommandsComplete : Obligations.WellFormedCommandsComplete := by
  refine ⟨fun s idle => ?idle, fun c s off wf ne => ?off, fun c s wf => ?wellFormed, fun s k le => ?expiry,
    fun s k l le => ?lag, fun s k raw le => ?sample, fun s k raw lt above => ?conversion, fun s k le => ?units,
    fun s k le => ?inputs⟩
  case idle => simp only [step, idle]
  case off =>
    obtain ⟨act, run⟩ := exec_wellFormed wf ne
    rw [run, powering_off off]
  case wellFormed =>
    by_cases up : ∃ f l, c = .powerUp f l
    · obtain ⟨f, l, rfl⟩ := up
      exact ⟨_, rfl⟩
    · obtain ⟨act, run⟩ := exec_wellFormed wf fun f l e => up ⟨f, l, e⟩
      exact ⟨_, run s⟩
  case expiry => simp only [exec, execConditioningExpiry, idOf_of_le le]
  case lag =>
    rcases le with le | le
    · simp only [exec, execLagCompletion, idOf_of_le le]
    · simp only [exec, execLagCompletion, idOf_of_le le]
      cases idOf 24 k <;> rfl
  case sample => simp only [exec, execChannelSample, idOf_of_le le]
  case conversion =>
    simp only [exec, execChannelSample, idOf_of_eq (i := ⟨k, lt⟩) rfl, if_neg (Nat.not_le.2 above)]
  case units =>
    simp only [exec, execFaultInputActive, execFaultInputInactive, execRecoveryWindowExpiry, idOf_of_le le,
      and_self]
  case inputs => simp only [exec, execTripInputActive, execTripInputInactive, idOf_of_le le, and_self]

/-! ### The receiver (R158, R159, R167) -/

theorem exec_telegramReceived (kind tag : Byte) (body : List Byte) (check : BitVec 16) (s : State) :
    exec (.telegramReceived kind tag body check) s = .next (s.powering fun s =>
      if s.link.receiver = .spacing then s
      else if validTelegram ⟨kind, tag, body⟩ check then s.takeTelegram ⟨kind, tag, body⟩
      else s.setReceiver .hunting) := rfl

theorem exec_telegramReceived_spacing {s : State} (h : s.link.receiver = .spacing) (kind tag : Byte)
    (body : List Byte) (check : BitVec 16) : exec (.telegramReceived kind tag body check) s = .next s := by
  rw [exec_telegramReceived, powering_self (by rw [if_pos h])]

theorem exec_interByteTimeout (late : Byte) (s : State) :
    exec (.interByteTimeout late) s = .next (s.powering fun s =>
      if s.link.receiver = .spacing then s
      else s.setReceiver (if late = 0xA5#8 then .assembling else .hunting)) := rfl

theorem exec_telegramDiscarded (why : DiscardReason) (s : State) :
    exec (.telegramDiscardedInAssembly why) s =
      .next (s.powering fun s => s.setReceiver s.link.receiver.hunt) := rfl

theorem hunt_of_not_spacing {r : Receiver} (h : r ≠ .spacing) : r.hunt = .hunting := by
  cases r with
  | hunting => rfl
  | assembling => rfl
  | spacing => exact absurd rfl h

theorem setReceiver_self {s : State} {r : Receiver} (h : s.link.receiver = r) : s.setReceiver r = s := by
  rw [State.setReceiver, ← h]

theorem validTelegram_iff (t : Telegram) (check : BitVec 16) :
    validTelegram t check = true ↔ t.body.length ≤ 240 ∧ check = t.check := by
  simp [validTelegram]

theorem crcBits_eq (n : Nat) (c : BitVec 16) : crcBits n c = crcBit^[n] c := by
  induction n generalizing c with
  | zero => rfl
  | succ n ih => rw [crcBits, ih, Function.iterate_succ_apply]

theorem crc16_append (bs : List Byte) (b : Byte) :
    crc16 (bs ++ [b]) = crcBit^[8] (crc16 bs ^^^ (b.setWidth 16 <<< 8)) := by
  rw [crc16, List.foldl_append]
  exact crcBits_eq 8 _

theorem frame_eq (t : Telegram) : t.frame = 0xA5#8 :: byte t.body.length :: t.kind :: t.tag :: t.body ++
    [t.check.extractLsb' 8 8, t.check.extractLsb' 0 8] := rfl

theorem restart_eq (l : LinkPort) : l.restart =
    { receiver := .spacing, requests := [], answers := []
      awaited := l.awaited.map fun w => { w with dropped := true }
      onLine := none, reports := if l.mask.campaign then [.campaign] else [], sequence := 0
      mask := l.mask, silenceLimit := l.silenceLimit, silenceExpired := false } := by
  cases on : l.mask.campaign <;> simp [LinkPort.restart, LinkPort.report, ReportMask.allows, on]

/-- Settles O7: each event of the receiver by the state it finds the receiver in. -/
theorem receiverDiscardsAndRestarts : Obligations.ReceiverDiscardsAndRestarts := by
  refine ⟨⟨fun t => ⟨rfl, frame_eq t⟩, rfl, crc16_append, fun c => ?bit, ?check⟩, fun s spacing => ?spacing,
    fun s on free => ?free, fun s on free => ?breaks, fun s on spacing => ?idle, fun s on free => ?quiet⟩
  case bit => rw [crcBit, BitVec.msb_eq_getLsbD_last]
  case check => decide +kernel
  case spacing =>
    refine ⟨exec_telegramReceived_spacing spacing, fun late => ?_, fun why => ?_⟩
    · rw [exec_interByteTimeout, powering_self (by rw [if_pos spacing])]
    · rw [exec_telegramDiscarded, powering_self (setReceiver_self (by rw [spacing]; rfl))]
  case free =>
    refine ⟨fun kind tag body check bad => ?_, fun late ne => ?_, ?_, fun why => ?_⟩
    · have invalid : ¬ validTelegram ⟨kind, tag, body⟩ check = true := fun valid => by
        obtain ⟨short, agrees⟩ := (validTelegram_iff _ _).1 valid
        exact bad.elim (fun long => absurd short (Nat.not_le.2 long)) fun differs => differs agrees
      rw [exec_telegramReceived, powering_on on, if_neg free, if_neg invalid]
      rfl
    · rw [exec_interByteTimeout, powering_on on, if_neg free, if_neg ne]
      rfl
    · rw [exec_interByteTimeout, powering_on on, if_neg free, if_pos rfl]
      rfl
    · rw [exec_telegramDiscarded, powering_on on, hunt_of_not_spacing free]
      rfl
  case breaks =>
    show Host.Outcome.next (s.powering fun s =>
      if s.link.receiver = .spacing then s else { s with link := s.link.restart }) = _
    rw [powering_on on, if_neg free, restart_eq]
  case idle =>
    constructor
    · show Host.Outcome.next (s.powering fun s =>
        if s.link.receiver = .spacing then s else { s with link := s.link.restart }) = _
      rw [powering_on on, if_pos spacing]
    · show Host.Outcome.next (s.powering fun s =>
        if s.link.receiver = .spacing then s.setReceiver .hunting else s) = _
      rw [powering_on on, if_pos spacing]
      rfl
  case quiet =>
    show Host.Outcome.next (s.powering fun s =>
      if s.link.receiver = .spacing then s.setReceiver .hunting else s) = _
    rw [powering_on on, if_neg free]

/-! ### The silence timer and the transmitter (R164, R166) -/

theorem exec_silenceExpiry {s : State} (on : s.powered = true) : exec .silenceExpiry s = .next
    (if 0 < s.link.silenceLimit ∧ s.link.silenceExpired = false then
      ({ s with link := { s.link with silenceExpired := true } } : State).loseSupervision
    else s) := congrArg Host.Outcome.next (powering_on on _)

/-- Settles O8: supervision lost is set unless it is set already. -/
theorem silenceExpirySetsSupervisionLost : Obligations.SilenceExpirySetsSupervisionLost := by
  refine fun s on => ⟨fun limited quiet kept => ?_, fun limited quiet lost => ?_, fun none => ?_⟩
  · rw [exec_silenceExpiry on, if_pos ⟨limited, quiet⟩]
    simp only [State.loseSupervision, kept]
    rfl
  · rw [exec_silenceExpiry on, if_pos ⟨limited, quiet⟩]
    simp only [State.loseSupervision, lost, if_true]
  · rw [exec_silenceExpiry on, if_neg]
    rintro ⟨limited, quiet⟩
    rcases none with zero | expired
    · omega
    · exact absurd (expired.symm.trans quiet) (by simp)

theorem queued_iff_exists (us : UnitSupervisor) (u : UnitId) :
    us.queued u = true ↔ ∃ d ∈ us.demands, d.unit = u := by
  simp [UnitSupervisor.queued]

theorem exec_transmit {s : State} (on : s.powered = true) : exec .transmitNextTelegram s = .next s.transmit :=
  congrArg Host.Outcome.next (powering_on on _)

/-- Settles O9: the transmitter by the heads of its two queues. -/
theorem transmitterSendsAnswersFirst : Obligations.TransmitterSendsAnswersFirst := by
  refine ⟨fun s => ⟨⟨rfl, rfl, fun _ _ _ => ⟨rfl, rfl, rfl, rfl⟩⟩, rfl, rfl, fun i => ?sec, fun i => ?level,
    fun u => ?unit, fun g => ?trip⟩, fun s on => ⟨fun a rest answers => ?answer, fun k rest none reports => ?report,
    fun none idle => ?idle⟩⟩
  case sec => simp only [State.reportBody, idByte, List.cons_append, List.nil_append]
  case trip => simp only [State.reportBody, State.tripReport, idByte, List.cons_append, List.nil_append]
  case level =>
    simp only [State.reportBody, State.levelReport, idByte, List.append_assoc, List.cons_append,
      List.nil_append]
  case unit =>
    have queued : s.supervisor.queued u = decide (∃ d ∈ s.supervisor.demands, d.unit = u) := by
      rw [Bool.eq_iff_iff, decide_eq_true_eq, queued_iff_exists]
    simp only [State.reportBody, idByte, List.cons_append, List.nil_append, queued, List.contains_eq_mem]
  case answer => simp only [exec_transmit on, State.transmit, answers]
  case report => simp only [exec_transmit on, State.transmit, none, reports]
  case idle => simp only [exec_transmit on, State.transmit, none, idle]

/-! ### Captures, the clock and the mark writes (R24, R32, R33, R175) -/

/-- Settles O21, by the ring's record after a capture. -/
theorem captureFollowsModeAndFill : Obligations.CaptureFollowsModeAndFill := by
  refine fun ring now a b cause p => ⟨fun off => ?_, fun on => ?_⟩
  · simp [CaptureRing.capture, off]
  · simp only [CaptureRing.capture, on, if_true]
    refine ⟨Table.get_set_self _ _ _, fun k ne => Table.get_set_of_ne _ _ ne, trivial, trivial, trivial,
      fun fill => ?_, fun fill => ?_⟩
    · simp [fill]
    · simp only [fill, beq_self_eq_true, Bool.true_and, Bool.not_eq_true', beq_eq_false_iff_ne, ne_eq]
      omega

/-- Settles O18, by the clock's next value. -/
theorem clockCountsWhileCampaignRuns : Obligations.ClockCountsWhileCampaignRuns := by
  intro s on
  have run : exec .clockAdvance s = .next (if s.campaign.state = .closed then s
      else { s with campaign := { s.campaign with clock := advanced s.campaign.clock } }) :=
    congrArg Host.Outcome.next (powering_on on _)
  refine ⟨fun closed => ?_, fun going below => ?_, fun going last => ?_⟩
  · rw [run, if_pos closed]
  · rw [run, if_neg going, advanced, Config.maxTime, Nat.min_eq_left below]
  · rw [run, if_neg going, advanced, Config.maxTime, last]
    show Host.Outcome.next { s with campaign := { s.campaign with clock := 4294967295 } } = _
    rw [← last]

theorem exec_markWriteComplete {s : State} (on : s.powered = true) {v : Mark}
    (writing : s.site.markWriting = some v) :
    exec .markWriteComplete s = .next ((s.markWritten v).markReported v) := by
  refine (congrArg Host.Outcome.next (powering_on on _)).trans ?_
  simp only [writing]

/-- R20, R21, R23: what the completion of a write of `v` does where `v` is the pending mark value. -/
theorem markReported_other {s : State} {v : Mark} (h : s.campaign.pendingMark ≠ some v) :
    s.markReported v = s := if_neg h

theorem markReported_alone {s : State} {v : Mark} (h : s.campaign.pendingMark = some v)
    (alone : ∀ w, s.link.awaited = some w → w.owner ≠ .campaignController) :
    s.markReported v = { s with campaign := { s.campaign with pendingMark := none } } := by
  simp only [State.markReported, if_pos h]
  split
  next w awaited => rw [if_neg (alone w awaited)]
  next => rfl

theorem markReported_answered {s : State} {v : Mark} (h : s.campaign.pendingMark = some v) {w : Awaited}
    (awaited : s.link.awaited = some w) (owner : w.owner = .campaignController) : s.markReported v =
      ({ s with campaign := { s.campaign with pendingMark := none } } : State).completeAwaited w := by
  simp only [State.markReported, if_pos h, awaited, if_pos owner]

theorem completeAwaited_dropped (s : State) {w : Awaited} (h : w.dropped = true) :
    s.completeAwaited w = { s with link := { s.link with awaited := none } } := if_pos h

theorem completeAwaited_kept (s : State) {w : Awaited} (h : w.dropped = false) :
    s.completeAwaited w = { s with link := { s.link with
      awaited := none
      answers := s.link.answers ++
        [{ kind := w.request.kind + 0x80#8, tag := w.request.tag, body := [0, 0] }]
      requests := s.link.requests.tail } } := by
  simp only [State.completeAwaited, h]
  rfl

theorem completeAwaited_eq (s : State) (w : Awaited) :
    s.completeAwaited w = { s with link := (s.completeAwaited w).link } := by
  unfold State.completeAwaited
  split <;> rfl

theorem markReported_eq (s : State) (v : Mark) : s.markReported v =
    { s with campaign := (s.markReported v).campaign, link := (s.markReported v).link } := by
  by_cases h : s.campaign.pendingMark = some v
  · by_cases alone : ∀ w, s.link.awaited = some w → w.owner ≠ .campaignController
    · rw [markReported_alone h alone]
    · simp only [not_forall, not_not] at alone
      obtain ⟨w, awaited, owner⟩ := alone
      rw [markReported_answered h awaited owner, completeAwaited_eq]
  · rw [markReported_other h]

/-- Settles O17: the store, then the value awaited and the answer that waits for it. -/
theorem markWriteCompletes : Obligations.MarkWriteCompletes := by
  refine fun s on => ⟨fun none => ?_, fun v writing => ⟨_, exec_markWriteComplete on writing, ?_⟩⟩
  · refine (congrArg Host.Outcome.next (powering_on on _)).trans ?_
    simp only [none]
  · have rest := markReported_eq (s.markWritten v) v
    refine ⟨by rw [rest]; rfl, by rw [rest]; rfl, by rw [rest]; rfl, by rw [rest]; rfl, by rw [rest]; rfl,
      by rw [rest]; rfl, by rw [rest]; rfl, by rw [rest]; rfl, fun other => ?_, fun asked => ⟨?_, fun alone => ?_,
        fun w awaited owner => ⟨fun dropped => ?_, fun kept => ?_⟩⟩⟩
    · rw [markReported_other (s := s.markWritten v) other]
      exact ⟨rfl, rfl⟩
    · by_cases alone : ∀ w, s.link.awaited = some w → w.owner ≠ .campaignController
      · rw [markReported_alone (s := s.markWritten v) asked alone]
        rfl
      · simp only [not_forall, not_not] at alone
        obtain ⟨w, awaited, owner⟩ := alone
        rw [markReported_answered (s := s.markWritten v) asked awaited owner, completeAwaited_eq]
        rfl
    · rw [markReported_alone (s := s.markWritten v) asked alone]
      rfl
    · rw [markReported_answered (s := s.markWritten v) asked awaited owner, completeAwaited_dropped _ dropped]
      rfl
    · rw [markReported_answered (s := s.markWritten v) asked awaited owner, completeAwaited_kept _ kept]
      rfl

end Sys2Proof.Machine

/-! Telegrams heard, the closing test, overlapped start and captures of the campaign controller (R22, R26,
R28, R29, R160). -/

namespace Sys2Proof.Machine

/-! ### What is handed on, and what joins the pending set -/

theorem reexamineAll_eq (s : State) : s.reexamineAll =
    { s with work := s.work ++ s.partaking.map fun i => .reexamine i .other } := rfl

theorem report_mem {s : State} {k : ReportKey} (enabled : s.link.mask.allows k = true) :
    k ∈ (s.report k).link.reports := (mem_report s k k).2 (Or.inr ⟨rfl, enabled⟩)

/-- What is pending before a cascade is pending after it. -/
theorem settle_reports {s : State} {k : ReportKey} (h : k ∈ s.link.reports) : k ∈ s.settle.link.reports :=
  (settle_moves s).reports h

theorem settle_link (s : State) : s.settle.link = { s.link with reports := s.settle.link.reports } :=
  (settle_frame s).link

/-! ### Telegrams (R26, R160) -/

theorem buffer_eq (l : LinkPort) (t : Telegram) : l.buffer t = { l with
    requests := if l.requests.length < 4 then l.requests ++ [t] else l.requests } := by
  unfold LinkPort.buffer Config.requestBuffer
  split <;> rfl

/-- A telegram taken, before the cascade that the return of supervision starts. -/
def State.heard (s : State) (t : Telegram) : State :=
  let regained := ({ s with link := { s.link with receiver := .hunting, silenceExpired := false } } :
    State).regainSupervision
  { regained with link := regained.link.buffer t }

theorem takeTelegram_eq (s : State) (t : Telegram) : s.takeTelegram t = (s.heard t).settle := rfl

theorem heard_lost {s : State} (lost : s.campaign.supervisionLost = true) (t : Telegram) : s.heard t = { s with
    campaign := { s.campaign with supervisionLost := false }
    work := s.work ++ s.partaking.map fun i => .reexamine i .other
    link := { s.link with
      receiver := .hunting, silenceExpired := false, reports := (s.report .campaign).link.reports
      requests := if s.link.requests.length < 4 then s.link.requests ++ [t] else s.link.requests } } := by
  simp only [State.heard, State.regainSupervision, lost, if_true, buffer_eq]
  unfold State.reexamineAll State.report LinkPort.report
  split <;> rfl

theorem heard_supervised {s : State} (kept : s.campaign.supervisionLost = false) (t : Telegram) :
    s.heard t = { s with link := { s.link with
      receiver := .hunting, silenceExpired := false
      requests := if s.link.requests.length < 4 then s.link.requests ++ [t] else s.link.requests } } := by
  simp only [State.heard, State.regainSupervision, kept, Bool.false_eq_true, if_false, buffer_eq]

theorem exec_telegram {s : State} {t : Telegram} (on : s.powered = true) (free : s.link.receiver ≠ .spacing)
    (short : t.body.length ≤ 240) :
    exec (.telegramReceived t.kind t.tag t.body t.check) s = .next (s.heard t).settle := by
  rw [exec_telegramReceived, powering_on on, if_neg free, if_pos ((validTelegram_iff t _).2 ⟨short, rfl⟩),
    takeTelegram_eq]

/-- Settles O6, by what is heard and the frame of the cascade behind it. -/
theorem validTelegramIsBuffered : Obligations.ValidTelegramIsBuffered := by
  refine ⟨fun s t spacing => exec_telegramReceived_spacing spacing _ _ _ _, fun s t on free short =>
    ⟨_, exec_telegram on free short, ?_⟩⟩
  have link := settle_link (s.heard t)
  have supervision := (settle_frame (s.heard t)).supervision
  cases lost : s.campaign.supervisionLost with
  | true =>
    have heard := heard_lost lost t
    rw [heard] at link supervision
    rw [heard, link]
    refine ⟨rfl, rfl, supervision, rfl, rfl, rfl, fun _ enabled => settle_reports (report_mem enabled),
      fun _ => ⟨_, _, rfl, mem_partaking_looks s, ?_, rfl⟩, fun kept => absurd kept (by simp)⟩
    exact fun k => mem_report s .campaign k
  | false =>
    have heard := heard_supervised lost t
    rw [heard] at link supervision
    rw [heard, link]
    refine ⟨rfl, rfl, supervision.trans lost, rfl, rfl, rfl, fun h => absurd h (by simp),
      fun h => absurd h (by simp), fun _ idle => settle_idle idle⟩

/-! ### The closing test (R22) -/

theorem finished_iff (s : State) : s.finished = true ↔
    ∀ i, (s.sec i).fitted = true → (s.sec i).state = .laidUp ∨ (s.sec i).state = .excluded := by
  simp only [State.finished, List.all_eq_true, List.mem_finRange, true_implies, Bool.or_eq_true,
    Bool.not_eq_true', beq_iff_eq, or_assoc]
  refine forall_congr' fun i => ?_
  cases (s.sec i).fitted <;> simp

theorem closingTest_finished {s : State} (down : s.campaign.state = .windingDown) (all : s.finished = true) :
    s.closingTest = s.closeNow := if_pos ⟨down, all⟩

theorem closingTest_running {s : State} (h : s.campaign.state ≠ .windingDown ∨ s.finished = false) :
    s.closingTest = s := by
  refine if_neg fun ⟨down, all⟩ => ?_
  rcases h with other | left
  · exact other down
  · exact absurd (all.symm.trans left) (by simp)

theorem requestMark_idle {s : State} (idle : s.site.markWriting = none) (v : Mark) :
    s.requestMark v = { s with site := { s.site with markWriting := some v } } := by
  simp only [State.requestMark, SiteService.requestMark, idle]

theorem requestMark_writing {s : State} {m : Mark} (writing : s.site.markWriting = some m) (v : Mark) :
    s.requestMark v = { s with site := { s.site with markPending := some v } } := by
  simp only [State.requestMark, SiteService.requestMark, writing]

/-- The campaign closed, before the CLOSED mark is asked for. -/
def State.closed (s : State) : State :=
  { s with
    campaign := { s.campaign with
      state := .closed, lock := false, pendingMark := s.campaign.pendingMark.map fun _ => .closed }
    sections := s.sections.map Section.dropLift }

theorem closeNow_eq (s : State) :
    s.closeNow = ((s.closed.requestMark .closed).report .campaign).reexamineAll := rfl

theorem sec_closed (s : State) (i : SectionId) : s.closed.sec i = (s.sec i).dropLift :=
  Table.get_map _ _ _

theorem dropLift_eq (r : Section) : r.dropLift =
    { r with ceilingLifted := if r.cls = .storage then false else r.ceilingLifted } := by
  unfold Section.dropLift
  split
  next storage => rw [if_pos storage]
  next process => rw [if_neg (by simp [process])]

theorem partaking_closed (s : State) :
    ((s.closed.requestMark .closed).report .campaign).partaking = s.partaking := by
  unfold State.partaking
  refine List.filter_congr fun i _ => ?_
  have state : (((s.closed.requestMark .closed).report .campaign).sec i).state = (s.sec i).state := by
    rw [State.sec_report]
    show (s.closed.sec i).state = _
    rw [sec_closed, dropLift_eq]
  rw [state]

/-- Settles O16: the closing test by the campaign's state and whether a section is still up. -/
theorem closingTestClosesFinishedCampaign : Obligations.ClosingTestClosesFinishedCampaign := by
  refine fun s => ⟨rfl, fun other => closingTest_running (Or.inl other), fun ⟨i, fitted, up, served⟩ => ?_,
    fun down all => ?_⟩
  · refine closingTest_running (Or.inr ?_)
    rw [← Bool.not_eq_true, finished_iff]
    exact fun all => (all i fitted).elim up served
  · rw [closingTest_finished down ((finished_iff s).2 all), closeNow_eq]
    refine ⟨by simp [reexamineAll_eq, State.closed], fun i => ?_,
      ⟨_, ?_, mem_partaking_looks s⟩, fun idle => ?_, fun writing => ?_, fun enabled => ?_⟩
    · show (s.closed.sec i) = _
      rw [sec_closed, dropLift_eq]
    · rw [reexamineAll_eq, partaking_closed]
      rfl
    · rw [requestMark_idle (s := s.closed) idle]
      rfl
    · obtain ⟨m, some⟩ := Option.ne_none_iff_exists'.1 writing
      rw [requestMark_writing (s := s.closed) some]
      exact ⟨rfl, rfl⟩
    · exact report_mem enabled

/-! ### Overlapped start (R28, R29) -/

theorem overlapDue_iff (c : Campaign) :
    c.overlapDue = true ↔ c.overlapRequested = true ∧ c.spareReserve < c.freeSpares := by
  simp [Campaign.overlapDue]

theorem recomputeOverlap_same {s : State} (h : s.campaign.overlapEffective = s.campaign.overlapDue) :
    s.recomputeOverlap = s := if_pos h

/-- R29: the re-examinations that a change of the flag hands on. -/
def State.overlapLooks (s : State) : List Delivery :=
  ((allIds 24).filter fun i => (s.sec i).state = .circulating).map fun i => .reexamine i .other

theorem mem_overlapLooks (s : State) (w : Delivery) :
    w ∈ s.overlapLooks ↔ ∃ i, w = .reexamine i .other ∧ (s.sec i).state = .circulating := by
  simp only [State.overlapLooks, List.mem_map, List.mem_filter, List.mem_finRange, true_and, decide_eq_true_eq]
  exact exists_congr fun i => ⟨fun ⟨state, e⟩ => ⟨e.symm, state⟩, fun ⟨e, state⟩ => ⟨state, e.symm⟩⟩

theorem recomputeOverlap_turned {s : State} (h : s.campaign.overlapEffective ≠ s.campaign.overlapDue) :
    s.recomputeOverlap = (({ s with campaign := { s.campaign with overlapEffective := s.campaign.overlapDue } } :
      State).report .campaign).handAll s.overlapLooks := if_neg h

theorem recomputeOverlap_effective (s : State) :
    s.recomputeOverlap.campaign = { s.campaign with overlapEffective := s.campaign.overlapDue } := by
  by_cases h : s.campaign.overlapEffective = s.campaign.overlapDue
  · rw [recomputeOverlap_same h, ← h]
  · rw [recomputeOverlap_turned h]
    rfl

/-- A supply that changes nothing is the recomputation alone. -/
theorem recomputeOverlap_moves (s : State) : Moves s s.recomputeOverlap :=
  takeSupply_moves s s.campaign.freeSpares s.campaign.spareReserve

theorem recomputeOverlap_spec {s : State} (h : s.campaign.overlapEffective ≠ s.campaign.overlapDue) :
    ∃ (x : State) (looks : List Delivery), x = s.recomputeOverlap ∧
      x = { s with
        campaign := { s.campaign with overlapEffective := s.campaign.overlapDue }
        work := s.work ++ looks
        link := { s.link with reports := x.link.reports } } ∧
      (∀ w, w ∈ looks ↔ ∃ i, w = .reexamine i .other ∧ (s.sec i).state = .circulating) ∧
      ∀ k, k ∈ x.link.reports ↔ k ∈ s.link.reports ∨ (k = .campaign ∧ s.link.mask.campaign = true) := by
  refine ⟨_, s.overlapLooks, rfl, ?_, mem_overlapLooks s, fun k => ?_⟩
  · rw [recomputeOverlap_turned h, report_eq]
    rfl
  · rw [recomputeOverlap_turned h]
    exact mem_report _ .campaign k

/-- The campaign record with overlapped start requested, or not. -/
def State.requestOverlap (s : State) (asked : Bool) : State :=
  { s with campaign := { s.campaign with overlapRequested := asked } }

/-- R28: an accepted campaign-level SET MODE that changes the request. -/
theorem setModeCampaign_turns {s : State} {asked : Bool} :
    let u := (((s.requestOverlap asked).report .campaign).recomputeOverlap).settle
    u.campaign.overlapRequested = asked ∧ u.campaign.clock = s.campaign.clock ∧
      (s.link.mask.campaign = true → .campaign ∈ u.link.reports) ∧
      (asked = false → u.campaign.overlapEffective = false) ∧ CascadeFrame (s.requestOverlap asked) u := by
  intro u
  have recomputed := recomputeOverlap_moves ((s.requestOverlap asked).report .campaign)
  have frame : CascadeFrame (s.requestOverlap asked) u :=
    (report_frame _ _).trans (recomputed.frame.trans (settle_frame _))
  refine ⟨frame.requested, frame.clock, fun enabled => ?_, fun off => ?_, frame⟩
  · exact settle_reports (recomputed.reports (report_mem enabled))
  · have law : u.overlapLaw := (settle_moves _).keep (fun _ _ => move_overlapLaw) (by
      rw [overlapLaw_iff, recomputeOverlap_effective]
      rfl)
    rw [(overlapLaw_iff u).1 law, Campaign.overlapDue, frame.requested]
    simp [State.requestOverlap, off]

/-- Settles O19: the flag by its law, and the request by what follows it. -/
theorem overlappedStartIsRequested : Obligations.OverlappedStartIsRequested := by
  refine ⟨fun _ _ _ => rfl, fun s due iff => ?_, fun s t sec setting h => ⟨fun same => ?_, fun other => ?_⟩⟩
  · obtain rfl : due = s.campaign.overlapDue := by rw [Bool.eq_iff_iff, iff, overlapDue_iff]
    exact ⟨recomputeOverlap_same, recomputeOverlap_spec⟩
  · exact accepted_of_owner rfl h (by simp only [overlapOrder, if_pos same])
  · obtain ⟨requested, clock, reports, off, frame⟩ := setModeCampaign_turns (s := s) (asked := decide (setting = 1))
    exact ⟨_, accepted_of_owner rfl h (by simp only [overlapOrder, if_neg other]; rfl), requested, clock, reports,
      rfl, fun _ ne => off (decide_eq_false ne), frame⟩

end Sys2Proof.Machine

/-! A state entry and what it hands on, and how the deliveries handed on are taken (R3, logs 3 to 5). -/

namespace Sys2Proof.Machine

/-! ### Cascades -/

theorem takeOne_idle {s : State} (idle : s.work = []) : s.takeOne = s := by
  simp [State.takeOne, idle, receivers]

/-- A free choice of receiver finds a delivery handed to it, the oldest of them. -/
theorem takeOne_busy {s : State} (busy : s.work ≠ []) :
    ∃ before w after order drawn, s.work = before ++ w :: after ∧
      (∀ v ∈ before, v.receiver ≠ w.receiver) ∧
      s.takeOne =
        ({ s with work := before ++ after, order := order, drawn := drawn } : State).runDelivery w := by
  have waiting : 0 < (receivers s.work).length := by
    obtain ⟨w, rest, e⟩ := List.exists_cons_of_ne_nil busy
    refine List.length_pos_of_mem (a := w.receiver) ?_
    simp [receivers, e]
  have chosen := List.getElem?_eq_getElem (draw_lt waiting s)
  have waits : (receivers s.work)[(s.draw (receivers s.work).length).1]'(draw_lt waiting s) ∈ receivers s.work :=
    List.getElem_mem _
  generalize (receivers s.work)[(s.draw (receivers s.work).length).1]'(draw_lt waiting s) = r at chosen waits
  obtain ⟨w, mem, own⟩ : ∃ w ∈ s.work, w.receiver = r := by
    simpa [receivers] using waits
  obtain ⟨w, found⟩ : ∃ w, s.work.find? (fun w => w.receiver = r) = some w :=
    Option.isSome_iff_exists.1 (List.find?_isSome.2 ⟨w, mem, by simpa using own⟩)
  obtain ⟨own, before, after, e, first⟩ := List.find?_eq_some_iff_append.1 found
  have own : w.receiver = r := by simpa using own
  have first : ∀ v ∈ before, v.receiver ≠ w.receiver := fun v m => by
    rw [own]
    simpa using first v m
  have rest : s.work.erase w = before ++ after := by
    rw [e, List.erase_append_right _ (fun m => first w m rfl), List.erase_cons_head]
  have taken : s.takeOne = ({ (s.draw (receivers s.work).length).2 with work := s.work.erase w } :
      State).runDelivery w := by
    simp only [State.takeOne, chosen, found]
  rw [draw_eq, rest] at taken
  exact ⟨before, w, after, _, _, e, first, taken⟩

theorem settleFor_eq (n : Nat) (s : State) : s.settleFor n = State.takeOne^[n] s := by
  induction n generalizing s with
  | zero => rfl
  | succ n ih =>
    rw [State.settleFor, Function.iterate_succ_apply]
    split
    next idle =>
      have stays := takeOne_idle (List.isEmpty_iff.1 idle)
      rw [stays, Function.iterate_fixed stays]
    next => exact ih _

/-! ### What a state entry hands on -/

theorem mem_neighbours (s : State) (i j : SectionId) : j ∈ s.neighbours i ↔
    ((∃ l ∈ (s.sec i).upstream, l.id = j) ∨ j ∈ (s.sec i).downstream) ∧
      (s.sec j).state ≠ .absent ∧ (s.sec j).state ≠ .excluded := by
  simp only [State.neighbours, State.upstreamOf, State.downstreamOf, List.mem_append, List.mem_map,
    List.mem_filter, partakes_iff]
  constructor
  · rintro (⟨l, ⟨mem, part⟩, rfl⟩ | ⟨mem, part⟩)
    · exact ⟨Or.inl ⟨l, mem, rfl⟩, part⟩
    · exact ⟨Or.inr mem, part⟩
  · rintro ⟨⟨l, mem, rfl⟩ | mem, part⟩
    · exact Or.inl ⟨l, ⟨mem, part⟩, rfl⟩
    · exact Or.inr ⟨mem, part⟩

theorem mem_announcements (s : State) (i : SectionId) (old : SectionState) (w : Delivery) :
    w ∈ s.announcements i old ↔
      (∃ j, w = .reexamine j .other ∧ (j = i ∨ j ∈ s.neighbours i)) ∨
      (w = .runDemand i ∧ (s.sec i).dutyUnits ≠ []) ∨
      (w = .releaseClaim i ∧ ((s.sec i).state = .draining ∨ (s.sec i).state = .laidUp)) ∨
      (w = .withdrawClaim i ∧ (s.sec i).state = .held ∧ old = .filling ∧ hasClaim i s.steam.queue = true) ∨
      (w = .closingTest ∧ s.campaign.state = .windingDown) := by
  have only {a b : Delivery} {p : Prop} [Decidable p] : a ∈ (if p then [b] else []) ↔ a = b ∧ p := by
    split <;> simp [*]
  have looks : w ∈ (.reexamine i .other :: (s.neighbours i).map fun j => Delivery.reexamine j .other) ↔
      ∃ j, w = .reexamine j .other ∧ (j = i ∨ j ∈ s.neighbours i) := by
    simp only [List.mem_cons, List.mem_map]
    constructor
    · rintro (rfl | ⟨j, mem, rfl⟩)
      · exact ⟨i, rfl, Or.inl rfl⟩
      · exact ⟨j, rfl, Or.inr mem⟩
    · rintro ⟨j, rfl, rfl | mem⟩
      · exact Or.inl rfl
      · exact Or.inr ⟨j, mem, rfl⟩
  have demand : w ∈ (if (s.sec i).dutyUnits.isEmpty then [] else [Delivery.runDemand i]) ↔
      w = .runDemand i ∧ (s.sec i).dutyUnits ≠ [] := by
    split <;> simp_all
  simp only [State.announcements, List.mem_append, looks, demand, only, or_assoc]

/-- R3: what a state entry hands on, by the records as they stood before it. -/
theorem mem_work_enter (s : State) (i : SectionId) (dest : SectionState) (cause : CaptureCause) :
    ∃ handed : List Delivery, (s.enter i dest cause).work = s.work ++ handed ∧
    ∀ w, w ∈ handed ↔
      (∃ j, w = .reexamine j .other ∧ (j = i ∨
        ((∃ l ∈ (s.sec i).upstream, l.id = j) ∨ j ∈ (s.sec i).downstream) ∧
          (s.sec j).state ≠ .absent ∧ (s.sec j).state ≠ .excluded)) ∨
      (w = .runDemand i ∧ (s.sec i).dutyUnits ≠ []) ∨
      (w = .releaseClaim i ∧ (dest = .draining ∨ dest = .laidUp)) ∨
      (w = .withdrawClaim i ∧ dest = .held ∧ (s.sec i).state = .filling ∧ ∃ c ∈ s.steam.queue, c.sec = i) ∨
      (w = .closingTest ∧ s.campaign.state = .windingDown) := by
  obtain ⟨t, handed, own, others, steam, campaign⟩ : ∃ t : State,
      (s.enter i dest cause).work = s.work ++ t.announcements i (s.sec i).state ∧
      t.sec i = (s.sec i).entering s.now dest cause ∧ (∀ j, j ≠ i → t.sec j = s.sec j) ∧
      t.steam = s.steam ∧ t.campaign = s.campaign :=
    ⟨_, rfl, Table.get_set_self _ _ _, fun j ne => Table.get_set_of_ne _ _ ne, rfl, rfl⟩
  refine ⟨_, handed, fun w => ?_⟩
  have near (j : SectionId) : (j = i ∨ j ∈ t.neighbours i) ↔ (j = i ∨
      ((∃ l ∈ (s.sec i).upstream, l.id = j) ∨ j ∈ (s.sec i).downstream) ∧
        (s.sec j).state ≠ .absent ∧ (s.sec j).state ≠ .excluded) := by
    by_cases same : j = i
    · simp only [same, true_or]
    · rw [mem_neighbours, own, others j same]
      rfl
  rw [mem_announcements, own, steam, campaign, hasClaim_iff, List.mem_map]
  simp only [near]
  rfl

theorem sec_enter_self (s : State) (i : SectionId) (dest : SectionState) (cause : CaptureCause) :
    (s.enter i dest cause).sec i = (s.sec i).entering s.now dest cause := by
  rw [sec_enter, if_pos rfl]

theorem sec_enter_ne (s : State) {i j : SectionId} (ne : j ≠ i) (dest : SectionState) (cause : CaptureCause) :
    (s.enter i dest cause).sec j = s.sec j := by
  rw [sec_enter, if_neg ne]

/-- Settles O20: the deliveries, how they are taken, and the record of the section. -/
theorem stateEntryWritesRecord : Obligations.StateEntryWritesRecord := by
  refine ⟨mem_work_enter, fun s => ⟨settleFor_eq _ _, takeOne_idle, takeOne_busy⟩, fun s i dest cause => ?_⟩
  have kept := enter_onlySections s i dest cause
  refine ⟨sec_enter_self s i dest cause, fun j ne => sec_enter_ne s ne dest cause, ?_, fun j ne => ?_,
    fun enabled => ?_, kept.campaign, kept.steam, kept.supervisor, kept.trips, kept.store, kept.scanner⟩
  · rw [lines_enter]
    exact Table.get_set_self _ _ _
  · rw [lines_enter]
    exact Table.get_set_of_ne _ _ ne
  · exact report_mem (s := (s.setSec i ((s.sec i).entering s.now dest cause)).driveRoutes i) enabled

end Sys2Proof.Machine

/-! The permits: when each condition of R57 is listed as failing, and when none is. -/

namespace Sys2Proof.Machine

theorem unmet_if {c : PermitCondition} {holds : Bool} {p : Prop} [Decidable p] (h : holds = true ↔ p) :
    unmet c holds = if p then [] else [c] := by
  by_cases met : p
  · rw [unmet, if_pos (h.2 met), if_pos met]
  · rw [unmet, if_neg (fun on => met (h.1 on)), if_neg met]

/-- No condition is listed exactly where it is met. -/
theorem listed_nil {c : PermitCondition} {p : Prop} [Decidable p] : (if p then [] else [c]) = [] ↔ p := by
  split <;> simp [*]

/-! ### The conditions (R57) -/

theorem levelBad_iff (s : State) (i : SectionId) : s.levelBad i = true ↔ (s.level i).validity = .bad := by
  simp [State.levelBad]

theorem not_levelBad_iff (s : State) (i : SectionId) :
    (!s.levelBad i) = true ↔ (s.level i).validity = .valid := by
  cases e : (s.level i).validity <;> simp [State.levelBad, e]

theorem supervised_iff (s : State) (i : SectionId) :
    ((s.sec i).mode == .manual || !s.campaign.supervisionLost) = true ↔
      (s.sec i).mode = .manual ∨ s.campaign.supervisionLost = false := by simp

theorem windDownClear_iff (s : State) (u : SectionId) : s.windDownClear u = true ↔
    (s.sec u).state = .laidUp ∨ (((s.sec u).state = .sweeteningOff ∨ (s.sec u).state = .draining) ∧
      (s.sec u).phase ≠ .sweet) := by
  cases e : (s.sec u).state <;> simp [State.windDownClear, e]

theorem lagRun_iff (s : State) (l : Link) :
    s.lagRun l = true ↔ (s.sec l.id).phaseSince + l.lag ≤ s.campaign.clock := decide_eq_true_iff

theorem accepts_iff (s : State) (d : SectionId) : s.accepts d = true ↔
    (s.sec d).state = .circulating ∨ (s.sec d).state = .running ∨
      ((s.sec d).state = .conditioning ∧ s.campaign.overlapEffective = true) := by
  cases e : (s.sec d).state <;> simp [State.accepts, e]

theorem timerRun_iff (s : State) (i : SectionId) :
    s.timerRun i = true ↔ ∃ d ∈ (s.sec i).deadline, d ≤ s.campaign.clock := by
  cases e : (s.sec i).deadline with
  | none => simp [State.timerRun, e]
  | some d =>
    simp only [State.timerRun, e, Option.mem_some_iff, exists_eq_left']
    exact decide_eq_true_iff

theorem upstream_all_iff (s : State) (i : SectionId) (p : SectionId → Bool) :
    ((s.upstreamOf i).all fun l => p l.id) = true ↔ ∀ l ∈ s.upstreamOf i, p l.id = true := List.all_eq_true

/-! ### The conditions of each step, in their order -/

variable {s : State} {i : SectionId}

theorem failing_of_cold (state : (s.sec i).state = .cold) : s.failing i =
    (if s.campaign.state = .opened then [] else [.campaign]) ++
    (if (s.sec i).mode = .manual ∨ s.campaign.supervisionLost = false then [] else [.supervision]) ++
    (if s.tripped i = false then [] else [.trip]) ++
    (if (s.sec i).cls = .storage ∨ (s.level i).validity = .valid then [] else [.sensor]) := by
  have campaign := unmet_if (c := .campaign) (beq_iff_eq (a := s.campaign.state) (b := .opened))
  have supervision := unmet_if (c := .supervision) (supervised_iff s i)
  have trip := unmet_if (c := .trip) (Bool.not_eq_true' (s.tripped i)).to_iff
  cases cls : (s.sec i).cls with
  | process =>
    have sensor : unmet .sensor (!s.levelBad i) =
        if (s.sec i).cls = .storage ∨ (s.level i).validity = .valid then [] else [.sensor] :=
      unmet_if (by rw [not_levelBad_iff, cls]; simp)
    rw [← cls, ← campaign, ← supervision, ← trip, ← sensor]
    simp only [State.failing, state, cls]
  | storage =>
    rw [if_pos (Or.inl rfl), List.append_nil, ← campaign, ← supervision, ← trip]
    simp only [State.failing, state, cls]

theorem failing_of_filling (state : (s.sec i).state = .filling) :
    s.failing i = if (s.level i).bands.fillDone = some true then [.steam] else [.level, .steam] := by
  have level := unmet_if (c := .level) (beq_iff_eq (a := (s.level i).bands.fillDone) (b := some true))
  simp only [State.failing, state, level]
  split <;> rfl

theorem failing_of_conditioning (state : (s.sec i).state = .conditioning) :
    s.failing i = if ∃ d ∈ (s.sec i).deadline, d ≤ s.campaign.clock then [] else [.timer] := by
  rw [← unmet_if (timerRun_iff s i)]
  simp only [State.failing, state]

theorem failing_of_circulating (state : (s.sec i).state = .circulating) : s.failing i =
    (if s.campaign.state = .opened then [] else [.campaign]) ++
    (if (s.sec i).mode = .manual ∨ s.campaign.supervisionLost = false then [] else [.supervision]) ++
    (if ∀ l ∈ s.upstreamOf i, (s.sec l.id).state = .running then [] else [.upstream]) ++
    (if ∀ d ∈ s.downstreamOf i, (s.sec d).state = .circulating ∨ (s.sec d).state = .running ∨
      ((s.sec d).state = .conditioning ∧ s.campaign.overlapEffective = true) then [] else [.downstream]) := by
  have upstream := unmet_if (c := .upstream) (holds := (s.upstreamOf i).all fun l => (s.sec l.id).state == .running)
    (p := ∀ l ∈ s.upstreamOf i, (s.sec l.id).state = .running) (by simp)
  have downstream := unmet_if (c := .downstream) (holds := (s.downstreamOf i).all s.accepts)
    (p := ∀ d ∈ s.downstreamOf i, (s.sec d).state = .circulating ∨ (s.sec d).state = .running ∨
      ((s.sec d).state = .conditioning ∧ s.campaign.overlapEffective = true))
    (by simp only [List.all_eq_true, accepts_iff])
  rw [← unmet_if (beq_iff_eq (a := s.campaign.state) (b := .opened)), ← unmet_if (supervised_iff s i), ← upstream,
    ← downstream]
  simp only [State.failing, state]

theorem failing_of_running_process (state : (s.sec i).state = .running) (cls : (s.sec i).cls = .process) :
    s.failing i =
      (if s.campaign.state = .windingDown then [] else [.campaign]) ++
      (if ∀ l ∈ s.upstreamOf i, (s.sec l.id).state = .laidUp ∨
        (((s.sec l.id).state = .sweeteningOff ∨ (s.sec l.id).state = .draining) ∧
          (s.sec l.id).phase ≠ .sweet) then [] else [.upstream]) ++
      (if ∀ l ∈ s.upstreamOf i, (s.sec l.id).state = .laidUp ∨
        (((s.sec l.id).state = .sweeteningOff ∨ (s.sec l.id).state = .draining) ∧
          (s.sec l.id).phase ≠ .sweet) → (s.sec l.id).phaseSince + l.lag ≤ s.campaign.clock
        then [] else [.lag]) := by
  have upstream := unmet_if (c := .upstream) (holds := (s.upstreamOf i).all fun l => s.windDownClear l.id)
    (p := ∀ l ∈ s.upstreamOf i, (s.sec l.id).state = .laidUp ∨
      (((s.sec l.id).state = .sweeteningOff ∨ (s.sec l.id).state = .draining) ∧ (s.sec l.id).phase ≠ .sweet))
    (by simp only [List.all_eq_true, windDownClear_iff])
  have lag := unmet_if (c := .lag)
    (holds := (s.upstreamOf i).all fun l => !s.windDownClear l.id || s.lagRun l)
    (p := ∀ l ∈ s.upstreamOf i, (s.sec l.id).state = .laidUp ∨
      (((s.sec l.id).state = .sweeteningOff ∨ (s.sec l.id).state = .draining) ∧
        (s.sec l.id).phase ≠ .sweet) → (s.sec l.id).phaseSince + l.lag ≤ s.campaign.clock)
    (by simp only [List.all_eq_true, Bool.or_eq_true, Bool.not_eq_true', ← Bool.not_eq_true, windDownClear_iff,
          lagRun_iff, ← imp_iff_not_or])
  rw [← unmet_if (beq_iff_eq (a := s.campaign.state) (b := .windingDown)), ← upstream, ← lag]
  simp only [State.failing, state, cls]

theorem failing_of_running_storage (state : (s.sec i).state = .running) (cls : (s.sec i).cls = .storage) :
    s.failing i =
      (if s.campaign.state = .windingDown then [] else [.campaign]) ++
      (if ∀ l ∈ s.upstreamOf i, (s.sec l.id).state = .laidUp then [] else [.upstream]) ++
      (if s.downstreamOf i = [] ∨ (s.sec i).phase = .empty then [] else [.phase]) := by
  have upstream := unmet_if (c := .upstream) (holds := (s.upstreamOf i).all fun l => (s.sec l.id).state == .laidUp)
    (p := ∀ l ∈ s.upstreamOf i, (s.sec l.id).state = .laidUp) (by simp)
  have phase := unmet_if (c := .phase) (holds := (s.downstreamOf i).isEmpty || (s.sec i).phase == .empty)
    (p := s.downstreamOf i = [] ∨ (s.sec i).phase = .empty) (by simp)
  rw [← unmet_if (beq_iff_eq (a := s.campaign.state) (b := .windingDown)), ← upstream, ← phase]
  simp only [State.failing, state, cls]

theorem failing_of_sweeteningOff (state : (s.sec i).state = .sweeteningOff) :
    s.failing i = if (s.sec i).phase = .sweet then [.phase] else [] := by
  simp only [State.failing, state, unmet]
  cases (s.sec i).phase <;> rfl

theorem failing_of_draining (state : (s.sec i).state = .draining) :
    s.failing i = if (s.sec i).phase = .empty then [] else [.phase] := by
  rw [← unmet_if (beq_iff_eq (a := (s.sec i).phase) (b := .empty))]
  simp only [State.failing, state]

/-! ### When no condition fails -/

theorem auto_supervised (m : Mode) (lost : Bool) :
    (m = .manual ∨ lost = false) ↔ (m = .auto → lost = false) := by
  cases m <;> simp

theorem permitted_of_running_process (state : (s.sec i).state = .running) (cls : (s.sec i).cls = .process) :
    s.failing i = [] ↔ s.campaign.state = .windingDown ∧
      ∀ l ∈ s.upstreamOf i,
        ((s.sec l.id).state = .laidUp ∨
          (((s.sec l.id).state = .sweeteningOff ∨ (s.sec l.id).state = .draining) ∧
            (s.sec l.id).phase ≠ .sweet)) ∧
        (s.sec l.id).phaseSince + l.lag ≤ s.campaign.clock := by
  rw [failing_of_running_process state cls]
  simp only [List.append_eq_nil_iff, listed_nil, and_assoc]
  refine and_congr_right fun _ => ⟨fun ⟨clear, run⟩ l mem => ⟨clear l mem, run l mem (clear l mem)⟩,
    fun h => ⟨fun l mem => (h l mem).1, fun l mem _ => (h l mem).2⟩⟩

/-- Settles O22: the conditions listed for each state, and when the list is empty. -/
theorem permitsHoldWhenConditionsDo : Obligations.PermitsHoldWhenConditionsDo := by
  refine ⟨fun s i => ⟨?_, ?_, tripped_iff s i⟩, fun s i => ⟨failing_of_cold, failing_of_conditioning,
    failing_of_circulating, failing_of_running_process, failing_of_running_storage, failing_of_sweeteningOff,
    failing_of_draining⟩, fun s i => ⟨fun state cls => ?_, fun state cls => ?_, failing_of_filling,
      fun state => ?_, fun state => ?_, permitted_of_running_process, fun state cls => ?_, fun state => ?_,
      fun state => ?_⟩⟩
  · exact List.filter_congr fun l _ => by rw [Bool.eq_iff_iff, partakes_iff, decide_eq_true_iff]
  · exact List.filter_congr fun d _ => by rw [Bool.eq_iff_iff, partakes_iff, decide_eq_true_iff]
  · rw [failing_of_cold state, cls]
    simp only [List.append_eq_nil_iff, listed_nil, auto_supervised, reduceCtorEq, false_or]
    tauto
  · rw [failing_of_cold state, cls]
    simp only [List.append_eq_nil_iff, listed_nil, auto_supervised, true_or, and_true]
    tauto
  · rw [failing_of_conditioning state, listed_nil]
    rfl
  · rw [failing_of_circulating state]
    simp only [List.append_eq_nil_iff, listed_nil, auto_supervised]
    tauto
  · rw [failing_of_running_storage state cls]
    simp only [List.append_eq_nil_iff, listed_nil, and_assoc]
  · rw [failing_of_sweeteningOff state]
    split <;> simp [*]
  · rw [failing_of_draining state, listed_nil]

end Sys2Proof.Machine

/-! Re-examinations, the step out of a state, and ADVANCE (R31, R53, R55, R60, R71, R72, R74, R124). -/

namespace Sys2Proof.Machine

/-! ### Re-examination (R55) -/

theorem allows_iff (why : Why) (st : SectionState) :
    why.allows st = true ↔ st ≠ .conditioning ∨ why = .expiry ∨ why = .modeChange := by
  cases why <;> simp [Why.allows]

theorem no_claim_iff (cs : List Claim) (i : SectionId) : hasClaim i cs = false ↔ ∀ c ∈ cs, c.sec ≠ i := by
  simp [hasClaim_false]

/-- R60: the fill-done steam request. -/
theorem fillDoneRequest_eq (s : State) (i : SectionId) : s.fillDoneRequest i =
    if (s.sec i).state = .filling ∧ (s.level i).bands.fillDone = some true ∧ ∀ c ∈ s.steam.queue, c.sec ≠ i
    then s.steamChange (Steam.request s.campaign.clock i (s.sec i).demand false) else s :=
  if_congr (and_congr_right fun _ => and_congr_right fun _ => no_claim_iff _ _) rfl rfl

theorem fillDoneRequest_other {s : State} {i : SectionId} (h : (s.sec i).state ≠ .filling) :
    s.fillDoneRequest i = s := if_neg fun filling => h filling.1

section

variable {s : State} {i : SectionId} {why : Why} {dest : SectionState}

theorem reexamine_none (h : nextStep (s.sec i).cls (s.sec i).state = none) : s.reexamine i why = s := by
  simp only [State.reexamine, h]

theorem reexamine_takes (h : nextStep (s.sec i).cls (s.sec i).state = some dest) (auto : (s.sec i).mode = .auto)
    (permit : s.failing i = []) (allowed : why.allows (s.sec i).state = true) :
    s.reexamine i why = s.enterState i dest why.cause := by
  simp only [State.reexamine, h, if_pos (And.intro auto (And.intro permit allowed))]

theorem reexamine_waits (h : nextStep (s.sec i).cls (s.sec i).state = some dest)
    (kept : (s.sec i).mode = .manual ∨ s.failing i ≠ [] ∨ why.allows (s.sec i).state = false) :
    s.reexamine i why = s.fillDoneRequest i := by
  have blocked : ¬ ((s.sec i).mode = .auto ∧ s.failing i = [] ∧ why.allows (s.sec i).state = true) := by
    rintro ⟨auto, permit, allowed⟩
    rcases kept with manual | failing | barred
    · exact absurd (auto.symm.trans manual) (by simp)
    · exact failing permit
    · exact absurd (allowed.symm.trans barred) (by simp)
  simp only [State.reexamine, h, if_neg blocked]

end

/-! ### The section an order names (R10) -/

theorem named_eq_some_iff (s : State) (id : Nat) (i : SectionId) :
    s.named id = some i ↔ i.val = id ∧ (s.sec i).state ≠ .absent := by
  constructor
  · unfold State.named idOf
    split
    next j e =>
      split
      next => exact fun h => absurd h (by simp)
      next here =>
        split at e
        next lt =>
          intro h
          obtain rfl := Option.some.inj e
          obtain rfl := Option.some.inj h
          exact ⟨rfl, here⟩
        next => exact absurd e (by simp)
    next => exact fun h => absurd h (by simp)
  · rintro ⟨e, here⟩
    exact named_of_eq e here

theorem named_eq_none_iff (s : State) (id : Nat) :
    s.named id = none ↔ 24 ≤ id ∨ ∃ i : SectionId, i.val = id ∧ (s.sec i).state = .absent := by
  constructor
  · intro none
    rcases Nat.lt_or_ge id 24 with lt | le
    · refine Or.inr ⟨⟨id, lt⟩, rfl, ?_⟩
      by_contra here
      exact absurd (none.symm.trans (named_of_eq rfl here)) (by simp)
    · exact Or.inl le
  · rintro (le | ⟨i, e, absent⟩)
    · exact named_of_le le
    · exact named_of_absent e absent

/-! ### ADVANCE (R71) -/

theorem listed_codes (c : PermitCondition) (cs : List PermitCondition) :
    listed (fun c : PermitCondition => [c.code]) (c :: cs) =
      byte (cs.length + 1) :: c.code :: cs.map PermitCondition.code := by
  rw [listed, ← List.map_eq_flatMap]
  rfl

/-- Settles O23: what a re-examination does by the step and the permit, and ADVANCE by its checks. -/
theorem advanceTakesPermittedStep : Obligations.AdvanceTakesPermittedStep := by
  refine ⟨⟨rfl, fun s i why => ⟨rfl, reexamine_none, fun dest step => ⟨fun auto permit allowed => ?_,
      fun conditioning untimed => ?_, fun kept => ?_⟩⟩⟩,
    ⟨rfl, rfl, rfl, rfl, fun cls => ?_, rfl, rfl, rfl, rfl, by decide, fun cls => ?_⟩,
    fun s id => ⟨named_eq_some_iff s id, named_eq_none_iff s id⟩, fun s t id h => ⟨fun none => ?_,
      fun i named => ⟨fun auto => ?_, fun manual => ⟨fun none => ?_, fun dest step => ⟨fun c cs fails => ?_,
        fun permit => ?_⟩⟩⟩⟩⟩
  · exact reexamine_takes step auto permit ((allows_iff _ _).2 allowed)
  · have barred : why.allows (s.sec i).state = false := by
      rw [← Bool.not_eq_true, allows_iff, conditioning]
      rcases untimed with rfl | rfl <;> simp
    rw [reexamine_waits step (Or.inr (Or.inr barred)), fillDoneRequest_other (by simp [conditioning])]
  · rw [reexamine_waits step (kept.imp_right Or.inl), fillDoneRequest_eq]
  · cases cls <;> rfl
  · cases cls <;> decide
  · exact refused_of_owner rfl h (by simp only [advanceOrder, none])
  · exact refused_of_owner rfl h (by simp only [advanceOrder, named, if_pos auto])
  all_goals have turned : ¬ (s.sec i).mode = .auto := by simp [manual]
  · exact refused_of_owner rfl h (by simp only [advanceOrder, named, if_neg turned, none])
  · rw [exec_of_taking rfl h]
    simp only [advanceOrder, named, if_neg turned, step, fails, listed_codes]
  · exact accepted_of_owner rfl h (by simp only [advanceOrder, named, if_neg turned, step, permit])

end Sys2Proof.Machine

/-! The hold set of a section: the reasons it takes, their addition and removal, the causes found at a state
entry, and HOLD (R95 to R101, R103). -/

namespace Sys2Proof.Machine

/-! ### The reasons that each state takes (R95) -/

theorem mem_working_iff (st : SectionState) :
    st ∈ [.filling, .conditioning, .circulating, .running, .sweeteningOff, .draining] ↔ st.working = true := by
  cases st <;> decide

theorem mem_takes_iff (st : SectionState) :
    st ∈ [.filling, .conditioning, .circulating, .running, .sweeteningOff, .draining, .held] ↔
      (st.working || st == .held) = true := by
  cases st <;> decide

theorem takes_full_iff (r : Section) (d : SectionId) : r.takes (.full d) = true ↔
    r.state = .running ∨ r.state = .sweeteningOff ∨
      (r.state = .held ∧ (r.heldFrom = some .running ∨ r.heldFrom = some .sweeteningOff)) := by
  cases e : r.state <;> simp [Section.takes, e]

theorem full_iff_process {s : State} {d : SectionId} (cls : (s.sec d).cls = .process) :
    s.full d = true ↔ (s.level d).bands.high = some true := by
  simp [State.full, cls]

theorem full_iff_storage {s : State} {d : SectionId} (cls : (s.sec d).cls = .storage) :
    s.full d = true ↔ (s.level d).bands.ceiling = some true := by
  simp [State.full, cls]

/-! ### Additions (R96, R97) -/

section

variable {s : State} {i : SectionId} {r : HoldReason}

theorem addReason_none (h : (s.sec i).takes r = false ∨ r ∈ (s.sec i).holds) : s.addReason i r = s := by
  refine if_pos ?_
  rcases h with other | held
  · simp [other]
  · simp [held]

theorem addReason_held (takes : (s.sec i).takes r = true) (new : r ∉ (s.sec i).holds)
    (held : (s.sec i).state = .held) : s.addReason i r = (s.insertHolds i [r]).report (.sec i) := by
  simp [State.addReason, takes, new, held]

theorem addReason_free (takes : (s.sec i).takes r = true) (new : r ∉ (s.sec i).holds)
    (free : (s.sec i).state ≠ .held) : s.addReason i r = s.holdWith i [r] := by
  simp [State.addReason, takes, new, free]

/-- The record of a section HELD with one more reason. -/
theorem sec_addReason_held (takes : (s.sec i).takes r = true) (new : r ∉ (s.sec i).holds)
    (held : (s.sec i).state = .held) :
    (s.addReason i r).sec i = { s.sec i with holds := insertReason r (s.sec i).holds } := by
  rw [addReason_held takes new held, State.sec_report, sec_insertHolds, if_pos rfl]
  rfl

/-- The record of a section that enters HELD with a reason. -/
theorem sec_addReason_free (takes : (s.sec i).takes r = true) (new : r ∉ (s.sec i).holds)
    (free : (s.sec i).state ≠ .held) : (s.addReason i r).sec i =
      { (s.sec i).entering s.now .held .hold with holds := insertReason r (s.sec i).holds } := by
  rw [addReason_free takes new free, sec_holdWith, if_pos rfl]
  rfl

theorem mem_holds_addReason (takes : (s.sec i).takes r = true) (new : r ∉ (s.sec i).holds) (x : HoldReason) :
    x ∈ ((s.addReason i r).sec i).holds ↔ x = r ∨ x ∈ (s.sec i).holds := by
  by_cases held : (s.sec i).state = .held
  · rw [sec_addReason_held takes new held, mem_insertReason]
  · rw [sec_addReason_free takes new held, mem_insertReason]

theorem state_addReason (takes : (s.sec i).takes r = true) (new : r ∉ (s.sec i).holds) :
    ((s.addReason i r).sec i).state = .held := by
  by_cases held : (s.sec i).state = .held
  · rw [sec_addReason_held takes new held]
    exact held
  · rw [sec_addReason_free takes new held]
    rfl

theorem reports_addReason (takes : (s.sec i).takes r = true) (new : r ∉ (s.sec i).holds)
    (enabled : s.link.mask.sec = true) : .sec i ∈ (s.addReason i r).link.reports := by
  by_cases held : (s.sec i).state = .held
  · rw [addReason_held takes new held]
    exact report_mem (s := s.insertHolds i [r]) enabled
  · rw [addReason_free takes new held]
    exact report_mem (k := .sec i) enabled

end

/-- The removal of the one reason a section has returns it to its held-from. -/
theorem removeReason_of_alone {s : State} {i : SectionId} {r : HoldReason} {back : SectionState}
    (cause : CaptureCause) (held : r ∈ (s.sec i).holds) (alone : ∀ x ∈ (s.sec i).holds, x = r)
    (source : (s.sec i).heldFrom = some back) :
    s.removeReason i r cause = (s.setSec i { s.sec i with holds := [] }).enterState i back cause := by
  have empty : removeFrom r (s.sec i).holds = [] := by
    refine List.eq_nil_iff_forall_not_mem.2 fun x mem => ?_
    obtain ⟨mem, ne⟩ := mem_removeFrom.1 mem
    exact ne (alone x mem)
  simp [State.removeReason, held, empty, source]

/-! ### The causes found at a state entry (R101) -/

theorem mem_entryReasons (s : State) (i : SectionId) (dest : SectionState) (x : HoldReason) :
    x ∈ s.entryReasons i dest ↔ (x = .sensor ∧ s.levelBad i = true) ∨
      (x = .units ∧ s.supervisor.short.get i = true) ∨
      ∃ d, x = .full d ∧ dest.passesLiquor = true ∧ d ∈ s.downstreamOf i ∧ s.full d = true := by
  have only {a b : HoldReason} {p : Bool} : a ∈ (if p then [b] else []) ↔ a = b ∧ p = true := by
    split <;> simp [*]
  have full : x ∈ (if dest.passesLiquor then ((s.downstreamOf i).filter s.full).map .full else []) ↔
      ∃ d, x = .full d ∧ dest.passesLiquor = true ∧ d ∈ s.downstreamOf i ∧ s.full d = true := by
    split
    next passes =>
      simp only [passes, List.mem_map, List.mem_filter, true_and]
      exact exists_congr fun d => ⟨fun ⟨h, e⟩ => ⟨e.symm, h⟩, fun ⟨e, h⟩ => ⟨h, e.symm⟩⟩
    next stays => simp [stays]
  simp only [State.entryReasons, List.mem_append, only, full, or_assoc]

/-- A downstream section that takes part does so after a state entry into a working state too. -/
theorem mem_downstreamOf_enter {s : State} {i d : SectionId} {dest : SectionState} {cause : CaptureCause}
    (work : dest.working = true) (h : d ∈ s.downstreamOf i) : d ∈ (s.enter i dest cause).downstreamOf i := by
  obtain ⟨mem, part⟩ := List.mem_filter.1 h
  refine List.mem_filter.2 ⟨by rw [sec_enter_self]; exact mem, ?_⟩
  by_cases self : d = i
  · rw [self, sec_enter_self]
    exact working_partakes work
  · rw [sec_enter_ne s self]
    exact part

theorem full_enter (s : State) (i d : SectionId) (dest : SectionState) (cause : CaptureCause) :
    (s.enter i dest cause).full d = s.full d := by
  have cls : ((s.enter i dest cause).sec d).cls = (s.sec d).cls := by
    rw [sec_enter]
    split
    next self => rw [self]; rfl
    next => rfl
  unfold State.full
  rw [cls]
  rfl

section

variable {s : State} {i : SectionId} {dest : SectionState} {cause : CaptureCause}

/-- A section that enters a working state while the cause of a hold stands is HELD from it, with it. -/
theorem enterState_held {x : HoldReason} (work : dest.working = true)
    (found : x ∈ (s.enter i dest cause).entryReasons i dest) :
    ((s.enterState i dest cause).sec i).state = .held ∧
      ((s.enterState i dest cause).sec i).heldFrom = some dest ∧
      x ∈ ((s.enterState i dest cause).sec i).holds := by
  rw [enterState_of_entryReasons work (List.ne_nil_of_mem found), sec_holdWith, if_pos rfl]
  refine ⟨rfl, ?_, mem_insertAll.2 (Or.inl found)⟩
  rw [sec_enter_self]
  rfl

theorem enterState_sensor (bad : s.levelBad i = true) :
    .sensor ∈ (s.enter i dest cause).entryReasons i dest :=
  (mem_entryReasons _ _ _ _).2 (Or.inl ⟨rfl, bad⟩)

theorem enterState_units (short : s.supervisor.short.get i = true) :
    .units ∈ (s.enter i dest cause).entryReasons i dest :=
  (mem_entryReasons _ _ _ _).2 (Or.inr (Or.inl ⟨rfl, short⟩))

theorem passesLiquor_iff (st : SectionState) : st.passesLiquor = true ↔ st = .running ∨ st = .sweeteningOff := by
  cases st <;> simp [SectionState.passesLiquor]

theorem enterState_full {d : SectionId} (passes : dest = .running ∨ dest = .sweeteningOff)
    (down : d ∈ s.downstreamOf i) (full : s.full d = true) :
    .full d ∈ (s.enter i dest cause).entryReasons i dest := by
  have work : dest.working = true := by rcases passes with rfl | rfl <;> rfl
  exact (mem_entryReasons _ _ _ _).2 (Or.inr (Or.inr
    ⟨d, rfl, (passesLiquor_iff _).2 passes, mem_downstreamOf_enter work down, (full_enter ..).trans full⟩))

/-- With no cause of a hold standing, a state entry is the entry alone. -/
theorem enterState_free (valid : s.levelBad i = false) (staffed : s.supervisor.short.get i = false)
    (apart : i ∉ (s.sec i).downstream)
    (room : dest = .running ∨ dest = .sweeteningOff → ∀ d ∈ s.downstreamOf i, s.full d = false) :
    s.enterState i dest cause = s.enter i dest cause := by
  have none : (s.enter i dest cause).entryReasons i dest = [] := by
    refine List.eq_nil_iff_forall_not_mem.2 fun x mem => ?_
    rcases (mem_entryReasons _ _ _ _).1 mem with ⟨-, bad⟩ | ⟨-, short⟩ | ⟨d, -, passes, down, full⟩
    · exact absurd (valid.symm.trans bad) (by simp)
    · exact absurd (staffed.symm.trans short) (by simp)
    · obtain ⟨link, part⟩ := List.mem_filter.1 down
      rw [sec_enter_self] at link
      have ne : d ≠ i := fun self => apart (self ▸ link)
      rw [sec_enter_ne s ne] at part
      have empty := room ((passesLiquor_iff _).1 passes) d (List.mem_filter.2 ⟨link, part⟩)
      exact absurd (empty.symm.trans ((full_enter ..).symm.trans full)) (by simp)
  simp only [State.enterState, none, List.isEmpty_nil, Bool.not_true, Bool.and_false, Bool.false_eq_true,
    if_false]

end

/-- Settles O26: additions by the state of the section, removals by what is left, and entries by the causes. -/
theorem reasonsHoldAndReleaseSections : Obligations.ReasonsHoldAndReleaseSections := by
  refine ⟨fun r => ⟨rfl, fun x mem => ?_, fun g => (mem_takes_iff _).symm, takes_full_iff r⟩,
    fun s i r => ⟨addReason_none, fun takes new => ⟨mem_holds_addReason takes new, state_addReason takes new,
        reports_addReason takes new, ⟨_, rfl, fun held => ?_, fun free => ⟨?_, ?_⟩⟩, fun held => ?_, fun free => ?_⟩,
      fun cause absent => ?_, fun cause held others => ⟨?_, ?_, fun enabled => ?_⟩,
      fun cause back held alone source => ?_⟩,
    fun s d => ⟨full_iff_process, full_iff_storage⟩, fun s i dest cause mem => ?_⟩
  · simp only [List.mem_cons, List.not_mem_nil, or_false] at mem
    rcases mem with rfl | rfl | rfl | rfl <;> exact (mem_takes_iff _).symm
  · rw [sec_addReason_held takes new held, addReason_held takes new held]
    rfl
  · rw [sec_addReason_free takes new free, addReason_free takes new free]
    rfl
  · rw [sec_addReason_free takes new free]
    rfl
  · rw [sec_addReason_held takes new held]
    exact ⟨rfl, rfl⟩
  · rw [sec_addReason_free takes new free]
    exact ⟨rfl, rfl, rfl, rfl⟩
  · simp [State.removeReason, absent]
  · rw [removeReason_of_others cause held others, State.sec_report, State.sec_setSec_self]
    rfl
  · rw [removeReason_of_others cause held others]
    rfl
  · rw [removeReason_of_others cause held others]
    exact report_mem (s := s.setSec i _) enabled
  · exact removeReason_of_alone cause held alone source
  · have work := (mem_working_iff dest).1 mem
    refine ⟨fun stands => ?_, fun passes d down full => enterState_held work (enterState_full passes down full),
      enterState_free⟩
    have sensor (bad : s.levelBad i = true) := enterState_held work (enterState_sensor (cause := cause) bad)
    have units (short : s.supervisor.short.get i = true) :=
      enterState_held work (enterState_units (cause := cause) short)
    have held := stands.elim (fun bad => And.intro (sensor bad).1 (sensor bad).2.1)
      fun short => And.intro (units short).1 (units short).2.1
    exact ⟨held.1, held.2, fun bad => (sensor bad).2.2, fun short => (units short).2.2⟩

/-! ### HOLD (R103) -/

theorem sec_conclude (s : State) (t : Telegram) (v : Verdict) (i : SectionId) :
    (s.conclude t v).sec i = s.sec i := by
  cases v <;> rfl

theorem takes_host_of_not_noHold {r : Section} (h : r.state.noHold = false) : r.takes .host = true := by
  cases e : r.state <;> simp_all [SectionState.noHold, Section.takes, SectionState.working]

/-- An accepted HOLD leaves the section HELD with HOST, held from the state it was in. -/
theorem hostHeld_addReason {s : State} {i : SectionId} (law : (s.sec i).holdLaw)
    (takes : (s.sec i).takes .host = true) :
    (s.addReason i .host).hostHeld i
      (if (s.sec i).state = .held then (s.sec i).heldFrom else some (s.sec i).state) := by
  by_cases held : (s.sec i).state = .held
  · rw [if_pos held]
    by_cases has : .host ∈ (s.sec i).holds
    · rw [addReason_none (Or.inr has)]
      exact ⟨held, has, rfl⟩
    · rw [State.hostHeld, sec_addReason_held takes has held]
      exact ⟨held, mem_insertReason.2 (Or.inl rfl), rfl⟩
  · rw [if_neg held]
    have new : .host ∉ (s.sec i).holds := fun has => held (law.1.2 (List.ne_nil_of_mem has))
    rw [State.hostHeld, sec_addReason_free takes new held]
    exact ⟨rfl, mem_insertReason.2 (Or.inl rfl), rfl⟩

/-- Settles O24: the addition of HOST, and no cascade that takes it away. -/
theorem holdLeavesSectionHeld : Obligations.HoldLeavesSectionHeld := by
  refine fun s t id h => ⟨fun none => refused_of_owner rfl h (by simp only [holdOrder, none]),
    fun i named => ⟨fun resting => ?_, fun up served held => ?_⟩⟩
  · have bars : (s.sec i).state.noHold = true := by rcases resting with e | e | e <;> rw [e] <;> rfl
    exact refused_of_owner rfl h (by simp only [holdOrder, named, bars, if_true])
  · have here := ((named_eq_some_iff _ _ _).1 named).2
    have bars : (s.sec i).state.noHold = false := by
      cases e : (s.sec i).state <;> simp_all [SectionState.noHold]
    have accepted : s.acceptedAs .hold t (s.addReason i .host).settle :=
      accepted_of_owner rfl h (by simp only [holdOrder, named, bars, Bool.false_eq_true, if_false])
    refine ⟨accepted, fun has idle => ?_, fun law => ⟨_, accepted, ?_⟩⟩
    · rwa [addReason_none (Or.inr has), settle_idle idle] at accepted
    · rw [sec_conclude]
      exact HostHeld.settle (hostHeld_addReason law (takes_host_of_not_noHold bars))

end Sys2Proof.Machine

/-! The settings orders, the staging of a site part, and the timed events (R34, R43, R44, R51, R54, R64, R65,
R109, R116, R165, R173). -/

namespace Sys2Proof.Machine

/-! ### Limits, ceilings, timing and capture -/

theorem limitsInRange_iff (r : Section) (l : Limits) (ceiling : Nat) : limitsInRange r l ceiling = true ↔
    5 ≤ l.hysteresis ∧ l.hysteresis ≤ 100 ∧ l.empty + l.hysteresis < l.fillDone ∧ l.fillDone < l.high ∧
      l.high ≤ 1000 ∧ l.sweetOff < l.sweetOn ∧ l.sweetOn ≤ 850 ∧
      (r.cls = .process ∨ ceiling ≤ r.nativeCeiling.getD 0) := by
  simp [limitsInRange, and_assoc]

theorem process_iff_not_storage (cls : SectionClass) : cls = .process ↔ ¬ cls = .storage := by
  cases cls <;> simp

/-- Settles O30: SET LIMITS by the range of its limits, LIFT CEILING by class and campaign. -/
theorem limitsAndCeilingAreSet : Obligations.LimitsAndCeilingAreSet := by
  refine ⟨fun s t id l ceiling h => ⟨fun none => refused_of_owner rfl h (by simp only [limitsOrder, none]),
      fun i named => ⟨fun wrong => ?_, fun low high empty full top off on => ⟨fun cls => ?_, fun cls le => ?_⟩⟩⟩,
    fun s t id h => ⟨fun none => refused_of_owner rfl h (by simp only [liftOrder, none]),
      fun i named => ⟨fun cls => ?_, fun cls closed => ?_, fun cls going => ?_⟩⟩⟩
  · have outside : ¬ limitsInRange (s.sec i) l ceiling = true := by
      rw [limitsInRange_iff, process_iff_not_storage]
      grind
    exact refused_of_owner rfl h (by simp only [limitsOrder, named, if_neg outside])
  · have inside := (limitsInRange_iff (s.sec i) l ceiling).2 ⟨low, high, empty, full, top, off, on, Or.inl cls⟩
    refine accepted_of_owner rfl h ?_
    simp only [limitsOrder, named, if_pos inside, Section.withLimits, cls, reduceCtorEq, if_false]
  · have inside := (limitsInRange_iff (s.sec i) l ceiling).2 ⟨low, high, empty, full, top, off, on, Or.inr le⟩
    refine accepted_of_owner rfl h ?_
    simp only [limitsOrder, named, if_pos inside, Section.withLimits, cls, if_true]
  · exact refused_of_owner rfl h (by simp only [liftOrder, named, if_pos cls])
  all_goals have storage : ¬ (s.sec i).cls = .process := by simp [cls]
  · exact refused_of_owner rfl h (by simp only [liftOrder, named, if_neg storage, if_pos closed])
  · exact accepted_of_owner rfl h (by simp only [liftOrder, named, if_neg storage, if_neg going])

theorem demandFree_iff (r : Section) : r.demandFree = true ↔
    r.state = .cold ∨ r.state = .excluded ∨ r.state = .laidUp ∨ .restart ∈ r.holds := by
  simp [Section.demandFree, or_assoc]

/-- Settles O31: SET TIMING by its range, then by whether the demand may change. -/
theorem setTimingReplacesTiming : Obligations.SetTimingReplacesTiming := by
  refine fun s t id time demand h => ⟨fun none => refused_of_owner rfl h (by simp only [timingOrder, none]),
    fun i named => ⟨fun wrong => refused_of_owner rfl h (by simp only [timingOrder, named, if_pos wrong]),
      fun short light cls => ?_⟩⟩
  have inside : ¬ (7200 < time ∨ 63 < demand ∨ ((s.sec i).cls = .storage ∧ demand ≠ 0)) := by
    rw [process_iff_not_storage] at cls
    grind
  refine ⟨fun ne cold excluded laidUp free => ?_, fun may => ?_⟩
  · have fixed : (s.sec i).demandFree = false := by
      rw [← Bool.not_eq_true, demandFree_iff]
      exact fun h => h.elim cold fun h => h.elim excluded fun h => h.elim laidUp free
    exact refused_of_owner rfl h (by simp only [timingOrder, named, if_neg inside, if_pos (And.intro ne fixed)])
  · have allowed : ¬ (demand ≠ (s.sec i).demand ∧ (s.sec i).demandFree = false) := by
      rintro ⟨ne, fixed⟩
      exact absurd ((demandFree_iff _).2 (may.resolve_left ne)) (by simp [fixed])
    exact accepted_of_owner rfl h (by simp only [timingOrder, named, if_neg inside, if_neg allowed])

/-- Settles O33: SET CAPTURE by the section it names. -/
theorem setCaptureArmsEmptiedRing : Obligations.SetCaptureArmsEmptiedRing := by
  refine fun s t id mode fill h => ⟨fun le => ?_, fun i e => ⟨fun absent => ?_, fun here => ?_⟩⟩
  · exact refused_of_owner rfl h (by simp only [captureOrder, named_of_le le])
  · exact refused_of_owner rfl h (by simp only [captureOrder, named_of_absent e absent])
  · exact accepted_of_owner rfl h (by simp only [captureOrder, named_of_eq e here]; rfl)

/-! ### SET REPORTING and WRITE SITE PART -/

/-- Settles O51: SET REPORTING is always accepted. -/
theorem setReportingSetsMaskAndLimits : Obligations.SetReportingSetsMaskAndLimits := fun _ _ _ _ _ _ _ _ _ _ h =>
  accepted_of_owner rfl h rfl

/-- Settles O49: WRITE SITE PART by the campaign and the part's number, its first byte. -/
theorem writeSitePartStagesPart : Obligations.WriteSitePartStagesPart := by
  refine fun s t b bs h => ⟨fun going => ?_, fun closed le => ?_, fun k closed e => ?_⟩
  · exact refused_of_owner rfl h (by simp only [sitePartOrder, if_pos going])
  all_goals have rests : ¬ s.campaign.state ≠ .closed := not_not.2 closed
  · refine refused_of_owner rfl h ?_
    simp only [sitePartOrder, if_neg rests, List.head?_cons, Option.getD_some, idOf_of_le le]
  · refine accepted_of_owner rfl h ?_
    simp only [sitePartOrder, if_neg rests, List.head?_cons, Option.getD_some, idOf_of_eq e]

/-! ### The section-level SET MODE (R54) -/

theorem modeOf_eq (n : Nat) : modeOf n = if n = 0 then .auto else .manual := rfl

/-- A section turned to a mode, with its SECTION report. -/
def State.turned (s : State) (i : SectionId) (m : Mode) : State :=
  (s.setSec i { s.sec i with mode := m }).report (.sec i)

theorem sec_turned (s : State) (i : SectionId) (m : Mode) : (s.turned i m).sec i = { s.sec i with mode := m } := by
  rw [State.turned, State.sec_report, State.sec_setSec_self]

/-- The mode of a section stands through the re-examination and its cascade. -/
theorem mode_turned (s : State) (i : SectionId) (m : Mode) :
    ((((s.turned i m).reexamine i .modeChange).settle).sec i).mode = m := by
  have frame := ((reexamine_moves (s.turned i m) i .modeChange).trans (settle_moves _)).frame
  obtain ⟨_, _, _, _, _, _, mode, _⟩ := frame.settings i
  rw [mode, sec_turned]

theorem setMode_turns {s : State} {t : Telegram} {id setting : Nat} {i : SectionId}
    (h : s.taking .setModeSection t (.mode 0 id setting)) (named : s.named id = some i)
    (other : (s.sec i).mode ≠ modeOf setting) : s.acceptedAs .setModeSection t
      (((s.turned i (modeOf setting)).reexamine i .modeChange).settle) :=
  accepted_of_owner rfl h (by simp only [modeOrder, named, if_neg other]; rfl)

/-- A section turned to MANUAL takes no step: at most it asks for steam. -/
theorem reexamine_manual (s : State) (i : SectionId) {why : Why} (manual : (s.sec i).mode = .manual) :
    ((s.sec i).state = .filling → (s.sec i).cls = .process → s.reexamine i why = s.fillDoneRequest i) ∧
    ((s.sec i).state ≠ .filling ∨ (s.sec i).cls = .storage → s.reexamine i why = s) := by
  refine ⟨fun state cls => ?_, fun other => ?_⟩
  · exact reexamine_waits (dest := .conditioning) (by rw [state, cls]; rfl) (Or.inl manual)
  · cases step : nextStep (s.sec i).cls (s.sec i).state with
    | none => exact reexamine_none step
    | some dest =>
      rw [reexamine_waits step (Or.inl manual)]
      refine fillDoneRequest_other fun filling => ?_
      rcases other with ne | storage
      · exact ne filling
      · rw [filling, storage] at step
        exact absurd step (by simp [nextStep])

/-- Settles O32: SET MODE by the mode the section is in. -/
theorem setModeTurnsSection : Obligations.SetModeTurnsSection := by
  refine fun s t id setting h => ⟨fun none => refused_of_owner rfl h (by simp only [modeOrder, none]),
    fun i named => ⟨fun same => ?_, fun auto manual => ?_, fun manual auto => ?_⟩⟩
  · have kept : (s.sec i).mode = modeOf setting := by
      rcases same with ⟨rfl, e⟩ | ⟨rfl, e⟩ <;> exact e
    exact accepted_of_owner rfl h (by simp only [modeOrder, named, if_pos kept])
  · subst auto
    have accepted := setMode_turns h named (by rw [manual]; simp [modeOf])
    exact ⟨_, accepted, mode_turned s i .auto, rfl⟩
  · subst manual
    have accepted := setMode_turns h named (by rw [auto]; simp [modeOf])
    refine ⟨_, accepted, mode_turned s i .manual, _, rfl, rfl, fun state cls idle => ?_, fun other idle => ?_⟩
    all_goals
      have own := sec_turned s i .manual
      obtain ⟨asks, stays⟩ := reexamine_manual (s.turned i .manual) i (why := .modeChange) (by rw [own])
      rw [own] at asks stays
    · have looked := asks state cls
      rw [fillDoneRequest_eq, own] at looked
      refine (congrArg State.settle looked).trans ?_
      rw [apply_ite State.settle, settle_idle (s := s.turned i .manual) idle]
      exact if_congr (and_iff_right state) rfl rfl
    · exact (congrArg State.settle (stays other)).trans (settle_idle idle)

/-! ### Timed events (R64, R116) -/

section

variable {s : State} (on : s.powered = true)
include on

theorem exec_conditioningExpiry (i : SectionId) : exec (.conditioningExpiry i.val) s =
    .next (if s.expires i then (s.reexamine i .expiry).settle else s) := by
  simp only [exec, execConditioningExpiry, idOf_val, powering_on on]

theorem exec_lagCompletion (i u : SectionId) : exec (.lagCompletion i.val u.val) s =
    .next (if s.lagCompletes i u then (s.reexamine i .expiry).settle else s) := by
  simp only [exec, execLagCompletion, idOf_val, powering_on on]

/-- An event with no occasion, or one that the section takes no step at, changes nothing. -/
theorem conditioningExpiry_none {i : SectionId} (h : s.expires i = true → (s.reexamine i .expiry).settle = s) :
    exec (.conditioningExpiry i.val) s = .next s := by
  rw [exec_conditioningExpiry on]
  split
  next expires => rw [h expires]
  next => rfl

theorem lagCompletion_none {i u : SectionId} (h : s.lagCompletes i u = true → (s.reexamine i .expiry).settle = s) :
    exec (.lagCompletion i.val u.val) s = .next s := by
  rw [exec_lagCompletion on]
  split
  next completes => rw [h completes]
  next => rfl

end

theorem expires_iff (s : State) (i : SectionId) : s.expires i = true ↔ (s.sec i).state = .conditioning ∧
    (∃ d ∈ (s.sec i).deadline, d ≤ s.campaign.clock) ∧ (s.sec i).enteredAt < s.campaign.clock := by
  simp only [State.expires, Bool.and_eq_true, beq_iff_eq, timerRun_iff, decide_eq_true_eq, and_assoc]
  rfl

theorem lagCompletes_iff (s : State) (i u : SectionId) : s.lagCompletes i u = true ↔
    (s.sec i).state = .running ∧ ∃ l ∈ s.upstreamOf i, l.id = u ∧ s.windDownClear u = true ∧
      (s.sec u).phaseSince + l.lag ≤ s.campaign.clock := by
  simp only [State.lagCompletes, Bool.and_eq_true, beq_iff_eq, List.any_eq_true, lagRun_iff, and_assoc]
  refine and_congr_right fun _ => exists_congr fun l => and_congr_right fun _ => and_congr_right fun e => ?_
  rw [e]

/-- A MANUAL section outside FILLING takes a re-examination without effect. -/
theorem reexamine_manual_settle {s : State} {i : SectionId} (why : Why) (manual : (s.sec i).mode = .manual)
    (state : (s.sec i).state ≠ .filling) (idle : s.work = []) : (s.reexamine i why).settle = s := by
  rw [(reexamine_manual s i manual).2 (Or.inl state), settle_idle idle]

/-- Settles O34: the occasions of the two events, and the step each brings. -/
theorem timedEventsReexamineSection : Obligations.TimedEventsReexamineSection := by
  refine fun s on idle i u => ⟨fun state cls auto due late => ?_, fun state manual => ?_, fun other => ?_,
    fun early => ?_, fun entered => ?_, fun l mem e clear run state cls auto permit => ?_, fun manual => ?_,
    fun other => ?_, fun early => ?_⟩
  · have expires := (expires_iff s i).2 ⟨state, due, late⟩
    have permit : s.failing i = [] := by rw [failing_of_conditioning state, listed_nil]; exact due
    rw [exec_conditioningExpiry on, if_pos expires, reexamine_takes (dest := .circulating)
      (by rw [state, cls]; rfl) auto permit rfl]
    rfl
  · exact conditioningExpiry_none on fun _ => reexamine_manual_settle _ manual (by simp [state]) idle
  · exact conditioningExpiry_none on fun expires => absurd ((expires_iff s i).1 expires).1 other
  · refine conditioningExpiry_none on fun expires => ?_
    obtain ⟨-, ⟨d, mem, le⟩, -⟩ := (expires_iff s i).1 expires
    exact absurd le (Nat.not_le.2 (early d mem))
  · exact conditioningExpiry_none on fun expires =>
      absurd ((expires_iff s i).1 expires).2.2 (Nat.not_lt.2 entered)
  · have completes := (lagCompletes_iff s i u).2 ⟨state, l, mem, e, (windDownClear_iff s u).2 clear, run⟩
    rw [exec_lagCompletion on, if_pos completes, reexamine_takes (dest := .sweeteningOff)
      (by rw [state, cls]; rfl) auto permit (by rw [state]; rfl)]
    rfl
  · refine lagCompletion_none on fun completes => reexamine_manual_settle _ manual ?_ idle
    rw [((lagCompletes_iff s i u).1 completes).1]
    simp
  · exact lagCompletion_none on fun completes => absurd ((lagCompletes_iff s i u).1 completes).1 other
  · refine lagCompletion_none on fun completes => ?_
    obtain ⟨-, l, mem, e, -, run⟩ := (lagCompletes_iff s i u).1 completes
    exact absurd run (Nat.not_le.2 (early l mem e))

end Sys2Proof.Machine

/-! CLOSE CAMPAIGN and RESUME CAMPAIGN: the mapping, and the campaign record through the cascade behind it
(R21, R23, R86, R112, R113, R114). -/

namespace Sys2Proof.Machine

/-! ### The mapping of one section (R112, R113) -/

theorem mapSection_free {s : State} {i : SectionId} (free : (s.sec i).state ≠ .held) : s.mapSection i =
    if windDownState (s.sec i).cls (s.sec i).phase (s.sec i).state = (s.sec i).state then s
    else s.enterState i (windDownState (s.sec i).cls (s.sec i).phase (s.sec i).state) .campaign := by
  cases e : (s.sec i).state
  case held => exact absurd e free
  case cold | filling | conditioning | circulating => simp only [State.mapSection, e]
  all_goals simp only [State.mapSection, e, windDownState, if_true]

theorem mapSection_held_none {s : State} {i : SectionId} (held : (s.sec i).state = .held)
    (none : (s.sec i).heldFrom = none) : s.mapSection i = s := by
  simp only [State.mapSection, held, none, Option.map_none, if_true]

theorem mapSection_held {s : State} {i : SectionId} {back : SectionState} (held : (s.sec i).state = .held)
    (source : (s.sec i).heldFrom = some back) : s.mapSection i =
      if windDownState (s.sec i).cls (s.sec i).phase back = back then s
      else (s.setSec i { s.sec i with
        heldFrom := some (windDownState (s.sec i).cls (s.sec i).phase back) }).report (.sec i) := by
  simp only [State.mapSection, held, source, Option.map_some, Option.some.injEq]

/-- The state that the mapping maps: a HELD section's held-from, any other section's state. -/
def Section.mapsFrom (r : Section) (st : SectionState) : Prop :=
  (r.state ≠ .held ∧ st = r.state) ∨ (r.state = .held ∧ r.heldFrom = some st)

theorem mappedOff_iff (r : Section) : r.mappedOff = true ↔ ∃ st, r.mapsFrom st ∧
    windDownState r.cls r.phase st ≠ st ∧
    (windDownState r.cls r.phase st = .draining ∨ windDownState r.cls r.phase st = .laidUp) := by
  unfold Section.mappedOff Section.mapsFrom
  by_cases held : r.state = .held
  · cases r.heldFrom <;> simp [held]
  · simp [held]

/-! ### The allocator's one change (R86) -/

theorem mapped_none {now : Nat} {off : List SectionId} {st : Steam}
    (h : ∀ c ∈ st.claims ++ st.queue, c.sec ∉ off) : st.mapped now off = (st, []) := by
  refine if_neg fun some => ?_
  obtain ⟨i, mem, listed⟩ := List.any_eq_true.1 some
  rw [← hasClaim_append, hasClaim_iff] at listed
  obtain ⟨c, own, rfl⟩ := List.mem_map.1 listed
  exact h c own mem

theorem mapped_some {now : Nat} {off : List SectionId} {st cleared : Steam}
    (e : cleared = { st with
      claims := st.claims.filter fun c => decide (c.sec ∉ off)
      queue := st.queue.filter fun c => decide (c.sec ∉ off) })
    (h : ∃ c ∈ st.claims ++ st.queue, c.sec ∈ off) : st.mapped now off = ((cleared.grantPass now).1,
      (off.filter fun i => decide (∃ c ∈ st.queue, c.sec = i)).map .lift ++ (cleared.grantPass now).2) := by
  obtain ⟨c, own, mem⟩ := h
  have some : (off.any fun i => hasClaim i st.claims || hasClaim i st.queue) = true := by
    refine List.any_eq_true.2 ⟨c.sec, mem, ?_⟩
    rw [← hasClaim_append]
    exact hasClaim_of_mem own
  have kept (c : Claim) : (!off.contains c.sec) = decide (c.sec ∉ off) := by
    rw [List.contains_eq_mem, ← decide_not]
  have lifted (i : SectionId) : hasClaim i st.queue = decide (∃ c ∈ st.queue, c.sec = i) := by
    rw [Bool.eq_iff_iff, hasClaim_iff, List.mem_map, decide_eq_true_iff]
  refine (if_pos some).trans ?_
  simp only [Steam.thenPass, kept, lifted, e]

/-! ### What the mapping leaves alone -/

theorem mapped_hostBudget (now : Nat) (off : List SectionId) (st : Steam) :
    (st.mapped now off).1.hostBudget = st.hostBudget := by
  unfold Steam.mapped
  dsimp only
  split <;> rfl

theorem mapSection_frame (s : State) (i : SectionId) : CascadeFrame s (s.mapSection i) := by
  by_cases held : (s.sec i).state = .held
  · cases source : (s.sec i).heldFrom with
    | none =>
      rw [mapSection_held_none held source]
      exact .refl s
    | some back =>
      rw [mapSection_held held source]
      split
      · exact .refl s
      · refine .trans (setSec_frame ?_) (report_frame _ _)
        exact Section.sameSettings_refl (s.sec i)
  · rw [mapSection_free held]
    split
    · exact .refl s
    · exact (enter_frame _ _ _ _).trans (enterState_split _ _ _ _).frame

theorem mapSection_onlySections (s : State) (i : SectionId) : OnlySections s (s.mapSection i) := by
  by_cases held : (s.sec i).state = .held
  · cases source : (s.sec i).heldFrom with
    | none =>
      rw [mapSection_held_none held source]
      exact .refl s
    | some back =>
      rw [mapSection_held held source]
      split
      · exact .refl s
      · exact (setSec_onlySections _ _ _).trans (report_onlySections _ _)
  · rw [mapSection_free held]
    split
    · exact .refl s
    · exact enterState_onlySections _ _ _ _

/-- The campaign's record and the mark writes stand as they were. -/
structure SameCampaign (s t : State) : Prop where
  campaign : t.campaign = s.campaign
  site : t.site = s.site

theorem SameCampaign.trans {s t u : State} (h : SameCampaign s t) (k : SameCampaign t u) : SameCampaign s u :=
  ⟨k.campaign.trans h.campaign, k.site.trans h.site⟩

theorem SameCampaign.ofSections {s t : State} (h : OnlySections s t) : SameCampaign s t := ⟨h.campaign, h.site⟩

/-- What every element of a list keeps, a fold over it keeps. -/
theorem fold_keeps {β : Type} {R : State → State → Prop} (refl : ∀ s, R s s)
    (trans : ∀ {s t u}, R s t → R t u → R s u) {f : State → β → State} (h : ∀ s b, R s (f s b)) (l : List β)
    (s : State) : R s (l.foldl f s) := by
  induction l generalizing s with
  | nil => exact refl s
  | cons b l ih => exact trans (h s b) (ih _)

theorem shuffle_frame {α : Type} (l : List α) (s : State) : CascadeFrame s (State.shuffle l s).2 := by
  rw [shuffle_eq]
  exact order_frame _ _ _

theorem mapSections_frame (s : State) : CascadeFrame s s.mapSections :=
  (shuffle_frame _ s).trans ((fold_keeps .refl .trans mapSection_frame _ _).trans
    (steamChange_moves (mapped_hostBudget _ _ _) (mapped_law _ _)).frame)

theorem steamChange_sameCampaign (s : State) (f : Steam → Steam × List SteamNotice) :
    SameCampaign s (s.steamChange f) := by
  have put : SameCampaign s (s.putSteam (f s.steam).1) := by
    unfold State.putSteam
    split <;> exact ⟨rfl, rfl⟩
  exact put.trans (.ofSections (notices_onlySections _ _))

theorem mapSections_sameCampaign (s : State) : SameCampaign s s.mapSections := by
  have drawn : SameCampaign s (State.shuffle (allIds 24) s).2 := by
    rw [shuffle_eq]
    exact ⟨rfl, rfl⟩
  exact drawn.trans ((fold_keeps (R := SameCampaign) (fun _ => ⟨rfl, rfl⟩) .trans
    (fun s i => .ofSections (mapSection_onlySections s i)) _ _).trans (steamChange_sameCampaign _ _))

theorem putUnits_sameCampaign (s : State) (us : UnitSupervisor) : SameCampaign s (s.putUnits us) := by
  unfold State.putUnits
  dsimp only
  rw [reportAll_eq]
  exact ⟨rfl, rfl⟩

theorem takeRunDemand_sameCampaign (s : State) (i : SectionId) : SameCampaign s (s.takeRunDemand i) := by
  have put := putUnits_sameCampaign { s with work := s.work.erase (.runDemand i) }
  exact ⟨(put _).campaign, (put _).site⟩

theorem windDownMapping_sameCampaign (s : State) : SameCampaign s s.windDownMapping :=
  (mapSections_sameCampaign s).trans
    (fold_keeps (R := SameCampaign) (fun _ => ⟨rfl, rfl⟩) .trans takeRunDemand_sameCampaign _ _)

theorem windDown_frame (s : State) : CascadeFrame s s.windDown :=
  (mapSections_frame s).trans ((takeRunDemands_moves _).trans (closingTest_moves _)).frame |>.trans
    (handAll_frame _ _)

/-! ### The stages of the mapping (R114) -/

theorem mapSections_spec (s : State) : ∃ (secs off : List SectionId) (start : State),
    secs.Nodup ∧ (∀ i, i ∈ secs) ∧ start = { s with order := start.order, drawn := start.drawn } ∧
    off.Pairwise (· < ·) ∧
    (∀ i, i ∈ off ↔ ∃ st, (s.sec i).mapsFrom st ∧
      windDownState (s.sec i).cls (s.sec i).phase st ≠ st ∧
      (windDownState (s.sec i).cls (s.sec i).phase st = .draining ∨
        windDownState (s.sec i).cls (s.sec i).phase st = .laidUp)) ∧
    s.mapSections = (secs.foldl State.mapSection start).steamChange (Steam.mapped s.campaign.clock off) := by
  have perm := shuffle_perm (allIds 24) s
  refine ⟨_, _, _, perm.nodup_iff.2 (List.nodup_finRange 24), fun i => perm.mem_iff.2 (List.mem_finRange i),
    shuffle_eq _ _, (List.pairwise_lt_finRange 24).filter _, fun i => ?_, rfl⟩
  rw [List.mem_filter, mappedOff_iff]
  exact and_iff_right (List.mem_finRange i)

theorem takeRunDemands_spec (s : State) : ∃ entered : List SectionId,
    entered.map Delivery.runDemand = s.work.filter (fun w => decide (∃ i, w = .runDemand i)) ∧
    s.takeRunDemands = entered.foldl (fun x i =>
      ({ x with work := x.work.erase (.runDemand i) } : State).runDelivery (.runDemand i)) s := by
  refine ⟨_, ?_, rfl⟩
  induction s.work with
  | nil => rfl
  | cons w rest ih => cases w <;> simp [List.filterMap_cons, Delivery.demanded, ih]

theorem turnToWindDown_eq (s : State) : s.turnToWindDown =
    (((({ s with campaign := { s.campaign with state := .windingDown, pendingMark := some .windingDown } } :
      State).requestMark .windingDown).report .campaign).windDown) := rfl

theorem resumeTo_windingDown (s : State) : s.resumeTo .windingDown =
    (((({ s with campaign := { s.campaign with
      state := .windingDown, resume := none, pendingMark := some .windingDown } } :
      State).requestMark .windingDown).report .campaign).windDown) := rfl

/-- The campaign resumed to OPEN, before the re-examinations. -/
def State.resumed (s : State) : State :=
  (({ s with campaign := { s.campaign with
    state := .opened, resume := none, pendingMark := some .opened } } : State).requestMark .opened).report .campaign

theorem resumeTo_opened (s : State) : s.resumeTo .opened = s.resumed.reexamineAll := rfl

/-! ### The campaign record through a cascade -/

/-- The campaign is winding down with that mark pending, or has closed with the CLOSED mark pending. -/
def State.winding (lock : Bool) (s : State) : Prop :=
  (s.campaign.state = .windingDown ∧ s.campaign.lock = lock ∧ s.campaign.pendingMark = some .windingDown) ∨
  (s.campaign.state = .closed ∧ s.campaign.lock = false ∧ s.campaign.pendingMark = some .closed)

theorem move_winding {lock : Bool} {s t : State} (m : Move s t) (h : s.winding lock) : t.winding lock := by
  cases m
  case close down finished =>
    obtain ⟨-, -, pending⟩ | ⟨closed, -⟩ := h
    · refine Or.inr ⟨rfl, rfl, ?_⟩
      show s.campaign.pendingMark.map (fun _ => Mark.closed) = some .closed
      rw [pending]
      rfl
    · exact absurd (closed.symm.trans down) (by simp)
  all_goals exact h

theorem windDown_winding {lock : Bool} {s : State} (h : s.winding lock) : s.windDown.winding lock := by
  have same : s.windDownMapping.winding lock := by
    unfold State.winding
    rw [(windDownMapping_sameCampaign s).campaign]
    exact h
  exact ((closingTest_moves _).trans (handAll_moves _ _)).keep (fun _ _ => move_winding) same

theorem settle_winding {lock : Bool} {s : State} (h : s.winding lock) : s.settle.winding lock :=
  (settle_moves s).keep (fun _ _ => move_winding) h

/-- A campaign that is not winding down keeps its state, its lock and its pending mark. -/
def State.running (state : CampaignState) (lock : Bool) (pending : Option Mark) (site : SiteService)
    (s : State) : Prop :=
  s.campaign.state = state ∧ s.campaign.lock = lock ∧ s.campaign.pendingMark = pending ∧ s.site = site

theorem move_running {state : CampaignState} (going : state ≠ .windingDown) {lock : Bool} {pending : Option Mark}
    {site : SiteService} {s t : State} (m : Move s t) (h : s.running state lock pending site) :
    t.running state lock pending site := by
  cases m
  case close down finished => exact absurd (h.1.symm.trans down) going
  all_goals exact h

theorem settle_running {state : CampaignState} (going : state ≠ .windingDown) {lock : Bool}
    {pending : Option Mark} {site : SiteService} {s : State} (h : s.running state lock pending site) :
    s.settle.running state lock pending site := (settle_moves s).keep (fun _ _ => move_running going) h

/-! ### CLOSE CAMPAIGN (R21) -/

theorem turnToWindDown_frame (s : State) : CascadeFrame s s.turnToWindDown := by
  rw [turnToWindDown_eq]
  refine .trans (.trans (.trans ?_ (requestMark_frame _ _)) (report_frame _ _)) (windDown_frame _)
  exact campaign_frame rfl rfl rfl rfl

theorem turnToWindDown_winding (s : State) : s.turnToWindDown.winding s.campaign.lock :=
  windDown_winding (Or.inl ⟨rfl, rfl, rfl⟩)

theorem closeCampaign_winds {s : State} {t : Telegram} (h : s.taking .closeCampaign t .nothing)
    (opened : s.campaign.state = .opened) :
    s.waitsAs .closeCampaign t s.turnToWindDown.settle .campaignController :=
  waits_of_owner rfl h (by simp only [closeOrder, if_pos opened])

/-- Settles O14: the order, the mapping of one section, the allocator's change, and the stages in turn. -/
theorem closeCampaignWindsDown : Obligations.CloseCampaignWindsDown := by
  refine ⟨fun s t h => ⟨fun other => ?refused, fun opened => ?accepted⟩,
    fun s i => ⟨mapSection_free, fun held => ⟨mapSection_held_none held, fun back => mapSection_held held⟩⟩,
    fun now off st cleared e => ⟨mapped_none, mapped_some e⟩, mapSections_spec, takeRunDemands_spec,
    fun s => ⟨_, _, rfl, mem_partaking_looks _, rfl⟩, turnToWindDown_eq, fun cls p => ?table⟩
  case refused => exact refused_of_owner rfl h (by simp only [closeOrder, if_neg other])
  case accepted =>
    have waits := closeCampaign_winds h opened
    have frame := (turnToWindDown_frame s).trans (settle_frame _)
    have winds := settle_winding (turnToWindDown_winding s)
    refine ⟨waits, _, waits, ?_⟩
    generalize s.turnToWindDown.settle = u at frame winds
    rw [conclude_waits, frame.link]
    exact ⟨frame.clock, rfl, rfl, rfl, winds⟩
  case table =>
    refine ⟨fun st mem => ?_, rfl, rfl, fun st mem => ?_, rfl⟩
    · simp only [List.mem_cons, List.not_mem_nil, or_false] at mem
      rcases mem with rfl | rfl | rfl | rfl | rfl | rfl <;> rfl
    · simp only [List.mem_cons, List.not_mem_nil, or_false] at mem
      rcases mem with rfl | rfl <;> exact ⟨rfl, rfl, rfl⟩

/-! ### RESUME CAMPAIGN (R23) -/

theorem restartLeft_iff (s : State) : s.restartLeft = true ↔ ∃ i, .restart ∈ (s.sec i).holds := by
  simp [State.restartLeft]

/-- The campaign with its resume target taken, all else as it was. -/
def State.unresumed (s : State) : State := { s with campaign := { s.campaign with resume := none } }

theorem resumeTo_frame (s : State) (m : Mark) : CascadeFrame s.unresumed (s.resumeTo m) := by
  have asked : CascadeFrame s.unresumed ((({ s with campaign := { s.campaign with
      state := m.campaign, resume := none } } : State).awaitMark m).report .campaign) := by
    refine .trans (.trans ?_ (requestMark_frame _ _)) (report_frame _ _)
    exact campaign_frame (s := s.unresumed) rfl rfl rfl rfl
  cases m
  case windingDown => exact asked.trans (windDown_frame _)
  all_goals exact asked.trans (handAll_frame _ _)

theorem resumeTo_opened_settles (s : State) :
    (s.resumeTo .opened).settle.running .opened s.campaign.lock (some .opened) s.resumed.site :=
  settle_running (by simp) ⟨rfl, rfl, rfl, rfl⟩

theorem resumeTo_windingDown_settles (s : State) : (s.resumeTo .windingDown).settle.winding s.campaign.lock :=
  settle_winding (windDown_winding (Or.inl ⟨rfl, rfl, rfl⟩))

/-- Settles O15: the order's checks, and the campaign resumed to its target. -/
theorem resumeCampaignTakesItsTarget : Obligations.ResumeCampaignTakesItsTarget := by
  refine ⟨fun s => ⟨resumeTo_windingDown s, _, _, rfl, mem_partaking_looks s, ?_⟩, fun s t h =>
    ⟨fun other => ?_, fun restoring left => ?_, fun m restoring clear target => ?_⟩⟩
  · rw [resumeTo_opened, reexamineAll_eq]
    rfl
  · exact refused_of_owner rfl h (by simp only [resumeOrder, if_neg other])
  · exact refused_of_owner rfl h (by
      simp only [resumeOrder, if_pos restoring, if_pos ((restartLeft_iff s).2 left)])
  · have none : ¬ s.restartLeft = true := fun left => by
      obtain ⟨i, mem⟩ := (restartLeft_iff s).1 left
      exact clear i mem
    have waits : s.waitsAs .resumeCampaign t (s.resumeTo m).settle .campaignController :=
      waits_of_owner rfl h (by simp only [resumeOrder, if_pos restoring, if_neg none, target])
    have frame := (resumeTo_frame s m).trans (settle_frame _)
    have opened (e : m = .opened) :
        (s.resumeTo m).settle.running .opened s.campaign.lock (some .opened) s.resumed.site := by
      rw [e]
      exact resumeTo_opened_settles s
    have winds (e : m = .windingDown) : (s.resumeTo m).settle.winding s.campaign.lock := by
      rw [e]
      exact resumeTo_windingDown_settles s
    refine ⟨waits, _, waits, ?_⟩
    generalize (s.resumeTo m).settle = u at frame opened winds
    rw [conclude_waits]
    refine ⟨frame.clock, frame.resume, fun e => ?_, fun e => ?_⟩
    · obtain ⟨state, lock, pending, -⟩ := opened e
      exact ⟨state, lock, pending⟩
    · exact (winds e).imp (fun ⟨state, _, pending⟩ => ⟨state, pending⟩) fun ⟨state, _, pending⟩ => ⟨state, pending⟩

end Sys2Proof.Machine

/-! OPEN CAMPAIGN (R13, R19, R20, R25, R33, R47): the LAID_UP sections taken to COLD, and every time and
every ring reset. -/

namespace Sys2Proof.Machine

/-! ### Sections taken to COLD -/

theorem enterState_cold (s : State) (i : SectionId) (cause : CaptureCause) :
    s.enterState i .cold cause = s.enter i .cold cause := rfl

/-- Sections taken to COLD, one after another. -/
def State.toCold (s : State) (l : List SectionId) : State := l.foldl (fun t i => t.enterState i .cold .campaign) s

theorem toCold_onlySections (s : State) (l : List SectionId) : OnlySections s (s.toCold l) :=
  fold_keeps (R := OnlySections) .refl .trans (fun _ _ => enterState_onlySections _ _ _ _) l s

theorem sec_toCold (l : List SectionId) (nodup : l.Nodup) (s : State) (j : SectionId) :
    (s.toCold l).sec j = if j ∈ l then (s.sec j).entering s.now .cold .campaign else s.sec j := by
  induction l generalizing s with
  | nil => rfl
  | cons i l ih =>
    obtain ⟨new, nodup⟩ := List.nodup_cons.1 nodup
    have first := ih nodup (s.enterState i .cold .campaign)
    have now : (s.enterState i .cold .campaign).now = s.now :=
      congrArg Campaign.clock (enterState_onlySections _ _ _ _).campaign
    rw [now, enterState_cold] at first
    refine first.trans ?_
    by_cases self : j = i
    · rw [self, if_neg new, if_pos List.mem_cons_self, sec_enter_self]
    · rw [sec_enter_ne s self]
      exact if_congr (by simp [self]) rfl rfl

theorem mask_toCold (s : State) (l : List SectionId) : (s.toCold l).link.mask = s.link.mask := by
  rw [(toCold_onlySections s l).link]

theorem reports_toCold (l : List SectionId) (s : State) (k : ReportKey) : k ∈ (s.toCold l).link.reports ↔
    k ∈ s.link.reports ∨ ∃ i, k = .sec i ∧ i ∈ l ∧ s.link.mask.sec = true := by
  induction l generalizing s with
  | nil => simp [State.toCold]
  | cons i l ih =>
    have entered := mem_report ((s.setSec i ((s.sec i).entering s.now .cold .campaign)).driveRoutes i) (.sec i) k
    have mask : (s.enterState i .cold .campaign).link.mask = s.link.mask := by
      rw [(enterState_onlySections s i .cold .campaign).link]
    refine (ih (s.enterState i .cold .campaign)).trans ?_
    rw [mask]
    refine (or_congr_left entered).trans ?_
    simp only [List.mem_cons, State.driveRoutes_link, State.setSec_link]
    constructor
    · rintro ((old | ⟨e, enabled⟩) | ⟨j, e, mem, enabled⟩)
      · exact Or.inl old
      · exact Or.inr ⟨i, e, Or.inl rfl, enabled⟩
      · exact Or.inr ⟨j, e, Or.inr mem, enabled⟩
    · rintro (old | ⟨j, e, rfl | mem, enabled⟩)
      · exact Or.inl (Or.inl old)
      · exact Or.inl (Or.inr ⟨e, enabled⟩)
      · exact Or.inr ⟨j, e, mem, enabled⟩

/-! ### The stages of OPEN CAMPAIGN -/

/-- The LAID_UP sections, in the order they are taken, and the state with that order drawn. -/
def State.laidUp (s : State) : List SectionId × State :=
  s.shuffle ((allIds 24).filter fun i => (s.sec i).state = .laidUp)

theorem mem_laidUp (s : State) (i : SectionId) : i ∈ s.laidUp.1 ↔ (s.sec i).state = .laidUp := by
  rw [State.laidUp, (shuffle_perm _ s).mem_iff, List.mem_filter, decide_eq_true_iff]
  exact and_iff_right (List.mem_finRange i)

theorem laidUp_nodup (s : State) : s.laidUp.1.Nodup :=
  (shuffle_perm _ s).nodup_iff.2 ((List.nodup_finRange 24).filter _)

theorem laidUp_drawn (s : State) : s.laidUp.2 = { s with order := s.laidUp.2.order, drawn := s.laidUp.2.drawn } :=
  shuffle_eq _ s

/-- The campaign opened, before its mark is asked for. -/
def State.opening (s : State) : State :=
  let cold := s.laidUp.2.toCold s.laidUp.1
  { cold with
    sections := cold.sections.map Section.zeroed
    campaign := { cold.campaign with clock := 0, lock := true, state := .opened } }

theorem openNow_eq (s : State) : s.openNow = ((s.opening.awaitMark .opened).report .campaign).reexamineAll := rfl

theorem capture_settings (ring : CaptureRing) (now : Nat) (a b : SectionState) (c : CaptureCause) (p : Phase) :
    (ring.capture now a b c p).mode = ring.mode ∧ (ring.capture now a b c p).fill = ring.fill := by
  unfold CaptureRing.capture
  split <;> exact ⟨rfl, rfl⟩

/-- A section record of a campaign just opened. -/
theorem sec_opening (s : State) (i : SectionId) : s.opening.sec i =
    if (s.sec i).state = .laidUp then ((s.sec i).entering s.now .cold .campaign).zeroed else (s.sec i).zeroed := by
  have record : s.opening.sec i = ((s.laidUp.2.toCold s.laidUp.1).sec i).zeroed := Table.get_map _ _ _
  rw [record, sec_toCold _ (laidUp_nodup s), laidUp_drawn]
  simp only [mem_laidUp]
  split <;> rfl

theorem sec_openNow (s : State) (i : SectionId) : s.openNow.sec i = s.opening.sec i := rfl

theorem sec_openNow_eq (s : State) (i : SectionId) : s.openNow.sec i =
    (let zeroed := { s.sec i with
        enteredAt := 0, phaseSince := 0
        ring := { mode := (s.sec i).ring.mode, fill := (s.sec i).ring.fill, armed := true, count := 0
                  next := 0, last := none, slots := Table.replicate 4 none } }
      if (s.sec i).state = .laidUp then
        { zeroed with state := .cold, heldFrom := none, deadline := none, intake := .closed, discharge := .closed }
      else zeroed) := by
  obtain ⟨mode, fill⟩ := capture_settings (s.sec i).ring s.now (s.sec i).state .cold .campaign (s.sec i).phase
  rw [sec_openNow, sec_opening]
  refine if_congr Iff.rfl ?_ rfl
  simp only [Section.zeroed, Section.entering, mode, fill]
  rfl

theorem state_openNow (s : State) (i : SectionId) : (s.openNow.sec i).state =
    if (s.sec i).state = .laidUp then .cold else (s.sec i).state := by
  rw [sec_openNow, sec_opening]
  split <;> rfl

theorem reports_openNow (s : State) (k : ReportKey) : k ∈ s.openNow.link.reports ↔ k ∈ s.link.reports ∨
    (k = .campaign ∧ s.link.mask.campaign = true) ∨
    ∃ i, k = .sec i ∧ (s.sec i).state = .laidUp ∧ s.link.mask.sec = true := by
  have drawn : s.laidUp.2.link = s.link := by rw [laidUp_drawn]
  have cold := reports_toCold s.laidUp.1 s.laidUp.2 k
  have last := mem_report (s.opening.awaitMark .opened) .campaign k
  have mask : (s.opening.awaitMark .opened).link.mask = s.link.mask := by
    rw [← drawn]
    exact mask_toCold s.laidUp.2 s.laidUp.1
  simp only [mem_laidUp, drawn] at cold
  refine last.trans ?_
  rw [mask]
  refine (or_congr_left cold).trans ?_
  rw [or_assoc, or_comm (b := k = .campaign ∧ _)]
  rfl

theorem work_openNow (s : State) {i : SectionId} (here : (s.sec i).state ≠ .absent)
    (serving : (s.sec i).state ≠ .excluded) : .reexamine i .other ∈ s.openNow.work := by
  rw [openNow_eq, reexamineAll_eq]
  refine List.mem_append_right _ ((mem_partaking_looks _ _).2 ⟨i, rfl, ?_⟩)
  have state : (((s.opening.awaitMark .opened).report .campaign).sec i).state =
    if (s.sec i).state = .laidUp then .cold else (s.sec i).state := state_openNow s i
  rw [state]
  split
  · simp
  · exact ⟨here, serving⟩

/-! ### The order -/

/-- What a cascade keeps of a campaign that is not winding down, once opened at time 0. -/
theorem openNow_running (s : State) :
    s.openNow.running .opened true (some .opened) (s.site.requestMark .opened) := by
  refine ⟨rfl, rfl, rfl, ?_⟩
  have cold := (toCold_onlySections s.laidUp.2 s.laidUp.1).site
  have drawn : s.laidUp.2.site = s.site := by rw [laidUp_drawn]
  show (s.laidUp.2.toCold s.laidUp.1).site.requestMark .opened = _
  rw [cold, drawn]

theorem openNow_link (s : State) : s.openNow.link = { s.link with reports := s.openNow.link.reports } := by
  have cold := (toCold_onlySections s.laidUp.2 s.laidUp.1).link
  have drawn : s.laidUp.2.link = s.link := by rw [laidUp_drawn]
  rw [drawn] at cold
  have reported : s.openNow.link = (s.laidUp.2.toCold s.laidUp.1).link.report .campaign := rfl
  rw [reported, LinkPort.report_eq, cold]

theorem openNow_clockLaw (s : State) : s.openNow.clockLaw := by
  refine (clockLaw_iff _).2 ⟨Nat.zero_le _, fun i => ?_⟩
  rw [sec_openNow, sec_opening]
  split <;> exact ⟨le_rfl, le_rfl⟩

theorem requestMark_spec (x : SiteService) (v : Mark) :
    (x.markWriting = none → (x.requestMark v).markWriting = some v) ∧
    ∀ m, x.markWriting = some m → (x.requestMark v).markWriting = some m ∧
      (x.requestMark v).markPending = some v := by
  refine ⟨fun idle => ?_, fun m writing => ?_⟩
  · simp only [SiteService.requestMark, idle]
  · simp only [SiteService.requestMark, writing, and_self]

/-- Settles O13: the stages record by record, then the cascade behind them. -/
theorem openCampaignStartsAtZero : Obligations.OpenCampaignStartsAtZero := by
  refine ⟨fun s v => ⟨fun idle => requestMark_idle idle v, fun m writing => requestMark_writing writing v⟩,
    fun s i => ⟨sec_openNow_eq s i, fun state enabled => ?_, work_openNow s⟩, reports_openNow,
    fun s t h => ⟨fun going => refused_of_owner rfl h (by simp only [openOrder, if_neg going]), fun closed => ?_⟩⟩
  · exact (reports_openNow s _).2 (Or.inr (Or.inr ⟨i, rfl, state, enabled⟩))
  · have waits : s.waitsAs .openCampaign t s.openNow.settle .campaignController :=
      waits_of_owner rfl h (by simp only [openOrder, if_pos closed])
    have running := settle_running (by simp) (openNow_running s)
    have clock : s.openNow.settle.campaign.clock = 0 := (settle_frame s.openNow).clock
    have law := (settle_moves s.openNow).keep (fun _ _ => move_clockLaw) (openNow_clockLaw s)
    have link := settle_link s.openNow
    rw [openNow_link] at link
    have reports (enabled : s.link.mask.campaign = true) : .campaign ∈ s.openNow.settle.link.reports :=
      settle_reports ((reports_openNow s _).2 (Or.inr (Or.inl ⟨rfl, enabled⟩)))
    obtain ⟨idle, writing⟩ := requestMark_spec s.site .opened
    refine ⟨waits, _, waits, ?_⟩
    generalize s.openNow.settle = u at running clock law link reports
    obtain ⟨state, lock, pending, site⟩ := running
    rw [← site] at idle writing
    rw [conclude_waits]
    refine ⟨state, clock, lock, pending, idle, writing, rfl, ?_, ?_, reports, fun i => ?_⟩
    · rw [link]
    · rw [link]
    · have times := law.2 i
      rw [clock] at times
      exact ⟨Nat.le_zero.1 times.1, Nat.le_zero.1 times.2⟩

end Sys2Proof.Machine

/-! The steam allocator's changes and SET BUDGET (R78 to R88). -/

namespace Sys2Proof.Machine

/-! ### The effective budget (R78) -/

theorem foldl_capped_le (l : List (Option Nat)) (b : Nat) : l.foldl capped b ≤ b := by
  induction l generalizing b with
  | nil => exact le_rfl
  | cons o l ih =>
    refine (ih _).trans ?_
    cases o with
    | none => exact le_rfl
    | some c => exact Nat.min_le_left b c

theorem foldl_capped_le_cap {l : List (Option Nat)} {c : Nat} (h : some c ∈ l) (b : Nat) :
    l.foldl capped b ≤ c := by
  induction l generalizing b with
  | nil => simp at h
  | cons o l ih =>
    rcases List.mem_cons.1 h with rfl | mem
    · exact (foldl_capped_le l _).trans (Nat.min_le_right b c)
    · exact ih mem _

theorem foldl_capped_reached (l : List (Option Nat)) (b : Nat) :
    l.foldl capped b = b ∨ some (l.foldl capped b) ∈ l := by
  induction l generalizing b with
  | nil => exact Or.inl rfl
  | cons o l ih =>
    cases o with
    | none => exact (ih b).imp id (List.mem_cons_of_mem _)
    | some c =>
      rcases ih (min b c) with stays | mem
      · rcases Nat.le_total b c with le | le
        · exact Or.inl (stays.trans (Nat.min_eq_left le))
        · have reached : (some c :: l).foldl capped b = c := stays.trans (Nat.min_eq_right le)
          exact Or.inr (by rw [reached]; exact List.mem_cons_self)
      · exact Or.inr (List.mem_cons_of_mem _ mem)

theorem effective_spec (st : Steam) : st.effective ≤ st.hostBudget ∧
    (∀ g c, st.caps.get g = some c → st.effective ≤ c) ∧
    (st.effective = st.hostBudget ∨ ∃ g, st.caps.get g = some st.effective) := by
  refine ⟨foldl_capped_le _ _, fun g c cap => ?_, (foldl_capped_reached _ _).imp id fun mem => ?_⟩
  · exact foldl_capped_le_cap (cap ▸ Table.get_mem st.caps g) _
  · exact Table.exists_get_of_mem mem

/-! ### Changes of the effective budget (R79, R80) -/

theorem rebudget_over {now old : Nat} {st : Steam} (h : st.effective < st.claimedSum) :
    st.rebudget now old = st.shed now := if_pos h

theorem rebudget_grown {now old : Nat} {st : Steam} (fits : st.claimedSum ≤ st.effective)
    (grown : old < st.effective) : st.rebudget now old = st.grantPass now := by
  rw [Steam.rebudget, if_neg (Nat.not_lt.2 fits), if_pos grown]

theorem rebudget_shrunk {now old : Nat} {st : Steam} (fits : st.claimedSum ≤ st.effective)
    (shrunk : st.effective ≤ old) : st.rebudget now old = (st, []) := by
  rw [Steam.rebudget, if_neg (Nat.not_lt.2 fits), if_neg (Nat.not_lt.2 shrunk)]

theorem setHost_hostBudget (now budget : Nat) (st : Steam) : (st.setHost now budget).1.hostBudget = budget :=
  rebudget_hostBudget _ _ _

/-- R79: a budget that is in force already changes nothing. -/
theorem setHost_same {now : Nat} {st : Steam} (law : st.law) : st.setHost now st.hostBudget = (st, []) :=
  rebudget_shrunk law.1 le_rfl

/-! ### A change of the allocator's record -/

theorem putSteam_same {s : State} {st : Steam} (h : st = s.steam) : s.putSteam st = s := if_pos h

theorem putSteam_new {s : State} {st : Steam} (h : st ≠ s.steam) :
    s.putSteam st = ({ s with steam := st } : State).report .steam := if_neg h

/-- A change of the allocator's record leaves its host budget as it writes it, and no more than a cascade may
open. -/
theorem steamChange_frame (s : State) (f : Steam → Steam × List SteamNotice) :
    CascadeFrame { s with steam := { s.steam with hostBudget := (f s.steam).1.hostBudget } }
      (s.steamChange f) := by
  refine .trans ?_ (fold_keeps .refl .trans (fun s n => (takeNotice_moves s n).frame) _ _)
  by_cases same : (f s.steam).1 = s.steam
  · rw [putSteam_same same, same]
    exact .refl s
  · rw [putSteam_new same]
    refine .trans ?_ (report_frame _ _)
    exact steam_frame (s := { s with steam := { s.steam with hostBudget := (f s.steam).1.hostBudget } })
      (st := (f s.steam).1) rfl

/-! ### SET BUDGET (R79) -/

theorem setBudget_accepted {s : State} {t : Telegram} {budget : Nat} (h : s.taking .setBudget t (.oneId budget)) :
    s.acceptedAs .setBudget t (s.steamChange (Steam.setHost s.campaign.clock budget)).settle :=
  accepted_of_owner rfl h rfl

/-- Settles O40: the budget and the caps, then the order. -/
theorem setBudgetSetsHostBudget : Obligations.SetBudgetSetsHostBudget := by
  refine ⟨effective_spec, fun now budget st new e => ?_, fun now g c st new e => ?_, fun s t budget h =>
    ⟨setBudget_accepted h, ⟨_, setBudget_accepted h, ?_⟩, fun same law idle => ?_⟩⟩
  · subst e
    exact ⟨rebudget_over, rebudget_grown, rebudget_shrunk⟩
  · subst e
    exact ⟨rebudget_over, rebudget_grown, rebudget_shrunk⟩
  · have frame := (steamChange_frame s (Steam.setHost s.campaign.clock budget)).trans (settle_frame _)
    rw [setHost_hostBudget] at frame
    generalize (s.steamChange (Steam.setHost s.campaign.clock budget)).settle = u at frame
    rw [conclude_accepted]
    refine ⟨frame.budget, ?_, frame.trips, frame.scanner, frame.store, frame.clock⟩
    rw [frame.link]
  · have accepted := setBudget_accepted h
    have stays : s.steamChange (Steam.setHost s.campaign.clock budget) = s := by
      rw [← same, State.steamChange, setHost_same law]
      exact putSteam_same rfl
    rwa [stays, settle_idle idle] at accepted

/-! ### Requests, releases and withdrawals (R81, R84, R85) -/

theorem no_claims_iff (a b : List Claim) (i : SectionId) :
    (hasClaim i a || hasClaim i b) = false ↔ ∀ c ∈ a ++ b, c.sec ≠ i := by
  rw [← hasClaim_append, no_claim_iff]

theorem some_claim_iff (cs : List Claim) (i : SectionId) : hasClaim i cs = true ↔ ∃ c ∈ cs, c.sec = i := by
  rw [hasClaim_iff, List.mem_map]

section

variable {now : Nat} {i : SectionId} {demand : Nat} {held : Bool} {st : Steam}

theorem request_listed (h : ∃ c ∈ st.claims ++ st.queue, c.sec = i) :
    st.request now i demand held = (st, []) := by
  rw [← some_claim_iff, hasClaim_append] at h
  rw [Steam.request, if_pos h]

theorem request_zero (h : ∀ c ∈ st.claims ++ st.queue, c.sec ≠ i) (zero : demand = 0) :
    st.request now i demand held = (st, [.grant i]) := by
  simp only [Steam.request, (no_claims_iff _ _ _).2 h, Bool.false_eq_true, if_false, if_pos zero]

/-- A claim fits the room left exactly where the claims and it together fit the budget. -/
theorem fits_iff (some : demand ≠ 0) :
    demand ≤ st.effective - st.claimedSum ↔ st.claimedSum + demand ≤ st.effective := by omega

theorem request_granted (h : ∀ c ∈ st.claims ++ st.queue, c.sec ≠ i) (some : demand ≠ 0) (free : st.queue = [])
    (fits : st.claimedSum + demand ≤ st.effective) : st.request now i demand held =
      ({ st with claims := st.claims ++ [{ sec := i, demand, since := now }] }, [.grant i]) := by
  have first : (st.queue.isEmpty && decide (demand ≤ st.effective - st.claimedSum)) = true := by
    simp [free, (fits_iff some).2 fits]
  rw [Steam.request, if_neg (by simp [(no_claims_iff _ _ _).2 h]), if_neg some, if_pos first]

theorem request_queued (h : ∀ c ∈ st.claims ++ st.queue, c.sec ≠ i) (some : demand ≠ 0)
    (waits : st.queue ≠ [] ∨ st.effective < st.claimedSum + demand) : st.request now i demand held =
      ({ st with queue := st.queue ++ [{ sec := i, demand, since := now }] },
        if held = true then [.steam i] else []) := by
  have behind : ¬ (st.queue.isEmpty && decide (demand ≤ st.effective - st.claimedSum)) = true := by
    rw [Bool.and_eq_true, List.isEmpty_iff, decide_eq_true_iff, fits_iff some]
    rintro ⟨free, fits⟩
    exact waits.elim (fun busy => busy free) fun exceeds => absurd fits (Nat.not_le.2 exceeds)
  rw [Steam.request, if_neg (by simp [(no_claims_iff _ _ _).2 h]), if_neg some, if_neg behind]

theorem withoutClaim_eq (i : SectionId) (cs : List Claim) :
    withoutClaim i cs = cs.filter fun c => decide (c.sec ≠ i) :=
  List.filter_congr fun c _ => by rw [Bool.eq_iff_iff, bne_iff_ne, decide_eq_true_iff]

theorem release_claimed (h : ∃ c ∈ st.claims, c.sec = i) : st.release now i =
    ({ st with claims := st.claims.filter fun c => c.sec ≠ i } : Steam).grantPass now := by
  rw [Steam.release, if_pos ((some_claim_iff _ _).2 h), withoutClaim_eq]

theorem release_unclaimed (h : ∀ c ∈ st.claims, c.sec ≠ i) : st.release now i = st.withdraw now i := by
  rw [Steam.release, if_neg (by simp [(no_claim_iff _ _).2 h])]

theorem withdraw_queued (h : ∃ c ∈ st.queue, c.sec = i) : st.withdraw now i =
    ((({ st with queue := st.queue.filter fun c => c.sec ≠ i } : Steam).grantPass now).1,
      .lift i :: (({ st with queue := st.queue.filter fun c => c.sec ≠ i } : Steam).grantPass now).2) := by
  rw [Steam.withdraw, if_pos ((some_claim_iff _ _).2 h), withoutClaim_eq]
  rfl

theorem withdraw_unqueued (h : ∀ c ∈ st.queue, c.sec ≠ i) : st.withdraw now i = (st, []) := by
  rw [Steam.withdraw, if_neg (by simp [(no_claim_iff _ _).2 h])]

end

/-! ### Sheds and grant passes (R82, R87) -/

/-- R87: the claims taken last leave too much claimed without them being taken. -/
theorem shedNewest_last {budget : Nat} {l first : List Claim} {c : Claim}
    (h : (shedNewest budget l).1 = first ++ [c]) : budget < claimSum (shedNewest budget l).2 + c.demand := by
  induction l generalizing first with
  | nil => simp [shedNewest] at h
  | cons x l ih =>
    unfold shedNewest at h ⊢
    split at h
    next exceeds =>
      rw [if_pos exceeds]
      cases first with
      | nil =>
        obtain ⟨rfl, none⟩ := List.cons.inj h
        have kept := shedNewest_append budget l
        rw [none, List.nil_append] at kept
        rw [kept]
        rw [claimSum_cons] at exceeds
        omega
      | cons y first => exact ih (List.cons.inj h).2
    next => simp at h

theorem shed_spec (now : Nat) (st : Steam) : ∃ kept taken : List Claim,
    st.claims = kept ++ taken.reverse ∧
    (kept.map Claim.demand).sum ≤ st.effective ∧
    (∀ c first, taken = first ++ [c] → st.effective < (kept.map Claim.demand).sum + c.demand) ∧
    (st.shed now).1 = (({ st with
      claims := kept
      queue := st.queue ++ taken.map fun c => { c with since := now } } : Steam).grantPass now).1 ∧
    (st.shed now).2 = taken.map (fun c => .steam c.sec) ++ (({ st with
      claims := kept
      queue := st.queue ++ taken.map fun c => { c with since := now } } : Steam).grantPass now).2 := by
  have split := shedNewest_append st.effective st.claims.reverse
  have sum := shedNewest_sum st.effective st.claims.reverse
  rw [← claimSum_reverse] at sum
  refine ⟨(shedNewest st.effective st.claims.reverse).2.reverse, (shedNewest st.effective st.claims.reverse).1,
    ?_, sum, fun c first e => ?_, rfl, rfl⟩
  · rw [← List.reverse_append, split, List.reverse_reverse]
  · have last := shedNewest_last e
    rw [← claimSum_reverse] at last
    exact last

theorem grantPass_spec (now : Nat) (st : Steam) : ∃ granted : List Claim,
    st.queue = granted ++ (st.grantPass now).1.queue ∧
    (st.grantPass now).1.claims = st.claims ++ granted.map (fun c => { c with since := now }) ∧
    (st.grantPass now).2 = granted.map (fun c => SteamNotice.grant c.sec) ∧
    (st.claimedSum ≤ st.effective → (st.grantPass now).1.claimedSum ≤ st.effective) ∧
    ∀ c rest, (st.grantPass now).1.queue = c :: rest →
      st.effective < (st.grantPass now).1.claimedSum + c.demand := by
  have claimed : (st.grantPass now).1.claimedSum =
      st.claimedSum + claimSum (grantable (st.effective - st.claimedSum) st.queue).1 := by
    show claimSum (st.claims ++ _) = claimSum st.claims + _
    rw [claimSum_append, claimSum_since]
  refine ⟨(grantable (st.effective - st.claimedSum) st.queue).1, (grantable_append _ _).symm, rfl, rfl,
    fun fits => ?_, fun c rest e => ?_⟩
  · have room := grantable_sum (st.effective - st.claimedSum) st.queue
    omega
  · have head := grantable_head (st.effective - st.claimedSum) st.queue c rest e
    omega

/-! ### Notices taken by the section table (R83, R85, R88) -/

section

variable {s : State} {i : SectionId}

theorem takeNotice_grant_filling (h : (s.sec i).state = .filling) :
    s.takeNotice (.grant i) = s.enterState i .conditioning .grant := if_pos h

theorem takeNotice_grant_steam (other : (s.sec i).state ≠ .filling) (held : .steam ∈ (s.sec i).holds) :
    s.takeNotice (.grant i) = s.removeReason i .steam .grant := by
  rw [State.takeNotice, if_neg other, if_pos (List.contains_iff_mem.2 held)]

theorem takeNotice_grant_stale (other : (s.sec i).state ≠ .filling) (free : .steam ∉ (s.sec i).holds) :
    s.takeNotice (.grant i) = { s with work := s.work ++ [.releaseClaim i] } := by
  rw [State.takeNotice, if_neg other, if_neg fun held => free (List.contains_iff_mem.1 held)]
  rfl

end

/-- Settles O41: each change of the allocator's record, and the notices it makes. -/
theorem steamAllocatorGrantsReleasesAndSheds : Obligations.SteamAllocatorGrantsReleasesAndSheds :=
  ⟨fun _ _ _ _ _ => ⟨request_listed, fun none => ⟨request_zero none, request_granted none,
      request_queued none⟩⟩,
    fun _ _ _ => ⟨release_claimed, release_unclaimed, withdraw_queued, withdraw_unqueued⟩, shed_spec,
    fun _ _ => ⟨takeNotice_grant_filling, takeNotice_grant_steam, takeNotice_grant_stale, rfl, rfl, rfl, rfl⟩,
    fun _ _ => ⟨fun same => by rw [State.steamChange, putSteam_same same],
      fun new => by rw [State.steamChange, putSteam_new new]⟩,
    grantPass_spec⟩

end Sys2Proof.Machine

/-! ADOPT (R177): the stages of an adoption, and the section they leave. -/

namespace Sys2Proof.Machine

/-! ### What a record's states decide, other records' holds and held-from aside -/

/-- Two states whose sections stand in the same states with the same settings, and whose scanners agree, see the
same downstream sections full. -/
theorem downstreamOf_congr {s t : State} (state : ∀ j, (t.sec j).state = (s.sec j).state) {i : SectionId}
    (down : (t.sec i).downstream = (s.sec i).downstream) : t.downstreamOf i = s.downstreamOf i := by
  unfold State.downstreamOf
  rw [down]
  exact List.filter_congr fun d _ => by rw [state]

theorem full_congr {s t : State} (scanner : t.scanner = s.scanner) {d : SectionId}
    (cls : (t.sec d).cls = (s.sec d).cls) : t.full d = s.full d := by
  unfold State.full State.level
  rw [cls, scanner]

/-! ### The stages -/

/-- R177 stages 1 and 2: the held-from named, and FULL for each downstream section that stands full. -/
def State.pressed (s : State) (i : SectionId) (st : SectionState) : State :=
  let named := s.setSec i { s.sec i with heldFrom := some st }
  if st.passesLiquor then named.insertHolds i (((named.downstreamOf i).filter named.full).map .full) else named

/-- R177 stage 3: the steam request, where the state and the demand call for one. -/
def State.adoptAsked (s : State) (i : SectionId) (st : SectionState) : State :=
  if st.steamState ∧ (s.sec i).demand ≠ 0 then (s.pressed i st).adoptSteam i else s.pressed i st

theorem adopt_eq (s : State) (i : SectionId) (st : SectionState) :
    s.adopt i st = (s.adoptAsked i st).removeReason i .restart .restore := rfl

/-- The reasons of stage 2. -/
def State.pressing (s : State) (i : SectionId) (st : SectionState) : List HoldReason :=
  if st.passesLiquor then ((s.downstreamOf i).filter s.full).map .full else []

theorem mem_pressing (s : State) (i : SectionId) (st : SectionState) (x : HoldReason) :
    x ∈ s.pressing i st ↔ ∃ d ∈ s.downstreamOf i, x = .full d ∧ st.passesLiquor = true ∧ s.full d = true := by
  unfold State.pressing
  split
  next passes =>
    simp only [List.mem_map, List.mem_filter, passes, true_and]
    exact exists_congr fun d =>
      ⟨fun ⟨⟨down, full⟩, e⟩ => ⟨down, e.symm, full⟩, fun ⟨down, e, full⟩ => ⟨⟨down, full⟩, e.symm⟩⟩
  next stays => simp [stays]

theorem pressed_eq (s : State) (i : SectionId) (st : SectionState) : s.pressed i st = s.setSec i { s.sec i with
    heldFrom := some st, holds := (s.pressing i st).foldr insertReason (s.sec i).holds } := by
  have same (j : SectionId) : ((s.setSec i { s.sec i with heldFrom := some st }).sec j).state = (s.sec j).state ∧
      ((s.setSec i { s.sec i with heldFrom := some st }).sec j).cls = (s.sec j).cls ∧
      ((s.setSec i { s.sec i with heldFrom := some st }).sec j).downstream = (s.sec j).downstream := by
    rw [State.sec_setSec]
    split
    next self => rw [self]; exact ⟨rfl, rfl, rfl⟩
    next => exact ⟨rfl, rfl, rfl⟩
  have down := downstreamOf_congr (fun j => (same j).1) (same i).2.2
  have full : (s.setSec i { s.sec i with heldFrom := some st }).full = s.full :=
    funext fun d => full_congr (State.setSec_scanner s i _) (same d).2.1
  simp only [State.pressed, State.pressing, down, full, insertHolds_setSec]
  split <;> rfl

theorem sec_pressed (s : State) (i : SectionId) (st : SectionState) : (s.pressed i st).sec i = { s.sec i with
    heldFrom := some st, holds := (s.pressing i st).foldr insertReason (s.sec i).holds } := by
  rw [pressed_eq, State.sec_setSec_self]

theorem steam_pressed (s : State) (i : SectionId) (st : SectionState) : (s.pressed i st).steam = s.steam := by
  rw [pressed_eq]
  rfl

/-- The steam request of an adoption. -/
def State.adoptRequest (s : State) (i : SectionId) : Steam × List SteamNotice :=
  Steam.request s.campaign.clock i (s.sec i).demand true s.steam

theorem adoptSteam_pressed (s : State) (i : SectionId) (st : SectionState) : (s.pressed i st).adoptSteam i =
    if (s.adoptRequest i).2.contains (.steam i) then
      ((s.pressed i st).putSteam (s.adoptRequest i).1).insertHolds i [.steam]
    else (s.pressed i st).putSteam (s.adoptRequest i).1 := by
  have request : Steam.request (s.pressed i st).now i ((s.pressed i st).sec i).demand true (s.pressed i st).steam =
      s.adoptRequest i := by
    rw [sec_pressed, steam_pressed, pressed_eq]
    rfl
  simp only [State.adoptSteam, request]

theorem steam_adoptAsked (s : State) (i : SectionId) (st : SectionState) : (s.adoptAsked i st).steam =
    if st.steamState = true ∧ (s.sec i).demand ≠ 0 then (s.adoptRequest i).1 else s.steam := by
  unfold State.adoptAsked
  split
  · rw [adoptSteam_pressed]
    split
    · rw [State.insertHolds_steam, steam_putSteam]
    · rw [steam_putSteam]
  · exact steam_pressed s i st

/-- The section record before RESTART is removed: held from the named state, with the reasons found. -/
theorem sec_adoptAsked (s : State) (i : SectionId) (st : SectionState) : ∃ hs : List HoldReason,
    (s.adoptAsked i st).sec i = { s.sec i with heldFrom := some st, holds := hs } ∧
    ∀ x, x ∈ hs ↔ x ∈ (s.sec i).holds ∨
      (∃ d ∈ s.downstreamOf i, x = .full d ∧ st.passesLiquor = true ∧ s.full d = true) ∨
      (x = .steam ∧ (st.steamState = true ∧ (s.sec i).demand ≠ 0) ∧ .steam i ∈ (s.adoptRequest i).2) := by
  have found (x : HoldReason) : x ∈ (s.pressing i st).foldr insertReason (s.sec i).holds ↔
      x ∈ (s.sec i).holds ∨
        ∃ d ∈ s.downstreamOf i, x = .full d ∧ st.passesLiquor = true ∧ s.full d = true := by
    rw [mem_insertAll, mem_pressing, or_comm]
  unfold State.adoptAsked
  split
  next asks =>
    rw [adoptSteam_pressed]
    split
    next waits =>
      refine ⟨_, by rw [sec_insertHolds, if_pos rfl, sec_putSteam, sec_pressed], fun x => ?_⟩
      rw [mem_insertAll, found, List.mem_singleton, or_comm, or_assoc]
      simp only [asks, ne_eq, not_false_eq_true, and_self, List.contains_iff_mem.1 waits, and_true]
    next granted =>
      refine ⟨_, by rw [sec_putSteam, sec_pressed], fun x => ?_⟩
      rw [found]
      simp only [mt List.contains_iff_mem.2 granted, and_false, or_false]
  next quiet =>
    refine ⟨_, sec_pressed s i st, fun x => ?_⟩
    rw [found]
    simp only [quiet, false_and, and_false, or_false]

/-! ### The section an adoption leaves -/

section

variable {s : State} {i : SectionId} {st : SectionState}

theorem steam_adopt : (s.adopt i st).steam =
    if st.steamState = true ∧ (s.sec i).demand ≠ 0 then (s.adoptRequest i).1 else s.steam := by
  rw [adopt_eq, (removeReason_onlySections _ _ _ _).steam, steam_adoptAsked]

/-- With a reason found, the section stays HELD by it, held from the named state, without RESTART. -/
theorem sec_adopt_held (held : (s.sec i).state = .held) (restart : .restart ∈ (s.sec i).holds) {x : HoldReason}
    (ne : x ≠ .restart) (found : x ∈ ((s.adoptAsked i st).sec i).holds) :
    ((s.adopt i st).sec i).state = .held ∧ ((s.adopt i st).sec i).heldFrom = some st ∧
      x ∈ ((s.adopt i st).sec i).holds ∧ .restart ∉ ((s.adopt i st).sec i).holds := by
  obtain ⟨hs, record, mem⟩ := sec_adoptAsked s i st
  have has : .restart ∈ ((s.adoptAsked i st).sec i).holds := by
    rw [record]
    exact (mem _).2 (Or.inl restart)
  rw [adopt_eq, removeReason_of_others .restore has ⟨x, found, ne⟩, State.sec_report, State.sec_setSec_self]
  refine ⟨?_, ?_, mem_removeFrom.2 ⟨found, ne⟩, fun left => (mem_removeFrom.1 left).2 rfl⟩
  · rw [record]
    exact held
  · rw [record]

theorem holds_full {d : SectionId} (down : d ∈ s.downstreamOf i) (passes : st = .running ∨ st = .sweeteningOff)
    (full : s.full d = true) : .full d ∈ ((s.adoptAsked i st).sec i).holds := by
  obtain ⟨hs, record, mem⟩ := sec_adoptAsked s i st
  rw [record]
  exact (mem _).2 (Or.inr (Or.inl ⟨d, down, rfl, (passesLiquor_iff st).2 passes, full⟩))

theorem mem_steamState_iff (st : SectionState) :
    st ∈ [.conditioning, .circulating, .running, .sweeteningOff] ↔ st.steamState = true := by
  cases st <;> decide

theorem holds_steam (asks : st.steamState = true ∧ (s.sec i).demand ≠ 0)
    (waits : .steam i ∈ (s.adoptRequest i).2) : .steam ∈ ((s.adoptAsked i st).sec i).holds := by
  obtain ⟨hs, record, mem⟩ := sec_adoptAsked s i st
  rw [record]
  exact (mem _).2 (Or.inr (Or.inr ⟨rfl, asks, waits⟩))

/-- With no reason found but RESTART, the section enters the named state. -/
theorem adopt_alone (only : (s.sec i).holds = [.restart])
    (room : st = .running ∨ st = .sweeteningOff → ∀ d ∈ s.downstreamOf i, s.full d = false)
    (granted : st.steamState = true ∧ (s.sec i).demand ≠ 0 → .steam i ∉ (s.adoptRequest i).2) :
    s.adopt i st = ((s.adoptAsked i st).setSec i
      { s.sec i with heldFrom := some st, holds := [] }).enterState i st .restore := by
  obtain ⟨hs, record, mem⟩ := sec_adoptAsked s i st
  have alone (x : HoldReason) (found : x ∈ ((s.adoptAsked i st).sec i).holds) : x = .restart := by
    rw [record] at found
    rcases (mem x).1 found with old | ⟨d, down, -, passes, full⟩ | ⟨-, asks, waits⟩
    · rw [only] at old
      exact List.mem_singleton.1 old
    · exact absurd ((room ((passesLiquor_iff st).1 passes) d down).symm.trans full) (by simp)
    · exact absurd waits (granted asks)
  have has : .restart ∈ ((s.adoptAsked i st).sec i).holds := by
    rw [record]
    exact (mem _).2 (Or.inl (by simp [only]))
  rw [adopt_eq, removeReason_of_alone .restore has alone (by rw [record]), record]

/-- What the stages before the removal of RESTART leave alone. -/
theorem adoptAsked_rest (s : State) (i : SectionId) (st : SectionState) :
    (s.adoptAsked i st).scanner = s.scanner ∧ (s.adoptAsked i st).supervisor = s.supervisor ∧
      ∀ j, j ≠ i → (s.adoptAsked i st).sec j = s.sec j := by
  have pressed : (s.pressed i st).scanner = s.scanner ∧ (s.pressed i st).supervisor = s.supervisor ∧
      ∀ j, j ≠ i → (s.pressed i st).sec j = s.sec j := by
    rw [pressed_eq]
    exact ⟨rfl, rfl, fun j ne => by rw [State.sec_setSec, if_neg ne]⟩
  have put : ((s.pressed i st).putSteam (s.adoptRequest i).1).scanner = s.scanner ∧
      ((s.pressed i st).putSteam (s.adoptRequest i).1).supervisor = s.supervisor := by
    unfold State.putSteam
    split <;> exact ⟨pressed.1, pressed.2.1⟩
  unfold State.adoptAsked
  split
  · rw [adoptSteam_pressed]
    split
    · exact ⟨put.1, put.2, fun j ne => by rw [sec_insertHolds, if_neg ne, sec_putSteam, pressed.2.2 j ne]⟩
    · exact ⟨put.1, put.2, fun j ne => by rw [sec_putSteam, pressed.2.2 j ne]⟩
  · exact pressed

/-- A section adopted with nothing against it is in the named state, with no reason. -/
theorem sec_adopt_free (ne : st ≠ .held) (only : (s.sec i).holds = [.restart]) (apart : i ∉ (s.sec i).downstream)
    (valid : s.levelBad i = false) (staffed : s.supervisor.short.get i = false)
    (room : st = .running ∨ st = .sweeteningOff → ∀ d ∈ s.downstreamOf i, s.full d = false)
    (granted : st.steamState = true ∧ (s.sec i).demand ≠ 0 → .steam i ∉ (s.adoptRequest i).2) :
    ((s.adopt i st).sec i).state = st ∧ ((s.adopt i st).sec i).holds = [] ∧
      ((s.adopt i st).sec i).heldFrom = none := by
  obtain ⟨scanner, supervisor, others⟩ := adoptAsked_rest s i st
  rw [adopt_alone only room granted]
  generalize e : (s.adoptAsked i st).setSec i { s.sec i with heldFrom := some st, holds := [] } = u
  have record : u.sec i = { s.sec i with heldFrom := some st, holds := [] } := by
    rw [← e, State.sec_setSec_self]
  have other (j : SectionId) (ne : j ≠ i) : u.sec j = s.sec j := by
    rw [← e, State.sec_setSec, if_neg ne, others j ne]
  have state (j : SectionId) : (u.sec j).state = (s.sec j).state := by
    by_cases self : j = i
    · rw [self, record]
    · rw [other j self]
  have cls (j : SectionId) : (u.sec j).cls = (s.sec j).cls := by
    by_cases self : j = i
    · rw [self, record]
    · rw [other j self]
  have sees : u.scanner = s.scanner := by rw [← e, State.setSec_scanner, scanner]
  have down := downstreamOf_congr state (i := i) (by rw [record])
  have free : u.enterState i st .restore = u.enter i st .restore := by
    refine enterState_free ?_ ?_ (by rw [record]; exact apart) fun passes d mem => ?_
    · unfold State.levelBad State.level
      rw [sees]
      exact valid
    · rw [← e, State.setSec_supervisor, supervisor]
      exact staffed
    · rw [full_congr sees (cls d)]
      exact room passes d (down ▸ mem)
  rw [free, sec_enter_self, record]
  exact ⟨rfl, rfl, if_neg ne⟩

/-- R177: a state that asks for no steam passes no liquor on, and its adoption has one stage. -/
theorem adoptAsked_quiet (quiet : st.steamState = false) :
    s.adoptAsked i st = s.setSec i { s.sec i with heldFrom := some st } := by
  have stays : st.passesLiquor = false := by
    cases st <;> first | rfl | exact absurd quiet (by decide)
  rw [State.adoptAsked, if_neg (by simp [quiet]), State.pressed, stays, if_neg (by simp)]

theorem adopt_resting (only : (s.sec i).holds = [.restart]) (rests : st.working = false)
    (quiet : st.steamState = false) : s.adopt i st =
      (s.setSec i { s.sec i with heldFrom := some st, holds := [] }).enter i st .restore := by
  have stays : ¬ (st = .running ∨ st = .sweeteningOff) := by
    rintro (rfl | rfl) <;> exact absurd rests (by decide)
  rw [adopt_alone only (fun passes => absurd passes stays) (fun asks => absurd asks.1 (by simp [quiet])),
    adoptAsked_quiet quiet, setSec_setSec]
  simp only [State.enterState, rests, Bool.false_and, Bool.false_eq_true, if_false]

theorem adopt_others (quiet : st.steamState = false) (restart : .restart ∈ (s.sec i).holds)
    (others : ∃ r ∈ (s.sec i).holds, r ≠ .restart) : s.adopt i st =
      (s.setSec i { s.sec i with
        heldFrom := some st
        holds := (s.sec i).holds.filter fun r => r ≠ .restart }).report (.sec i) := by
  have record := State.sec_setSec_self s i { s.sec i with heldFrom := some st }
  rw [adopt_eq, adoptAsked_quiet quiet, removeReason_of_others .restore (by rw [record]; exact restart)
    (by rw [record]; exact others), record, setSec_setSec]
  rfl

/-! ### The order -/

theorem adoptable_resting {cls : SectionClass} (may : adoptable cls st = true) (rests : st.working = false) :
    st.steamState = false := by
  cases st <;> first | rfl | exact absurd rests (by decide)

end

theorem adoptRequest_granted {s : State} {i : SectionId} (none : ∀ c ∈ s.steam.claims ++ s.steam.queue, c.sec ≠ i)
    (some : (s.sec i).demand ≠ 0) (free : s.steam.queue = [])
    (fits : s.steam.claimedSum + (s.sec i).demand ≤ s.steam.effective) : s.adoptRequest i =
      ({ s.steam with claims := s.steam.claims ++
        [{ sec := i, demand := (s.sec i).demand, since := s.campaign.clock }] }, [.grant i]) :=
  request_granted none some free fits

theorem adoptRequest_queued {s : State} {i : SectionId} (none : ∀ c ∈ s.steam.claims ++ s.steam.queue, c.sec ≠ i)
    (some : (s.sec i).demand ≠ 0)
    (waits : s.steam.queue ≠ [] ∨ s.steam.effective < s.steam.claimedSum + (s.sec i).demand) : s.adoptRequest i =
      ({ s.steam with queue := s.steam.queue ++
        [{ sec := i, demand := (s.sec i).demand, since := s.campaign.clock }] }, [.steam i]) :=
  request_queued none some waits

/-- Settles O27: the codes, the stages, and the order's checks. -/
theorem adoptRestoresSection : Obligations.AdoptRestoresSection := by
  refine ⟨⟨by decide, fun st => ?_, fun st => ?_⟩, fun s i st held restart ne => ⟨fun passes d down full => ?_,
      fun quiet => ?_, fun mem some none => ⟨fun free fits => ?_, fun waits => ?_⟩,
      fun only apart valid staffed room granted => ?_⟩,
    fun s t id code h => ⟨fun none => refused_of_owner rfl h (by simp only [adoptOrder, none]),
      fun i named => ⟨fun free => ?_, fun restart st coded => ?_⟩⟩⟩
  · cases st <;> decide
  · cases st <;> decide
  · exact sec_adopt_held held restart (by simp) (holds_full down passes full)
  · rw [steam_adopt, if_neg]
    rintro ⟨asks, some⟩
    exact quiet.elim (fun out => out ((mem_steamState_iff st).2 asks)) some
  · rw [steam_adopt, if_pos ⟨(mem_steamState_iff st).1 mem, some⟩, adoptRequest_granted none some free fits]
  · have asks := And.intro ((mem_steamState_iff st).1 mem) some
    have request := adoptRequest_queued none some waits
    refine ⟨?_, sec_adopt_held held restart (by simp) (holds_steam asks ?_)⟩
    · rw [steam_adopt, if_pos asks, request]
    · rw [request]
      exact List.mem_singleton_self _
  · refine sec_adopt_free ne only apart valid staffed room fun ⟨asks, needs⟩ => ?_
    obtain ⟨claims, free, fits⟩ := granted ((mem_steamState_iff st).2 asks) needs
    rw [adoptRequest_granted (by rw [free, List.append_nil]; exact claims) needs free fits]
    simp
  · exact refused_of_owner rfl h (by simp [adoptOrder, named, free])
  · have has : ¬ (!(s.sec i).holds.contains .restart) = true := by simp [restart]
    have accepted (may : adoptable (s.sec i).cls st = true) : s.acceptedAs .adopt t (s.adopt i st).settle :=
      accepted_of_owner rfl h (by simp only [adoptOrder, named, if_neg has, coded, if_pos may])
    refine ⟨fun bars => ?_, accepted, fun may only rests => ?_, fun may quiet idle others => ?_⟩
    · exact refused_of_owner rfl h (by
        simp only [adoptOrder, named, if_neg has, coded, bars, Bool.false_eq_true, if_false])
    · rw [← adopt_resting only rests (adoptable_resting may rests)]
      exact accepted may
    · rw [← adopt_others quiet restart others]
      have left := accepted may
      rwa [settle_idle (by rw [adopt_others quiet restart others]; exact idle)] at left

end Sys2Proof.Machine

/-! EXCLUDE and INCLUDE (R11, R12, R105, R107, R138), and the sections that FULL is handed to. -/

namespace Sys2Proof.Machine

/-! ### The pool (R138) -/

theorem failedOf_eq (us : UnitSupervisor) (duty : List UnitId) :
    us.failedOf duty = duty.filter fun u => decide ((us.units.get u).condition = .failed) :=
  List.filter_congr fun u _ => by rw [Bool.eq_iff_iff, beq_iff_eq, decide_eq_true_iff]

theorem exclude_spec (us : UnitSupervisor) (duty : List UnitId) : ∃ spares : List UnitId,
    spares.Pairwise (· < ·) ∧
    (∀ sp, sp ∈ spares ↔ ∃ u ∈ duty, (us.units.get u).condition = .failed ∧
      (us.units.get sp).covering = some u) ∧
    us.exclude duty = spares.foldl UnitSupervisor.offer
      ((duty.filter fun u => (us.units.get u).condition = .failed).foldl UnitSupervisor.giveUp us) := by
  have same : us.exclude duty = _ := rfl
  rw [UnitSupervisor.exclude, failedOf_eq] at same
  refine ⟨_, ?pairwise, fun sp => ?mem, same⟩
  case pairwise => exact (List.pairwise_lt_finRange 48).filter _
  case mem =>
    rw [List.mem_filter, and_iff_right (List.mem_finRange sp)]
    split
    next v covers => simp [covers]
    next none => simp [none]

theorem includeUnits_eq (us : UnitSupervisor) (duty : List UnitId) : us.includeUnits duty =
    (duty.filter fun u => (us.units.get u).condition = .failed).foldl UnitSupervisor.attend us := by
  rw [UnitSupervisor.includeUnits, failedOf_eq]

theorem giveUp_covered {us : UnitSupervisor} {u sp : UnitId} (h : (us.units.get u).coveredBy = some sp) :
    us.giveUp u = us.uncover sp u := by
  simp only [UnitSupervisor.giveUp, h]

theorem withoutDemand_eq (u : UnitId) (ds : List SpareDemand) :
    withoutDemand u ds = ds.filter fun d => decide (d.unit ≠ u) :=
  List.filter_congr fun d _ => by rw [Bool.eq_iff_iff, bne_iff_ne, decide_eq_true_iff]

theorem giveUp_uncovered {us : UnitSupervisor} {u : UnitId} (h : (us.units.get u).coveredBy = none) :
    us.giveUp u = { us with demands := us.demands.filter fun d => d.unit ≠ u } := by
  simp only [UnitSupervisor.giveUp, h, withoutDemand_eq]

theorem attended_spec (us : UnitSupervisor) (u : UnitId) :
    us.attended u = true ↔ (us.units.get u).coveredBy ≠ none ∨ ∃ d ∈ us.demands, d.unit = u := by
  rw [UnitSupervisor.attended, Bool.or_eq_true, queued_iff_exists, Option.isSome_iff_ne_none]

theorem attend_attended {us : UnitSupervisor} {u : UnitId}
    (h : (us.units.get u).coveredBy ≠ none ∨ ∃ d ∈ us.demands, d.unit = u) : us.attend u = us :=
  if_pos ((attended_spec us u).2 h)

theorem attend_alone {us : UnitSupervisor} {u : UnitId} (free : (us.units.get u).coveredBy = none)
    (unasked : ∀ d ∈ us.demands, d.unit ≠ u) : us.attend u = us.requestCoverage u := by
  refine if_neg fun attended => ?_
  rcases (attended_spec us u).1 attended with covered | ⟨d, mem, own⟩
  · exact covered free
  · exact unasked d mem own

theorem runDelivery_unitsExcluded {s : State} {i : SectionId} (out : (s.sec i).state = .excluded) :
    s.runDelivery (.unitsExcluded i) = s.supervise fun us => us.exclude (s.sec i).dutyUnits :=
  if_neg (by rw [out]; simp [SectionState.partakes])

theorem runDelivery_unitsIncluded {s : State} {i : SectionId} (here : (s.sec i).state ≠ .absent)
    (serving : (s.sec i).state ≠ .excluded) :
    s.runDelivery (.unitsIncluded i) = s.supervise fun us => us.includeUnits (s.sec i).dutyUnits :=
  if_pos ((partakes_iff _).2 ⟨here, serving⟩)

/-! ### FULL (R105, R107) -/

theorem mem_holdersOfFull (s : State) (d u : SectionId) :
    u ∈ s.holdersOfFull d ↔ .full d ∈ (s.sec u).holds := by
  rw [State.holdersOfFull, List.mem_filter, and_iff_right (List.mem_finRange u), List.contains_iff_mem]

theorem mem_feedersOf (s : State) (d u : SectionId) : u ∈ s.feedersOf d ↔
    (∃ l ∈ (s.sec d).upstream, l.id = u) ∧ (s.sec u).takes (.full d) = true := by
  have takes_partakes (takes : (s.sec u).takes (.full d) = true) : (s.sec u).state.partakes = true := by
    rcases (takes_full_iff _ _).1 takes with e | e | ⟨e, -⟩ <;> rw [e] <;> rfl
  simp only [State.feedersOf, State.upstreamOf, List.mem_filter, List.mem_map]
  constructor
  · rintro ⟨⟨l, ⟨mem, -⟩, e⟩, takes⟩
    exact ⟨⟨l, mem, e⟩, takes⟩
  · rintro ⟨⟨l, mem, e⟩, takes⟩
    exact ⟨⟨l, ⟨mem, by rw [e]; exact takes_partakes takes⟩, e⟩, takes⟩

/-! ### EXCLUDE (R11) -/

theorem exclude_eq (s : State) (i : SectionId) : s.exclude i = { s.enter i .excluded .order with
    work := (s.enter i .excluded .order).work ++
      (.unitsExcluded i :: (s.holdersOfFull i).map fun u => .removeReason u (.full i)) } := rfl

theorem mem_excludeHandings (s : State) (i : SectionId) (w : Delivery) :
    w ∈ (.unitsExcluded i :: (s.holdersOfFull i).map fun u => Delivery.removeReason u (.full i)) ↔
      w = .unitsExcluded i ∨ ∃ u, w = .removeReason u (.full i) ∧ .full i ∈ (s.sec u).holds := by
  simp only [List.mem_cons, List.mem_map, mem_holdersOfFull]
  exact or_congr_right (exists_congr fun u => ⟨fun ⟨held, e⟩ => ⟨e.symm, held⟩, fun ⟨e, held⟩ => ⟨held, e.symm⟩⟩)

theorem excludeOrder_answers {s : State} {t : Telegram} {id : Nat} (h : s.taking .excludeSection t (.oneId id)) :
    (s.named id = none → s.refusedAs .excludeSection t .noSection) ∧
    ∀ i, s.named id = some i →
      (s.campaign.state = .windingDown ∨ s.campaign.state = .restoring →
        s.refusedAs .excludeSection t .campaign) ∧
      (s.campaign.state = .closed ∨ s.campaign.state = .opened →
        ((s.sec i).state ≠ .cold → (s.sec i).state ≠ .laidUp → s.refusedAs .excludeSection t .state) ∧
        ((s.sec i).state = .cold ∨ (s.sec i).state = .laidUp →
          s.acceptedAs .excludeSection t (s.exclude i).settle ∧
          .unitsExcluded i ∈ (s.exclude i).work ∧
          (∀ u, .full i ∈ (s.sec u).holds → .removeReason u (.full i) ∈ (s.exclude i).work) ∧
          ((s.exclude i).sec i).state = .excluded)) := by
  refine ⟨fun none => refused_of_owner rfl h (by simp only [excludeOrder, none]),
    fun i named => ⟨fun barred => ?_, fun may => ?_⟩⟩
  · have bars : s.campaign.state.bars = true := by rcases barred with e | e <;> rw [e] <;> rfl
    exact refused_of_owner rfl h (by simp only [excludeOrder, named, if_pos bars])
  · have free : ¬ s.campaign.state.bars = true := by
      rcases may with e | e <;> rw [e] <;> simp [CampaignState.bars]
    refine ⟨fun warm up => ?_, fun rests => ⟨?_, ?_, fun u held => ?_, ?_⟩⟩
    · have busy : ¬ ((s.sec i).state = .cold ∨ (s.sec i).state = .laidUp) := fun e => e.elim warm up
      exact refused_of_owner rfl h (by simp only [excludeOrder, named, if_neg free, if_neg busy])
    · exact accepted_of_owner rfl h (by simp only [excludeOrder, named, if_neg free, if_pos rests])
    · exact List.mem_append_right _ ((mem_excludeHandings s i _).2 (Or.inl rfl))
    · exact List.mem_append_right _ ((mem_excludeHandings s i _).2 (Or.inr ⟨u, rfl, held⟩))
    · show ((s.enter i .excluded .order).sec i).state = _
      rw [sec_enter_self]
      rfl

/-! ### INCLUDE (R12) -/

/-- What an inclusion hands on. -/
def State.includeHandings (s : State) (i : SectionId) : List Delivery :=
  .unitsIncluded i :: if (s.enter i .cold .order).full i then
    ((s.enter i .cold .order).feedersOf i).map fun u => .addReason u (.full i) else []

theorem incorporate_eq (s : State) (i : SectionId) : s.incorporate i = { s.enter i .cold .order with
    work := (s.enter i .cold .order).work ++ s.includeHandings i } := rfl

theorem mem_includeHandings {s : State} {i : SectionId} (out : (s.sec i).state = .excluded) (w : Delivery) :
    w ∈ s.includeHandings i ↔ w = .unitsIncluded i ∨ ∃ u, w = .addReason u (.full i) ∧
      s.full i = true ∧ (∃ l ∈ (s.sec i).upstream, l.id = u) ∧
      ((s.sec u).state = .running ∨ (s.sec u).state = .sweeteningOff ∨
        ((s.sec u).state = .held ∧
          ((s.sec u).heldFrom = some .running ∨ (s.sec u).heldFrom = some .sweeteningOff))) := by
  have feeds (u : SectionId) : u ∈ (s.enter i .cold .order).feedersOf i ↔
      (∃ l ∈ (s.sec i).upstream, l.id = u) ∧ (s.sec u).takes (.full i) = true := by
    rw [mem_feedersOf, sec_enter_self]
    by_cases self : u = i
    · rw [self, sec_enter_self]
      simp [Section.takes, Section.entering, out]
    · rw [sec_enter_ne s self]
      rfl
  rw [State.includeHandings, List.mem_cons, full_enter]
  simp only [← takes_full_iff _ i]
  refine or_congr_right ?_
  split
  next full =>
    simp only [List.mem_map, feeds, full, true_and]
    exact exists_congr fun u => ⟨fun ⟨feeds, e⟩ => ⟨e.symm, feeds⟩, fun ⟨e, feeds⟩ => ⟨feeds, e.symm⟩⟩
  next room => simp [room]

theorem includeOrder_answers {s : State} {t : Telegram} {id : Nat} (h : s.taking .includeSection t (.oneId id)) :
    (s.named id = none → s.refusedAs .includeSection t .noSection) ∧
    ∀ i, s.named id = some i →
      (s.campaign.state = .windingDown ∨ s.campaign.state = .restoring →
        s.refusedAs .includeSection t .campaign) ∧
      (s.campaign.state = .closed ∨ s.campaign.state = .opened →
        ((s.sec i).state ≠ .excluded → s.refusedAs .includeSection t .state) ∧
        ((s.sec i).state = .excluded →
          s.acceptedAs .includeSection t (s.incorporate i).settle ∧
          .unitsIncluded i ∈ (s.incorporate i).work ∧
          ((s.incorporate i).sec i).state = .cold)) := by
  refine ⟨fun none => refused_of_owner rfl h (by simp only [includeOrder, none]),
    fun i named => ⟨fun barred => ?_, fun may => ?_⟩⟩
  · have bars : s.campaign.state.bars = true := by rcases barred with e | e <;> rw [e] <;> rfl
    exact refused_of_owner rfl h (by simp only [includeOrder, named, if_pos bars])
  · have free : ¬ s.campaign.state.bars = true := by
      rcases may with e | e <;> rw [e] <;> simp [CampaignState.bars]
    refine ⟨fun serving => ?_, fun out => ⟨?_, ?_, ?_⟩⟩
    · exact refused_of_owner rfl h (by simp only [includeOrder, named, if_neg free, if_neg serving])
    · exact accepted_of_owner rfl h (by simp only [includeOrder, named, if_neg free, if_pos out])
    · exact List.mem_append_right _ ((mem_includeHandings out _).2 (Or.inl rfl))
    · show ((s.enter i .cold .order).sec i).state = _
      rw [sec_enter_self]
      rfl

/-- Settles O28: the pool's changes, what each order hands on, and the orders' checks. -/
theorem excludeAndIncludeMoveSections : Obligations.ExcludeAndIncludeMoveSections :=
  ⟨⟨exclude_spec, fun _ _ => ⟨fun _ => giveUp_covered, giveUp_uncovered, attend_attended, attend_alone⟩,
      includeUnits_eq, fun _ _ => ⟨runDelivery_unitsExcluded, runDelivery_unitsIncluded⟩⟩,
    fun s i => ⟨_, _, rfl, exclude_eq s i, mem_excludeHandings s i⟩,
    fun s i out => ⟨_, _, rfl, incorporate_eq s i, mem_includeHandings out⟩,
    fun _ _ _ => ⟨excludeOrder_answers, includeOrder_answers⟩⟩

end Sys2Proof.Machine

/-! The measurement scanner's rounds and samples (chapter 3). -/

namespace Sys2Proof.Machine

/-! ### Rounds (R37, R51) -/

/-- R37: no channel is due once the round has passed every converted one. -/
theorem due_none_iff (x : Scanner) :
    x.due = none ↔ ∀ d : ChannelId, x.turn ≤ d.val → (x.channels.get d).converted = false := by
  simp only [Scanner.due, List.find?_eq_none, List.mem_finRange, true_imp_iff]
  refine forall_congr' fun d => ?_
  cases (x.channels.get d).converted <;> simp

/-- R37: the channel due is the first converted one the round has not passed. -/
theorem due_some_iff (x : Scanner) (c : ChannelId) :
    x.due = some c ↔ (x.channels.get c).converted = true ∧ x.turn ≤ c.val ∧
      ∀ d : ChannelId, x.turn ≤ d.val → d < c → (x.channels.get d).converted = false := by
  have ordered : ∀ j k : ChannelId, j < k ↔ j.val < k.val := fun _ _ => Iff.rfl
  rw [Scanner.due, List.find?_eq_some_iff_getElem]
  simp only [Bool.and_eq_true, decide_eq_true_eq, List.getElem_finRange, List.length_finRange]
  constructor
  · rintro ⟨⟨converted, turn⟩, k, len, rfl, before⟩
    refine ⟨converted, turn, fun d past lt => ?_⟩
    have := before d.val lt
    simpa [past] using this
  · rintro ⟨converted, turn, before⟩
    refine ⟨⟨converted, turn⟩, c.val, c.isLt, rfl, fun j lt => ?_⟩
    by_cases past : x.turn ≤ j
    · simp [before ⟨j, by omega⟩ past lt]
    · simp [past]

theorem countRound_off {s : State} (off : s.scanner.prescale = 0) : s.countRound = s := if_pos off

theorem countRound_early {s : State} (early : s.scanner.round + 1 < s.scanner.prescale) : s.countRound =
    { s with scanner := { s.scanner with round := s.scanner.round + 1 } } := by
  rw [State.countRound, if_neg (by omega), if_pos early]

theorem countRound_full {s : State} (on : 0 < s.scanner.prescale)
    (full : s.scanner.prescale ≤ s.scanner.round + 1) : s.countRound =
      ({ s with scanner := { s.scanner with round := 0 } } : State).reportAll (s.partaking.map .level) := by
  rw [State.countRound, if_neg (by omega), if_neg (by omega)]

theorem mem_partaking_levels (s : State) (k : ReportKey) : k ∈ s.partaking.map ReportKey.level ↔
    ∃ i, k = .level i ∧ (s.sec i).state ≠ .absent ∧ (s.sec i).state ≠ .excluded := by
  simp only [State.partaking, List.mem_map, List.mem_filter, List.mem_finRange, true_and, partakes_iff]
  constructor
  · rintro ⟨i, h, rfl⟩
    exact ⟨i, rfl, h⟩
  · rintro ⟨i, rfl, h⟩
    exact ⟨i, h, rfl⟩

theorem exec_scanRoundComplete {s : State} (on : s.powered = true) : exec .scanRoundComplete s =
    .next (if s.scanner.due = none then s.newRound.countRound else s) :=
  congrArg Host.Outcome.next (powering_on on _)

/-- Settles O39: by the state of the prescaled count. -/
theorem roundsCountToLevelReports : Obligations.RoundsCountToLevelReports := by
  intro s on
  rw [exec_scanRoundComplete on]
  refine ⟨fun ⟨c, turn, converted⟩ => ?_, fun passed => ?_⟩
  · have open' : s.scanner.due ≠ none := fun e =>
      absurd ((due_none_iff _).1 e c turn) (by simp [converted])
    rw [if_neg open']
  · rw [if_pos ((due_none_iff _).2 passed)]
    refine ⟨fun off => ?_, fun early => ?_, fun counting full => ⟨_, rfl, ?_⟩⟩
    · rw [countRound_off (s := s.newRound) off]
      rfl
    · rw [countRound_early (s := s.newRound) early]
      rfl
    · rw [countRound_full (s := s.newRound) counting full]
      refine ⟨?_, ?_, ?_, ?_, fun k => ?_⟩
      · rw [reportAll_eq]
        rfl
      · rw [reportAll_eq]
        rfl
      · rw [reportAll_eq]
        rfl
      · rw [reportAll_eq]
        rfl
      · rw [mem_reportAll, mem_partaking_levels]
        refine or_congr Iff.rfl ⟨?_, ?_⟩
        · rintro ⟨⟨i, rfl, h⟩, enabled⟩
          exact ⟨i, rfl, enabled, h⟩
        · rintro ⟨i, rfl, enabled, h⟩
          exact ⟨⟨i, rfl, h⟩, enabled⟩

/-! ### Samples (R36 to R41) -/

/-- R38, R39, R41: the record a sample of channel `c` leaves in the channel. -/
def State.sampledAt (s : State) (c : ChannelId) (raw : Nat) : Channel :=
  (s.scanner.channels.get c).sampled (spanOf c) raw (s.sec (channelSection c)).limits
    (s.sec (channelSection c)).ceilingInForce

theorem liveRaw_iff (raw : Nat) : liveRaw raw = true ↔ 100 ≤ raw ∧ raw ≤ 4000 := by
  simp [liveRaw]

section
variable (ch : Channel) (span raw : Nat) (l : Limits) (ceiling : Nat)

theorem sampled_dead (dead : raw < 100 ∨ 4000 < raw) :
    ch.sampled span raw l ceiling = { ch with raw := raw, validity := .bad, run := 0 } := by
  have : ¬ liveRaw raw = true := by rw [liveRaw_iff]; omega
  rw [Channel.sampled, if_neg this]

/-- R39: a BAD channel stays BAD until the third live sample in a row. -/
theorem sampled_early (low : 100 ≤ raw) (up : raw ≤ 4000) (bad : ch.validity = .bad) (early : ch.run < 2) :
    ch.sampled span raw l ceiling =
      { ch with raw := raw, value := (raw - 100) * span / 3900, run := ch.run + 1 } := by
  rw [Channel.sampled, if_pos ((liveRaw_iff raw).2 ⟨low, up⟩)]
  simp only [bad, if_neg (show ¬ 3 ≤ ch.run + 1 by omega), scaled]

theorem sampled_well (low : 100 ≤ raw) (up : raw ≤ 4000) (well : ch.validity = .valid ∨ 2 ≤ ch.run) :
    ch.sampled span raw l ceiling =
      { ch with
        raw := raw, value := (raw - 100) * span / 3900, validity := .valid, run := 3
        bands := ch.bands.evaluate l ceiling ((raw - 100) * span / 3900) } := by
  rw [Channel.sampled, if_pos ((liveRaw_iff raw).2 ⟨low, up⟩)]
  cases e : ch.validity with
  | valid => simp only [scaled]
  | bad =>
    have third : 3 ≤ ch.run + 1 := by
      rcases well with h | h
      · exact absurd (e.symm.trans h) (by simp)
      · omega
    simp only [if_pos third, scaled]

theorem sampled_raw : (ch.sampled span raw l ceiling).raw = raw := by
  unfold Channel.sampled
  dsimp only
  split
  · split
    · rfl
    · split <;> rfl
  · rfl

theorem sampled_converted : (ch.sampled span raw l ceiling).converted = ch.converted := by
  unfold Channel.sampled
  dsimp only
  split
  · split
    · rfl
    · split <;> rfl
  · rfl

theorem sampled_value (low : 100 ≤ raw) (up : raw ≤ 4000) :
    (ch.sampled span raw l ceiling).value = (raw - 100) * span / 3900 := by
  unfold Channel.sampled
  rw [if_pos ((liveRaw_iff raw).2 ⟨low, up⟩)]
  dsimp only
  split
  · rfl
  · split <;> rfl

end

theorem sample_eq (s : State) (c : ChannelId) (raw : Nat) : s.sample c raw =
    if (s.scanner.channels.get c).validity = (s.sampledAt c raw).validity ∧
        crossings (s.scanner.channels.get c).bands (s.sampledAt c raw).bands = []
    then { s with scanner := s.scanner.taken c (s.sampledAt c raw) }
    else (({ s with scanner := s.scanner.taken c (s.sampledAt c raw) } : State).takeDelivery c
      (s.scanner.channels.get c) (s.sampledAt c raw)).settle := rfl

theorem exec_channelSample (s : State) (c : ChannelId) {raw : Nat} (le : raw ≤ 4095) :
    exec (.channelSample c.val raw) s =
      .next (s.powering fun s => if s.scanner.due = some c then s.sample c raw else s) := by
  show execChannelSample c.val raw s = _
  unfold execChannelSample
  rw [idOf_val]
  exact if_pos le

theorem exec_channelSample_out {s : State} {c : ChannelId} {raw : Nat} (le : raw ≤ 4095)
    (out : s.scanner.due ≠ some c) : exec (.channelSample c.val raw) s = .next s := by
  rw [exec_channelSample s c le]
  exact congrArg Host.Outcome.next (powering_self (if_neg out))

theorem exec_channelSample_due {s : State} {c : ChannelId} {raw : Nat} (on : s.powered = true)
    (le : raw ≤ 4095) (due : s.scanner.due = some c) :
    exec (.channelSample c.val raw) s = .next (s.sample c raw) := by
  rw [exec_channelSample s c le, powering_on on, if_pos due]

/-- R49, R50: the SENSOR change of a sample of a level channel. -/
def State.sensedBy (s : State) (c : ChannelId) (old new : Channel) : State :=
  if c.val % 2 = 0 then (s.followPhase (channelSection c)).sensorChange (channelSection c) old.validity new.validity
  else s.followPhase (channelSection c)

/-- Section 3.4: a delivery of the scanner, taken as far as its LEVEL report. -/
def State.toldBy (s : State) (c : ChannelId) (old new : Channel) : State :=
  let handed := (s.sensedBy c old new).handAll
    ((crossings old.bands new.bands).flatMap ((s.sensedBy c old new).crossingHandings (channelSection c)))
  if old.validity = new.validity then handed else handed.reportLevel (channelSection c)

theorem takeDelivery_eq (s : State) (c : ChannelId) (old new : Channel) : s.takeDelivery c old new =
    if ((s.toldBy c old new).sec (channelSection c)).state = (s.sec (channelSection c)).state
    then (s.toldBy c old new).reexamine (channelSection c) .crossing
    else s.toldBy c old new := rfl

theorem setPhase_scanner (s : State) (i : SectionId) (p : Phase) : (s.setPhase i p).scanner = s.scanner := by
  unfold State.setPhase
  dsimp only
  split <;> simp

theorem followPhase_scanner (s : State) (i : SectionId) : (s.followPhase i).scanner = s.scanner := by
  unfold State.followPhase
  split
  · rfl
  · exact setPhase_scanner _ _ _

theorem sensorChange_scanner (s : State) (i : SectionId) (old new : Validity) :
    (s.sensorChange i old new).scanner = s.scanner := by
  unfold State.sensorChange
  split
  · exact (addReason_moves _ _ _).frame.scanner
  · exact (removeReason_moves _ _ _ (by simp)).frame.scanner
  · rfl
  · rfl

theorem sensedBy_scanner (s : State) (c : ChannelId) (old new : Channel) :
    (s.sensedBy c old new).scanner = s.scanner := by
  unfold State.sensedBy
  split
  · rw [sensorChange_scanner, followPhase_scanner]
  · rw [followPhase_scanner]

theorem toldBy_scanner (s : State) (c : ChannelId) (old new : Channel) :
    (s.toldBy c old new).scanner = s.scanner := by
  unfold State.toldBy State.reportLevel
  dsimp only
  split
  · exact sensedBy_scanner s c old new
  · split <;> exact sensedBy_scanner s c old new

theorem takeDelivery_scanner (s : State) (c : ChannelId) (old new : Channel) :
    (s.takeDelivery c old new).scanner = s.scanner := by
  rw [takeDelivery_eq]
  split
  · rw [(reexamine_moves _ _ _).frame.scanner, toldBy_scanner]
  · rw [toldBy_scanner]

/-- R37: a sample moves the scanner by its own record, whatever its crossings start. -/
theorem sample_scanner (s : State) (c : ChannelId) (raw : Nat) :
    (s.sample c raw).scanner = s.scanner.taken c (s.sampledAt c raw) := by
  rw [sample_eq]
  split
  · rfl
  · rw [(settle_frame _).scanner, takeDelivery_scanner]

/-- A sample that changes neither validity nor a band position changes the channel alone (R38). -/
theorem sample_quiet {s : State} {c : ChannelId} {raw : Nat}
    (validity : (s.scanner.channels.get c).validity = (s.sampledAt c raw).validity)
    (bands : (s.scanner.channels.get c).bands = (s.sampledAt c raw).bands) :
    s.sample c raw = { s with scanner := s.scanner.taken c (s.sampledAt c raw) } := by
  have stays : ∀ (p : Option Bool) (yes no : Crossing), crossingOf p p yes no = [] := by
    rintro (_ | _ | _) _ _ <;> rfl
  have none : crossings (s.scanner.channels.get c).bands (s.sampledAt c raw).bands = [] := by
    rw [← bands]
    simp [crossings, stays]
  rw [sample_eq, if_pos ⟨validity, none⟩]

theorem spanOf_eq (c : ChannelId) : spanOf c = if c.val % 2 = 0 then 1000 else 850 := rfl

/-- Settles O36: the scanner's part of a sample. -/
theorem sampleWritesRawAndValue : Obligations.SampleWritesRawAndValue := by
  refine ⟨fun x => ⟨due_some_iff x, due_none_iff x⟩, fun s c raw le out => exec_channelSample_out le out,
    fun s c raw on le due => ⟨_, exec_channelSample_due on le due, ?_⟩⟩
  rw [sample_scanner]
  simp only [Scanner.taken, Table.get_set_self]
  refine ⟨trivial, fun d ne => Table.get_set_of_ne _ _ ne, sampled_converted _ _ _ _ _,
    sampled_raw _ _ _ _ _, fun low up even => ?_, fun low up odd => ?_, fun dead => ?_⟩
  · rw [State.sampledAt, sampled_value _ _ _ _ _ low up, spanOf_eq, if_pos even]
  · rw [State.sampledAt, sampled_value _ _ _ _ _ low up, spanOf_eq, if_neg (by omega)]
  · rw [State.sampledAt, sampled_dead _ _ _ _ _ dead]

/-! ### Bands (R40, R41) -/

/-- R41: a tested position, where it stays at yes as long as `stay`. -/
theorem testPosition_spec (p : Option Bool) {yes stay : Bool} {no : Bool} (kept : (!no) = stay) :
    (p = none → testPosition p yes no = none) ∧
    (p = some false → testPosition p yes no = some yes) ∧
    (p = some true → testPosition p yes no = some stay) := by
  refine ⟨?_, ?_, ?_⟩
  · rintro rfl
    rfl
  · rintro rfl
    rfl
  · rintro rfl
    exact congrArg some kept

/-- R108: the ceiling position stays, with a working ceiling of 0, until the limits change. -/
theorem ceiling_stays (l : Limits) (ceiling v : Nat) :
    (!(decide (0 < ceiling) && decide (v ≤ ceiling - l.hysteresis))) =
      decide (ceiling = 0 ∨ (0 < v ∧ ceiling < v + l.hysteresis)) := by
  rw [Bool.eq_iff_iff]
  simp only [Bool.not_eq_true', Bool.and_eq_false_iff, decide_eq_false_iff_not, decide_eq_true_eq]
  omega

theorem not_decide_le (a b : Nat) : (!decide (a ≤ b)) = decide (b < a) := by
  rw [Bool.eq_iff_iff]
  simp

theorem not_decide_lt (a b : Nat) : (!decide (a < b)) = decide (b ≤ a) := by
  rw [Bool.eq_iff_iff]
  simp

theorem ceilingInForce_lifted {r : Section} (h : r.ceilingLifted = true) :
    r.ceilingInForce = r.nativeCeiling.getD 0 := if_pos h

theorem ceilingInForce_working {r : Section} (h : r.ceilingLifted = false) :
    r.ceilingInForce = r.workingCeiling.getD 0 := by
  rw [Section.ceilingInForce, if_neg (by simp [h])]

/-- Settles O37: the positions by their thresholds, and a sample by where its raw result lies. -/
theorem sampleMovesValidityAndBands : Obligations.SampleMovesValidityAndBands := by
  refine ⟨fun b l ceiling v => ?_, fun r => ⟨ceilingInForce_lifted, ceilingInForce_working⟩,
    fun s c raw on le => ⟨fun out => ?_, fun due => ⟨_, exec_channelSample_due on le due, ?_⟩⟩⟩
  · obtain ⟨e₁, e₂, e₃⟩ := testPosition_spec b.empty (yes := decide (v ≤ l.empty))
      (not_decide_le (l.empty + l.hysteresis) v)
    obtain ⟨f₁, f₂, f₃⟩ := testPosition_spec b.fillDone (yes := decide (l.fillDone ≤ v))
      (not_decide_lt (v + l.hysteresis) l.fillDone)
    obtain ⟨h₁, h₂, h₃⟩ := testPosition_spec b.high (yes := decide (l.high ≤ v))
      (not_decide_le (v + l.hysteresis) l.high)
    obtain ⟨c₁, c₂, c₃⟩ := testPosition_spec b.ceiling (yes := decide (ceiling ≤ v))
      (ceiling_stays l ceiling v)
    obtain ⟨s₁, s₂, s₃⟩ := testPosition_spec b.sweet (yes := decide (l.sweetOn ≤ v))
      (not_decide_le v l.sweetOff)
    exact ⟨e₁, e₂, e₃, f₁, f₂, f₃, h₁, h₂, h₃, c₁, c₂, c₃, s₁, s₂, s₃⟩
  · refine exec_channelSample_out le fun due => ?_
    obtain ⟨converted, -⟩ := (due_some_iff _ _).1 due
    simp [out] at converted
  · refine ⟨fun dead bad => ?_, fun low up valid bands => ?_, fun dead => ?_, fun low up bad early => ?_,
      fun low up well => ?_⟩
    · have new := sampled_dead (s.scanner.channels.get c) (spanOf c) raw (s.sec (channelSection c)).limits
        (s.sec (channelSection c)).ceilingInForce dead
      rw [← bad] at new
      rw [sample_quiet (by rw [State.sampledAt, new]) (by rw [State.sampledAt, new]), State.sampledAt, new]
      rfl
    · have new := sampled_well (s.scanner.channels.get c) (spanOf c) raw (s.sec (channelSection c)).limits
        (s.sec (channelSection c)).ceilingInForce low up (.inl valid)
      rw [spanOf_eq, bands, ← valid, ← spanOf_eq] at new
      rw [sample_quiet (by rw [State.sampledAt, new]) (by rw [State.sampledAt, new]), State.sampledAt, new]
      rfl
    · rw [sample_scanner, State.sampledAt, sampled_dead _ _ _ _ _ dead]
      simp [Scanner.taken]
    · have new := sampled_early (s.scanner.channels.get c) (spanOf c) raw (s.sec (channelSection c)).limits
        (s.sec (channelSection c)).ceilingInForce low up bad early
      rw [sample_quiet (by rw [State.sampledAt, new]) (by rw [State.sampledAt, new]), State.sampledAt, new]
      rfl
    · rw [sample_scanner, State.sampledAt, sampled_well _ _ _ _ _ low up well]
      simp [Scanner.taken, spanOf_eq]

end Sys2Proof.Machine

/-! What the section table takes from the scanner (chapters 3 and 6): the phase, SENSOR, the
crossings and the re-examination. -/

namespace Sys2Proof.Machine

/-! ### Crossings (R40, R62, R105 to R107) -/

theorem crossingOf_eq (old new : Option Bool) (yes no : Crossing) : crossingOf old new yes no =
    (if old = some false ∧ new = some true then [yes] else []) ++
      (if old = some true ∧ new = some false then [no] else []) := by
  rcases old with _ | _ | _ <;> rcases new with _ | _ | _ <;> rfl

theorem crossings_eq (a b : Bands) : crossings a b =
    (if a.empty = some false ∧ b.empty = some true then [Crossing.emptyReached] else []) ++
    (if a.empty = some true ∧ b.empty = some false then [Crossing.emptyLeft] else []) ++
    (if a.fillDone = some false ∧ b.fillDone = some true then [Crossing.fillDoneReached] else []) ++
    (if a.fillDone = some true ∧ b.fillDone = some false then [Crossing.fillDoneLost] else []) ++
    (if a.high = some false ∧ b.high = some true then [Crossing.highReached] else []) ++
    (if a.high = some true ∧ b.high = some false then [Crossing.highCleared] else []) ++
    (if a.ceiling = some false ∧ b.ceiling = some true then [Crossing.ceilingReached] else []) ++
    (if a.ceiling = some true ∧ b.ceiling = some false then [Crossing.ceilingCleared] else []) ++
    (if a.sweet = some false ∧ b.sweet = some true then [Crossing.sweetOn] else []) ++
    (if a.sweet = some true ∧ b.sweet = some false then [Crossing.sweetOff] else []) := by
  simp only [crossings, crossingOf_eq, List.append_assoc]

section
variable (s : State) (d : SectionId) (w : Delivery)

/-- R105, R106: the reason placed by a section that comes to stand full. -/
def State.placings : List Delivery :=
  if (s.sec d).state.partakes then (s.feedersOf d).map fun u => .addReason u (.full d) else []

theorem mem_placings : w ∈ s.placings d ↔
    (s.sec d).state.partakes = true ∧ ∃ u ∈ s.feedersOf d, w = .addReason u (.full d) := by
  unfold State.placings
  split
  · next h => simp only [List.mem_map, h, true_and, eq_comm]
  · next h => simp [h]

theorem mem_liftings : w ∈ (s.holdersOfFull d).map (fun u => Delivery.removeReason u (.full d)) ↔
    ∃ u ∈ s.holdersOfFull d, w = .removeReason u (.full d) := by
  simp only [List.mem_map, eq_comm]

end

/-- R105, R106: FULL(d) goes to the feeders that take it. -/
theorem placing_iff (s : State) (d u : SectionId) : .addReason u (.full d) ∈ s.placings d ↔
    (s.sec d).state ≠ .absent ∧ (s.sec d).state ≠ .excluded ∧
    (∃ l ∈ (s.sec d).upstream, l.id = u) ∧
    ((s.sec u).state = .running ∨ (s.sec u).state = .sweeteningOff ∨
      ((s.sec u).state = .held ∧
        ((s.sec u).heldFrom = some .running ∨ (s.sec u).heldFrom = some .sweeteningOff))) := by
  rw [← takes_full_iff _ d, ← mem_feedersOf, mem_placings, partakes_iff, and_assoc]
  simp

/-- R107: the removal of FULL(d) goes to its holders. -/
theorem lifting_iff (s : State) (d u : SectionId) :
    .removeReason u (.full d) ∈ (s.holdersOfFull d).map (fun u => Delivery.removeReason u (.full d)) ↔
      .full d ∈ (s.sec u).holds := by
  rw [← mem_holdersOfFull, mem_liftings]
  simp

/-! ### The phase (R45 to R48) -/

section
variable (s : State) (i : SectionId)

theorem setPhase_same {p : Phase} (h : (s.sec i).phase = p) : s.setPhase i p = s := if_pos h

/-- R4: where the discharge points once the phase is `p`. -/
def Section.routedBy (r : Section) (p : Phase) : Route :=
  if r.state.passesLiquor then r.state.discharge p else r.discharge

/-- R116: what a change of phase has re-examined. -/
def State.phaseLooks : List Delivery := (s.lagFollowers i).map fun d => .reexamine d .crossing

theorem setPhase_changed {p : Phase} (h : (s.sec i).phase ≠ p) : s.setPhase i p =
    ((((s.setSec i { s.sec i with
      phase := p, phaseSince := s.now, discharge := (s.sec i).routedBy p }).driveRoutes i).report
        (.sec i)).handAll (s.phaseLooks i)) := if_neg h

theorem sec_setPhase {p : Phase} (h : (s.sec i).phase ≠ p) : (s.setPhase i p).sec i =
    { s.sec i with phase := p, phaseSince := s.now, discharge := (s.sec i).routedBy p } := by
  rw [setPhase_changed s i h]
  simp

theorem phase_setPhase (p : Phase) : ((s.setPhase i p).sec i).phase = p := by
  by_cases h : (s.sec i).phase = p
  · rw [setPhase_same s i h, h]
  · rw [sec_setPhase s i h]

theorem setPhase_eq {p : Phase} (h : (s.sec i).phase ≠ p) : s.setPhase i p = { s with
    sections := s.sections.set i { s.sec i with
      phase := p, phaseSince := s.now, discharge := (s.sec i).routedBy p }
    lines := { s.lines with
      routeLatch := s.lines.routeLatch.set i
        ((s.lines.routePolarity.get i).drive (s.sec i).intake ((s.sec i).routedBy p)) }
    work := s.work ++ s.phaseLooks i
    link := { s.link with reports := (s.setPhase i p).link.reports } } := by
  rw [setPhase_changed s i h, report_eq]
  simp [State.handAll, State.driveRoutes, State.setSec, State.sec]

theorem mem_phaseLooks (w : Delivery) : w ∈ s.phaseLooks i ↔ ∃ d, w = .reexamine d .crossing ∧
    (s.sec i).state ≠ .absent ∧ (s.sec i).state ≠ .excluded ∧ d ∈ (s.sec i).downstream ∧
    (s.sec d).state = .running ∧ (s.sec d).cls = .process := by
  have follower (d : SectionId) : d ∈ s.lagFollowers i ↔ (s.sec i).state ≠ .absent ∧
      (s.sec i).state ≠ .excluded ∧ d ∈ (s.sec i).downstream ∧
      (s.sec d).state = .running ∧ (s.sec d).cls = .process := by
    unfold State.lagFollowers State.downstreamOf
    by_cases partakes : (s.sec i).state.partakes = true
    · rw [if_pos partakes]
      rw [partakes_iff] at partakes
      simp only [List.mem_filter, Bool.and_eq_true, beq_iff_eq, and_assoc, partakes_iff]
      refine ⟨fun ⟨down, _, _, run, cls⟩ => ⟨partakes.1, partakes.2, down, run, cls⟩,
        fun ⟨_, _, down, run, cls⟩ => ⟨down, by simp [run], by simp [run], run, cls⟩⟩
    · rw [if_neg partakes]
      rw [partakes_iff] at partakes
      simp only [List.not_mem_nil, false_iff]
      exact fun ⟨a, b, _⟩ => partakes ⟨a, b⟩
  simp only [State.phaseLooks, List.mem_map, follower]
  constructor
  · rintro ⟨d, h, rfl⟩
    exact ⟨d, rfl, h⟩
  · rintro ⟨d, rfl, h⟩
    exact ⟨d, h, rfl⟩

/-- R4: the discharge follows the phase in the two states that pass liquor. -/
theorem routedBy_passing {r : Section} (h : r.state = .running ∨ r.state = .sweeteningOff) (p : Phase) :
    r.routedBy p = if p = .sweet then .through else .diverted := by
  rw [Section.routedBy, if_pos ((passesLiquor_iff _).2 h)]
  rcases h with e | e <;> rw [e] <;> rfl

theorem routedBy_other {r : Section} (run : r.state ≠ .running) (off : r.state ≠ .sweeteningOff) (p : Phase) :
    r.routedBy p = r.discharge := by
  rw [Section.routedBy, if_neg]
  rw [passesLiquor_iff]
  rintro (h | h)
  exacts [run h, off h]

theorem followPhase_bad (h : (s.level i).validity = .bad) : s.followPhase i = s :=
  if_pos ((levelBad_iff s i).2 h)

theorem followPhase_valid (h : (s.level i).validity = .valid) :
    s.followPhase i = s.setPhase i (phaseOf (s.sec i).cls (s.level i).bands (s.solids i).bands) :=
  if_neg (by rw [levelBad_iff, h]; simp)

theorem phaseOf_eq (cls : SectionClass) (level solids : Bands) : phaseOf cls level solids =
    if level.empty = some true then .empty
    else if cls = .storage ∨ solids.sweet = some true then .sweet else .water := by
  cases cls <;> simp [phaseOf]

end

/-! ### A delivery taken whole (R50, R55) -/

theorem reportLevel_eq (s : State) (i : SectionId) :
    s.reportLevel i = { s with link := { s.link with reports := (s.reportLevel i).link.reports } } := by
  unfold State.reportLevel
  split
  · exact report_eq _ _
  · rfl

theorem mem_reportLevel (s : State) (i : SectionId) (k : ReportKey) : k ∈ (s.reportLevel i).link.reports ↔
    k ∈ s.link.reports ∨ (k = .level i ∧ s.link.mask.level = true ∧
      (s.sec i).state ≠ .absent ∧ (s.sec i).state ≠ .excluded) := by
  unfold State.reportLevel
  rw [← partakes_iff]
  split
  · next h => rw [mem_report, h]; simp [ReportMask.allows]
  · next h => simp [h]

/-- What a delivery of the scanner hands on, once SENSOR has been seen to. -/
def State.handedBy (s : State) (c : ChannelId) (old new : Channel) : List Delivery :=
  (crossings old.bands new.bands).flatMap ((s.sensedBy c old new).crossingHandings (channelSection c))

theorem toldBy_same {s : State} {c : ChannelId} {old new : Channel} (same : old.validity = new.validity) :
    s.toldBy c old new = (s.sensedBy c old new).handAll (s.handedBy c old new) := if_pos same

theorem toldBy_changed {s : State} {c : ChannelId} {old new : Channel} (ne : old.validity ≠ new.validity) :
    s.toldBy c old new =
      ((s.sensedBy c old new).handAll (s.handedBy c old new)).reportLevel (channelSection c) := if_neg ne

theorem toldBy_eq (s : State) (c : ChannelId) (old new : Channel) : s.toldBy c old new =
    { s.sensedBy c old new with
      work := (s.sensedBy c old new).work ++ s.handedBy c old new
      link := { (s.sensedBy c old new).link with reports := (s.toldBy c old new).link.reports } } := by
  by_cases same : old.validity = new.validity
  · rw [toldBy_same same]
    rfl
  · rw [toldBy_changed same, reportLevel_eq]
    rfl

theorem mem_toldBy (s : State) (c : ChannelId) (old new : Channel) (k : ReportKey) :
    k ∈ (s.toldBy c old new).link.reports ↔ k ∈ (s.sensedBy c old new).link.reports ∨
      (k = .level (channelSection c) ∧ old.validity ≠ new.validity ∧
        (s.sensedBy c old new).link.mask.level = true ∧
        ((s.sensedBy c old new).sec (channelSection c)).state ≠ .absent ∧
        ((s.sensedBy c old new).sec (channelSection c)).state ≠ .excluded) := by
  by_cases same : old.validity = new.validity
  · rw [toldBy_same same]
    simp [same]
  · rw [toldBy_changed same, mem_reportLevel]
    simp [same]

/-- Settles O38: the parts of a delivery in the order it is taken. -/
theorem deliveryMovesPhaseSensorAndFull : Obligations.DeliveryMovesPhaseSensorAndFull := by
  refine ⟨crossings_eq, fun s d u w => ⟨fun c reached => ?_, fun c cleared => ?_, ?_, fun c other => ?_,
    rfl, rfl⟩, fun s c old new => ⟨s.toldBy c old new, takeDelivery_eq s c old new, s.sensedBy c old new,
    fun level valid bad => ?_, fun level bad valid => ?_, fun rest => ?_, toldBy_eq s c old new,
    mem_toldBy s c old new⟩, fun s c raw on le due => ⟨s.sampledAt c raw, ?_⟩,
    fun s i => ⟨followPhase_bad s i, fun valid => ?_⟩⟩
  · have same : s.crossingHandings d c = s.placings d := by
      simp only [List.mem_cons, List.not_mem_nil, or_false] at reached
      rcases reached with rfl | rfl <;> rfl
    rw [same]
    refine ⟨fun h => ?_, placing_iff s d u⟩
    obtain ⟨-, v, -, e⟩ := (mem_placings s d w).1 h
    exact ⟨v, e⟩
  · have same : s.crossingHandings d c =
        (s.holdersOfFull d).map fun u => Delivery.removeReason u (.full d) := by
      simp only [List.mem_cons, List.not_mem_nil, or_false] at cleared
      rcases cleared with rfl | rfl <;> rfl
    rw [same]
    refine ⟨fun h => ?_, lifting_iff s d u⟩
    obtain ⟨v, -, e⟩ := (mem_liftings s d w).1 h
    exact ⟨v, e⟩
  · refine if_congr (and_congr Iff.rfl ?_) rfl rfl
    simp [hasClaim]
  · simp only [List.mem_cons, List.not_mem_nil, or_false] at other
    rcases other with rfl | rfl | rfl | rfl | rfl <;> rfl
  · rw [State.sensedBy, if_pos level, valid, bad]
    rfl
  · rw [State.sensedBy, if_pos level, valid, bad]
    rfl
  · rw [State.sensedBy]
    rcases rest with solids | same
    · rw [if_neg (by omega)]
    · rw [same]
      cases new.validity <;> exact ite_self _
  · rw [exec_channelSample_due on le due, sample_eq]
  · rw [followPhase_valid s i valid, phase_setPhase]
    generalize call : phaseOf (s.sec i).cls (s.level i).bands (s.solids i).bands = p
    refine ⟨by rw [← call, phaseOf_eq], fun same => setPhase_same s i same.symm, fun ne => ?_⟩
    have ne : (s.sec i).phase ≠ p := fun e => ne e.symm
    have own := sec_setPhase s i ne
    have frame := setPhase_eq s i ne
    have reports (k : ReportKey) : k ∈ (s.setPhase i p).link.reports ↔
        k ∈ s.link.reports ∨ (k = .sec i ∧ s.link.mask.sec = true) := by
      rw [setPhase_changed s i ne]
      exact mem_report _ _ _
    refine ⟨⟨_, s.phaseLooks i, rfl, ?_, mem_phaseLooks s i, reports, fun run off => ?_⟩, ?_, ?_, ?_,
      fun passing => ?_, fun enabled => (reports _).2 (.inr ⟨rfl, enabled⟩)⟩
    · rw [own]
      exact frame
    · rw [own, routedBy_other run off]
    · rw [own]
      rfl
    · rw [own]
    · rw [own]
    · rw [own, routedBy_passing passing]

end Sys2Proof.Machine

/-! The trip unit: its groups, its orders and its inputs (chapter 9). -/

namespace Sys2Proof.Machine

/-! ### A group trips and clears (R148, R149, R151) -/

/-- R149: the reasons a trip of group `g` places. -/
def State.tripPlacings (s : State) (g : GroupId) : List Delivery :=
  (s.tripMembers (s.group g).members).map fun i => .addReason i (.trip g)

/-- R151: the reasons that go as group `g` clears. -/
def State.tripLiftings (s : State) (g : GroupId) : List Delivery :=
  ((allIds 24).filter fun i => (s.sec i).holds.contains (.trip g)).map fun i => .removeReason i (.trip g)

theorem mem_tripPlacings (s : State) (g : GroupId) (w : Delivery) : w ∈ s.tripPlacings g ↔
    ∃ i ∈ (s.group g).members, w = .addReason i (.trip g) ∧
      (s.sec i).state ∈ [.filling, .conditioning, .circulating, .running, .sweeteningOff, .draining, .held] := by
  simp only [State.tripPlacings, State.tripMembers, List.mem_map, List.mem_filter, mem_takes_iff]
  constructor
  · rintro ⟨i, ⟨mem, takes⟩, rfl⟩
    exact ⟨i, mem, rfl, takes⟩
  · rintro ⟨i, mem, rfl, takes⟩
    exact ⟨i, ⟨mem, takes⟩, rfl⟩

theorem mem_tripLiftings (s : State) (g : GroupId) (w : Delivery) : w ∈ s.tripLiftings g ↔
    ∃ i, w = .removeReason i (.trip g) ∧ .trip g ∈ (s.sec i).holds := by
  simp only [State.tripLiftings, List.mem_map, List.mem_filter, List.mem_finRange, true_and,
    List.contains_iff_mem]
  constructor
  · rintro ⟨i, holds, rfl⟩
    exact ⟨i, rfl, holds⟩
  · rintro ⟨i, rfl, holds⟩
    exact ⟨i, holds, rfl⟩

section
variable (s : State) (g : GroupId) (cause : FirstCause) (active : List InputId) (forced : Bool)

theorem tripGroup_eq : s.tripGroup g cause active forced = { s with
    trips := { s.trips with groups := s.trips.groups.set g { s.group g with
      state := .tripped, firstCause := some cause, activeInputs := active, forced := forced } }
    work := s.work ++ s.tripPlacings g ++ capHanding g (s.group g).cap (s.group g).cap ++
      ((s.group g).members.map fun i => .reexamine i .other)
    link := { s.link with reports := (s.tripGroup g cause active forced).link.reports } } := by
  unfold State.tripGroup
  dsimp only
  rw [report_eq]
  simp only [State.handAll, State.setGroup, State.tripPlacings, List.append_assoc]

theorem clearGroup_eq : s.clearGroup g = { s with
    trips := { s.trips with groups := s.trips.groups.set g { s.group g with
      state := .normal, firstCause := none, activeInputs := [], forced := false } }
    work := s.work ++ s.tripLiftings g ++ capHanding g (s.group g).cap none ++
      ((s.group g).members.map fun i => .reexamine i .other)
    link := { s.link with reports := (s.clearGroup g).link.reports } } := by
  unfold State.clearGroup
  dsimp only
  rw [report_eq]
  simp only [State.handAll, State.setGroup, State.tripLiftings, List.append_assoc]

theorem mem_tripGroup (k : ReportKey) : k ∈ (s.tripGroup g cause active forced).link.reports ↔
    k ∈ s.link.reports ∨ (k = .trip g ∧ s.link.mask.trip = true) := by
  unfold State.tripGroup
  dsimp only
  rw [mem_report]
  refine or_congr Iff.rfl (and_congr_right ?_)
  rintro rfl
  rfl

theorem mem_clearGroup (k : ReportKey) : k ∈ (s.clearGroup g).link.reports ↔
    k ∈ s.link.reports ∨ (k = .trip g ∧ s.link.mask.trip = true) := by
  unfold State.clearGroup
  dsimp only
  rw [mem_report]
  refine or_congr Iff.rfl (and_congr_right ?_)
  rintro rfl
  rfl

end

/-! ### The records of the groups -/

section
variable (s : State) (g : GroupId)

/-- A group's record set, with its TRIP report. -/
def State.regroup (r : TripGroup) : State := (s.setGroup g r).report (.trip g)

theorem group_regroup (r : TripGroup) (h : GroupId) :
    (s.regroup g r).group h = if h = g then r else s.group h := Table.get_set _ _ _ _

theorem group_tripGroup (cause : FirstCause) (active : List InputId) (forced : Bool) (h : GroupId) :
    (s.tripGroup g cause active forced).group h = if h = g then
      { s.group g with state := .tripped, firstCause := some cause, activeInputs := active, forced := forced }
    else s.group h := Table.get_set _ _ _ _

theorem group_clearGroup (h : GroupId) : (s.clearGroup g).group h = if h = g then
      { s.group g with state := .normal, firstCause := none, activeInputs := [], forced := false }
    else s.group h := Table.get_set _ _ _ _

theorem forceGroup_normal (normal : (s.group g).state = .normal) :
    s.forceGroup g = s.tripGroup g .forced (s.group g).activeInputs true := by
  simp only [State.forceGroup, normal]

theorem forceGroup_forced (tripped : (s.group g).state = .tripped) (forced : (s.group g).forced = true) :
    s.forceGroup g = s := by
  simp only [State.forceGroup, tripped, forced, if_true]

theorem forceGroup_tripped (tripped : (s.group g).state = .tripped) (free : (s.group g).forced = false) :
    s.forceGroup g = s.regroup g { s.group g with forced := true } := by
  simp only [State.forceGroup, tripped, free]
  rfl

/-- R152: the record of a forced group. -/
def TripGroup.force (r : TripGroup) : TripGroup :=
  { r with
    state := .tripped, firstCause := if r.state = .normal then some .forced else r.firstCause, forced := true }

theorem group_forceGroup (h : GroupId) :
    (s.forceGroup g).group h = if h = g then (s.group g).force else s.group h := by
  cases state : (s.group g).state with
  | normal =>
    rw [forceGroup_normal s g state, group_tripGroup]
    simp only [TripGroup.force, state, if_true]
  | tripped =>
    have force : (s.group g).force = { s.group g with forced := true } := by
      simp only [TripGroup.force, state, reduceCtorEq, if_false]
    cases forced : (s.group g).forced with
    | true =>
      rw [forceGroup_forced s g state forced, force, ← forced]
      split
      · next e => rw [e]
      · rfl
    | false => rw [forceGroup_tripped s g state forced, group_regroup, force]

end

theorem group_settle (s : State) (g : GroupId) : s.settle.group g = s.group g :=
  congrArg (fun t : TripUnit => t.groups.get g) (settle_frame s).trips

/-- A change of one group's record alone, by what follows for the cascade it starts. -/
theorem group_settle_of {s t : State} {g : GroupId} {r : TripGroup}
    (own : ∀ h, t.group h = if h = g then r else s.group h) :
    t.settle.group g = r ∧ ∀ h, h ≠ g → t.settle.group h = s.group h := by
  refine ⟨?_, fun h ne => ?_⟩
  · rw [group_settle, own, if_pos rfl]
  · rw [group_settle, own, if_neg ne]

/-! ### FORCE TRIP and CLEAR TRIP (R152, R153) -/

section
variable {s : State} {t : Telegram} {id : Nat} {g : GroupId}

theorem forceTrip_range (h : s.taking .forceTrip t (.oneId id)) (le : 4 ≤ id) :
    s.refusedAs .forceTrip t .range :=
  refused_of_owner rfl h (by simp only [forceOrder, idOf_of_le le])

theorem forceTrip_accepted (h : s.taking .forceTrip t (.oneId id)) (e : g.val = id) :
    s.acceptedAs .forceTrip t (s.forceGroup g).settle :=
  accepted_of_owner rfl h (by simp only [forceOrder, idOf_of_eq e])

theorem clearTrip_range (h : s.taking .clearTrip t (.oneId id)) (le : 4 ≤ id) :
    s.refusedAs .clearTrip t .range :=
  refused_of_owner rfl h (by simp only [clearOrder, idOf_of_le le])

theorem clearTrip_normal (h : s.taking .clearTrip t (.oneId id)) (e : g.val = id)
    (normal : (s.group g).state = .normal) : s.refusedAs .clearTrip t .state :=
  refused_of_owner rfl h (by simp only [clearOrder, idOf_of_eq e, if_pos normal])

theorem clearTrip_active (h : s.taking .clearTrip t (.oneId id)) (e : g.val = id)
    (tripped : (s.group g).state = .tripped) (active : s.trips.activeOf (s.group g).inputs ≠ []) :
    s.refusedAs .clearTrip t .active :=
  refused_of_owner rfl h (by
    simp only [clearOrder, idOf_of_eq e, tripped, reduceCtorEq, if_false]
    rw [if_pos active])

theorem clearTrip_accepted (h : s.taking .clearTrip t (.oneId id)) (e : g.val = id)
    (tripped : (s.group g).state = .tripped) (idle : s.trips.activeOf (s.group g).inputs = []) :
    s.acceptedAs .clearTrip t (s.clearGroup g).settle :=
  accepted_of_owner rfl h (by
    simp only [clearOrder, idOf_of_eq e, tripped, reduceCtorEq, if_false]
    rw [if_neg (by simp [idle])])

end

theorem activeOf_nil_iff (t : TripUnit) (ids : List InputId) :
    t.activeOf ids = [] ↔ ∀ k ∈ ids, (t.inputs.get k).active = false := by
  simp [TripUnit.activeOf, List.filter_eq_nil_iff]

/-- Settles O47: the two changes of a group, then the two orders. -/
theorem forceAndClearTripGroup : Obligations.ForceAndClearTripGroup := by
  refine ⟨fun s g cause active forced => ⟨_, s.tripPlacings g, capHanding g (s.group g).cap (s.group g).cap,
      rfl, tripGroup_eq s g cause active forced, mem_tripPlacings s g, fun e => ?_, fun c e => ?_,
      mem_tripGroup s g cause active forced⟩,
    fun s g => ⟨_, s.tripLiftings g, capHanding g (s.group g).cap none, rfl, clearGroup_eq s g,
      mem_tripLiftings s g, fun e => ?_, fun c e => ?_, mem_clearGroup s g⟩,
    fun s g i c => ⟨rfl, rfl, rfl⟩,
    fun s g => ⟨forceGroup_normal s g, forceGroup_forced s g, forceGroup_tripped s g⟩,
    fun s t id => ⟨fun h => ⟨forceTrip_range h, fun g e => ⟨_, forceTrip_accepted h e, rfl, ?_⟩⟩,
      fun h => ⟨clearTrip_range h, fun g e => ⟨clearTrip_normal h e, fun tripped => ⟨fun busy => ?_,
        fun idle => ⟨_, clearTrip_accepted h e tripped ((activeOf_nil_iff _ _).2 idle), rfl, ?_⟩⟩⟩⟩⟩⟩
  · rw [e]
    rfl
  · rw [e]
    rfl
  · rw [e]
    rfl
  · rw [e]
    rfl
  · obtain ⟨own, others⟩ := group_settle_of (group_forceGroup s g)
    rw [own]
    exact ⟨rfl, rfl, rfl, rfl, rfl, others⟩
  · obtain ⟨k, mem, active⟩ := busy
    refine clearTrip_active h e tripped fun none => ?_
    simp [(activeOf_nil_iff _ _).1 none k mem] at active
  · obtain ⟨own, others⟩ := group_settle_of (group_clearGroup s g)
    rw [own]
    exact ⟨rfl, rfl, rfl, rfl, rfl, others⟩

/-! ### A trip input (R146, R148, R150) -/

/-- The inputs of a set that these records show active. -/
def activeAmong (inputs : Table TripInput 8) (ids : List InputId) : List InputId :=
  ids.filter fun k => (inputs.get k).active

/-- R148: a group's record once input `i` of it has become active. -/
def TripGroup.raised (inputs : Table TripInput 8) (i : InputId) (r : TripGroup) : TripGroup :=
  { r with
    state := .tripped
    firstCause := if r.state = .normal then some (.input i) else r.firstCause
    activeInputs := activeAmong inputs r.inputs }

/-- R150: whether a group clears by itself. -/
def TripGroup.clears (inputs : Table TripInput 8) (r : TripGroup) : Prop :=
  r.state = .tripped ∧ r.mode = .selfClearing ∧ r.forced = false ∧ activeAmong inputs r.inputs = []

/-- R150: a group's record once an input of it has become inactive. -/
def TripGroup.lowered (inputs : Table TripInput 8) (r : TripGroup) : TripGroup :=
  if r.state = .tripped ∧ r.mode = .selfClearing ∧ r.forced = false ∧ activeAmong inputs r.inputs = [] then
    { r with state := .normal, firstCause := none, activeInputs := [], forced := false }
  else { r with activeInputs := activeAmong inputs r.inputs }

theorem lowered_clears {inputs : Table TripInput 8} {r : TripGroup} (h : r.clears inputs) :
    r.lowered inputs = { r with state := .normal, firstCause := none, activeInputs := [], forced := false } :=
  if_pos h

theorem lowered_stays {inputs : Table TripInput 8} {r : TripGroup} (h : ¬ r.clears inputs) :
    r.lowered inputs = { r with activeInputs := activeAmong inputs r.inputs } :=
  if_neg h

theorem lowered_activeInputs (inputs : Table TripInput 8) (r : TripGroup) :
    (r.lowered inputs).activeInputs = activeAmong inputs r.inputs := by
  by_cases h : r.clears inputs
  · rw [lowered_clears h]
    obtain ⟨-, -, -, none⟩ := h
    exact none.symm
  · rw [lowered_stays h]

section
variable (s : State) (i : InputId) (g : GroupId)

theorem groupInputActive_normal (normal : (s.group g).state = .normal) : s.groupInputActive i g =
    s.tripGroup g (.input i) (s.trips.activeOf (s.group g).inputs) (s.group g).forced := by
  simp only [State.groupInputActive, normal]

theorem groupInputActive_tripped (tripped : (s.group g).state = .tripped) : s.groupInputActive i g =
    s.regroup g { s.group g with activeInputs := s.trips.activeOf (s.group g).inputs } := by
  simp only [State.groupInputActive, tripped]
  rfl

theorem trips_groupInputActive : (s.groupInputActive i g).trips =
    { s.trips with groups := s.trips.groups.set g ((s.group g).raised s.trips.inputs i) } := by
  cases state : (s.group g).state with
  | normal =>
    rw [groupInputActive_normal s i g state]
    simp only [TripGroup.raised, state, if_true]
    rfl
  | tripped =>
    rw [groupInputActive_tripped s i g state]
    simp only [TripGroup.raised, state, reduceCtorEq, if_false]
    rw [← state]
    rfl

theorem groupInputInactive_clears (h : (s.group g).clears s.trips.inputs) : s.groupInputInactive g =
    (s.regroup g { s.group g with activeInputs := s.trips.activeOf (s.group g).inputs }).clearGroup g :=
  if_pos h

theorem groupInputInactive_stays (h : ¬ (s.group g).clears s.trips.inputs) : s.groupInputInactive g =
    s.regroup g { s.group g with activeInputs := s.trips.activeOf (s.group g).inputs } :=
  if_neg h

theorem trips_groupInputInactive : (s.groupInputInactive g).trips =
    { s.trips with groups := s.trips.groups.set g ((s.group g).lowered s.trips.inputs) } := by
  by_cases h : (s.group g).clears s.trips.inputs
  · rw [groupInputInactive_clears s g h, lowered_clears h]
    unfold State.clearGroup
    dsimp only
    rw [group_regroup, if_pos rfl]
    show ({ s.trips with groups := (s.trips.groups.set g _).set g _ } : TripUnit) = _
    rw [Table.set_set]
  · rw [groupInputInactive_stays s g h, lowered_stays h]
    rfl

end

/-- An event taken by several groups in turn, each of which sets its own record by the inputs. -/
theorem foldGroups_spec {f : State → GroupId → State} {F : Table TripInput 8 → TripGroup → TripGroup}
    (one : ∀ s g, (f s g).trips =
      { s.trips with groups := s.trips.groups.set g (F s.trips.inputs (s.group g)) })
    (l : List GroupId) (nodup : l.Nodup) (s : State) :
    (l.foldl f s).trips.inputs = s.trips.inputs ∧
    ∀ h, (l.foldl f s).group h = if h ∈ l then F s.trips.inputs (s.group h) else s.group h := by
  induction l generalizing s with
  | nil => exact ⟨rfl, fun h => (if_neg List.not_mem_nil).symm⟩
  | cons g l ih =>
    obtain ⟨new, nodup⟩ := List.nodup_cons.1 nodup
    obtain ⟨inputs, groups⟩ := ih nodup (f s g)
    have set (h : GroupId) : (f s g).group h = if h = g then F s.trips.inputs (s.group g) else s.group h := by
      rw [State.group, one, Table.get_set]
      rfl
    have kept : (f s g).trips.inputs = s.trips.inputs := by rw [one]
    refine ⟨inputs.trans kept, fun h => ?_⟩
    rw [List.foldl_cons, groups, kept, set]
    by_cases e : h = g
    · subst e
      rw [if_neg new, if_pos rfl, if_pos List.mem_cons_self]
    · rw [if_neg e]
      exact if_congr (by simp [e]) rfl rfl

section
variable (s : State) (i : InputId) (now : Bool)

/-- R146: input `i` set, before its groups take the event. -/
def State.inputSet : State := s.setInput i ((s.trips.inputs.get i).becoming now)

/-- The groups of input `i`, in the order in which they take the event. -/
def State.inputTurns : List GroupId := (State.shuffle ((s.inputSet i now).groupsOf i) (s.inputSet i now)).1

/-- The part as the first group takes the event. -/
def State.inputStart : State := (State.shuffle ((s.inputSet i now).groupsOf i) (s.inputSet i now)).2

theorem inputTurns_nodup : (s.inputTurns i now).Nodup :=
  (shuffle_perm _ _).nodup_iff.2 (groupsOf_nodup _ _)

theorem mem_inputTurns (g : GroupId) : g ∈ s.inputTurns i now ↔ i ∈ (s.group g).inputs :=
  (shuffle_perm _ _).mem_iff.trans mem_groupsOf

theorem inputStart_eq : s.inputStart i now = { s with
    trips := { s.trips with inputs := s.trips.inputs.set i { s.trips.inputs.get i with
      level := (s.trips.inputs.get i).polarity.level now, active := now } }
    order := (s.inputStart i now).order, drawn := (s.inputStart i now).drawn } := by
  rw [State.inputStart, shuffle_eq]
  rfl

theorem inputStart_inputs (j : InputId) : (s.inputStart i now).trips.inputs.get j = if j = i then
    { s.trips.inputs.get i with level := (s.trips.inputs.get i).polarity.level now, active := now }
    else s.trips.inputs.get j := by
  rw [inputStart_eq, Table.get_set]

theorem inputStart_group (g : GroupId) : (s.inputStart i now).group g = s.group g := by
  rw [inputStart_eq]
  rfl

end

section
variable {s : State} {i : InputId}

theorem exec_tripInputActive (on : s.powered = true) (idle : (s.trips.inputs.get i).active = false) :
    exec (.tripInputActive i.val) s = .next
      ((s.inputTurns i true).foldl (fun x g => x.groupInputActive i g) (s.inputStart i true)).settle := by
  show execTripInputActive i.val s = _
  simp only [execTripInputActive, idOf_val]
  exact congrArg Host.Outcome.next ((powering_on on _).trans (if_neg (by simp [idle])))

theorem exec_tripInputActive_again (active : (s.trips.inputs.get i).active = true) :
    exec (.tripInputActive i.val) s = .next s := by
  show execTripInputActive i.val s = _
  simp only [execTripInputActive, idOf_val]
  exact congrArg Host.Outcome.next (powering_self (if_pos active))

theorem exec_tripInputInactive (on : s.powered = true) (active : (s.trips.inputs.get i).active = true) :
    exec (.tripInputInactive i.val) s = .next
      ((s.inputTurns i false).foldl (fun x g => x.groupInputInactive g) (s.inputStart i false)).settle := by
  show execTripInputInactive i.val s = _
  simp only [execTripInputInactive, idOf_val]
  exact congrArg Host.Outcome.next ((powering_on on _).trans (if_pos active))

theorem exec_tripInputInactive_again (idle : (s.trips.inputs.get i).active = false) :
    exec (.tripInputInactive i.val) s = .next s := by
  show execTripInputInactive i.val s = _
  simp only [execTripInputInactive, idOf_val]
  exact congrArg Host.Outcome.next (powering_self (if_neg (by simp [idle])))

end

/-- The inputs and the groups once the event of input `i` has been taken, and the cascade has ended. -/
theorem inputEvent_spec (s : State) (i : InputId) (now : Bool) {f : State → GroupId → State}
    {F : Table TripInput 8 → TripGroup → TripGroup}
    (one : ∀ s g, (f s g).trips =
      { s.trips with groups := s.trips.groups.set g (F s.trips.inputs (s.group g)) })
    {u : State} (e : u = ((s.inputTurns i now).foldl f (s.inputStart i now)).settle) :
    (u.trips.inputs.get i).active = now ∧
    (∀ j, j ≠ i → u.trips.inputs.get j = s.trips.inputs.get j) ∧
    (∀ g, i ∉ (s.group g).inputs → u.group g = s.group g) ∧
    ∀ g, i ∈ (s.group g).inputs → u.group g = F (s.inputStart i now).trips.inputs (s.group g) := by
  obtain ⟨inputs, groups⟩ := foldGroups_spec one _ (inputTurns_nodup s i now) (s.inputStart i now)
  have trips := (settle_frame ((s.inputTurns i now).foldl f (s.inputStart i now))).trips
  rw [← e] at trips
  have own (g : GroupId) : u.group g = _ := (congrArg (fun t : TripUnit => t.groups.get g) trips).trans (groups g)
  rw [← trips] at inputs
  refine ⟨?_, fun j ne => ?_, fun g out => ?_, fun g inside => ?_⟩
  · rw [inputs, inputStart_inputs, if_pos rfl]
  · rw [inputs, inputStart_inputs, if_neg ne]
  · rw [own, if_neg (by rwa [mem_inputTurns]), inputStart_group]
  · rw [own, if_pos (by rwa [mem_inputTurns]), inputStart_group]

/-- Settles O48: the event of each group, and the groups taken in turn. -/
theorem tripInputMovesItsGroups : Obligations.TripInputMovesItsGroups := by
  refine ⟨fun s i g => ⟨_, rfl, groupInputActive_normal s i g, groupInputActive_tripped s i g, _, rfl,
      groupInputInactive_clears s g, fun stays => groupInputInactive_stays s g ?_⟩,
    fun s i now on was => ?_,
    fun s i on => ⟨exec_tripInputActive_again, exec_tripInputInactive_again, fun idle => ?_, fun active => ?_⟩⟩
  · rintro ⟨tripped, mode, free, none⟩
    rcases stays with normal | latched | forced | some
    · exact absurd (tripped.symm.trans normal) (by simp)
    · exact absurd (mode.symm.trans latched) (by simp)
    · exact absurd (free.symm.trans forced) (by simp)
    · exact some none
  · cases now with
    | true => exact ⟨s.inputTurns i true, s.inputStart i true, _, inputTurns_nodup s i true,
        mem_inputTurns s i true, inputStart_eq s i true, fun _ => ⟨exec_tripInputActive on was, rfl⟩,
        fun h => absurd h (by simp)⟩
    | false => exact ⟨s.inputTurns i false, s.inputStart i false, _, inputTurns_nodup s i false,
        mem_inputTurns s i false, inputStart_eq s i false, fun h => absurd h (by simp),
        fun _ => ⟨exec_tripInputInactive on was, rfl⟩⟩
  · rw [exec_tripInputActive on idle]
    generalize taken : State.settle _ = u
    obtain ⟨now, inputs, others, own⟩ :=
      inputEvent_spec s i true (F := fun inputs => TripGroup.raised inputs i)
        (fun s g => trips_groupInputActive s i g) taken.symm
    refine ⟨u, rfl, now, inputs, others, fun g inside => ?_⟩
    rw [own g inside]
    refine ⟨rfl, ?_, rfl⟩
    refine List.mem_filter.2 ⟨inside, ?_⟩
    rw [inputStart_inputs, if_pos rfl]
  · rw [exec_tripInputInactive on active]
    generalize taken : State.settle _ = u
    obtain ⟨now, inputs, others, own⟩ := inputEvent_spec s i false (F := TripGroup.lowered)
        trips_groupInputInactive taken.symm
    have still (k : InputId) : ((s.inputStart i false).trips.inputs.get k).active = true ↔
        k ≠ i ∧ (s.trips.inputs.get k).active = true := by
      rw [inputStart_inputs]
      by_cases e : k = i <;> simp [e]
    refine ⟨u, rfl, now, inputs, others, fun g inside => ?_⟩
    rw [own g inside]
    refine ⟨fun mem => ?_, fun tripped mode free rest => ?_, fun tripped stays => ?_⟩
    · rw [lowered_activeInputs] at mem
      obtain ⟨-, active⟩ := List.mem_filter.1 mem
      exact ((still i).1 active).1 rfl
    · have none : activeAmong (s.inputStart i false).trips.inputs (s.group g).inputs = [] := by
        refine List.filter_eq_nil_iff.2 fun k mem active => ?_
        obtain ⟨ne, was⟩ := (still k).1 active
        simp [rest k mem ne] at was
      rw [lowered_clears ⟨tripped, mode, free, none⟩]
      exact ⟨rfl, rfl⟩
    · have barred : ¬ (s.group g).clears (s.inputStart i false).trips.inputs := by
        rintro ⟨-, mode, free, none⟩
        rcases stays with latched | forced | ⟨k, mem, ne, was⟩
        · exact absurd (mode.symm.trans latched) (by simp)
        · exact absurd (free.symm.trans forced) (by simp)
        · exact List.filter_eq_nil_iff.1 none k mem ((still k).2 ⟨ne, was⟩)
      rw [lowered_stays barred]
      exact ⟨tripped, rfl⟩

/-! ### SET GROUP (R154) -/

theorem mem_idsNamed {n : Nat} {ids : List Nat} (i : Fin n) : i ∈ idsNamed n ids ↔ i.val ∈ ids := by
  simp [idsNamed]

section
variable {s : State} {t : Telegram} {id : Nat} {members inputs : List Nat} {mode p : Nat} {cap : Option Nat}
  {g : GroupId}

theorem setGroup_range (h : s.taking .setGroup t (.group id members inputs mode p cap))
    (bad : 4 ≤ id ∨ (∃ k ∈ inputs, 7 < k) ∨ 24 < members.length) : s.refusedAs .setGroup t .range := by
  refine refused_of_owner rfl h ?_
  rcases Nat.lt_or_ge id 4 with lt | le
  · have bad : (inputs.any (fun i => decide (7 < i)) || decide (24 < members.length)) = true := by
      rcases bad with le | bad
      · omega
      · simpa using bad
    simp only [groupOrder, idOf_of_eq (i := (⟨id, lt⟩ : Fin 4)) rfl, if_pos bad]
  · simp only [groupOrder, idOf_of_le le]

/-- The order past its ranges. -/
theorem groupOrder_inRange (e : g.val = id) (low : ∀ k ∈ inputs, k ≤ 7) (few : members.length ≤ 24) :
    groupOrder (.group id members inputs mode p cap) s =
      if members.any (fun m => (s.named m).isNone) then s.refuse .noSection
      else if (s.group g).state = .tripped then s.refuse .state
      else ((s.configureGroup g (idsNamed 24 members) (idsNamed 8 inputs) (tripModeOf mode) cap).settle).accept := by
  have good : ¬ (inputs.any (fun i => decide (7 < i)) || decide (24 < members.length)) = true := by
    simpa using ⟨low, few⟩
  simp only [groupOrder, idOf_of_eq e, if_neg good]

end

theorem all_named_iff (s : State) (members : List Nat) :
    members.any (fun m => (s.named m).isNone) = true ↔ ∃ m ∈ members, s.named m = none := by
  simp

section
variable (s : State) (g : GroupId) (members : List SectionId) (inputs : List InputId) (mode : TripMode)
  (cap : Option Nat)

/-- R154: the group's new settings stored, before its active inputs are looked at. -/
def State.grouped : State := s.setGroup g { s.group g with
  members, inputs, mode, cap, activeInputs := s.trips.activeOf inputs }

theorem group_grouped (h : GroupId) : (s.grouped g members inputs mode cap).group h = if h = g then
    { s.group g with members, inputs, mode, cap, activeInputs := s.trips.activeOf inputs }
    else s.group h := Table.get_set _ _ _ _

theorem configureGroup_idle (none : s.trips.activeOf inputs = []) :
    s.configureGroup g members inputs mode cap = (s.grouped g members inputs mode cap).report (.trip g) := by
  simp only [State.configureGroup, none, State.grouped]

theorem configureGroup_trips {k : InputId} {rest : List InputId} (some : s.trips.activeOf inputs = k :: rest) :
    s.configureGroup g members inputs mode cap =
      (s.grouped g members inputs mode cap).tripGroup g (.input k) (k :: rest) (s.group g).forced := by
  simp only [State.configureGroup, some, State.grouped]

/-- R154: the record of a group that SET GROUP has configured. -/
def TripGroup.configured (r : TripGroup) (active : List InputId) : TripGroup :=
  { r with
    members, inputs, mode, cap, activeInputs := active
    state := if active = [] then r.state else .tripped
    firstCause := match active with
      | [] => r.firstCause
      | k :: _ => some (.input k) }

theorem group_configureGroup (h : GroupId) : (s.configureGroup g members inputs mode cap).group h =
    if h = g then (s.group g).configured members inputs mode cap (s.trips.activeOf inputs) else s.group h := by
  cases active : s.trips.activeOf inputs with
  | nil =>
    rw [configureGroup_idle s g members inputs mode cap active]
    show (s.grouped g members inputs mode cap).group h = _
    rw [group_grouped, active]
    rfl
  | cons k rest =>
    rw [configureGroup_trips s g members inputs mode cap active, group_tripGroup, group_grouped, group_grouped,
      if_pos rfl]
    split
    · rfl
    · rfl

end

/-- Settles O46: the refusals in their order, then the configured group. -/
theorem setGroupConfiguresGroup : Obligations.SetGroupConfiguresGroup := by
  refine fun s t id members inputs mode p cap h => ⟨setGroup_range h, fun g e low few => ⟨fun unnamed => ?_,
    fun named => ⟨fun tripped => ?_, fun normal => ?_⟩⟩⟩
  · exact refused_of_owner rfl h (by
      rw [groupOrder_inRange e low few, if_pos ((all_named_iff s members).2 unnamed)])
  · have none : ¬ members.any (fun m => (s.named m).isNone) = true := by
      rw [all_named_iff]
      exact fun ⟨m, mem, e⟩ => named m mem e
    exact refused_of_owner rfl h (by rw [groupOrder_inRange e low few, if_neg none, if_pos tripped])
  · have none : ¬ members.any (fun m => (s.named m).isNone) = true := by
      rw [all_named_iff]
      exact fun ⟨m, mem, e⟩ => named m mem e
    have free : ¬ (s.group g).state = .tripped := by simp [normal]
    refine ⟨_, accepted_of_owner rfl h (by rw [groupOrder_inRange e low few, if_neg none, if_neg free]), ?_⟩
    obtain ⟨own, others⟩ := group_settle_of (group_configureGroup s g (idsNamed 24 members) (idsNamed 8 inputs)
      (tripModeOf mode) cap)
    rw [own]
    refine ⟨mem_idsNamed, mem_idsNamed, idsNamed_ordered 24 members, idsNamed_ordered 8 inputs, rfl, rfl, rfl,
      fun idle => ?_, fun k rest active => ?_, others, s.grouped g (idsNamed 24 members)
        (idsNamed 8 inputs) (tripModeOf mode) cap, _, rfl, configureGroup_idle s g _ _ _ cap,
        fun k rest active => configureGroup_trips s g _ _ _ cap active, rfl⟩
    · exact (if_pos idle).trans normal
    · have active : s.trips.activeOf (idsNamed 8 inputs) = k :: rest := active
      have ordered : (s.trips.activeOf (idsNamed 8 inputs)).Pairwise (· < ·) :=
        (idsNamed_ordered 8 inputs).filter _
      rw [active] at ordered ⊢
      refine ⟨rfl, rfl, fun k' mem => ?_⟩
      rcases List.mem_cons.1 mem with rfl | later
      · exact Nat.le_refl _
      · exact Nat.le_of_lt (List.rel_of_pairwise_cons ordered later)

end Sys2Proof.Machine

/-! The pool: coverage, faults and returns (R130 to R137). -/

namespace Sys2Proof.Machine

/-! ### Coverage (R134 to R136) -/

/-- R134: the first free spare of a class is the lowest-numbered one. -/
theorem lowestFree_eq_some_iff (us : UnitSupervisor) (cls : Nat) (sp : UnitId) :
    us.lowestFree cls = some sp ↔ us.lowest cls sp := by
  have test (u : UnitId) : ((us.units.get u).freeSpare && (us.units.get u).cls == cls) = true ↔
      us.free cls u := by
    rw [free_iff, Bool.and_eq_true, beq_iff_eq]
  rw [UnitSupervisor.lowestFree, List.find?_eq_some_iff_getElem, UnitSupervisor.lowest, test]
  simp only [List.getElem_finRange, List.length_finRange, Bool.not_eq_true', ← Bool.not_eq_true, test]
  constructor
  · rintro ⟨free, k, len, rfl, before⟩
    exact ⟨free, fun j lt => before j.val lt⟩
  · rintro ⟨free, before⟩
    exact ⟨free, sp.val, sp.isLt, rfl, fun j lt => before ⟨j, by omega⟩ lt⟩

theorem lowestFree_eq_none_iff (us : UnitSupervisor) (cls : Nat) :
    us.lowestFree cls = none ↔ ∀ sp, ¬ us.free cls sp := by
  simp only [UnitSupervisor.lowestFree, List.find?_eq_none, List.mem_finRange, true_imp_iff,
    Bool.and_eq_true, beq_iff_eq, free_iff]

/-- Two records set, each written from the unit's own record or from the record asked for. -/
theorem units_by_cases {t : Table UnitRecord 48} {sp u : UnitId} {f g : UnitRecord → UnitRecord} (v : UnitId) :
    (if v = sp then f (t.get sp) else if v = u then g (t.get u) else t.get v) =
      if v = sp then f (t.get v) else if v = u then g (t.get v) else t.get v := by
  split
  · next e => rw [e]
  · split
    · next e => rw [e]
    · rfl

/-- R134: a spare assigned to another unit. -/
theorem covers_assign (us : UnitSupervisor) {sp u : UnitId} (ne : sp ≠ u) :
    us.covers (us.assign sp u) sp u us.demands := by
  refine ⟨rfl, fun v => ?_⟩
  simp only [UnitSupervisor.assign, get_setUnit, if_neg ne]
  exact units_by_cases (f := fun r => { r with covering := some u })
    (g := fun r => { r with coveredBy := some sp }) v

theorem ne_of_roles {us : UnitSupervisor} {sp u : UnitId} (spare : (us.units.get sp).role = .spare)
    (duty : (us.units.get u).role = .duty) : sp ≠ u := by
  rintro rfl
  exact absurd (spare.symm.trans duty) (by simp)

theorem requestCoverage_covers {us : UnitSupervisor} {sp u : UnitId} (duty : (us.units.get u).role = .duty)
    (lowest : us.lowest (us.units.get u).cls sp) :
    us.covers (us.requestCoverage u) sp u us.demands := by
  simp only [UnitSupervisor.requestCoverage, (lowestFree_eq_some_iff us _ sp).2 lowest]
  obtain ⟨⟨spare, -⟩, -⟩ := lowest
  exact covers_assign us (ne_of_roles spare duty)

theorem requestCoverage_queues {us : UnitSupervisor} {u : UnitId}
    (none : ∀ sp, ¬ us.free (us.units.get u).cls sp) : us.requestCoverage u =
      { us with demands := us.demands ++ [{ unit := u, cls := (us.units.get u).cls }] } := by
  simp only [UnitSupervisor.requestCoverage, (lowestFree_eq_none_iff us _).2 none]

theorem get_uncover (us : UnitSupervisor) {sp u : UnitId} (ne : sp ≠ u) (v : UnitId) :
    (us.uncover sp u).units.get v =
      if v = sp then { us.units.get v with covering := none }
      else if v = u then { us.units.get v with coveredBy := none }
      else us.units.get v := by
  simp only [UnitSupervisor.uncover, get_setUnit, if_neg ne]
  exact units_by_cases (f := fun r => { r with covering := none })
    (g := fun r => { r with coveredBy := none }) v

theorem cls_uncover (us : UnitSupervisor) (sp u v : UnitId) :
    ((us.uncover sp u).units.get v).cls = (us.units.get v).cls :=
  ((uncover_sameFaults us sp u).units v).2.2.2.2.1

theorem role_uncover (us : UnitSupervisor) (sp u v : UnitId) :
    ((us.uncover sp u).units.get v).role = (us.units.get v).role :=
  ((uncover_sameFaults us sp u).units v).2.2.2.1

theorem dropCovering_covers {us : UnitSupervisor} {sp u other : UnitId}
    (duty : (us.units.get u).role = .duty)
    (lowest : (us.uncover sp u).lowest (us.units.get u).cls other) :
    (us.uncover sp u).covers (us.dropCovering sp u) other u us.demands := by
  simp only [UnitSupervisor.dropCovering, cls_uncover, (lowestFree_eq_some_iff _ _ other).2 lowest]
  obtain ⟨⟨spare, -⟩, -⟩ := lowest
  exact covers_assign _ (ne_of_roles spare ((role_uncover us sp u u).trans duty))

theorem dropCovering_queues {us : UnitSupervisor} {sp u : UnitId}
    (none : ∀ other, ¬ (us.uncover sp u).free (us.units.get u).cls other) : us.dropCovering sp u =
      { us.uncover sp u with demands := { unit := u, cls := (us.units.get u).cls } :: us.demands } := by
  simp only [UnitSupervisor.dropCovering, cls_uncover, (lowestFree_eq_none_iff _ _).2 none]
  rfl

theorem offer_busy {us : UnitSupervisor} {sp : UnitId} (busy : ¬ us.free (us.units.get sp).cls sp) :
    us.offer sp = us :=
  if_neg fun free => busy ((free_iff us _ sp).2 ⟨free, rfl⟩)

theorem offer_unasked {us : UnitSupervisor} {sp : UnitId}
    (unasked : ∀ d ∈ us.demands, d.cls ≠ (us.units.get sp).cls) : us.offer sp = us := by
  have none : us.demands.find? (fun d => d.cls == (us.units.get sp).cls) = none :=
    List.find?_eq_none.2 fun d mem => by simpa using unasked d mem
  simp only [UnitSupervisor.offer, none, ite_self]

/-- R136: the oldest demand of the spare's class is the one met. -/
theorem offer_covers {us : UnitSupervisor} {sp : UnitId} {front rest : List SpareDemand} {d : SpareDemand}
    (free : us.free (us.units.get sp).cls sp) (queue : us.demands = front ++ d :: rest)
    (older : ∀ e ∈ front, e.cls ≠ (us.units.get sp).cls) (cls : d.cls = (us.units.get sp).cls)
    (once : (us.demands.map SpareDemand.unit).Nodup) (duty : (us.units.get d.unit).role = .duty) :
    us.covers (us.offer sp) sp d.unit (front ++ rest) := by
  have found : us.demands.find? (fun d => d.cls == (us.units.get sp).cls) = some d := by
    rw [queue, List.find?_append, List.find?_eq_none.2 fun e mem => by simpa using older e mem]
    simp [cls]
  have left : withoutDemand d.unit us.demands = front ++ rest := by
    rw [queue, List.map_append, List.map_cons, List.nodup_append] at once
    obtain ⟨-, tail, apart⟩ := once
    obtain ⟨new, -⟩ := List.nodup_cons.1 tail
    have keeps (l : List SpareDemand) (h : ∀ e ∈ l, e.unit ≠ d.unit) : withoutDemand d.unit l = l :=
      List.filter_eq_self.2 fun e mem => by simpa using h e mem
    have before := keeps front fun e mem =>
      apart e.unit (List.mem_map_of_mem mem) d.unit List.mem_cons_self
    have after := keeps rest fun e mem same => new (same ▸ List.mem_map_of_mem mem)
    unfold withoutDemand at before after ⊢
    rw [queue, List.filter_append, List.filter_cons_of_neg (by simp), before, after]
  have free' := ((free_iff us _ sp).1 free).1
  obtain ⟨spare, -⟩ := free
  simp only [UnitSupervisor.offer, free', if_true, found, left]
  exact covers_assign { us with demands := front ++ rest } (ne_of_roles spare duty)

/-! ### A unit FAILED (R130, R134, R135) -/

/-- R130: unit `u` FAILED, before its coverage is seen to. -/
def UnitSupervisor.failing (us : UnitSupervisor) (u : UnitId) : UnitSupervisor :=
  { us with
    units := us.units.set u { us.units.get u with condition := .failed, window := none }
    watch := us.watch.filter fun w => w ≠ u }

section
variable {secs : Table Section 24} {us : UnitSupervisor} {u : UnitId}

theorem failing_eq (us : UnitSupervisor) (u : UnitId) :
    { us.setUnit u { us.units.get u with condition := .failed, window := none } with
      watch := us.watch.filter fun w => w != u } = us.failing u := by
  have same : (us.watch.filter fun w => w != u) = us.watch.filter fun w => decide (w ≠ u) :=
    List.filter_congr fun w _ => by rw [Bool.eq_iff_iff, bne_iff_ne, decide_eq_true_iff]
  rw [same]
  rfl

theorem get_failing (us : UnitSupervisor) (u v : UnitId) : (us.failing u).units.get v =
    if v = u then { us.units.get u with condition := .failed, window := none } else us.units.get v :=
  Table.get_set _ _ _ _

theorem fail_duty (duty : (us.units.get u).role = .duty) : us.fail secs u =
    if inService secs (us.units.get u).sec then (us.failing u).requestCoverage u else us.failing u := by
  unfold UnitSupervisor.fail
  dsimp only
  rw [failing_eq]
  simp only [duty]

theorem fail_covering {d : UnitId} (spare : (us.units.get u).role = .spare)
    (covers : (us.units.get u).covering = some d) : us.fail secs u = (us.failing u).dropCovering u d := by
  unfold UnitSupervisor.fail
  dsimp only
  rw [failing_eq]
  simp only [spare, covers]

theorem fail_spare (spare : (us.units.get u).role = .spare)
    (free : (us.units.get u).covering = none) : us.fail secs u = us.failing u := by
  unfold UnitSupervisor.fail
  dsimp only
  rw [failing_eq]
  simp only [spare, free]

theorem inService_iff (i : SectionId) :
    inService secs (some i) = true ↔ (secs.get i).state ≠ .absent ∧ (secs.get i).state ≠ .excluded :=
  partakes_iff _

/-- Whatever its coverage, a FAILED unit has the condition, the window and the place off the watch list. -/
theorem fail_sameFaults (role : (us.units.get u).role ≠ .none) :
    SameFaults (us.failing u) (us.fail secs u) := by
  cases kind : (us.units.get u).role with
  | none => exact absurd kind role
  | duty =>
    rw [fail_duty kind]
    split
    · exact requestCoverage_sameFaults _ _
    · exact .refl _
  | spare =>
    cases covers : (us.units.get u).covering with
    | some d =>
      rw [fail_covering kind covers]
      exact dropCovering_sameFaults _ _ _
    | none =>
      rw [fail_spare kind covers]
      exact .refl _

end

/-! ### What a supervised change leaves of the faults -/

/-- The conditions, windows, fault inputs and the watch list that a change of the pool makes stay to the
end of the cascade it starts. -/
theorem settle_supervise_sameFaults (s : State) (f : UnitSupervisor → UnitSupervisor) :
    SameFaults (f s.supervisor) (s.supervise f).settle.supervisor := by
  have frame := settle_frame (s.supervise f)
  have driven : SameFaults (f s.supervisor) (s.supervise f).supervisor := by
    rw [State.supervise, supervisor_putUnits]
    exact (drive_sameFaults _ _ _).trans ⟨rfl, rfl, rfl, fun _ => ⟨rfl, rfl, rfl, rfl, rfl, rfl⟩⟩
  obtain ⟨reserve, window⟩ := frame.pool
  exact driven.trans ⟨frame.watch, reserve, window, frame.units⟩

theorem supervise_congr {s : State} {f g : UnitSupervisor → UnitSupervisor}
    (h : f s.supervisor = g s.supervisor) : s.supervise f = s.supervise g := by
  unfold State.supervise
  rw [h]

/-! ### The recovery window (R131) -/

theorem windowOut_iff (r : UnitRecord) :
    r.windowOut = true ↔ r.condition = .faultPending ∧ r.window = some 0 ∧ r.faultActive = true := by
  simp [UnitRecord.windowOut, and_assoc]

theorem exec_unitSupervisorTick {s : State} (on : s.powered = true) : exec .unitSupervisorTick s =
    .next { s with supervisor := s.supervisor.tick } :=
  congrArg Host.Outcome.next (powering_on on _)

theorem exec_recoveryWindowExpiry (s : State) (u : UnitId) : exec (.recoveryWindowExpiry u.val) s =
    .next (s.powering fun s => if (s.supervisor.units.get u).windowOut
      then (s.supervise fun us => us.fail s.sections u).settle else s) := by
  show execRecoveryWindowExpiry u.val s = _
  simp only [execRecoveryWindowExpiry, idOf_val]

theorem exec_recoveryWindowExpiry_open {s : State} {u : UnitId}
    (h : (s.supervisor.units.get u).windowOut = false) : exec (.recoveryWindowExpiry u.val) s = .next s := by
  rw [exec_recoveryWindowExpiry]
  exact congrArg Host.Outcome.next (powering_self (if_neg (by simp [h])))

theorem exec_recoveryWindowExpiry_out {s : State} {u : UnitId} (on : s.powered = true)
    (h : (s.supervisor.units.get u).windowOut = true) : exec (.recoveryWindowExpiry u.val) s =
      .next (s.supervise fun us => us.fail s.sections u).settle := by
  rw [exec_recoveryWindowExpiry]
  exact congrArg Host.Outcome.next ((powering_on on _).trans (if_pos h))

/-- Settles O43: the tick, and the unit that fails as its window runs out. -/
theorem recoveryWindowRunsOut : Obligations.RecoveryWindowRunsOut := by
  refine ⟨fun s on => exec_unitSupervisorTick on, fun s u on => ⟨fun open' => ?_,
    fun pending run active role => ⟨_, exec_recoveryWindowExpiry_out on
      ((windowOut_iff _).2 ⟨pending, run, active⟩), rfl, ?_⟩⟩⟩
  · refine exec_recoveryWindowExpiry_open ?_
    rw [← Bool.not_eq_true, windowOut_iff]
    rintro ⟨pending, run, active⟩
    rcases open' with h | h | h
    · exact h pending
    · exact h run
    · simp [active] at h
  · have faults := (fail_sameFaults (secs := s.sections) role).trans
      (settle_supervise_sameFaults s fun us => us.fail s.sections u)
    have failed : ((s.supervisor.fail s.sections u).units.get u).condition = .failed := by
      rw [((fail_sameFaults (secs := s.sections) role).units u).1, get_failing, if_pos rfl]
    have off := settle_off (supervise_off (f := fun us => us.fail s.sections u) failed
      (.inl (by rw [pending]; simp)))
    generalize (s.supervise fun us => us.fail s.sections u).settle = t at faults off
    obtain ⟨condition, output⟩ := off
    refine ⟨condition, ?_, output, fun v ne => ?_⟩
    · rw [(faults.units u).2.2.1, get_failing, if_pos rfl]
    · rw [(faults.units v).1, get_failing, if_neg ne]

/-! ### The fault input (R130, R131) -/

section
variable (us : UnitSupervisor) (u : UnitId)

/-- The fault input of unit `u` recorded. -/
def UnitSupervisor.marked (active : Bool) : UnitSupervisor :=
  { us with units := us.units.set u { us.units.get u with faultActive := active } }

theorem get_marked (active : Bool) (v : UnitId) : (us.marked u active).units.get v =
    if v = u then { us.units.get u with faultActive := active } else us.units.get v := Table.get_set _ _ _ _

theorem get_marked_self (active : Bool) :
    (us.marked u active).units.get u = { us.units.get u with faultActive := active } := Table.get_set_self _ _ _

/-- R130: the recovery window of unit `u` opened. -/
def UnitSupervisor.awaiting : UnitSupervisor :=
  { us with
    units := us.units.set u
      { us.units.get u with faultActive := true, condition := .faultPending, window := some us.window } }

theorem get_awaiting (v : UnitId) : (us.awaiting u).units.get v = if v = u then
    { us.units.get u with faultActive := true, condition := .faultPending, window := some us.window }
    else us.units.get v := Table.get_set _ _ _ _

/-- R131, R132: unit `u` recovered, at the newest end of the watch list. -/
def UnitSupervisor.recovered : UnitSupervisor :=
  { us with
    units := us.units.set u
      { us.units.get u with faultActive := false, condition := .healthy, window := none }
    watch := if us.watch.length < 16 then us.watch ++ [u] else (us.watch ++ [u]).tail }

theorem get_recovered (v : UnitId) : (us.recovered u).units.get v = if v = u then
    { us.units.get u with faultActive := false, condition := .healthy, window := none }
    else us.units.get v := Table.get_set _ _ _ _

variable {us u} {secs : Table Section 24}

theorem faultActive_idle (h : (us.units.get u).role = .none ∨ (us.units.get u).condition ≠ .healthy) :
    us.faultActive secs u = us.marked u true := by
  have own : (us.setUnit u { us.units.get u with faultActive := true }).units.get u =
      { us.units.get u with faultActive := true } := get_marked_self us u true
  unfold UnitSupervisor.faultActive
  dsimp only
  rw [own]
  dsimp only
  split
  · rfl
  · next healthy role =>
    rcases h with h | h
    · exact absurd h role
    · exact absurd healthy h
  · rfl
  · rfl

theorem faultActive_healthy (role : (us.units.get u).role ≠ .none)
    (healthy : (us.units.get u).condition = .healthy) : us.faultActive secs u =
      if (us.units.get u).runOutput && !us.watch.contains u then us.awaiting u
      else (us.marked u true).fail secs u := by
  have own : (us.setUnit u { us.units.get u with faultActive := true }).units.get u =
      { us.units.get u with faultActive := true } := get_marked_self us u true
  have twice : (us.setUnit u { us.units.get u with faultActive := true }).setUnit u
      { us.units.get u with faultActive := true, condition := .faultPending, window := some us.window } =
        us.awaiting u := by
    simp only [UnitSupervisor.setUnit, Table.set_set, UnitSupervisor.awaiting]
  unfold UnitSupervisor.faultActive
  dsimp only
  rw [own]
  dsimp only
  split
  · next none => exact absurd none role
  · exact if_congr Iff.rfl twice rfl
  · next pending _ => exact absurd (healthy.symm.trans pending) (by simp)
  · next failed _ => exact absurd (healthy.symm.trans failed) (by simp)

theorem faultActive_pends (role : (us.units.get u).role ≠ .none)
    (healthy : (us.units.get u).condition = .healthy) (runs : (us.units.get u).runOutput = true)
    (trusted : u ∉ us.watch) : us.faultActive secs u = us.awaiting u := by
  rw [faultActive_healthy role healthy, if_pos (by simp [runs, trusted])]

theorem faultActive_fails (role : (us.units.get u).role ≠ .none)
    (healthy : (us.units.get u).condition = .healthy)
    (h : (us.units.get u).runOutput = false ∨ u ∈ us.watch) :
    us.faultActive secs u = (us.marked u true).fail secs u := by
  rw [faultActive_healthy role healthy, if_neg]
  rcases h with still | watched
  · simp [still]
  · simp [watched]

theorem faultInactive_idle (h : (us.units.get u).role = .none ∨ (us.units.get u).condition ≠ .faultPending) :
    us.faultInactive u = us.marked u false := by
  have own : (us.setUnit u { us.units.get u with faultActive := false }).units.get u =
      { us.units.get u with faultActive := false } := get_marked_self us u false
  unfold UnitSupervisor.faultInactive
  dsimp only
  rw [own]
  dsimp only
  split
  · rfl
  · next pending role =>
    rcases h with h | h
    · exact absurd h role
    · exact absurd pending h
  · rfl
  · rfl

theorem faultInactive_recovers (role : (us.units.get u).role ≠ .none)
    (pending : (us.units.get u).condition = .faultPending) :
    us.faultInactive u = (us.recovered u).offer u := by
  have own : (us.setUnit u { us.units.get u with faultActive := false }).units.get u =
      { us.units.get u with faultActive := false } := get_marked_self us u false
  have well : ({ (us.setUnit u { us.units.get u with faultActive := false }).setUnit u
      { us.units.get u with faultActive := false, condition := .healthy, window := none } with
        watch := joinWatch u us.watch } : UnitSupervisor) = us.recovered u := by
    simp only [UnitSupervisor.setUnit, Table.set_set, UnitSupervisor.recovered]
    rfl
  unfold UnitSupervisor.faultInactive
  dsimp only
  rw [own]
  dsimp only
  split
  · next none => exact absurd none role
  · exact congrArg (UnitSupervisor.offer · u) well
  · next healthy _ => exact absurd (pending.symm.trans healthy) (by simp)
  · next failed _ => exact absurd (pending.symm.trans failed) (by simp)

end

section
variable {s : State} {u : UnitId}

theorem exec_faultInputActive (on : s.powered = true) (idle : (s.supervisor.units.get u).faultActive = false) :
    exec (.faultInputActive u.val) s = .next (s.supervise fun us => us.faultActive s.sections u).settle := by
  show execFaultInputActive u.val s = _
  simp only [execFaultInputActive, idOf_val]
  exact congrArg Host.Outcome.next ((powering_on on _).trans (if_neg (by simp [idle])))

theorem exec_faultInputActive_again (active : (s.supervisor.units.get u).faultActive = true) :
    exec (.faultInputActive u.val) s = .next s := by
  show execFaultInputActive u.val s = _
  simp only [execFaultInputActive, idOf_val]
  exact congrArg Host.Outcome.next (powering_self (if_pos active))

theorem exec_faultInputInactive (on : s.powered = true)
    (active : (s.supervisor.units.get u).faultActive = true) :
    exec (.faultInputInactive u.val) s = .next (s.supervise fun us => us.faultInactive u).settle := by
  show execFaultInputInactive u.val s = _
  simp only [execFaultInputInactive, idOf_val]
  exact congrArg Host.Outcome.next ((powering_on on _).trans (if_pos active))

theorem exec_faultInputInactive_again (idle : (s.supervisor.units.get u).faultActive = false) :
    exec (.faultInputInactive u.val) s = .next s := by
  show execFaultInputInactive u.val s = _
  simp only [execFaultInputInactive, idOf_val]
  exact congrArg Host.Outcome.next (powering_self (if_neg (by simp [idle])))

end

/-- The failed unit whose fault input has been recorded. -/
theorem get_failing_marked (us : UnitSupervisor) (u v : UnitId) :
    ((us.marked u true).failing u).units.get v = if v = u then
      { us.units.get u with faultActive := true, condition := .failed, window := none }
      else us.units.get v := by
  rw [get_failing, get_marked_self, get_marked]
  split <;> rfl

/-- What the fault input of a unit moves as it becomes ACTIVE, by the four cases of R130. -/
theorem faultActive_spec (secs : Table Section 24) (us : UnitSupervisor) (u : UnitId) :
    ((us.faultActive secs u).units.get u).faultActive = true ∧
    (∀ v, v ≠ u → ((us.faultActive secs u).units.get v).condition = (us.units.get v).condition ∧
      ((us.faultActive secs u).units.get v).faultActive = (us.units.get v).faultActive ∧
      ((us.faultActive secs u).units.get v).window = (us.units.get v).window) ∧
    ((us.units.get u).role = .none ∨ (us.units.get u).condition ≠ .healthy →
      ((us.faultActive secs u).units.get u).condition = (us.units.get u).condition ∧
      (us.faultActive secs u).watch = us.watch) ∧
    ((us.units.get u).role ≠ .none → (us.units.get u).condition = .healthy →
      ((us.units.get u).runOutput = true → u ∉ us.watch →
        ((us.faultActive secs u).units.get u).condition = .faultPending ∧
        ((us.faultActive secs u).units.get u).window = some us.window ∧
        (us.faultActive secs u).watch = us.watch) ∧
      ((us.units.get u).runOutput = false ∨ u ∈ us.watch →
        ((us.faultActive secs u).units.get u).condition = .failed ∧
        ((us.faultActive secs u).units.get u).window = none ∧
        (us.faultActive secs u).watch = us.watch.filter fun w => w ≠ u)) := by
  by_cases idle : (us.units.get u).role = .none ∨ (us.units.get u).condition ≠ .healthy
  · rw [faultActive_idle idle, get_marked_self]
    refine ⟨rfl, fun v ne => ?_, fun _ => ⟨rfl, rfl⟩, fun role healthy => ?_⟩
    · rw [get_marked, if_neg ne]
      exact ⟨rfl, rfl, rfl⟩
    · exact absurd idle (not_or.2 ⟨role, not_not_intro healthy⟩)
  · obtain ⟨role, healthy⟩ := not_or.1 idle
    have healthy := not_not.1 healthy
    by_cases trusted : (us.units.get u).runOutput = true ∧ u ∉ us.watch
    · obtain ⟨runs, unwatched⟩ := trusted
      rw [faultActive_pends role healthy runs unwatched, get_awaiting, if_pos rfl]
      refine ⟨rfl, fun v ne => ?_, fun h => absurd h idle, fun _ _ => ⟨fun _ _ => ⟨rfl, rfl, rfl⟩, fun h => ?_⟩⟩
      · rw [get_awaiting, if_neg ne]
        exact ⟨rfl, rfl, rfl⟩
      · rcases h with still | watched
        · simp [runs] at still
        · exact absurd watched unwatched
    · have fails : (us.units.get u).runOutput = false ∨ u ∈ us.watch := by
        by_cases watched : u ∈ us.watch
        · exact .inr watched
        · exact .inl (by simpa [watched] using trusted)
      have marked : ((us.marked u true).units.get u).role ≠ .none := by
        rw [get_marked_self]
        exact role
      have faults := fail_sameFaults (secs := secs) marked
      rw [faultActive_fails role healthy fails]
      refine ⟨?_, fun v ne => ?_, fun h => absurd h idle, fun _ _ => ⟨fun runs unwatched => ?_, fun _ => ?_⟩⟩
      · rw [(faults.units u).2.1, get_failing_marked, if_pos rfl]
      · rw [(faults.units v).1, (faults.units v).2.1, (faults.units v).2.2.1, get_failing_marked, if_neg ne]
        exact ⟨rfl, rfl, rfl⟩
      · exact absurd ⟨runs, unwatched⟩ trusted
      · rw [(faults.units u).1, (faults.units u).2.2.1, faults.watch, get_failing_marked, if_pos rfl]
        exact ⟨rfl, rfl, rfl⟩

/-- What the fault input of a unit moves as it becomes INACTIVE (R131, R132). -/
theorem faultInactive_spec (us : UnitSupervisor) (u : UnitId) :
    ((us.faultInactive u).units.get u).faultActive = false ∧
    (∀ v, v ≠ u → ((us.faultInactive u).units.get v).condition = (us.units.get v).condition) ∧
    ((us.units.get u).role ≠ .none → (us.units.get u).condition = .faultPending →
      ((us.faultInactive u).units.get u).condition = .healthy ∧
      ((us.faultInactive u).units.get u).window = none ∧
      (us.faultInactive u).watch =
        if us.watch.length < 16 then us.watch ++ [u] else (us.watch ++ [u]).tail) ∧
    ((us.units.get u).role = .none ∨ (us.units.get u).condition ≠ .faultPending →
      ((us.faultInactive u).units.get u).condition = (us.units.get u).condition ∧
      (us.faultInactive u).watch = us.watch) := by
  by_cases idle : (us.units.get u).role = .none ∨ (us.units.get u).condition ≠ .faultPending
  · rw [faultInactive_idle idle, get_marked_self]
    refine ⟨rfl, fun v ne => ?_, fun role pending => ?_, fun _ => ⟨rfl, rfl⟩⟩
    · rw [get_marked, if_neg ne]
    · exact absurd idle (not_or.2 ⟨role, not_not_intro pending⟩)
  · obtain ⟨role, pending⟩ := not_or.1 idle
    have faults := offer_sameFaults (us.recovered u) u
    rw [faultInactive_recovers role (not_not.1 pending)]
    refine ⟨?_, fun v ne => ?_, fun _ _ => ?_, fun h => absurd h idle⟩
    · rw [(faults.units u).2.1, get_recovered, if_pos rfl]
    · rw [(faults.units v).1, get_recovered, if_neg ne]
    · rw [(faults.units u).1, (faults.units u).2.2.1, faults.watch, get_recovered, if_pos rfl]
      exact ⟨rfl, rfl, rfl⟩

/-- Settles O42: coverage, then the failed unit, then the fault input's two changes. -/
theorem faultInputMovesCondition : Obligations.FaultInputMovesCondition := by
  refine ⟨fun us u duty => ⟨fun sp lowest => requestCoverage_covers duty lowest, requestCoverage_queues⟩,
    ?uncovered, ?failed, fun s u on role => ⟨fun idle healthy fails => ?_, fun active pending => ?_⟩,
    fun s u on => ⟨exec_faultInputActive_again, exec_faultInputInactive_again, fun idle =>
      ⟨_, exec_faultInputActive on idle, ?_⟩, fun active => ⟨_, exec_faultInputInactive on active, ?_⟩⟩⟩
  case uncovered =>
    rintro us freed sp u duty spare rfl
    exact ⟨rfl, get_uncover us (ne_of_roles spare duty), fun other => dropCovering_covers duty,
      dropCovering_queues⟩
  case failed =>
    rintro secs us failed u rfl
    refine ⟨fun i duty own => ⟨fun here serving => ?_, fun out => ?_⟩, fun spare =>
      ⟨fun d => fail_covering spare, fail_spare spare⟩⟩
    · rw [fail_duty duty, own, if_pos ((inService_iff i).2 ⟨here, serving⟩)]
      rfl
    · have barred : ¬ inService secs (some i) = true := by
        rw [inService_iff]
        rintro ⟨here, serving⟩
        exact out.elim here serving
      rw [fail_duty duty, own, if_neg barred]
      rfl
  · rw [exec_faultInputActive on idle,
      supervise_congr (g := fun us => (us.marked u true).fail s.sections u)
        (faultActive_fails role healthy fails)]
    rfl
  · rw [exec_faultInputInactive on active,
      supervise_congr (g := fun us => (us.recovered u).offer u) (faultInactive_recovers role pending)]
    rfl
  · have faults := settle_supervise_sameFaults s fun us => us.faultActive s.sections u
    obtain ⟨own, others, idle, moved⟩ := faultActive_spec s.sections s.supervisor u
    generalize (s.supervise fun us => us.faultActive s.sections u).settle = t at faults
    rw [(faults.units u).1, (faults.units u).2.1, (faults.units u).2.2.1, faults.watch]
    refine ⟨own, fun v ne => ?_, idle, moved⟩
    rw [(faults.units v).1, (faults.units v).2.1, (faults.units v).2.2.1]
    exact others v ne
  · have faults := settle_supervise_sameFaults s fun us => us.faultInactive u
    obtain ⟨own, others, recovers, idle⟩ := faultInactive_spec s.supervisor u
    generalize (s.supervise fun us => us.faultInactive u).settle = t at faults
    rw [(faults.units u).1, (faults.units u).2.1, (faults.units u).2.2.1, faults.watch]
    refine ⟨own, fun v ne => ?_, recovers, idle⟩
    rw [(faults.units v).1]
    exact others v ne

end Sys2Proof.Machine

/-! RETURN UNIT and SET UNITS (R137, R142), and what a change of the pool hands on (R129, R139 to R144). -/

namespace Sys2Proof.Machine

/-! ### A change of the pool, stored (R139 to R144) -/

section
variable (s : State) (new : UnitSupervisor)

/-- R140: the UNITS reasons that a change of the pool hands on. -/
def State.shortHandings : List Delivery :=
  unitsHandings s.supervisor.short (Table.ofFn fun i => new.isShort (s.sec i))

theorem putUnits_eq : s.putUnits new = { s with
    supervisor := { new with short := Table.ofFn fun i => new.isShort (s.sec i) }
    lines := { s.lines with
      runLatch := Table.ofFn fun u => (s.lines.runPolarity.get u).level (new.units.get u).runOutput }
    work := s.work ++ (s.shortHandings new ++ supplyHanding s.supervisor new)
    order := (s.putUnits new).order, drawn := (s.putUnits new).drawn
    link := { s.link with reports := (s.putUnits new).link.reports } } := by
  unfold State.putUnits
  dsimp only
  rw [reportAll_eq]
  rfl

theorem putUnits_trips : (s.putUnits new).trips = s.trips := by rw [putUnits_eq]

theorem putUnits_scanner : (s.putUnits new).scanner = s.scanner := by rw [putUnits_eq]

theorem mem_putUnits (k : ReportKey) : k ∈ (s.putUnits new).link.reports ↔ k ∈ s.link.reports ∨
    (k ∈ ((allIds 48).filter (s.supervisor.reportable new)).map ReportKey.unit ∧
      s.link.mask.allows k = true) := by
  unfold State.putUnits
  dsimp only
  rw [mem_reportAll]
  rfl

theorem putUnits_frame : CascadeFrame { s with supervisor := new } (s.putUnits new) := by
  unfold State.putUnits
  dsimp only
  refine .trans ?_ (reportAll_moves _ _).frame
  refine .trans ?_ (handAll_frame _ _)
  exact units_frame (s := { s with supervisor := new })
    (us := { new with short := Table.ofFn fun i => new.isShort (s.sec i) }) ⟨rfl, rfl, rfl, fun _ => ⟨rfl, rfl, rfl, rfl, rfl, rfl⟩⟩ _

end

/-! ### RETURN UNIT (R137) -/

/-- Unit `u` HEALTHY again, before its coverage is seen to. -/
def UnitSupervisor.healed (us : UnitSupervisor) (u : UnitId) : UnitSupervisor :=
  { us with units := us.units.set u { us.units.get u with condition := .healthy, window := none } }

theorem get_healed (us : UnitSupervisor) (u v : UnitId) : (us.healed u).units.get v =
    if v = u then { us.units.get u with condition := .healthy, window := none } else us.units.get v :=
  Table.get_set _ _ _ _

section
variable {us : UnitSupervisor} {u : UnitId}

theorem healed_eq (us : UnitSupervisor) (u : UnitId) :
    us.setUnit u { us.units.get u with condition := .healthy, window := none } = us.healed u := rfl

theorem giveBack_covered {sp : UnitId} (duty : (us.units.get u).role = .duty)
    (covered : (us.units.get u).coveredBy = some sp) :
    us.giveBack u = ((us.healed u).uncover sp u).offer sp := by
  unfold UnitSupervisor.giveBack
  dsimp only
  rw [healed_eq]
  simp only [duty, covered]

theorem giveBack_queued (duty : (us.units.get u).role = .duty)
    (uncovered : (us.units.get u).coveredBy = none) :
    us.giveBack u = { us.healed u with demands := us.demands.filter fun d => d.unit ≠ u } := by
  rw [← withoutDemand_eq]
  unfold UnitSupervisor.giveBack
  dsimp only
  rw [healed_eq]
  simp only [duty, uncovered]
  rfl

theorem giveBack_spare (spare : (us.units.get u).role = .spare) : us.giveBack u = (us.healed u).offer u := by
  unfold UnitSupervisor.giveBack
  dsimp only
  rw [healed_eq]
  simp only [spare]

/-- Whatever its coverage, a returned unit is HEALTHY, with no window. -/
theorem giveBack_sameFaults (role : (us.units.get u).role ≠ .none) :
    SameFaults (us.healed u) (us.giveBack u) := by
  cases kind : (us.units.get u).role with
  | none => exact absurd kind role
  | duty =>
    cases covered : (us.units.get u).coveredBy with
    | some sp =>
      rw [giveBack_covered kind covered]
      exact (uncover_sameFaults _ _ _).trans (offer_sameFaults _ _)
    | none =>
      rw [giveBack_queued kind covered]
      exact demands_sameFaults _ _
  | spare =>
    rw [giveBack_spare kind]
    exact offer_sameFaults _ _

end

section
variable {s : State} {t : Telegram} {id : Nat} {u : UnitId}

theorem returnUnit_unknown (h : s.taking .returnUnit t (.oneId id)) (le : 48 ≤ id) :
    s.refusedAs .returnUnit t .noUnit :=
  refused_of_owner rfl h (by simp only [returnOrder, idOf_of_le le])

theorem returnUnit_none (h : s.taking .returnUnit t (.oneId id)) (e : u.val = id)
    (none : (s.supervisor.units.get u).role = .none) : s.refusedAs .returnUnit t .noUnit :=
  refused_of_owner rfl h (by simp only [returnOrder, idOf_of_eq e, if_pos none])

theorem returnUnit_active (h : s.taking .returnUnit t (.oneId id)) (e : u.val = id)
    (role : (s.supervisor.units.get u).role ≠ .none) (active : (s.supervisor.units.get u).faultActive = true) :
    s.refusedAs .returnUnit t .active :=
  refused_of_owner rfl h (by simp only [returnOrder, idOf_of_eq e, if_neg role, if_pos active])

/-- The order past the checks of the unit and of its fault input. -/
theorem returnOrder_idle (e : u.val = id) (role : (s.supervisor.units.get u).role ≠ .none)
    (idle : (s.supervisor.units.get u).faultActive = false) : returnOrder (.oneId id) s =
      if (s.supervisor.units.get u).condition ≠ .failed then s.refuse .state
      else ((s.supervise fun us => us.giveBack u).settle).accept := by
  have idle : ¬ (s.supervisor.units.get u).faultActive = true := by simp [idle]
  simp only [returnOrder, idOf_of_eq e, if_neg role, if_neg idle]

end

/-- Settles O44: the offer, the return, and the order. -/
theorem returnUnitHealsUnit : Obligations.ReturnUnitHealsUnit := by
  refine ⟨fun us sp => ⟨offer_busy, offer_unasked, fun front d rest free queue older cls once duty =>
      offer_covers free queue older cls once duty⟩, ?_, fun s t id h => ⟨returnUnit_unknown h,
    fun u e => ⟨returnUnit_none h e, fun role => ⟨returnUnit_active h e role, fun idle =>
      ⟨fun well => ?_, fun failed => ?_⟩⟩⟩⟩⟩
  · rintro us well u rfl
    exact ⟨fun duty => ⟨fun sp => giveBack_covered duty, giveBack_queued duty⟩, giveBack_spare⟩
  · exact refused_of_owner rfl h (by rw [returnOrder_idle e role idle, if_pos well])
  · refine ⟨_, accepted_of_owner rfl h (by rw [returnOrder_idle e role idle, if_neg (not_not_intro failed)]), ?_⟩
    have faults := (giveBack_sameFaults role).trans (settle_supervise_sameFaults s fun us => us.giveBack u)
    have trips := (settle_frame (s.supervise fun us => us.giveBack u)).trips
    have scanner := (settle_frame (s.supervise fun us => us.giveBack u)).scanner
    rw [State.supervise, putUnits_trips] at trips
    rw [State.supervise, putUnits_scanner] at scanner
    refine ⟨?_, ?_, fun w ne => ?_, faults.watch, trips, scanner, rfl⟩
    · rw [(faults.units u).1, get_healed, if_pos rfl]
    · rw [(faults.units u).2.2.1, get_healed, if_pos rfl]
    · rw [(faults.units w).1, get_healed, if_neg ne]

/-! ### What a change hands on (R129, R139 to R144) -/

section
variable (us : UnitSupervisor)

theorem counts_iff (u : UnitId) : us.counts u = true ↔ (us.units.get u).condition ≠ .failed ∨
    ∃ sp, (us.units.get u).coveredBy = some sp ∧ (us.units.get sp).condition ≠ .failed := by
  unfold UnitSupervisor.counts
  cases e : (us.units.get u).coveredBy <;> simp [e]

theorem available_eq (r : Section) : us.available r = r.dutyUnits.countP fun u => decide
    ((us.units.get u).condition ≠ .failed ∨
      ∃ sp, (us.units.get u).coveredBy = some sp ∧ (us.units.get sp).condition ≠ .failed) :=
  List.countP_congr fun u _ => by rw [counts_iff, decide_eq_true_iff]

theorem freeCount_eq : us.freeCount = us.units.items.countP fun r => decide
    (r.role = .spare ∧ r.condition = .healthy ∧ r.covering = none) :=
  List.countP_congr fun r _ => by rw [freeSpare_iff, decide_eq_true_iff]

theorem driven_eq (secs : Table Section 24) (which : List UnitId) :
    us.drive secs which = { us with units := (us.drive secs which).units } := by
  unfold UnitSupervisor.drive
  induction which generalizing us with
  | nil => rfl
  | cons u l ih =>
    rw [List.foldl_cons]
    generalize first : us.setUnit u { us.units.get u with runOutput := us.runs secs u } = t
    rw [ih t, ← first]
    rfl

theorem mem_moved (old new : UnitSupervisor) (u : UnitId) : u ∈ old.moved new ↔
    (old.units.get u).condition ≠ (new.units.get u).condition ∨
      (old.units.get u).covering ≠ (new.units.get u).covering ∨
      (old.units.get u).coveredBy ≠ (new.units.get u).coveredBy := by
  simp [UnitSupervisor.moved, or_assoc]

theorem bne_iff_not_iff (a b : Bool) : (a != b) = true ↔ ¬ (a = true ↔ b = true) := by
  rw [bne_iff_ne, Ne, Bool.eq_iff_iff]

/-- R144: the seven changes that enter a UNIT report. -/
theorem reportable_iff (old new : UnitSupervisor) (u : UnitId) : old.reportable new u = true ↔
    (old.units.get u).faultActive ≠ (new.units.get u).faultActive ∨
    (old.units.get u).condition ≠ (new.units.get u).condition ∨
    (old.units.get u).covering ≠ (new.units.get u).covering ∨
    (old.units.get u).coveredBy ≠ (new.units.get u).coveredBy ∨
    (old.units.get u).runOutput ≠ (new.units.get u).runOutput ∨
    ¬ (u ∈ old.watch ↔ u ∈ new.watch) ∨
    ¬ ((∃ d ∈ old.demands, d.unit = u) ↔ ∃ d ∈ new.demands, d.unit = u) := by
  unfold UnitSupervisor.reportable
  dsimp only
  rw [Bool.or_eq_true, Bool.or_eq_true, bne_iff_not_iff, bne_iff_not_iff, queued_iff_exists, queued_iff_exists,
    List.contains_iff_mem, List.contains_iff_mem]
  simp only [Bool.or_eq_true, bne_iff_ne, or_assoc]

theorem mem_unitsHandings (old new : Table Bool 24) (w : Delivery) : w ∈ unitsHandings old new ↔
    ∃ i, (w = .addReason i .units ∧ old.get i = false ∧ new.get i = true) ∨
      (w = .removeReason i .units ∧ old.get i = true ∧ new.get i = false) := by
  simp only [unitsHandings, List.mem_flatMap, List.mem_finRange, true_and]
  refine exists_congr fun i => ?_
  cases old.get i <;> cases new.get i <;> simp

theorem mem_unitReports (old new : UnitSupervisor) (mask : ReportMask) (k : ReportKey) :
    (k ∈ ((allIds 48).filter (old.reportable new)).map ReportKey.unit ∧ mask.allows k = true) ↔
      ∃ u, k = .unit u ∧ mask.unit = true ∧ old.reportable new u = true := by
  simp only [List.mem_map, List.mem_filter, List.mem_finRange, true_and]
  constructor
  · rintro ⟨⟨u, changed, rfl⟩, enabled⟩
    exact ⟨u, rfl, enabled, changed⟩
  · rintro ⟨u, rfl, enabled, changed⟩
    exact ⟨⟨u, changed, rfl⟩, enabled⟩

end

theorem short_putUnits (s : State) (new : UnitSupervisor) (i : SectionId) :
    (s.putUnits new).supervisor.short.get i = true ↔ new.available (s.sec i) < (s.sec i).minUnits := by
  rw [supervisor_putUnits, Table.get_ofFn, UnitSupervisor.isShort, decide_eq_true_iff]

theorem latch_putUnits (s : State) (new : UnitSupervisor) (u : UnitId) :
    (s.putUnits new).lines.runLatch.get u = (s.lines.runPolarity.get u).level (new.units.get u).runOutput := by
  rw [putUnits_eq, Table.get_ofFn]

theorem mem_dutyAndSpares (us : UnitSupervisor) (duty : List UnitId) (u : UnitId) :
    u ∈ duty ++ duty.filterMap (fun d => (us.units.get d).coveredBy) ↔
      u ∈ duty ∨ ∃ d ∈ duty, (us.units.get d).coveredBy = some u := by
  rw [List.mem_append, List.mem_filterMap]

/-! ### SET UNITS (R142) -/

section
variable {s : State} {t : Telegram} {id minimum reserve window : Nat} {i : SectionId}

theorem setUnits_unknown (h : s.taking .setUnits t (.units id minimum reserve window)) (none : s.named id = none) :
    s.refusedAs .setUnits t .noSection :=
  refused_of_owner rfl h (by simp only [unitsOrder, none])

theorem unitsOrder_named (named : s.named id = some i) : unitsOrder (.units id minimum reserve window) s =
    if 4 < minimum ∨ (s.sec i).dutyUnits.length < minimum ∨ 8 < reserve ∨ window < 1 ∨ 60 < window then
      s.refuse .range
    else ((s.setUnits i minimum reserve window).settle).accept := by
  simp only [unitsOrder, named]

/-- The settings that SET UNITS writes, before the pool is looked at again. -/
def State.unitsSet (s : State) (i : SectionId) (minimum reserve window : Nat) : State :=
  { s.setSec i { s.sec i with minUnits := minimum } with
    supervisor := { s.supervisor with reserve := reserve, window := window } }

theorem setUnits_frame (s : State) (i : SectionId) (minimum reserve window : Nat) :
    CascadeFrame (s.unitsSet i minimum reserve window) (s.setUnits i minimum reserve window).settle :=
  (putUnits_frame _ _).trans (settle_frame _)

end

/-- Settles O45: the counts, the stored change, its two callers, and the order. -/
theorem poolChangesHandOnUnitsAndSupply : Obligations.PoolChangesHandOnUnitsAndSupply := by
  refine ⟨⟨available_eq, freeCount_eq, fun s new => ⟨?_, short_putUnits s new, ?_, ?_, ?_, ?_,
      latch_putUnits s new, ⟨s.shortHandings new, supplyHanding s.supervisor new, ?_, fun w => ?_, rfl⟩, fun k => ?_⟩,
      fun s f => ⟨(f s.supervisor).drive s.sections (s.supervisor.moved (f s.supervisor)), rfl,
        driven_eq _ _ _, fun u => ?_⟩,
      fun s i => ⟨_, rfl, driven_eq _ _ _, fun u => ?_⟩, fun s i => ⟨rfl, rfl⟩⟩,
    fun s t id minimum reserve window h => ⟨setUnits_unknown h, fun i named => ⟨fun out => ?_,
      fun few enough kept low high => ?_⟩⟩⟩
  · rw [supervisor_putUnits]
  · rw [putUnits_eq]
  · rw [putUnits_eq]
  · rw [putUnits_eq]
  · rw [putUnits_eq]
  · rw [putUnits_eq, List.append_assoc]
  · rw [supervisor_putUnits]
    exact mem_unitsHandings _ _ w
  · rw [mem_putUnits, mem_unitReports]
    simp only [reportable_iff]
  · rw [get_drive]
    exact if_congr (mem_moved _ _ u) rfl rfl
  · rw [get_drive]
    exact if_congr (mem_dutyAndSpares _ _ u) rfl rfl
  · exact refused_of_owner rfl h (by rw [unitsOrder_named named, if_pos out])
  · have inside : ¬ (4 < minimum ∨ (s.sec i).dutyUnits.length < minimum ∨ 8 < reserve ∨ window < 1 ∨
        60 < window) := by omega
    have frame := setUnits_frame s i minimum reserve window
    refine ⟨_, accepted_of_owner rfl h (by rw [unitsOrder_named named, if_neg inside]), ?_⟩
    generalize cascade : (s.setUnits i minimum reserve window).settle = u at frame
    refine ⟨?_, frame.pool.1, frame.pool.2, frame, rfl, rfl⟩
    obtain ⟨-, -, -, -, -, -, -, -, -, -, -, minUnits, -⟩ := frame.settings i
    rw [minUnits]
    show ((s.setSec i _).sec i).minUnits = minimum
    rw [State.sec_setSec_self]

end Sys2Proof.Machine

/-! SET LINKS (R6 to R8). -/

namespace Sys2Proof.Machine

/-! ### Cycles (R6) -/

section
variable {down : SectionId → List SectionId}

/-- A round that drops no section is followed by no other that does. -/
theorem peel_stays {left : List SectionId} (h : left.filter (fun i => (down i).any left.contains) = left) :
    ∀ n, peel down n left = left
  | 0 => rfl
  | n + 1 => by rw [peel, h, peel_stays h n]

/-- After as many rounds as there are sections, each section left has one downstream that is left too. -/
theorem peel_closed (n : Nat) (left : List SectionId) (few : left.length ≤ n) :
    ∀ i ∈ peel down n left, ∃ j ∈ peel down n left, j ∈ down i := by
  induction n generalizing left with
  | zero =>
    obtain rfl := List.length_eq_zero_iff.1 (Nat.le_zero.1 few)
    exact fun i mem => absurd mem List.not_mem_nil
  | succ n ih =>
    by_cases fixed : left.filter (fun i => (down i).any left.contains) = left
    · intro i mem
      rw [peel_stays fixed] at mem ⊢
      rw [← fixed] at mem
      obtain ⟨-, some⟩ := List.mem_filter.1 mem
      obtain ⟨j, below, inside⟩ := List.any_eq_true.1 some
      exact ⟨j, by simpa using inside, below⟩
    · have shorter : (left.filter fun i => (down i).any left.contains).length < left.length :=
        lt_of_le_of_ne (List.length_filter_le _ _) fun e => fixed (List.filter_sublist.eq_of_length e)
      exact ih _ (by omega)

/-- Section `b` is reached from section `a` by the links. -/
def liesBelow (down : SectionId → List SectionId) (b a : SectionId) : Prop :=
  Relation.TransGen (fun a b => b ∈ down a) a b

/-- In a finite graph, sections that each lead to one another lie above a cycle. -/
theorem exists_cycle {left : List SectionId} (some : left ≠ []) (closed : ∀ i ∈ left, ∃ j ∈ left, j ∈ down i) :
    ∃ i, Relation.TransGen (fun a b => b ∈ down a) i i := by
  by_contra none
  have trans : IsTrans SectionId (liesBelow down) := ⟨fun _ _ _ h k => k.trans h⟩
  have irrefl : Std.Irrefl (liesBelow down) := ⟨fun i c => none ⟨i, c⟩⟩
  obtain ⟨i, mem⟩ := List.exists_mem_of_ne_nil left some
  obtain ⟨low, inside, least⟩ :=
    (Finite.wellFounded_of_trans_of_irrefl (liesBelow down)).has_min {i | i ∈ left} ⟨i, mem⟩
  obtain ⟨j, left_, edge⟩ := closed low inside
  exact least j left_ (.single edge)

/-- R6: the rounds leave a section exactly where the graph has a cycle. -/
theorem acyclic_false_iff :
    acyclic down = false ↔ ∃ i, Relation.TransGen (fun a b => b ∈ down a) i i := by
  constructor
  · intro left
    refine exists_cycle (left := peel down 24 (allIds 24)) ?_ (peel_closed 24 _ (by simp))
    simpa [acyclic] using left
  · rintro ⟨i, cycle⟩
    rw [← Bool.not_eq_true]
    exact fun none => acyclic_spec none i cycle

end

/-! ### The edits (R8) -/

section
variable (s : State) (i : SectionId) (links : List Link) (downs : List SectionId)

/-- R8: the sections whose links change. -/
def State.relinkChanged : List SectionId := (allIds 24).filter fun j =>
  ((relinked s.sections i links downs).get j).upstream != (s.sec j).upstream ||
    ((relinked s.sections i links downs).get j).downstream != (s.sec j).downstream

/-- R8: the sections that re-examine, those changed and their old and new neighbours. -/
def State.relinkTouched : List SectionId :=
  (s.relinkChanged i links downs ++ (s.relinkChanged i links downs).flatMap fun j =>
    linkedTo s.sections j ++ linkedTo (relinked s.sections i links downs) j).dedup

theorem relink_eq : s.relink i links downs = { s with
    sections := relinked s.sections i links downs
    work := s.work ++ (s.relinkTouched i links downs).map fun j => .reexamine j .other
    order := (s.relink i links downs).order, drawn := (s.relink i links downs).drawn
    link := { s.link with reports := (s.relink i links downs).link.reports } } := by
  unfold State.relink
  dsimp only
  rw [reportAll_eq]
  rfl

/-- The edits leave all but the table, the deliveries waiting, the free choices and the reports. -/
theorem relink_rest : s.relink i links downs = { s with
    sections := (s.relink i links downs).sections
    work := s.work ++ (s.relinkTouched i links downs).map fun j => .reexamine j .other
    order := (s.relink i links downs).order, drawn := (s.relink i links downs).drawn
    link := { s.link with reports := (s.relink i links downs).link.reports } } := by
  have table : (s.relink i links downs).sections = relinked s.sections i links downs := by rw [relink_eq]
  rw [table]
  exact relink_eq s i links downs

theorem sec_relink (j : SectionId) : (s.relink i links downs).sec j =
    if j = i then { s.sec j with upstream := links, downstream := downs }
    else { s.sec j with
      downstream := mirrorDown i j (s.sec i).upstream links (s.sec j).downstream
      upstream := mirrorUp i j (s.sec i).downstream downs (s.sec j).upstream } := by
  rw [relink_eq]
  exact get_relinked _ _ _ _ _

theorem relinked_get (j : SectionId) :
    (relinked s.sections i links downs).get j = (s.relink i links downs).sec j := by
  rw [relink_eq]
  rfl

theorem mem_relinkChanged (j : SectionId) : j ∈ s.relinkChanged i links downs ↔
    ((s.relink i links downs).sec j).upstream ≠ (s.sec j).upstream ∨
      ((s.relink i links downs).sec j).downstream ≠ (s.sec j).downstream := by
  simp [State.relinkChanged, relinked_get]

theorem mem_linkedTo (t : Table Section 24) (c j : SectionId) : j ∈ linkedTo t c ↔
    (∃ l ∈ (t.get c).upstream, l.id = j) ∨ j ∈ (t.get c).downstream := by
  rw [linkedTo, List.mem_append, List.mem_map]

theorem mem_relinkTouched (j : SectionId) : j ∈ s.relinkTouched i links downs ↔
    ∃ c ∈ s.relinkChanged i links downs, j = c ∨
      (∃ l ∈ (s.sec c).upstream ++ ((s.relink i links downs).sec c).upstream, l.id = j) ∨
      j ∈ (s.sec c).downstream ++ ((s.relink i links downs).sec c).downstream := by
  simp only [State.relinkTouched, List.mem_dedup, List.mem_append, List.mem_flatMap, mem_linkedTo,
    relinked_get]
  constructor
  · rintro (mem | ⟨c, changed, (up | down) | up | down⟩)
    · exact ⟨j, mem, .inl rfl⟩
    · obtain ⟨l, mem, e⟩ := up
      exact ⟨c, changed, .inr (.inl ⟨l, .inl mem, e⟩)⟩
    · exact ⟨c, changed, .inr (.inr (.inl down))⟩
    · obtain ⟨l, mem, e⟩ := up
      exact ⟨c, changed, .inr (.inl ⟨l, .inr mem, e⟩)⟩
    · exact ⟨c, changed, .inr (.inr (.inr down))⟩
  · rintro ⟨c, changed, rfl | ⟨l, mem | mem, e⟩ | down | down⟩
    · exact .inl changed
    · exact .inr ⟨c, changed, .inl (.inl ⟨l, mem, e⟩)⟩
    · exact .inr ⟨c, changed, .inr (.inl ⟨l, mem, e⟩)⟩
    · exact .inr ⟨c, changed, .inl (.inr down)⟩
    · exact .inr ⟨c, changed, .inr (.inr down)⟩

theorem mem_relink (k : ReportKey) : k ∈ (s.relink i links downs).link.reports ↔
    k ∈ s.link.reports ∨ ∃ j, k = .sec j ∧ j ∈ s.relinkChanged i links downs ∧ s.link.mask.sec = true := by
  have reports : k ∈ (s.relink i links downs).link.reports ↔
      k ∈ s.link.reports ∨ (k ∈ (s.relinkChanged i links downs).map ReportKey.sec ∧
        s.link.mask.allows k = true) := mem_reportAll _ _ _
  rw [reports]
  refine or_congr Iff.rfl ?_
  rw [List.mem_map]
  constructor
  · rintro ⟨⟨j, mem, rfl⟩, enabled⟩
    exact ⟨j, rfl, mem, enabled⟩
  · rintro ⟨j, rfl, mem, enabled⟩
    exact ⟨⟨j, mem, rfl⟩, enabled⟩

theorem mem_relinkLooks (w : Delivery) :
    w ∈ (s.relinkTouched i links downs).map (fun j => Delivery.reexamine j .other) ↔
      ∃ j c, w = .reexamine j .other ∧ c ∈ s.relinkChanged i links downs ∧ (j = c ∨
        (∃ l ∈ (s.sec c).upstream ++ ((s.relink i links downs).sec c).upstream, l.id = j) ∨
        j ∈ (s.sec c).downstream ++ ((s.relink i links downs).sec c).downstream) := by
  simp only [List.mem_map, mem_relinkTouched]
  constructor
  · rintro ⟨j, ⟨c, changed, near⟩, rfl⟩
    exact ⟨j, c, rfl, changed, near⟩
  · rintro ⟨j, c, rfl, changed, near⟩
    exact ⟨j, ⟨c, changed, near⟩, rfl⟩

end

/-! ### The other end of a link -/

section
variable {i j : SectionId}

theorem any_id_iff (ls : List Link) (j : SectionId) : ls.any (fun l => l.id == j) = true ↔ ∃ l ∈ ls, l.id = j := by
  simp

theorem mirrorDown_drops {old new : List Link} (was : ∃ l ∈ old, l.id = j) (gone : ∀ l ∈ new, l.id ≠ j)
    (list : List SectionId) : mirrorDown i j old new list = list.filter fun d => d ≠ i := by
  have was := (any_id_iff old j).2 was
  have gone : new.any (fun l => l.id == j) = false := by simpa using gone
  simp only [mirrorDown, was, gone, Bool.not_false, Bool.and_self, if_true]
  exact List.filter_congr fun d _ => by rw [Bool.eq_iff_iff, bne_iff_ne, decide_eq_true_iff]

theorem mirrorDown_adds {old new : List Link} (was : ∀ l ∈ old, l.id ≠ j) (now : ∃ l ∈ new, l.id = j)
    (list : List SectionId) : mirrorDown i j old new list = list ++ [i] := by
  have was : old.any (fun l => l.id == j) = false := by simpa using was
  have now := (any_id_iff new j).2 now
  simp [mirrorDown, was, now]

theorem mirrorDown_keeps {old new : List Link} (same : (∃ l ∈ old, l.id = j) ↔ ∃ l ∈ new, l.id = j)
    (list : List SectionId) : mirrorDown i j old new list = list := by
  rw [← any_id_iff, ← any_id_iff, ← Bool.eq_iff_iff] at same
  simp [mirrorDown, same]

theorem mirrorUp_drops {old new : List SectionId} (was : j ∈ old) (gone : j ∉ new) (list : List Link) :
    mirrorUp i j old new list = list.filter fun l => l.id ≠ i := by
  simp only [mirrorUp, List.contains_eq_mem, was, gone, decide_true, decide_false, Bool.not_false,
    Bool.and_self, if_true]
  exact List.filter_congr fun l _ => by rw [Bool.eq_iff_iff, bne_iff_ne, decide_eq_true_iff]

theorem mirrorUp_adds {old new : List SectionId} (was : j ∉ old) (now : j ∈ new) (list : List Link) :
    mirrorUp i j old new list = list ++ [{ id := i, lag := 120 }] := by
  simp [mirrorUp, was, now, newLag]

theorem mirrorUp_keeps {old new : List SectionId} (same : j ∈ old ↔ j ∈ new) (list : List Link) :
    mirrorUp i j old new list = list := by
  simp [mirrorUp, same]

end

/-! ### The checks (R7) -/

section
variable (s : State) (i : SectionId) (links : List Link) (downs : List SectionId)

theorem linksInRange_iff : linksInRange s.sections i links downs = true ↔
    links.length ≤ 3 ∧ downs.length ≤ 3 ∧ (links.map Link.id).Nodup ∧ downs.Nodup ∧
    (∀ l ∈ links, l.lag ≤ 3600) ∧
    ∀ j, j ≠ i → ((s.relink i links downs).sec j).upstream.length ≤ 3 ∧
      ((s.relink i links downs).sec j).downstream.length ≤ 3 := by
  have others (j : SectionId) : (j == i ||
      (decide (((s.relink i links downs).sec j).upstream.length ≤ 3) &&
        decide (((s.relink i links downs).sec j).downstream.length ≤ 3))) = true ↔
      (j ≠ i → ((s.relink i links downs).sec j).upstream.length ≤ 3 ∧
        ((s.relink i links downs).sec j).downstream.length ≤ 3) := by
    rw [Bool.or_eq_true, Bool.and_eq_true, decide_eq_true_iff, decide_eq_true_iff, beq_iff_eq, or_iff_not_imp_left]
  simp only [linksInRange, relinked_get, Bool.and_eq_true, List.all_eq_true, decide_eq_true_iff, and_assoc,
    List.mem_finRange, true_imp_iff, others]

theorem linksCyclic_iff : linksCyclic s.sections i links downs = true ↔
    (∃ l ∈ links, l.id = i) ∨ i ∈ downs ∨ (∃ l ∈ links, l.id ∈ downs) ∨
    ∃ j, Relation.TransGen (fun a b => b ∈ ((s.relink i links downs).sec a).downstream) j j := by
  simp only [linksCyclic, relinked_get, Bool.or_eq_true, Bool.not_eq_true', acyclic_false_iff, or_assoc,
    List.any_eq_true, List.contains_iff_mem, beq_iff_eq]

end

/-! ### The order -/

section
variable {s : State}

theorem namedAll_none {ids : List Nat} (h : ∃ id ∈ ids, s.named id = none) : s.namedAll ids = none := by
  induction ids with
  | nil =>
    obtain ⟨id, mem, -⟩ := h
    exact absurd mem List.not_mem_nil
  | cons k ids ih =>
    obtain ⟨id, mem, unnamed⟩ := h
    rcases List.mem_cons.1 mem with rfl | later
    · simp only [State.namedAll, unnamed]
    · cases first : s.named k <;> simp only [State.namedAll, first, ih ⟨id, later, unnamed⟩]

theorem namedAll_vals {is : List SectionId} (here : ∀ i ∈ is, (s.sec i).state ≠ .absent) :
    s.namedAll (is.map fun i => i.val) = some is := by
  induction is with
  | nil => rfl
  | cons i is ih =>
    have first : s.named i.val = some i := named_of_eq rfl (here i List.mem_cons_self)
    have rest := ih fun j mem => here j (List.mem_cons_of_mem i mem)
    simp only [List.map_cons, State.namedAll, first, rest]

theorem linksOrder_unnamed {id : Nat} {up : List (Nat × Nat)} {down : List Nat}
    (h : s.named id = none ∨ (∃ p ∈ up, s.named p.1 = none) ∨ (∃ d ∈ down, s.named d = none)) :
    linksOrder (.links id up down) s = s.refuse .noSection := by
  rcases h with none | ⟨p, mem, none⟩ | below
  · simp only [linksOrder, none]
  · have ups := namedAll_none (s := s) ⟨p.1, List.mem_map_of_mem (f := Prod.fst) mem, none⟩
    cases own : s.named id <;> simp only [linksOrder, own, ups]
  · have downs := namedAll_none below
    cases own : s.named id <;> cases ups : s.namedAll (up.map Prod.fst) <;>
      simp only [linksOrder, own, ups, downs]

/-- The links sent, put together again from their two columns. -/
theorem zip_links (links : List Link) :
    ((links.map Link.id).zip (links.map Link.lag)).map (fun p => { id := p.1, lag := p.2 }) = links := by
  rw [List.zip_map', List.map_map]
  exact List.map_id links

theorem linksOrder_named {id : Nat} {i : SectionId} {links : List Link} {downs : List SectionId}
    (named : s.named id = some i) (ups : ∀ l ∈ links, (s.sec l.id).state ≠ .absent)
    (below : ∀ d ∈ downs, (s.sec d).state ≠ .absent) :
    linksOrder (.links id (links.map fun l => (l.id.val, l.lag)) (downs.map fun d => d.val)) s =
      if s.campaign.lock then s.refuse .locked
      else if !linksInRange s.sections i links downs then s.refuse .range
      else if linksCyclic s.sections i links downs then s.refuse .cycle
      else ((s.relink i links downs).settle).accept := by
  have columns : (links.map fun l => (l.id.val, l.lag)).map Prod.fst = (links.map Link.id).map fun i => i.val := by
    rw [List.map_map, List.map_map]
    rfl
  have lags : (links.map fun l => (l.id.val, l.lag)).map Prod.snd = links.map Link.lag := by
    rw [List.map_map]
    rfl
  have above : s.namedAll ((links.map Link.id).map fun i => i.val) = some (links.map Link.id) := by
    refine namedAll_vals fun j mem => ?_
    obtain ⟨l, inside, rfl⟩ := List.mem_map.1 mem
    exact ups l inside
  simp only [linksOrder, named, columns, lags, above, namedAll_vals below, zip_links]

end

/-- Settles O29: the checks in their order, then the edits at both ends. -/
theorem setLinksEditsBothEnds : Obligations.SetLinksEditsBothEnds := by
  refine fun s t id up down h => ⟨fun unnamed => refused_of_owner rfl h (linksOrder_unnamed unnamed), ?_⟩
  rintro i links downs named rfl rfl ups below
  have order := linksOrder_named named ups below
  refine ⟨fun lock => ?_, linksInRange_iff s i links downs, linksCyclic_iff s i links downs, fun unlocked =>
    ⟨fun out => ?_, fun range => ⟨fun cyclic => ?_, fun clear => ⟨?_, ?_, ?_,
      ⟨_, _, _, rfl, mem_relinkChanged s i links downs, relink_rest s i links downs, fun j => ?_,
        mem_relink s i links downs, mem_relinkLooks s i links downs⟩, fun j ne => ?_⟩⟩⟩⟩
  · exact refused_of_owner rfl h (by rw [order, if_pos lock])
  · exact refused_of_owner rfl h (by rw [order, if_neg (by simp [unlocked]), if_pos (by simp [out])])
  · exact refused_of_owner rfl h (by
      rw [order, if_neg (by simp [unlocked]), if_neg (by simp [range]), if_pos cyclic])
  · exact accepted_of_owner rfl h (by
      rw [order, if_neg (by simp [unlocked]), if_neg (by simp [range]), if_neg (by simp [clear])])
  · rw [sec_relink, if_pos rfl]
  · rw [sec_relink, if_pos rfl]
  · rw [sec_relink]
    split <;> rfl
  · rw [sec_relink, if_neg ne]
    exact ⟨fun was gone => mirrorDown_drops was gone _, fun was now => mirrorDown_adds was now _,
      fun same => mirrorDown_keeps same _, fun was gone => mirrorUp_drops was gone _,
      fun was now => mirrorUp_adds was now _, fun same => mirrorUp_keeps same _, rfl⟩

end Sys2Proof.Machine

/-! POWER_LOSS and POWER_UP (R172 to R178): the option store, and the values of the blocks. -/

namespace Sys2Proof.Machine

/-! ### The two events -/

theorem exec_powerLoss {s : State} (on : s.powered = true) : exec .powerLoss s = .next s.lose :=
  congrArg Host.Outcome.next (powering_on on _)

theorem exec_powerUp_off {s : State} (off : s.powered = false) (faults : BitVec 48) (levels : BitVec 8) :
    exec (.powerUp faults levels) s = .next (s.boot faults levels) := by
  show Host.Outcome.next ((if s.powered then s.lose else s).boot faults levels) = _
  rw [off]
  rfl

theorem exec_powerUp_on {s : State} (on : s.powered = true) (faults : BitVec 48) (levels : BitVec 8) :
    exec (.powerUp faults levels) s = .next (s.lose.boot faults levels) := by
  show Host.Outcome.next ((if s.powered then s.lose else s).boot faults levels) = _
  rw [on]
  rfl

/-! ### The option store (R172, R174, R175) -/

theorem markRead_agrees {st : OptionStore} {m : Mark} (mark : st.mark = some m)
    (agrees : st.markCheckAgrees = true) : st.markRead = m := by
  simp only [OptionStore.markRead, mark, agrees, if_true]

theorem markRead_disagrees {st : OptionStore} (disagrees : st.markCheckAgrees = false) :
    st.markRead = .opened := by
  unfold OptionStore.markRead
  rw [disagrees]
  split <;> rfl

theorem markRead_blank {st : OptionStore} (blank : st.mark = none) : st.markRead = .opened := by
  simp only [OptionStore.markRead, blank]

theorem inForce_valid {st : OptionStore} {w : RawSite} (agrees : st.siteCheck = some (crc16 st.parts.items.flatten))
    (read : readSite st.parts = some w) : st.inForce = (w.record, .valid) := by
  unfold OptionStore.inForce
  rw [if_pos (show st.siteCheck = some (partsCheck st.parts) from agrees)]
  simp only [read]

theorem inForce_defaulted {st : OptionStore}
    (h : st.siteCheck ≠ some (crc16 st.parts.items.flatten) ∨ readSite st.parts = none) :
    st.inForce = (.default, .defaulted) := by
  unfold OptionStore.inForce
  split
  · next agrees =>
    rcases h with differs | unread
    · exact absurd agrees differs
    · simp only [unread]
  · rfl

/-- R172: the record in force is the default one, or one that has been read. -/
theorem inForce_induction {P : SiteRecord → Prop} (bare : P .default) (read : ∀ w : RawSite, P w.record)
    (st : OptionStore) : P st.inForce.1 := by
  unfold OptionStore.inForce
  split
  · split
    · exact read _
    · exact bare
  · exact bare

/-- R174: a check value that a write cut off leaves does not match. -/
theorem tornCheck_ne (parts : Table (List Byte) 8) (free : BitVec 16) : tornCheck parts free ≠ partsCheck parts := by
  unfold tornCheck
  split
  · next same =>
    rw [same]
    intro e
    have cancelled := congrArg (partsCheck parts ^^^ ·) e
    simp at cancelled
  · next differs => exact differs

section
variable {s : State}

theorem store_lose (s : State) : s.lose.store = s.storeAfterLoss := rfl

theorem storeAfterLoss_parts (still : s.site.siteWriting = false) :
    s.storeAfterLoss.parts = s.store.parts ∧ s.storeAfterLoss.siteCheck = s.store.siteCheck := by
  unfold State.storeAfterLoss
  rw [still]
  dsimp only
  split <;> exact ⟨rfl, rfl⟩

theorem storeAfterLoss_mark (still : s.site.markWriting = none) :
    s.storeAfterLoss.mark = s.store.mark ∧ s.storeAfterLoss.markCheckAgrees = s.store.markCheckAgrees := by
  unfold State.storeAfterLoss
  rw [still]
  dsimp only
  split <;> exact ⟨rfl, rfl⟩

theorem storeAfterLoss_markWriting (writing : s.site.markWriting ≠ none) :
    s.storeAfterLoss.markCheckAgrees = false := by
  obtain ⟨v, mark⟩ := Option.ne_none_iff_exists'.1 writing
  unfold State.storeAfterLoss
  rw [mark]

theorem storeAfterLoss_siteWriting (writing : s.site.siteWriting = true) :
    s.storeAfterLoss.siteCheck ≠ some (crc16 s.storeAfterLoss.parts.items.flatten) := by
  have torn : s.storeAfterLoss.siteCheck = some (tornCheck s.storeAfterLoss.parts (Config.freeCheck s.drawn)) := by
    unfold State.storeAfterLoss
    rw [writing]
    dsimp only
    split <;> rfl
  rw [torn]
  exact fun e => tornCheck_ne _ _ (Option.some.inj e)

end

theorem slot_default (i : SectionId) : SiteRecord.default.slots.get i = .unfitted := Table.get_replicate _ _

theorem unit_default (u : UnitId) : SiteRecord.default.units.get u = UnitRecord.none := Table.get_replicate _ _

/-- Settles O5: what a loss of power leaves of the two writes. -/
theorem powerLossTearsWritesInProgress : Obligations.PowerLossTearsWritesInProgress := by
  refine fun s on => ⟨s.lose, exec_powerLoss on, rfl, rfl, rfl, storeAfterLoss_parts, storeAfterLoss_mark,
    fun writing => markRead_disagrees (storeAfterLoss_markWriting writing), fun writing faults levels =>
    ⟨_, exec_powerUp_off rfl faults levels, ?_, fun i => ?_⟩⟩
  all_goals have bare := inForce_defaulted (st := s.lose.store) (.inl (storeAfterLoss_siteWriting writing))
  · exact congrArg Prod.snd bare
  · rw [sec_boot, bare, slot_default]
    rfl

/-! ### The units at power-up (R127, R128, R134) -/

/-- A unit record without its covering. -/
def UnitRecord.bare (r : UnitRecord) : UnitRecord := { r with covering := Option.none, coveredBy := Option.none }

/-- Coverage requests change the coverings and the demand queue alone. -/
theorem requestCoverage_bare (us : UnitSupervisor) (u v : UnitId) :
    ((us.requestCoverage u).units.get v).bare = (us.units.get v).bare := by
  have set (a : UnitSupervisor) (x : UnitId) (r : UnitRecord) (same : r.bare = (a.units.get x).bare) :
      ((a.setUnit x r).units.get v).bare = (a.units.get v).bare := by
    rw [get_setUnit]
    split
    · next e => rw [same, e]
    · rfl
  unfold UnitSupervisor.requestCoverage
  split
  · unfold UnitSupervisor.assign
    dsimp only
    rw [set, set]
    · rfl
    · rfl
  · rfl

theorem requestCoverage_rest (us : UnitSupervisor) (u : UnitId) :
    us.requestCoverage u = { us with
      units := (us.requestCoverage u).units, demands := (us.requestCoverage u).demands } := by
  unfold UnitSupervisor.requestCoverage
  split <;> rfl

theorem requestFold_bare (failed : List UnitId) (us : UnitSupervisor) :
    (∀ v, ((failed.foldl UnitSupervisor.requestCoverage us).units.get v).bare = (us.units.get v).bare) ∧
    failed.foldl UnitSupervisor.requestCoverage us = { us with
      units := (failed.foldl UnitSupervisor.requestCoverage us).units
      demands := (failed.foldl UnitSupervisor.requestCoverage us).demands } := by
  induction failed generalizing us with
  | nil => exact ⟨fun v => rfl, rfl⟩
  | cons u failed ih =>
    obtain ⟨units, rest⟩ := ih (us.requestCoverage u)
    refine ⟨fun v => (units v).trans (requestCoverage_bare us u v), ?_⟩
    rw [List.foldl_cons]
    generalize failed.foldl UnitSupervisor.requestCoverage (us.requestCoverage u) = x at rest
    rw [rest, requestCoverage_rest]

/-- The supervisor at power-up, before its first coverage requests. -/
def bareSupervisor (units : Table UnitRecord 48) (faults : BitVec 48) : UnitSupervisor :=
  { units := powerUpUnits units faults, watch := [], demands := [], reserve := 2, window := 10
    short := Table.replicate 24 false }

/-- R128: the FAILED duty units at power-up, in ascending id. -/
def failedAtPowerUp (units : Table UnitRecord 48) (faults : BitVec 48) : List UnitId :=
  (allIds 48).filter fun u => ((bareSupervisor units faults).units.get u).role == .duty &&
    ((bareSupervisor units faults).units.get u).condition == .failed

theorem powerUpSupervisor_eq (units : Table UnitRecord 48) (faults : BitVec 48) :
    powerUpSupervisor units faults =
      (failedAtPowerUp units faults).foldl UnitSupervisor.requestCoverage (bareSupervisor units faults) := rfl

theorem powerUpSupervisor_rest (units : Table UnitRecord 48) (faults : BitVec 48) :
    powerUpSupervisor units faults = { bareSupervisor units faults with
      units := (powerUpSupervisor units faults).units, demands := (powerUpSupervisor units faults).demands } :=
  (requestFold_bare _ _).2

section
variable {units : Table UnitRecord 48} {faults : BitVec 48} {u : UnitId}

theorem get_bareSupervisor (units : Table UnitRecord 48) (faults : BitVec 48) (u : UnitId) :
    (bareSupervisor units faults).units.get u = { units.get u with
      faultActive := faults.getLsbD u.val
      condition := if faults.getLsbD u.val && (units.get u).role != .none then .failed else .healthy } :=
  Table.get_ofFn _ _

/-- R128: a unit record at power-up, but for its covering. -/
theorem get_powerUpSupervisor (units : Table UnitRecord 48) (faults : BitVec 48) (u : UnitId) :
    ((powerUpSupervisor units faults).units.get u).bare = { (units.get u).bare with
      faultActive := faults.getLsbD u.val
      condition := if faults.getLsbD u.val && (units.get u).role != .none then .failed else .healthy } := by
  rw [powerUpSupervisor_eq, (requestFold_bare _ _).1, get_bareSupervisor]
  rfl

theorem role_powerUp (units : Table UnitRecord 48) (faults : BitVec 48) (u : UnitId) :
    ((powerUpSupervisor units faults).units.get u).role = (units.get u).role :=
  (congrArg UnitRecord.role (get_powerUpSupervisor units faults u) :)

theorem sec_powerUp (units : Table UnitRecord 48) (faults : BitVec 48) (u : UnitId) :
    ((powerUpSupervisor units faults).units.get u).sec = (units.get u).sec :=
  (congrArg UnitRecord.sec (get_powerUpSupervisor units faults u) :)

theorem cls_powerUp (units : Table UnitRecord 48) (faults : BitVec 48) (u : UnitId) :
    ((powerUpSupervisor units faults).units.get u).cls = (units.get u).cls :=
  (congrArg UnitRecord.cls (get_powerUpSupervisor units faults u) :)

theorem faultActive_powerUp (units : Table UnitRecord 48) (faults : BitVec 48) (u : UnitId) :
    ((powerUpSupervisor units faults).units.get u).faultActive = faults.getLsbD u.val :=
  (congrArg UnitRecord.faultActive (get_powerUpSupervisor units faults u) :)

theorem window_powerUp (units : Table UnitRecord 48) (faults : BitVec 48) (u : UnitId) :
    ((powerUpSupervisor units faults).units.get u).window = (units.get u).window :=
  (congrArg UnitRecord.window (get_powerUpSupervisor units faults u) :)

theorem condition_powerUp (units : Table UnitRecord 48) (faults : BitVec 48) (u : UnitId) :
    ((powerUpSupervisor units faults).units.get u).condition =
      if faults.getLsbD u.val && (units.get u).role != .none then .failed else .healthy :=
  (congrArg UnitRecord.condition (get_powerUpSupervisor units faults u) :)

theorem condition_powerUp_spec (units : Table UnitRecord 48) (faults : BitVec 48) (u : UnitId) :
    (((powerUpSupervisor units faults).units.get u).condition = .failed ↔
      faults.getLsbD u.val = true ∧ ((powerUpSupervisor units faults).units.get u).role ≠ .none) ∧
    ((powerUpSupervisor units faults).units.get u).condition ≠ .faultPending := by
  rw [condition_powerUp, role_powerUp]
  split
  · next h => simpa using h
  · next h => simpa using h

theorem mem_failedAtPowerUp (units : Table UnitRecord 48) (faults : BitVec 48) (u : UnitId) :
    u ∈ failedAtPowerUp units faults ↔
      ((powerUpSupervisor units faults).units.get u).role = .duty ∧ faults.getLsbD u.val = true := by
  rw [role_powerUp]
  simp only [failedAtPowerUp, get_bareSupervisor, List.mem_filter, List.mem_finRange, true_and, Bool.and_eq_true,
    beq_iff_eq]
  refine and_congr_right fun duty => ?_
  rw [duty]
  cases faults.getLsbD u.val <;> simp

end

/-- No unit of a record in force covers another, or has a window or a run output. -/
theorem inForce_blank (st : OptionStore) (u : UnitId) :
    (st.inForce.1.units.get u).bare = st.inForce.1.units.get u ∧ (st.inForce.1.units.get u).window = none ∧
      (st.inForce.1.units.get u).runOutput = false := by
  refine inForce_induction (P := fun r => (r.units.get u).bare = r.units.get u ∧ (r.units.get u).window = none ∧
    (r.units.get u).runOutput = false) ?_ (fun w => ?_) st
  · rw [unit_default]
    exact ⟨rfl, rfl, rfl⟩
  · have unit : w.record.units.get u = w.unit u := Table.get_ofFn _ _
    rw [unit]
    unfold RawSite.unit
    dsimp only
    split <;> exact ⟨rfl, rfl, rfl⟩

/-- The units before the first coverage requests are those after them without their coverings. -/
theorem bare_powerUp (st : OptionStore) (faults : BitVec 48) (u : UnitId) :
    (bareSupervisor st.inForce.1.units faults).units.get u =
      ((powerUpSupervisor st.inForce.1.units faults).units.get u).bare := by
  obtain ⟨bare, -, -⟩ := inForce_blank st u
  rw [get_powerUpSupervisor, get_bareSupervisor, bare]

/-! ### The blocks at power-up (R17, R77, R128, R147, R168, R176) -/

theorem steam_powerUp : Steam.powerUp.effective = 0 ∧ Steam.powerUp.claimedSum = 0 := by decide

theorem get_none_caps (g : GroupId) : Steam.powerUp.caps.get g = none := Table.get_replicate _ _

theorem input_boot (s : State) (f : BitVec 48) (l : BitVec 8) (i : InputId) :
    (s.boot f l).trips.inputs.get i =
      { polarity := s.store.inForce.1.trip.get i, level := l.getLsbD i.val
        active := (s.store.inForce.1.trip.get i).level (l.getLsbD i.val) } := Table.get_ofFn _ _

theorem runLatch_boot (s : State) (f : BitVec 48) (l : BitVec 8) (u : UnitId) :
    (s.boot f l).lines.runLatch.get u = ((s.boot f l).lines.runPolarity.get u).level false := Table.get_map _ _ _

/-- Settles O3: the mark, the loss of power, and the blocks. -/
theorem powerUpGivesBlocksTheirValues : Obligations.PowerUpGivesBlocksTheirValues := by
  refine ⟨fun st => ⟨fun m => markRead_agrees, markRead_disagrees, markRead_blank⟩,
    fun s on => ⟨s.lose, exec_powerLoss on, rfl, fun faults levels =>
      (exec_powerUp_on on faults levels).trans (exec_powerUp_off rfl faults levels).symm⟩,
    fun s faults levels off => ⟨_, exec_powerUp_off off faults levels, ?_⟩⟩
  have rest := powerUpSupervisor_rest s.store.inForce.1.units faults
  refine ⟨rfl, rfl, rfl, rfl, rfl, rfl, ?lock, rfl, rfl, rfl, rfl, rfl, ?reserve, rfl, steam_powerUp.1, rfl, rfl,
    steam_powerUp.2, get_none_caps, ?watch, ?pool, ?window, fun u => ⟨faultActive_powerUp _ _ u, ?_, ?_, ?_⟩,
    fun i => ?input, ⟨failedAtPowerUp s.store.inForce.1.units faults,
      bareSupervisor s.store.inForce.1.units faults, ?ordered, mem_failedAtPowerUp _ _, ?bare,
      bare_powerUp s.store faults, rfl⟩, fun g => ?group, fun i => ?short, rfl, rfl, fun m mark => ?mark,
    rfl, rfl, rfl, rfl, rfl, rfl, rfl, rfl, rfl, rfl, rfl, rfl, rfl, runLatch_boot s faults levels, rfl,
    fun k => ?staging, rfl, rfl, rfl⟩
  case lock => exact decide_eq_true_iff
  case reserve => exact congrArg UnitSupervisor.reserve rest
  case watch => exact congrArg UnitSupervisor.watch rest
  case pool => exact congrArg UnitSupervisor.reserve rest
  case window => exact congrArg UnitSupervisor.window rest
  case input =>
    rw [input_boot]
    exact ⟨rfl, rfl⟩
  case ordered => exact (List.pairwise_lt_finRange 48).filter _
  case bare =>
    rw [show (s.boot faults levels).supervisor = _ from rest]
    rfl
  case group =>
    rw [group_boot]
    exact ⟨rfl, rfl, rfl, rfl, rfl, rfl, rfl, rfl⟩
  case short =>
    show (powerUpSupervisor s.store.inForce.1.units faults).short.get i = false
    rw [rest]
    exact Table.get_replicate _ _
  case mark =>
    show s.store.markFailed = _
    simp only [OptionStore.markFailed, mark]
  case staging => exact Table.get_replicate _ _
  · exact (window_powerUp _ _ u).trans (inForce_blank s.store u).2.1
  · exact powerUp_runOutput _ _ (inForce_runOutput s.store) u
  · exact condition_powerUp_spec _ _ u

end Sys2Proof.Machine

/-! The record in force and the sections at power-up (R1, R10, R14, R36, R42, R44, R127, R171, R172, R176). -/

namespace Sys2Proof.Machine

/-! ### The fields of a record that has been read (R127, R171) -/

theorem idOf_eq_some_iff {n k : Nat} (i : Fin n) : idOf n k = some i ↔ k = i.val := by
  constructor
  · unfold idOf
    split
    · rintro e
      rw [← Option.some.inj e]
    · exact fun e => absurd e (by simp)
  · rintro rfl
    exact idOf_val i

theorem polarityOf_eq (n : Nat) : polarityOf n = if n = 0 then .activeHigh else .activeLow := rfl

section
variable (w : RawSite)

theorem unit_spec (u : UnitId) :
    (w.unit u).cls = (w.units.getD u.val (0, (0, 0))).2.1 ∧
    (w.unit u).role = (if (w.units.getD u.val (0, (0, 0))).1 = 1 then .duty
      else if (w.units.getD u.val (0, (0, 0))).1 = 2 then .spare else .none) ∧
    ∀ i, (w.unit u).sec = some i ↔
      (w.units.getD u.val (0, (0, 0))).1 = 1 ∧ (w.units.getD u.val (0, (0, 0))).2.2 = i.val := by
  unfold RawSite.unit
  dsimp only
  generalize w.units.getD u.val (0, (0, 0)) = p
  split
  · next duty => simp [duty, idOf_eq_some_iff]
  · next spare => simp [spare, UnitRecord.none]
  · next duty spare =>
    rw [if_neg duty, if_neg spare]
    exact ⟨rfl, rfl, fun i => iff_of_false (by simp [UnitRecord.none]) fun h => duty h.1⟩

/-- R7: the links of a slot, as they are read. -/
theorem mem_slotUp (i : SectionId) (l : Link) :
    l ∈ w.up i ↔ (l.id.val, l.lag) ∈ (w.links.getD i.val ([], [])).1 := by
  simp only [RawSite.up, List.mem_filterMap, Option.map_eq_some_iff, idOf_eq_some_iff]
  constructor
  · rintro ⟨e, mem, u, own, rfl⟩
    rw [← own]
    exact mem
  · exact fun mem => ⟨_, mem, l.id, rfl, rfl⟩

theorem mem_slotDown (i d : SectionId) : d ∈ w.down i ↔ d.val ∈ (w.links.getD i.val ([], [])).2 :=
  mem_filterMap_idOf

/-- Links that all name sections of the part are read as they stand. -/
theorem up_eq {i : SectionId} (h : ∀ e ∈ (w.links.getD i.val ([], [])).1, e.1 < 24) :
    (w.up i).map (fun l => (l.id.val, l.lag)) = (w.links.getD i.val ([], [])).1 := by
  unfold RawSite.up
  generalize (w.links.getD i.val ([], [])).1 = es at h
  induction es with
  | nil => rfl
  | cons e es ih =>
    have lt := h e List.mem_cons_self
    have own : idOf 24 e.1 = some ⟨e.1, lt⟩ := idOf_val (⟨e.1, lt⟩ : Fin 24)
    rw [List.filterMap_cons_some (by rw [own]; rfl), List.map_cons, ih fun x mem => h x (List.mem_cons_of_mem e mem)]

theorem down_eq {i : SectionId} (h : ∀ d ∈ (w.links.getD i.val ([], [])).2, d < 24) :
    (w.down i).map (fun d => d.val) = (w.links.getD i.val ([], [])).2 := by
  unfold RawSite.down RawSite.downIds
  generalize (w.links.getD i.val ([], [])).2 = ds at h
  induction ds with
  | nil => rfl
  | cons d ds ih =>
    have lt := h d List.mem_cons_self
    rw [List.filterMap_cons_some (idOf_val (⟨d, lt⟩ : Fin 24)), List.map_cons,
      ih fun x mem => h x (List.mem_cons_of_mem d mem)]

theorem fitted_lt {w : RawSite} (slots : w.slots.length = 24) {k : Nat} (fitted : w.fitted k = true) : k < 24 := by
  by_contra past
  rw [RawSite.fitted, List.getD_eq_default _ _ (by omega)] at fitted
  exact absurd fitted (by decide)

/-- R174: the links of a record that has passed the checks name fitted sections. -/
theorem linksOk_lists {w : RawSite} (ok : w.linksOk = true) (i : SectionId) :
    (∀ e ∈ (w.links.getD i.val ([], [])).1, w.fitted e.1 = true) ∧
    ∀ d ∈ (w.links.getD i.val ([], [])).2, w.fitted d = true := by
  have own := List.all_eq_true.1 ok i.val (List.mem_range.2 i.isLt)
  simp only [Bool.and_eq_true, RawSite.listOk, List.all_eq_true] at own
  obtain ⟨⟨⟨⟨-, up⟩, -, down⟩, -⟩, -⟩ := own
  exact ⟨fun e mem => up e.1 (List.mem_map_of_mem mem), down⟩

theorem linksOk_of_accepted {parts : Table (List Byte) 8} {w : RawSite} (read : readSite parts = some w)
    (accepted : siteRefusal parts = none) : w.linksOk = true := by
  unfold siteRefusal at accepted
  simp only [read] at accepted
  split at accepted
  · exact absurd accepted (by simp)
  · next ok =>
    simp only [Bool.not_eq_true', Bool.not_eq_false, Bool.and_eq_true] at ok
    exact ok.2

/-- R1, R171: a slot of a record that has been read. -/
theorem slot_fitted {i : SectionId} (fitted : w.fitted i.val = true) : w.slot i =
    { fitted := true
      cls := if (w.slots.getD i.val (0, 0)).2 = 0 then .process else .storage
      label := (w.names.getD i.val ([], (0, none))).1.map byte
      native := nativeOf (if (w.slots.getD i.val (0, 0)).2 = 0 then .process else .storage)
        (w.names.getD i.val ([], (0, none))).2.2
      upstream := w.up i
      downstream := w.down i } := if_pos fitted

theorem slot_bare {i : SectionId} (bare : ¬ w.fitted i.val = true) : w.slot i = .unfitted := if_neg bare

theorem nativeOf_eq (n : Nat) (given : Option Nat) :
    nativeOf (if n = 0 then .process else .storage) given = if n = 0 then none else some (given.getD 980) := by
  split <;> rfl

end

/-! ### A section record at power-up (R1, R10, R14, R44) -/

section
variable {sl : Slot} (duty : List UnitId) (m : Mark)

theorem section_fitted (fitted : sl.fitted = true) : sl.section duty m = { Section.unfitted with
    fitted := true, cls := sl.cls, label := sl.label, nativeCeiling := sl.native, upstream := sl.upstream
    downstream := sl.downstream, state := if m = .closed then .cold else .held
    holds := if m = .closed then [] else [.restart]
    workingCeiling := sl.native.map powerUpCeiling, dutyUnits := duty } := if_pos fitted

theorem section_bare (bare : sl.fitted = false) : sl.section duty m = Section.unfitted :=
  if_neg (by simp [bare])

theorem fitted_section (sl : Slot) : (sl.section duty m).fitted = sl.fitted := by
  cases fitted : sl.fitted with
  | true => rw [section_fitted duty m fitted]
  | false =>
    rw [section_bare duty m fitted]
    rfl

/-- What a slot gives a section does not depend on the slot: the values of R10, R33, R44, R53, R65 and R94. -/
theorem section_constants (sl : Slot) :
    (sl.section duty m).heldFrom = none ∧ (sl.section duty m).enteredAt = 0 ∧
    (sl.section duty m).phase = .empty ∧ (sl.section duty m).phaseSince = 0 ∧
    (sl.section duty m).mode = .manual ∧ (sl.section duty m).intake = .closed ∧
    (sl.section duty m).discharge = .closed ∧ (sl.section duty m).conditioningTime = 600 ∧
    (sl.section duty m).demand = 0 ∧ (sl.section duty m).minUnits = 0 ∧
    (sl.section duty m).ceilingLifted = false ∧ (sl.section duty m).limits = Limits.powerUp ∧
    (sl.section duty m).ring = CaptureRing.emptied .absolute .continuous := by
  cases fitted : sl.fitted with
  | true =>
    rw [section_fitted duty m fitted]
    exact ⟨rfl, rfl, rfl, rfl, rfl, rfl, rfl, rfl, rfl, rfl, rfl, rfl, rfl⟩
  | false =>
    rw [section_bare duty m fitted]
    exact ⟨rfl, rfl, rfl, rfl, rfl, rfl, rfl, rfl, rfl, rfl, rfl, rfl, rfl⟩

end

/-- R1: a slot's native ceiling goes with its class. -/
def Slot.ceiled (sl : Slot) : Prop :=
  (sl.cls = .process → sl.native = none) ∧ (sl.cls = .storage → ∃ n, sl.native = some n)

theorem unfitted_ceiled : Slot.unfitted.ceiled := ⟨fun _ => rfl, fun h => absurd h (by simp [Slot.unfitted])⟩

theorem slot_ceiled (w : RawSite) (i : SectionId) : (w.slot i).ceiled := by
  by_cases fitted : w.fitted i.val = true
  · rw [slot_fitted w fitted]
    constructor <;> intro cls <;> dsimp only at cls ⊢ <;> rw [cls]
    · rfl
    · exact ⟨_, rfl⟩
  · rw [slot_bare w fitted]
    exact unfitted_ceiled

theorem inForce_ceiled (st : OptionStore) (i : SectionId) : (st.inForce.1.slots.get i).ceiled := by
  refine inForce_induction (P := fun r => (r.slots.get i).ceiled) ?_ (fun w => ?_) st
  · rw [slot_default]
    exact unfitted_ceiled
  · have slot : w.record.slots.get i = w.slot i := Table.get_ofFn _ _
    rw [slot]
    exact slot_ceiled w i

/-- R1, R44: the two ceilings of a section at power-up. -/
theorem section_ceilings {sl : Slot} (ceiled : sl.ceiled) (duty : List UnitId) (m : Mark) :
    ((sl.section duty m).cls = .process →
      (sl.section duty m).nativeCeiling = none ∧ (sl.section duty m).workingCeiling = none) ∧
    ((sl.section duty m).cls = .storage → ∃ n, (sl.section duty m).nativeCeiling = some n ∧
      (sl.section duty m).workingCeiling = some (min 850 n)) := by
  obtain ⟨process, storage⟩ := ceiled
  cases fitted : sl.fitted with
  | true =>
    rw [section_fitted duty m fitted]
    refine ⟨fun cls => ?_, fun cls => ?_⟩
    · have none := process cls
      exact ⟨none, by dsimp only; rw [none]; rfl⟩
    · obtain ⟨n, native⟩ := storage cls
      exact ⟨n, native, by dsimp only; rw [native]; rfl⟩
  | false =>
    rw [section_bare duty m fitted]
    exact ⟨fun _ => ⟨rfl, rfl⟩, fun cls => absurd cls (by simp [Section.unfitted])⟩

/-! ### The channels at power-up (R36, R42) -/

theorem channelSection_level (i : SectionId) : channelSection (levelChannel i) = i :=
  Fin.ext (show 2 * i.val / 2 = i.val by omega)

theorem channelSection_solids (i : SectionId) : channelSection (solidsChannel i) = i :=
  Fin.ext (show (2 * i.val + 1) / 2 = i.val by omega)

theorem level_boot (s : State) (f : BitVec 48) (l : BitVec 8) (i : SectionId) :
    (s.boot f l).level i = (s.store.inForce.1.slots.get i).channel true := by
  have even : ((levelChannel i).val % 2 == 0) = true := by simp [levelChannel]
  refine (Table.get_ofFn _ _).trans ?_
  rw [channelSection_level, even]

theorem solids_boot (s : State) (f : BitVec 48) (l : BitVec 8) (i : SectionId) :
    (s.boot f l).solids i = (s.store.inForce.1.slots.get i).channel false := by
  have odd : ((solidsChannel i).val % 2 == 0) = false := by
    simp [solidsChannel]
  refine (Table.get_ofFn _ _).trans ?_
  rw [channelSection_solids, odd]

/-- R36: a channel has no raw result, no value and no dead sample at power-up. -/
theorem channel_blank (sl : Slot) (level : Bool) :
    (sl.channel level).raw = 0 ∧ (sl.channel level).value = 0 ∧ (sl.channel level).validity = .valid ∧
      (sl.channel level).run = 3 := by
  unfold Slot.channel
  split <;> exact ⟨rfl, rfl, rfl, rfl⟩

/-- R36, R42: which channels are converted, and where their bands stand. -/
theorem channel_spec (sl : Slot) (duty : List UnitId) (m : Mark) :
    ((sl.channel true).converted = true ↔ (sl.section duty m).fitted = true) ∧
    ((sl.channel false).converted = true ↔
      (sl.section duty m).fitted = true ∧ (sl.section duty m).cls = .process) ∧
    (sl.channel true).bands =
      (if (sl.section duty m).fitted = false then
        { empty := some true, fillDone := none, high := none, ceiling := none, sweet := none }
      else if (sl.section duty m).cls = .process then
        { empty := some true, fillDone := some false, high := some false, ceiling := none, sweet := none }
      else { empty := some true, fillDone := none, high := none, ceiling := some false, sweet := none }) ∧
    (sl.channel false).bands =
      (if (sl.section duty m).fitted = true ∧ (sl.section duty m).cls = .process then
        { empty := none, fillDone := none, high := none, ceiling := none, sweet := some false }
      else { empty := none, fillDone := none, high := none, ceiling := none, sweet := none }) := by
  cases fitted : sl.fitted with
  | true =>
    rw [section_fitted duty m fitted]
    cases cls : sl.cls with
    | process => simp [Slot.channel, fitted, cls]
    | storage => simp [Slot.channel, fitted, cls, Channel.unconverted]
  | false =>
    rw [section_bare duty m fitted]
    simp [Slot.channel, fitted, Section.unfitted, Channel.unconverted]

/-! ### The duty units (R127) -/

theorem mem_dutyList (units : Table UnitRecord 48) (i : SectionId) (u : UnitId) : u ∈ dutyList units i ↔
    (units.get u).role = .duty ∧ (units.get u).sec = some i := by
  simp [dutyList]

theorem dutyList_ordered (units : Table UnitRecord 48) (i : SectionId) : (dutyList units i).Pairwise (· < ·) :=
  (List.pairwise_lt_finRange 48).filter _

/-! ### The record in force (R172) -/

/-- The part of O4 that a record which has been read gives one section. -/
theorem boot_slot {s : State} {w : RawSite} (inForce : s.store.inForce = (w.record, .valid))
    (f : BitVec 48) (l : BitVec 8) (i : SectionId) :
    (s.boot f l).sec i = (w.slot i).section (dutyList (Table.ofFn w.unit) i) s.store.markRead := by
  rw [sec_boot, inForce]
  exact congrArg (fun sl : Slot => sl.section _ _) (Table.get_ofFn _ _)

theorem boot_unit (s : State) (f : BitVec 48) (l : BitVec 8) (u : UnitId) :
    (s.boot f l).supervisor.units.get u = (powerUpSupervisor s.store.inForce.1.units f).units.get u := rfl

/-- Settles O4: the record that has been read, the default record, and the values common to both. -/
theorem powerUpGivesSectionsTheirValues : Obligations.PowerUpGivesSectionsTheirValues := by
  refine ⟨fun s faults levels w off agrees read => ⟨_, exec_powerUp_off off faults levels, ?_⟩,
    fun s faults levels off h => ⟨_, exec_powerUp_off off faults levels, ?_⟩,
    fun s faults levels off => ⟨_, exec_powerUp_off off faults levels, fun i => ?_⟩⟩
  · have inForce := inForce_valid agrees read
    have own (u : UnitId) : s.store.inForce.1.units.get u = w.unit u := by
      rw [inForce]
      exact Table.get_ofFn _ _
    refine ⟨?status, ?_, ?_, ?_, ?name, ?issue, fun i => ?trip, fun u => ?run, fun i => ?route, fun u => ?unit,
      fun i => ?slot⟩
    case status => exact congrArg Prod.snd inForce
    case name => exact congrArg (fun r : SiteRecord × SiteStatus => r.1.name) inForce
    case issue => exact congrArg (fun r : SiteRecord × SiteStatus => r.1.issue) inForce
    case trip =>
      rw [input_boot, inForce]
      exact Table.get_ofFn _ _
    case run =>
      show s.store.inForce.1.runs.get u = _
      rw [inForce]
      exact Table.get_ofFn _ _
    case route =>
      show s.store.inForce.1.routes.get i = _
      rw [inForce]
      exact Table.get_ofFn _ _
    case unit =>
      rw [boot_unit, cls_powerUp, role_powerUp, sec_powerUp, own]
      exact unit_spec w u
    case slot =>
      rw [boot_slot inForce, fitted_section]
      have duty (u : UnitId) : u ∈ dutyList (Table.ofFn w.unit) i ↔
          ((s.boot faults levels).supervisor.units.get u).role = .duty ∧
            ((s.boot faults levels).supervisor.units.get u).sec = some i := by
        rw [boot_unit, role_powerUp, sec_powerUp, own, mem_dutyList, Table.get_ofFn]
      by_cases fitted : w.fitted i.val = true
      · rw [slot_fitted w fitted, section_fitted _ _ rfl]
        refine ⟨iff_of_true rfl (by simpa [RawSite.fitted] using fitted), fun _ => ⟨rfl, rfl, nativeOf_eq _ _,
          mem_slotUp w i, mem_slotDown w i, dutyList_ordered _ i, duty⟩, fun bare => absurd bare (by simp),
          fun accepted _ => ?_⟩
        obtain ⟨up, down⟩ := linksOk_lists (linksOk_of_accepted read accepted) i
        have slots := readSite_slots read
        exact ⟨up_eq w fun e mem => fitted_lt slots (up e mem), down_eq w fun d mem => fitted_lt slots (down d mem)⟩
      · rw [slot_bare w fitted, section_bare _ _ rfl]
        exact ⟨iff_of_false (by simp [Slot.unfitted]) (by simpa [RawSite.fitted] using fitted),
          fun fits => absurd fits (by simp [Slot.unfitted]), fun _ => ⟨rfl, rfl, rfl⟩,
          fun _ fits => absurd fits (by simp [Slot.unfitted])⟩
    all_goals
      intro rate
      show s.store.inForce.1.rate = _
      rw [inForce]
      show rateOf w.rate = _
      rw [rate]
      rfl
  · have inForce := inForce_defaulted h
    refine ⟨congrArg Prod.snd inForce, congrArg (fun r : SiteRecord × SiteStatus => r.1.rate) inForce,
      congrArg (fun r : SiteRecord × SiteStatus => r.1.name) inForce,
      congrArg (fun r : SiteRecord × SiteStatus => r.1.issue) inForce, fun i => ?_, fun u => ?_, fun i => ?_⟩
    · rw [input_boot, inForce]
      exact Table.get_replicate _ _
    · rw [boot_unit, cls_powerUp, role_powerUp, sec_powerUp, inForce, unit_default]
      refine ⟨?_, rfl, rfl, rfl⟩
      show s.store.inForce.1.runs.get u = _
      rw [inForce]
      exact Table.get_replicate _ _
    · rw [sec_boot, inForce, slot_default, section_bare _ _ rfl]
      refine ⟨?_, rfl, rfl, rfl, rfl⟩
      show s.store.inForce.1.routes.get i = _
      rw [inForce]
      exact Table.get_replicate _ _
  · rw [sec_boot, level_boot, solids_boot]
    have ceiled := inForce_ceiled s.store i
    generalize dutyList s.store.inForce.1.units i = duty
    generalize s.store.inForce.1.slots.get i = sl at ceiled
    generalize s.store.markRead = m
    obtain ⟨heldFrom, entered, phase, since, mode, intake, discharge, conditioning, demand, minUnits, lifted,
      limits, ring⟩ := section_constants duty m sl
    obtain ⟨process, storage⟩ := section_ceilings ceiled duty m
    obtain ⟨level, solids, levelBands, solidsBands⟩ := channel_spec sl duty m
    refine ⟨fun bare => ?_, fun fitted closed => ?_, fun fitted open' => ?_, heldFrom, entered, phase, since, mode,
      intake, discharge, conditioning, demand, minUnits, lifted, limits, ring, level, solids, process, storage,
      fun c mem => ?_, levelBands, solidsBands, Table.get_map _ _ _⟩
    · rw [fitted_section] at bare
      rw [section_bare duty m bare]
      exact ⟨rfl, rfl, rfl, rfl, rfl⟩
    · rw [fitted_section] at fitted
      rw [section_fitted duty m fitted]
      exact ⟨if_pos closed, if_pos closed⟩
    · rw [fitted_section] at fitted
      rw [section_fitted duty m fitted]
      exact ⟨if_neg open', if_neg open'⟩
    · simp only [List.mem_cons, List.not_mem_nil, or_false] at mem
      rcases mem with rfl | rfl <;> exact channel_blank sl _

end Sys2Proof.Machine

/-! The part just powered up from an option store that has never been written (R172, R175, R176). -/

namespace Sys2Proof.Machine

/-! ### The default record comes up -/

theorem ofFn_const {α : Type} {n : Nat} (a : α) : (Table.ofFn fun _ : Fin n => a) = Table.replicate n a :=
  Table.ext_get fun i => by rw [Table.get_ofFn, Table.get_replicate]

theorem map_replicate {α β : Type} {n : Nat} (f : α → β) (a : α) :
    (Table.replicate n a).map f = Table.replicate n (f a) :=
  Table.ext_get fun i => by rw [Table.get_map, Table.get_replicate, Table.get_replicate]

theorem bareSupervisor_default : bareSupervisor SiteRecord.default.units 0 = State.reset.supervisor := by
  have units : powerUpUnits SiteRecord.default.units 0 = Table.replicate 48 UnitRecord.none := by
    refine Table.ext_get fun u => ?_
    rw [powerUpUnits, Table.get_ofFn, unit_default, Table.get_replicate]
    simp [UnitRecord.none]
  rw [bareSupervisor, units]
  rfl

theorem powerUpSupervisor_default : powerUpSupervisor SiteRecord.default.units 0 = State.reset.supervisor := by
  have none : failedAtPowerUp SiteRecord.default.units 0 = [] := by
    refine List.filter_eq_nil_iff.2 fun u _ => ?_
    rw [get_bareSupervisor, unit_default]
    simp [UnitRecord.none]
  rw [powerUpSupervisor_eq, none, bareSupervisor_default]
  rfl

theorem sections_default (duty : SectionId → List UnitId) (m : Mark) :
    (Table.ofFn fun i => (SiteRecord.default.slots.get i).section (duty i) m) = State.reset.sections := by
  rw [show State.reset.sections = Table.replicate 24 Section.unfitted from rfl, ← ofFn_const]
  refine congrArg Table.ofFn (funext fun i => ?_)
  rw [slot_default, section_bare _ _ rfl]

theorem channels_default :
    (Table.ofFn fun c : ChannelId => (SiteRecord.default.slots.get (channelSection c)).channel (c.val % 2 == 0)) =
      State.reset.scanner.channels :=
  congrArg Table.ofFn (funext fun c => by rw [slot_default]; rfl)

theorem inputs_default : (Table.ofFn fun i : InputId =>
    ({ polarity := SiteRecord.default.trip.get i, level := false, active := false } : TripInput).atLevel
      ((0 : BitVec 8).getLsbD i.val)) = State.reset.trips.inputs := by
  rw [show State.reset.trips.inputs =
    Table.replicate 8 { polarity := .activeHigh, level := false, active := false } from rfl, ← ofFn_const]
  refine congrArg Table.ofFn (funext fun i => ?_)
  rw [show SiteRecord.default.trip = Table.replicate 8 .activeHigh from rfl, Table.get_replicate]
  simp [TripInput.atLevel, Polarity.level]

theorem restLines_default : restLines SiteRecord.default = State.reset.lines := by
  unfold restLines
  rw [show SiteRecord.default.routes = Table.replicate 24 (RouteQuad.all .activeHigh) from rfl,
    show SiteRecord.default.runs = Table.replicate 48 .activeHigh from rfl, map_replicate, map_replicate]
  rfl

theorem freeCount_reset : State.reset.supervisor.freeCount = 0 := by decide

/-- R176: the reset state is the one that comes up from a blank option store. -/
theorem boot_reset : ({ State.reset with powered := false } : State).boot 0 0 = State.reset := by
  have inForce : OptionStore.blank.inForce = (.default, .defaulted) := inForce_defaulted (.inl (by simp [OptionStore.blank]))
  have store : ({ State.reset with powered := false } : State).store = OptionStore.blank := rfl
  unfold State.boot
  dsimp only
  rw [store, inForce]
  dsimp only
  rw [powerUpSupervisor_default, sections_default, channels_default, inputs_default, restLines_default, freeCount_reset]
  rfl

theorem blank_sound : OptionStore.blank.sound := fun agrees => absurd agrees (by simp [OptionStore.blank])

/-- Settles O52: each law at power-up, where the option store is blank. -/
theorem lawsHoldAtReset : Obligations.LawsHoldAtReset := by
  have run : exec (.powerUp 0 0) { State.reset with powered := false } = .next State.reset :=
    (exec_powerUp_off rfl 0 0).trans (congrArg Host.Outcome.next boot_reset)
  have store : State.reset.storeLaw := ⟨blank_sound, fun writing => absurd writing Bool.false_ne_true⟩
  refine ⟨?_, ?_, ?_, ?_, ?_, ?_, ?_, ?_, ?_, ?_, ?_, ?_, ?_, ?_, ?_, ?_, ?_, ?_, ?_, store, run⟩
  all_goals rw [← boot_reset]
  · exact (boot_linkPortLaws _ 0 0).1
  · exact (boot_linkPortLaws _ 0 0).2
  · exact (boot_steamLaws _ 0 0).hold
  · exact boot_deadlineLaw _ 0 0
  · exact boot_fittedLaw _ 0 0
  · exact boot_closedLaw _ 0 0
  · exact boot_campaignLaw _ 0 0
  · exact boot_clockLaw _ 0 0
  · exact graphLaw_boot _ 0 0 blank_sound
  · exact boot_outputLaw _ 0 0
  · exact (boot_steamLaws _ 0 0).steam
  · exact boot_watchLaw _ 0 0
  · exact boot_overlapLaw _ 0 0
  · exact boot_holdOrderLaw _ 0 0
  · exact boot_groupSetsLaw _ 0 0
  · exact boot_tripLaw _ 0 0
  · exact boot_memberLaw _ 0 0
  · exact (boot_steamLaws _ 0 0).claim
  · exact (boot_poolLaws _ 0 0 blank_sound).pool

end Sys2Proof.Machine

/-! The eight parts of the site record, field by field (R171). -/

namespace Sys2Proof.Machine

/-! ### Readers of a fixed number of bytes -/

/-- A reader that takes exactly `k` bytes, and finds its value `f` in them. -/
def Fixed {α : Type} (r : Reader α) (k : Nat) (f : List Byte → α) : Prop :=
  ∀ bs, r bs = if k ≤ bs.length then some (f bs, bs.drop k) else none

/-- The byte at place `k`, as a number. -/
def byteAt (bs : List Byte) (k : Nat) : Nat := (bs.getD k 0).toNat

theorem byteAt_drop (bs : List Byte) (n k : Nat) : byteAt (bs.drop n) k = byteAt bs (n + k) := by
  simp [byteAt]

theorem readByte_fixed : Fixed readByte 1 (fun bs => byteAt bs 0) := by
  intro bs
  cases bs with
  | nil => rfl
  | cons b bs => simp [readByte, byteAt]

section
variable {α β : Type} {r : Reader α} {q : Reader β} {k l : Nat} {f : List Byte → α} {g : List Byte → β}

theorem readBoth_fixed (one : Fixed r k f) (two : Fixed q l g) :
    Fixed (readBoth r q) (k + l) (fun bs => (f bs, g (bs.drop k))) := by
  intro bs
  unfold readBoth
  rw [one bs]
  by_cases first : k ≤ bs.length
  · rw [if_pos first]
    dsimp only
    rw [two, List.length_drop, List.drop_drop]
    by_cases both : k + l ≤ bs.length
    · rw [if_pos (show l ≤ bs.length - k by omega), if_pos both]
    · rw [if_neg (show ¬ l ≤ bs.length - k by omega), if_neg both]
  · rw [if_neg first, if_neg (show ¬ k + l ≤ bs.length by omega)]

theorem readMany_fixed (one : Fixed r k f) (n : Nat) :
    Fixed (readMany r n) (k * n) (fun bs => (List.range n).map fun i => f (bs.drop (k * i))) := by
  induction n with
  | zero => intro bs; simp [readMany]
  | succ n ih =>
    intro bs
    have size : k * (n + 1) = k + k * n := by rw [Nat.mul_succ, Nat.add_comm]
    unfold readMany
    rw [one bs]
    by_cases first : k ≤ bs.length
    · rw [if_pos first]
      dsimp only
      rw [ih, List.length_drop, List.drop_drop]
      by_cases all : k * (n + 1) ≤ bs.length
      · rw [if_pos (show k * n ≤ bs.length - k by omega), if_pos all, ← size]
        simp only [List.range_succ_eq_map, List.map_cons, List.map_map, Nat.mul_zero, List.drop_zero,
          List.drop_drop, Function.comp_def, Nat.succ_eq_add_one, Nat.mul_succ, Nat.add_comm]
      · rw [if_neg (show ¬ k * n ≤ bs.length - k by omega), if_neg all]
    · rw [if_neg first, if_neg (show ¬ k * (n + 1) ≤ bs.length by omega)]

/-- R171: fields of a fixed number of bytes fill the part behind its number. -/
theorem readPart_fixed (one : Fixed r k f) (part : List Byte) (a : α) :
    readPart r part = some a ↔ part.length = k + 1 ∧ a = f (part.drop 1) := by
  unfold readPart readAll
  rw [readBoth_fixed readByte_fixed one part]
  by_cases enough : 1 + k ≤ part.length
  · rw [if_pos enough]
    by_cases exact' : part.length = k + 1
    · rw [List.drop_eq_nil_of_le (by omega)]
      simp [exact', eq_comm (a := a)]
    · have more : part.drop (1 + k) ≠ [] := by
        rw [Ne, List.drop_eq_nil_iff]
        omega
      cases rest : part.drop (1 + k) with
      | nil => exact absurd rest more
      | cons b bs => simp [exact']
  · rw [if_neg enough]
    simp only [Option.map_none, reduceCtorEq, false_iff]
    rintro ⟨length, -⟩
    omega

end

/-- A list by its length and its entries. -/
theorem eq_map_range_iff {α : Type} (l : List α) (n : Nat) (f : Nat → α) (d : α) :
    l = (List.range n).map f ↔ l.length = n ∧ ∀ k < n, l.getD k d = f k := by
  constructor
  · rintro rfl
    exact ⟨by simp, fun k lt => by simp [lt]⟩
  · rintro ⟨length, entries⟩
    refine List.ext_getElem (by simpa using length) fun k lt _ => ?_
    have entry := entries k (by omega)
    rw [List.getD_eq_getElem _ _ lt] at entry
    simpa using entry

/-! ### The parts of bytes alone: 0, 5 and 6 -/

theorem readPart0_iff (part : List Byte) (rate : Nat) (trip : List Nat) (slots : List (Nat × Nat)) :
    readPart (readBoth readByte (readBoth (readMany readByte 8) (readMany (readBoth readByte readByte) 24))) part =
      some (rate, trip, slots) ↔
    part.length = 58 ∧ rate = byteAt part 1 ∧
    (trip.length = 8 ∧ ∀ k < 8, trip.getD k 0 = byteAt part (2 + k)) ∧
    (slots.length = 24 ∧ ∀ i < 24, slots.getD i (0, 0) = (byteAt part (10 + 2 * i), byteAt part (11 + 2 * i))) := by
  rw [readPart_fixed (readBoth_fixed readByte_fixed (readBoth_fixed (readMany_fixed readByte_fixed 8)
    (readMany_fixed (readBoth_fixed readByte_fixed readByte_fixed) 24)))]
  rw [← eq_map_range_iff, ← eq_map_range_iff]
  simp only [Prod.mk.injEq, List.drop_drop, byteAt_drop, Nat.add_zero]
  have trips (k : Nat) : 1 + 1 + 1 * k = 2 + k := by omega
  have classes (k : Nat) : 10 + 2 * k + 1 = 11 + 2 * k := by omega
  simp only [trips, classes, Nat.reduceAdd, Nat.reduceMul]

theorem readPart5_iff (part : List Byte) (units : List (Nat × (Nat × Nat))) :
    readPart (readMany (readBoth readByte (readBoth readByte readByte)) 48) part = some units ↔
    part.length = 145 ∧ (units.length = 48 ∧ ∀ u < 48, units.getD u (0, (0, 0)) =
      (byteAt part (1 + 3 * u), (byteAt part (2 + 3 * u), byteAt part (3 + 3 * u)))) := by
  rw [readPart_fixed (readMany_fixed (readBoth_fixed readByte_fixed (readBoth_fixed readByte_fixed readByte_fixed)) 48)]
  rw [← eq_map_range_iff]
  simp only [List.drop_drop, byteAt_drop, Nat.add_zero]
  have classes (u : Nat) : 1 + 3 * u + 1 = 2 + 3 * u := by omega
  have secs (u : Nat) : 1 + 3 * u + 2 = 3 + 3 * u := by omega
  simp only [classes, secs, Nat.reduceAdd, Nat.reduceMul]

theorem readPart6_iff (part : List Byte) (routes runs : List Nat) :
    readPart (readBoth (readMany readByte 96) (readMany readByte 48)) part = some (routes, runs) ↔
    part.length = 145 ∧ (routes.length = 96 ∧ ∀ k < 96, routes.getD k 0 = byteAt part (1 + k)) ∧
      (runs.length = 48 ∧ ∀ u < 48, runs.getD u 0 = byteAt part (97 + u)) := by
  rw [readPart_fixed (readBoth_fixed (readMany_fixed readByte_fixed 96) (readMany_fixed readByte_fixed 48))]
  rw [← eq_map_range_iff, ← eq_map_range_iff]
  simp only [Prod.mk.injEq, List.drop_drop, byteAt_drop, Nat.add_zero]
  simp only [Nat.one_mul, Nat.reduceAdd]

/-! ### The parts of lists: 1 and 2, 3 and 4, and 7 -/

/-- The bytes of one name entry. -/
def nameBytes (p : List Nat × (Nat × Option Nat)) : List Byte :=
  byte p.1.length :: p.1.map byte ++ byte p.2.1 :: (p.2.2.map word).getD []

/-- What the bytes of a name entry can hold. -/
def NameHeld (p : List Nat × (Nat × Option Nat)) : Prop :=
  (p.1.length < 256 ∧ ∀ c ∈ p.1, c < 256) ∧ p.2.1 < 256 ∧ (p.2.2.isSome = true ↔ p.2.1 = 1) ∧ ∀ n ∈ p.2.2, n < 65536

/-- The bytes of one entry of links. -/
def linkBytes (p : List (Nat × Nat) × List Nat) : List Byte :=
  (byte p.1.length :: p.1.flatMap fun l => byte l.1 :: word l.2) ++ byte p.2.length :: p.2.map byte

/-- What the bytes of an entry of links can hold. -/
def LinkHeld (p : List (Nat × Nat) × List Nat) : Prop :=
  (p.1.length < 256 ∧ ∀ l ∈ p.1, l.1 < 256 ∧ l.2 < 65536) ∧ p.2.length < 256 ∧ ∀ d ∈ p.2, d < 256

theorem flatMap_byte (ns : List Nat) : ns.flatMap (fun n => [byte n]) = ns.map byte :=
  List.flatMap_pure_eq_map _ _

theorem readNames_iff (part : List Byte) (names : List (List Nat × (Nat × Option Nat))) :
    readPart readNames part = some names ↔
      (∃ b, part = b :: names.flatMap nameBytes) ∧ names.length = 12 ∧ ∀ p ∈ names, NameHeld p := by
  refine (readPart_iff
    (readMany_undoes (readBoth_undoes (readList_undoes readByte_undoes) (readOptional_undoes readWord_undoes)) 12)
    (readMany_reads (readBoth_reads (readList_reads readByte_reads) (readOptional_reads readWord_reads)) 12)
    part names).trans ?_
  simp only [flatMap_byte]
  rfl

theorem readLinkLists_iff (part : List Byte) (links : List (List (Nat × Nat) × List Nat)) :
    readPart readLinkLists part = some links ↔
      (∃ b, part = b :: links.flatMap linkBytes) ∧ links.length = 12 ∧ ∀ p ∈ links, LinkHeld p := by
  refine (readPart_iff
    (readMany_undoes (readBoth_undoes (readList_undoes (readBoth_undoes readByte_undoes readWord_undoes))
      (readList_undoes readByte_undoes)) 12)
    (readMany_reads (readBoth_reads (readList_reads (readBoth_reads readByte_reads readWord_reads))
      (readList_reads readByte_reads)) 12)
    part links).trans ?_
  simp only [flatMap_byte]
  rfl

theorem readPart7_iff (part : List Byte) (name : List Nat) (issue : Nat) :
    readPart (readBoth (readList readByte) readByte) part = some (name, issue) ↔
      (∃ b, part = b :: byte name.length :: name.map byte ++ [byte issue]) ∧
        (name.length < 256 ∧ ∀ c ∈ name, c < 256) ∧ issue < 256 := by
  refine (readPart_iff (readBoth_undoes (readList_undoes readByte_undoes) readByte_undoes)
    (readBoth_reads (readList_reads readByte_reads) readByte_reads) part (name, issue)).trans ?_
  simp only [flatMap_byte]
  rfl

/-! ### The eight parts together -/

theorem split_twelve {α : Type} {l a b : List α} (e : l = a ++ b) (len : a.length = 12) : l.take 12 = a ∧ l.drop 12 = b := by
  subst e
  exact ⟨List.take_left' len, List.drop_left' len⟩

/-- R171: the record is read part by part. -/
theorem readSite_iff_parts (parts : Table (List Byte) 8) (w : RawSite) : readSite parts = some w ↔
    readPart (readBoth readByte (readBoth (readMany readByte 8) (readMany (readBoth readByte readByte) 24)))
      (parts.get 0) = some (w.rate, w.trip, w.slots) ∧
    readPart readNames (parts.get 1) = some (w.names.take 12) ∧
    readPart readNames (parts.get 2) = some (w.names.drop 12) ∧
    readPart readLinkLists (parts.get 3) = some (w.links.take 12) ∧
    readPart readLinkLists (parts.get 4) = some (w.links.drop 12) ∧
    readPart (readMany (readBoth readByte (readBoth readByte readByte)) 48) (parts.get 5) = some w.units ∧
    readPart (readBoth (readMany readByte 96) (readMany readByte 48)) (parts.get 6) = some (w.routes, w.runs) ∧
    readPart (readBoth (readList readByte) readByte) (parts.get 7) = some (w.siteName, w.issue) := by
  simp only [readSite, Option.bind_eq_bind, Option.bind_eq_some_iff, Option.pure_def, Option.some.injEq]
  constructor
  · rintro ⟨⟨rate, trip, slots⟩, p0, low, p1, high, p2, llow, p3, lhigh, p4, units, p5, ⟨routes, runs⟩, p6,
      ⟨name, issue⟩, p7, rfl⟩
    obtain ⟨nlow, nhigh⟩ := split_twelve rfl ((readNames_iff _ _).1 p1).2.1
    obtain ⟨klow, khigh⟩ := split_twelve rfl ((readLinkLists_iff _ _).1 p3).2.1
    dsimp only
    rw [nlow, nhigh, klow, khigh]
    exact ⟨p0, p1, p2, p3, p4, p5, p6, p7⟩
  · rintro ⟨p0, p1, p2, p3, p4, p5, p6, p7⟩
    refine ⟨_, p0, _, p1, _, p2, _, p3, _, p4, _, p5, _, p6, _, p7, ?_⟩
    simp only [List.take_append_drop]

end Sys2Proof.Machine

/-! The checks of the site record, and COMMIT SITE RECORD with the completion of its write (R171, R174). -/

namespace Sys2Proof.Machine

/-- The conditions of R171 on a record read from eight parts, each field at its place. -/
theorem readSite_iff (parts : Table (List Byte) 8) (w : RawSite) : readSite parts = some w ↔
    (parts.get 0).length = 58 ∧ (parts.get 5).length = 145 ∧ (parts.get 6).length = 145 ∧
    w.trip.length = 8 ∧ w.slots.length = 24 ∧ w.units.length = 48 ∧ w.routes.length = 96 ∧
    w.runs.length = 48 ∧
    w.rate = byteAt (parts.get 0) 1 ∧
    (∀ k < 8, w.trip.getD k 0 = byteAt (parts.get 0) (2 + k)) ∧
    (∀ i < 24, w.slots.getD i (0, 0) = (byteAt (parts.get 0) (10 + 2 * i), byteAt (parts.get 0) (11 + 2 * i))) ∧
    (∀ u < 48, w.units.getD u (0, (0, 0)) = (byteAt (parts.get 5) (1 + 3 * u),
      (byteAt (parts.get 5) (2 + 3 * u), byteAt (parts.get 5) (3 + 3 * u)))) ∧
    (∀ k < 96, w.routes.getD k 0 = byteAt (parts.get 6) (1 + k)) ∧
    (∀ u < 48, w.runs.getD u 0 = byteAt (parts.get 6) (97 + u)) ∧
    w.names.length = 24 ∧ w.links.length = 24 ∧
    (∃ low high last : Byte, parts.get 1 = low :: (w.names.take 12).flatMap nameBytes ∧
      parts.get 2 = high :: (w.names.drop 12).flatMap nameBytes ∧
      parts.get 7 = last :: byte w.siteName.length :: w.siteName.map byte ++ [byte w.issue]) ∧
    (∀ p ∈ w.names, p.2.2.isSome = true ↔ p.2.1 = 1) ∧
    (∃ low high : Byte, parts.get 3 = low :: (w.links.take 12).flatMap linkBytes ∧
      parts.get 4 = high :: (w.links.drop 12).flatMap linkBytes) ∧
    (∀ p ∈ w.names, p.1.length < 256 ∧ (∀ c ∈ p.1, c < 256) ∧ p.2.1 < 256 ∧ ∀ n ∈ p.2.2, n < 65536) ∧
    (∀ p ∈ w.links, p.1.length < 256 ∧ p.2.length < 256 ∧ (∀ l ∈ p.1, l.1 < 256 ∧ l.2 < 65536) ∧
      ∀ d ∈ p.2, d < 256) ∧
    w.siteName.length < 256 ∧ (∀ c ∈ w.siteName, c < 256) ∧ w.issue < 256 := by
  rw [readSite_iff_parts, readPart0_iff, readNames_iff, readNames_iff, readLinkLists_iff, readLinkLists_iff,
    readPart5_iff, readPart6_iff, readPart7_iff]
  constructor
  · rintro ⟨⟨len0, rate, ⟨ltrip, trip⟩, lslots, slots⟩, ⟨⟨low, p1⟩, nlow, held1⟩, ⟨⟨high, p2⟩, nhigh, held2⟩,
      ⟨⟨klow, p3⟩, llow, held3⟩, ⟨⟨khigh, p4⟩, lhigh, held4⟩, ⟨len5, lunits, units⟩,
      ⟨len6, ⟨lroutes, routes⟩, lruns, runs⟩, ⟨last, p7⟩, ⟨lname, name⟩, issue⟩
    have names (p) (mem : p ∈ w.names) : NameHeld p := by
      rw [← List.take_append_drop 12 w.names] at mem
      exact (List.mem_append.1 mem).elim (held1 p) (held2 p)
    have links (p) (mem : p ∈ w.links) : LinkHeld p := by
      rw [← List.take_append_drop 12 w.links] at mem
      exact (List.mem_append.1 mem).elim (held3 p) (held4 p)
    refine ⟨len0, len5, len6, ltrip, lslots, lunits, lroutes, lruns, rate, trip, slots, units, routes, runs, ?_, ?_,
      ⟨low, high, last, p1, p2, p7⟩, fun p mem => ?_, ⟨klow, khigh, p3, p4⟩, fun p mem => ?_, fun p mem => ?_,
      lname, name, issue⟩
    · rw [← List.take_append_drop 12 w.names, List.length_append, nlow, nhigh]
    · rw [← List.take_append_drop 12 w.links, List.length_append, llow, lhigh]
    · obtain ⟨-, -, present, -⟩ := names p mem
      exact present
    · obtain ⟨⟨label, chars⟩, code, -, value⟩ := names p mem
      exact ⟨label, chars, code, value⟩
    · obtain ⟨⟨ups, up⟩, downs, down⟩ := links p mem
      exact ⟨ups, downs, up, down⟩
  · rintro ⟨len0, len5, len6, ltrip, lslots, lunits, lroutes, lruns, rate, trip, slots, units, routes, runs, lnames,
      llinks, ⟨low, high, last, p1, p2, p7⟩, present, ⟨klow, khigh, p3, p4⟩, names, links, lname, name, issue⟩
    have held (p) (mem : p ∈ w.names) : NameHeld p := by
      obtain ⟨label, chars, code, value⟩ := names p mem
      exact ⟨⟨label, chars⟩, code, present p mem, value⟩
    have linked (p) (mem : p ∈ w.links) : LinkHeld p := by
      obtain ⟨ups, downs, up, down⟩ := links p mem
      exact ⟨⟨ups, up⟩, downs, down⟩
    exact ⟨⟨len0, rate, ⟨ltrip, trip⟩, lslots, slots⟩,
      ⟨⟨low, p1⟩, by simp [lnames], fun p mem => held p (List.mem_of_mem_take mem)⟩,
      ⟨⟨high, p2⟩, by simp [lnames], fun p mem => held p (List.mem_of_mem_drop mem)⟩,
      ⟨⟨klow, p3⟩, by simp [llinks], fun p mem => linked p (List.mem_of_mem_take mem)⟩,
      ⟨⟨khigh, p4⟩, by simp [llinks], fun p mem => linked p (List.mem_of_mem_drop mem)⟩,
      ⟨len5, lunits, units⟩, ⟨len6, ⟨lroutes, routes⟩, lruns, runs⟩, ⟨last, p7⟩, ⟨lname, name⟩, issue⟩

/-! ### RANGE (R174) -/

section
variable (w : RawSite)

theorem not_all_iff {α : Type} (l : List α) (p : α → Bool) : l.all p = false ↔ ∃ a ∈ l, p a = false := by
  simp

theorem codesOk_false_iff : w.codesOk = false ↔
    2 < w.rate ∨ (∃ p ∈ w.trip ++ w.routes ++ w.runs, 1 < p) ∨
    (∃ p ∈ w.slots, 1 < p.1 ∨ 1 < p.2) ∨
    (∃ p ∈ w.names, 8 < p.1.length ∨ 1 < p.2.1 ∨ ∃ n, p.2.2 = some n ∧ 1000 < n) ∨
    8 < w.siteName.length ∨ (∃ p ∈ w.units, 2 < p.1 ∨ 7 < p.2.1) ∨
    ∃ p ∈ w.links, ∃ l ∈ p.1, 3600 < l.2 := by
  have high (o : Option Nat) : 1000 < o.getD 0 ↔ ∃ n, o = some n ∧ 1000 < n := by
    cases o <;> simp
  have past (n k : Nat) : n + 1 ≤ k ↔ n < k := Iff.rfl
  simp only [RawSite.codesOk, Bool.and_eq_false_iff, not_all_iff, decide_eq_false_iff_not, Nat.not_lt, Nat.not_le,
    ← high, List.mem_append, or_and_right, exists_or, past 1, past 2, or_assoc]
  exact iff_of_eq (by ac_rfl)

theorem unitsOk_false_iff : w.unitsOk = false ↔
    8 < w.units.countP (fun p => p.1 == 2) ∨
    (∃ i < 24, 4 < w.units.countP fun p => p.1 == 1 && p.2.2 == i) ∨
    ∃ p ∈ w.units, p.1 = 1 ∧ (w.slots.getD p.2.2 (0, 0)).1 ≠ 1 := by
  simp only [RawSite.unitsOk, RawSite.fitted, Bool.and_eq_false_iff, not_all_iff, decide_eq_false_iff_not, Nat.not_le,
    List.mem_range, Bool.or_eq_false_iff, bne_eq_false_iff_eq, beq_eq_false_iff_ne, or_assoc]

/-- R174: what bars one section's lists, upstream and downstream, with the other ends of its links. -/
def RawSite.listsBarred (i : Nat) (up : List (Nat × Nat)) (down : List Nat) : Prop :=
  3 < up.length ∨ 3 < down.length ∨ ¬ (up.map Prod.fst).Nodup ∨ ¬ down.Nodup ∨
    (∃ j ∈ up.map Prod.fst ++ down, j = i ∨ (w.slots.getD j (0, 0)).1 ≠ 1) ∨
    (∃ d ∈ down, i ∉ ((w.links.getD d ([], [])).1).map Prod.fst) ∨
    ∃ l ∈ up, i ∉ (w.links.getD l.1 ([], [])).2

theorem linksOk_false_iff : w.linksOk = false ↔ ∃ i < 24, ∃ up down, w.links.getD i ([], []) = (up, down) ∧
    w.listsBarred i up down := by
  simp only [RawSite.linksOk, not_all_iff, List.mem_range]
  refine exists_congr fun i => and_congr_right fun _ => ?_
  unfold RawSite.listOk RawSite.upIds RawSite.downIds
  generalize w.links.getD i ([], []) = p
  obtain ⟨up, down⟩ := p
  have alone : (∃ a b, (up, down) = (a, b) ∧ w.listsBarred i a b) ↔ w.listsBarred i up down := by
    constructor
    · rintro ⟨a, b, e, h⟩
      obtain ⟨rfl, rfl⟩ := Prod.mk.inj e
      exact h
    · exact fun h => ⟨up, down, rfl, h⟩
  rw [alone]
  simp only [RawSite.listsBarred, RawSite.fitted, Bool.and_eq_false_iff, not_all_iff, decide_eq_false_iff_not,
    Nat.not_le, List.length_map, Bool.not_eq_false', List.contains_eq_mem, decide_eq_true_eq,
    beq_eq_false_iff_ne, List.mem_append, or_and_right, exists_or, and_or_left, exists_eq_right, or_assoc,
    List.mem_map, exists_exists_and_eq_and]
  exact iff_of_eq (by ac_rfl)

/-- R174 RANGE: what bars a record that has been read. -/
theorem checks_false_iff : (w.codesOk && w.unitsOk && w.linksOk) = false ↔
    2 < w.rate ∨ (∃ p ∈ w.trip ++ w.routes ++ w.runs, 1 < p) ∨
    (∃ p ∈ w.slots, 1 < p.1 ∨ 1 < p.2) ∨
    (∃ p ∈ w.names, 8 < p.1.length ∨ 1 < p.2.1 ∨ ∃ n, p.2.2 = some n ∧ 1000 < n) ∨
    8 < w.siteName.length ∨ (∃ p ∈ w.units, 2 < p.1 ∨ 7 < p.2.1) ∨
    8 < w.units.countP (fun p => p.1 == 2) ∨
    (∃ i < 24, 4 < w.units.countP fun p => p.1 == 1 && p.2.2 == i) ∨
    (∃ p ∈ w.units, p.1 = 1 ∧ (w.slots.getD p.2.2 (0, 0)).1 ≠ 1) ∨
    (∃ p ∈ w.links, ∃ l ∈ p.1, 3600 < l.2) ∨
    ∃ i < 24, ∃ up down, w.links.getD i ([], []) = (up, down) ∧ w.listsBarred i up down := by
  rw [Bool.and_eq_false_iff, Bool.and_eq_false_iff, codesOk_false_iff, unitsOk_false_iff, linksOk_false_iff]
  exact iff_of_eq (by ac_rfl)

/-- R6, R174 CYCLE: the links of a record that has been read. -/
theorem acyclic_down_false_iff : acyclic w.down = false ↔ ∃ i : SectionId, Relation.TransGen
    (fun a b : SectionId => b.val ∈ (w.links.getD a.val ([], [])).2) i i := by
  rw [acyclic_false_iff]
  simp only [mem_slotDown]

end

/-! ### The answers of the checks -/

section
variable {parts : Table (List Byte) 8}

theorem siteRefusal_unread (unread : readSite parts = none) : siteRefusal parts = some .range := by
  simp only [siteRefusal, unread]

theorem siteRefusal_read {w : RawSite} (read : readSite parts = some w) : siteRefusal parts =
    if !(w.codesOk && w.unitsOk && w.linksOk) then some .range
    else if !acyclic w.down then some .cycle else none := by
  simp only [siteRefusal, read]

theorem siteRefusal_range_iff {w : RawSite} (read : readSite parts = some w) :
    siteRefusal parts = some .range ↔ (w.codesOk && w.unitsOk && w.linksOk) = false := by
  rw [siteRefusal_read read]
  cases w.codesOk && w.unitsOk && w.linksOk
  · simp
  · cases acyclic w.down <;> simp

theorem siteRefusal_cycle_iff {w : RawSite} (read : readSite parts = some w) :
    siteRefusal parts = some .cycle ↔ siteRefusal parts ≠ some .range ∧ acyclic w.down = false := by
  rw [siteRefusal_read read]
  cases w.codesOk && w.unitsOk && w.linksOk
  · simp
  · cases acyclic w.down <;> simp

theorem siteRefusal_cases {w : RawSite} (read : readSite parts = some w) :
    siteRefusal parts = none ∨ siteRefusal parts = some .range ∨ siteRefusal parts = some .cycle := by
  rw [siteRefusal_read read]
  cases w.codesOk && w.unitsOk && w.linksOk
  · simp
  · cases acyclic w.down <;> simp

end

/-! ### COMMIT SITE RECORD, and its write (R161, R167, R174) -/

theorem stagedParts_eq {staging : Table (Option (List Byte)) 8} {parts : Table (List Byte) 8}
    (full : ∀ k, staging.get k = some (parts.get k)) : stagedParts staging = parts :=
  Table.ext_get fun k => by rw [stagedParts, Table.get_map, full, Option.getD_some]

theorem staging_gap_iff (staging : Table (Option (List Byte)) 8) :
    staging.items.any Option.isNone = true ↔ ∃ k, staging.get k = none := by
  rw [List.any_eq_true]
  constructor
  · rintro ⟨x, mem, none⟩
    obtain ⟨k, rfl⟩ := Table.exists_get_of_mem mem
    exact ⟨k, Option.isNone_iff_eq_none.1 none⟩
  · rintro ⟨k, none⟩
    exact ⟨_, Table.get_mem staging k, by rw [none]; rfl⟩

section
variable {s : State} {f : Fields} {parts : Table (List Byte) 8}

theorem commitOrder_open (running : s.campaign.state ≠ .closed) : commitOrder f s = s.refuse .campaign :=
  if_pos running

theorem commitOrder_gap (closed : s.campaign.state = .closed) (gap : ∃ k, s.site.staging.get k = none) :
    commitOrder f s = s.refuse .incomplete := by
  rw [commitOrder, if_neg (not_not_intro closed), if_pos ((staging_gap_iff _).2 gap)]

theorem commitOrder_barred (closed : s.campaign.state = .closed)
    (full : ∀ k, s.site.staging.get k = some (parts.get k)) {cause : Cause}
    (barred : siteRefusal parts = some cause) : commitOrder f s = s.refuse cause := by
  have whole : ¬ s.site.staging.items.any Option.isNone = true := by
    rw [staging_gap_iff]
    rintro ⟨k, none⟩
    exact absurd ((full k).symm.trans none) (by simp)
  rw [commitOrder, if_neg (not_not_intro closed), if_neg whole]
  simp only [stagedParts_eq full, barred]

theorem commitOrder_writes (closed : s.campaign.state = .closed)
    (full : ∀ k, s.site.staging.get k = some (parts.get k)) (sound : siteRefusal parts = none) :
    commitOrder f s = ({ s with site := { s.site with siteWriting := true } }, .waits .optionStore) := by
  have whole : ¬ s.site.staging.items.any Option.isNone = true := by
    rw [staging_gap_iff]
    rintro ⟨k, none⟩
    exact absurd ((full k).symm.trans none) (by simp)
  rw [commitOrder, if_neg (not_not_intro closed), if_neg whole]
  simp only [stagedParts_eq full, sound]

theorem siteWritten_eq (full : ∀ k, s.site.staging.get k = some (parts.get k)) : s.siteWritten = { s with
    store := { s.store with parts := parts, siteCheck := some (crc16 parts.items.flatten) }
    site := { s.site with staging := Table.replicate 8 none, committed := true, siteWriting := false } } := by
  rw [State.siteWritten, stagedParts_eq full]
  rfl

theorem exec_siteRecordWriteDone_idle (on : s.powered = true) (still : s.site.siteWriting = false) :
    exec .siteRecordWriteDone s = .next s :=
  congrArg Host.Outcome.next ((powering_on on _).trans (if_neg (by simp [still])))

/-- R174: the end of a site write, by the answer that awaits it. -/
theorem exec_siteRecordWriteDone (on : s.powered = true) (writing : s.site.siteWriting = true) :
    ((∀ w, s.link.awaited = some w → w.owner ≠ .optionStore) →
      exec .siteRecordWriteDone s = .next s.siteWritten) ∧
    ∀ w, s.link.awaited = some w → w.owner = .optionStore →
      exec .siteRecordWriteDone s = .next (s.siteWritten.completeAwaited w) := by
  have run : exec .siteRecordWriteDone s = .next (match s.link.awaited with
      | some w => if w.owner = .optionStore then s.siteWritten.completeAwaited w else s.siteWritten
      | none => s.siteWritten) :=
    congrArg Host.Outcome.next ((powering_on on _).trans (if_pos writing))
  refine ⟨fun alone => run.trans ?_, fun w awaited owner => run.trans ?_⟩
  · cases awaited : s.link.awaited with
    | none => rfl
    | some w => exact congrArg Host.Outcome.next (if_neg (alone w awaited))
  · rw [awaited]
    exact congrArg Host.Outcome.next (if_pos owner)

end

/-- Settles O50: the parts, the checks, the order and the end of its write. -/
theorem commitWritesSiteRecord : Obligations.CommitWritesSiteRecord := by
  refine ⟨fun parts => ⟨siteRefusal_unread, readSite_iff parts, fun w read =>
      ⟨(siteRefusal_range_iff read).trans (checks_false_iff w), (siteRefusal_cycle_iff read).trans
        (and_congr_right fun _ => acyclic_down_false_iff w), siteRefusal_cases read⟩⟩,
    fun s t h => ⟨fun running => refused_of_owner rfl h (commitOrder_open running),
      fun closed gap => refused_of_owner rfl h (commitOrder_gap closed gap), fun parts closed full =>
      ⟨fun cause barred => refused_of_owner rfl h (commitOrder_barred closed full barred),
        fun sound => waits_of_owner rfl h (commitOrder_writes closed full sound)⟩⟩,
    fun s on => ⟨exec_siteRecordWriteDone_idle on, fun writing parts full => ?_⟩⟩
  obtain ⟨alone, answered⟩ := exec_siteRecordWriteDone on writing
  have written := siteWritten_eq full
  by_cases waits : ∃ w, s.link.awaited = some w ∧ w.owner = .optionStore
  · obtain ⟨w, awaited, owner⟩ := waits
    have rest := completeAwaited_eq s.siteWritten w
    refine ⟨_, answered w awaited owner, ?_, ?_, ?_, ?_, fun none => absurd owner (none w awaited),
      fun v mine _ => ?_⟩
    · rw [rest, written]
    · rw [rest, written]
    · rw [rest, written]
    · rw [rest, written]
    · obtain rfl : w = v := Option.some.inj (awaited.symm.trans mine)
      refine ⟨fun dropped => ?_, fun kept => ?_⟩
      · rw [completeAwaited_dropped _ dropped, written]
      · rw [completeAwaited_kept _ kept, written]
  · have none (w : Awaited) (awaited : s.link.awaited = some w) : w.owner ≠ .optionStore :=
      fun owner => waits ⟨w, awaited, owner⟩
    refine ⟨_, alone none, ?_, ?_, ?_, ?_, fun _ => ?_, fun w awaited owner => absurd owner (none w awaited)⟩
    all_goals rw [written]

end Sys2Proof.Machine

/-! What a request row leaves alone, by its owner; and the orders to one section, whose effect is a cascade
(R11, R12, R71, R103, R104, R177). -/

namespace Sys2Proof.Machine

/-! ### The outcome of a request row -/

/-- A row changes nothing, or the port concludes on the request it took, which the owner may have acted on. -/
theorem row_outcome {c : Instr} {owner : Owner} {s u : State} (own : ownerOf c = some owner)
    (run : exec c s = .next u) : u = s ∨ ∃ t v x, s.link.ready = some t ∧ u = x.conclude t v ∧
      (x = s ∨ ∃ f, x = (owner f s).1) := by
  obtain ⟨k, row⟩ := rowKind_of_ownerOf own
  obtain ⟨owner', own', taken⟩ := exec_requestRow row
  obtain rfl := Option.some.inj (own.symm.trans own')
  obtain rfl := Host.Outcome.next.inj ((taken s).symm.trans run)
  unfold State.powering
  split
  next =>
    dsimp only
    cases ready : s.link.ready with
    | none => exact .inl (takeRow_none ready _ _ _)
    | some t =>
      rw [takeRow_some ready]
      split
      next =>
        refine .inr ⟨t, ?_⟩
        unfold State.handle
        split
        next => exact ⟨_, s, rfl, rfl, .inl rfl⟩
        next f _ =>
          split
          next => exact ⟨_, _, rfl, rfl, .inr ⟨f, rfl⟩⟩
          next => exact ⟨_, s, rfl, rfl, .inl rfl⟩
      next => exact .inl rfl
  next => exact .inl rfl

/-- What the owner's effect keeps, and the port's conclusion after it, the row keeps. -/
theorem row_keeps {P : State → Prop} {c : Instr} {owner : Owner} {s u : State} (own : ownerOf c = some owner)
    (run : exec c s = .next u) (self : P s) (effect : ∀ f, P (owner f s).1)
    (conclude : ∀ x t v, P x → P (x.conclude t v)) : P u := by
  obtain rfl | ⟨t, v, x, -, rfl, rfl | ⟨f, rfl⟩⟩ := row_outcome own run
  · exact self
  · exact conclude _ _ _ self
  · exact conclude _ _ _ (effect f)

/-- The frame of a cascade stands whatever the two link ports have in common. -/
theorem CascadeFrame.setLink {s x : State} (h : CascadeFrame s x) {l m : LinkPort}
    (link : m = { l with reports := m.reports }) :
    CascadeFrame { s with link := l } { x with link := m } := { h with link := link }

/-- The port's conclusion after an owner's cascade is the one before it. -/
theorem CascadeFrame.conclude {s x : State} (h : CascadeFrame s x) (t : Telegram) (v : Verdict) :
    CascadeFrame (s.conclude t v) (x.conclude t v) := by
  cases v with
  | accepted record => exact h.setLink (by rw [h.link]; rfl)
  | refused cause extra => exact h.setLink (by rw [h.link]; rfl)
  | waits owner => exact h.setLink (by rw [h.link])

theorem row_frame {c : Instr} {owner : Owner} {s u : State} (own : ownerOf c = some owner)
    (run : exec c s = .next u) (effect : ∀ f, CascadeFrame s (owner f s).1) :
    u = s ∨ ∃ t v, s.link.ready = some t ∧ CascadeFrame (s.conclude t v) u := by
  obtain same | ⟨t, v, x, ready, rfl, rfl | ⟨f, rfl⟩⟩ := row_outcome own run
  · exact .inl same
  · exact .inr ⟨t, v, ready, .refl _⟩
  · exact .inr ⟨t, v, ready, (effect f).conclude t v⟩

/-! ### State entries and hold reasons -/

theorem enterState_frame (s : State) (i : SectionId) (dest : SectionState) (c : CaptureCause) :
    CascadeFrame s (s.enterState i dest c) := by
  unfold State.enterState
  dsimp only
  split
  · exact (enter_frame _ _ _ _).trans (holdWith_frame _ _ _)
  · exact enter_frame _ _ _ _

theorem removeReason_frame (s : State) (i : SectionId) (r : HoldReason) (c : CaptureCause) :
    CascadeFrame s (s.removeReason i r c) := by
  unfold State.removeReason
  dsimp only
  split
  · exact .refl _
  · split
    · split
      · exact (setHolds_frame _ _ _).trans (enterState_frame _ _ _ _)
      · exact .refl _
    · exact (setHolds_frame _ _ _).trans (report_frame _ _)

theorem exclude_frame (s : State) (i : SectionId) : CascadeFrame s (s.exclude i) :=
  (enterState_frame _ _ _ _).trans (handAll_frame _ _)

theorem incorporate_frame (s : State) (i : SectionId) : CascadeFrame s (s.incorporate i) :=
  (enterState_frame _ _ _ _).trans (handAll_frame _ _)

/-! ### An adoption (R177) -/

theorem putSteam_frame {s : State} {st : Steam} (h : st.hostBudget = s.steam.hostBudget) :
    CascadeFrame s (s.putSteam st) := by
  by_cases same : st = s.steam
  · rw [putSteam_same same]
    exact .refl s
  · rw [putSteam_new same]
    exact (steam_frame h).trans (report_frame _ _)

theorem pressed_frame (s : State) (i : SectionId) (st : SectionState) : CascadeFrame s (s.pressed i st) := by
  rw [pressed_eq]
  exact setSec_frame ⟨rfl, rfl, rfl, rfl, rfl, rfl, rfl, rfl, rfl, rfl, rfl, rfl, rfl, rfl, rfl⟩

theorem adoptSteam_frame (s : State) (i : SectionId) : CascadeFrame s (s.adoptSteam i) := by
  have asked := putSteam_frame (request_hostBudget s.now i (s.sec i).demand true s.steam)
  unfold State.adoptSteam
  dsimp only
  split
  · exact asked.trans (insertHolds_frame _ _ _)
  · exact asked

theorem adopt_frame (s : State) (i : SectionId) (st : SectionState) : CascadeFrame s (s.adopt i st) := by
  rw [adopt_eq]
  refine .trans ?_ (removeReason_frame _ _ _ _)
  unfold State.adoptAsked
  split
  · exact (pressed_frame s i st).trans (adoptSteam_frame _ _)
  · exact pressed_frame s i st

/-! ### The orders to one section -/

section
variable (f : Fields) (s : State)

theorem advanceOrder_frame : CascadeFrame s (advanceOrder f s).1 := by
  unfold advanceOrder
  split
  · split
    · exact .refl s
    · split
      · exact .refl s
      · split
        · exact .refl s
        · split
          · exact (enterState_frame _ _ _ _).trans (settle_frame _)
          · exact .refl s
  · exact .refl s

theorem holdOrder_frame : CascadeFrame s (holdOrder f s).1 := by
  unfold holdOrder
  split
  · split
    · exact .refl s
    · split
      · exact .refl s
      · exact (addReason_moves _ _ _).frame.trans (settle_frame _)
  · exact .refl s

theorem releaseOrder_frame : CascadeFrame s (releaseOrder f s).1 := by
  unfold releaseOrder
  split
  · split
    · exact .refl s
    · split
      · exact (removeReason_frame _ _ _ _).trans (settle_frame _)
      · exact .refl s
  · exact .refl s

theorem adoptOrder_frame : CascadeFrame s (adoptOrder f s).1 := by
  unfold adoptOrder
  split
  · split
    · exact .refl s
    · split
      · exact .refl s
      · split
        · split
          · exact (adopt_frame _ _ _).trans (settle_frame _)
          · exact .refl s
        · exact .refl s
  · exact .refl s

theorem excludeOrder_frame : CascadeFrame s (excludeOrder f s).1 := by
  unfold excludeOrder
  split
  · split
    · exact .refl s
    · split
      · exact .refl s
      · split
        · exact (exclude_frame _ _).trans (settle_frame _)
        · exact .refl s
  · exact .refl s

theorem includeOrder_frame : CascadeFrame s (includeOrder f s).1 := by
  unfold includeOrder
  split
  · split
    · exact .refl s
    · split
      · exact .refl s
      · split
        · exact (incorporate_frame _ _).trans (settle_frame _)
        · exact .refl s
  · exact .refl s

end

/-- An order to one section leaves alone what a cascade does, but for its own request and answer. -/
theorem sectionOrders_frame {c : Instr}
    (mem : c ∈ [Instr.advance, .hold, .release, .adopt, .excludeSection, .includeSection]) {s u : State}
    (run : exec c s = .next u) :
    u = s ∨ ∃ t v, s.link.ready = some t ∧ CascadeFrame (s.conclude t v) u := by
  simp only [List.mem_cons, List.not_mem_nil, or_false] at mem
  rcases mem with rfl | rfl | rfl | rfl | rfl | rfl
  · exact row_frame rfl run fun f => advanceOrder_frame f s
  · exact row_frame rfl run fun f => holdOrder_frame f s
  · exact row_frame rfl run fun f => releaseOrder_frame f s
  · exact row_frame rfl run fun f => adoptOrder_frame f s
  · exact row_frame rfl run fun f => excludeOrder_frame f s
  · exact row_frame rfl run fun f => includeOrder_frame f s

end Sys2Proof.Machine

/-! What the campaign orders, the settings and the orders to the pool and the trip unit leave alone. -/

namespace Sys2Proof.Machine

/-! ### The campaign orders (R20, R21, R23) -/

/-- What the campaign order `c` leaves alone. -/
structure CampaignKept (c : Instr) (s u : State) : Prop where
  powered : u.powered = s.powered
  scanner : u.scanner = s.scanner
  trips : u.trips = s.trips
  store : u.store = s.store
  pending : u.pending = s.pending
  budget : u.steam.hostBudget = s.steam.hostBudget
  watch : u.supervisor.watch = s.supervisor.watch
  reserve : u.supervisor.reserve = s.supervisor.reserve
  window : u.supervisor.window = s.supervisor.window
  units : ∀ v, (u.supervisor.units.get v).condition = (s.supervisor.units.get v).condition ∧
    (u.supervisor.units.get v).faultActive = (s.supervisor.units.get v).faultActive
  requested : u.campaign.overlapRequested = s.campaign.overlapRequested
  supervision : u.campaign.supervisionLost = s.campaign.supervisionLost
  mask : u.link.mask = s.link.mask
  clock : c ≠ .openCampaign → u.campaign.clock = s.campaign.clock
  resume : c ≠ .resumeCampaign → u.campaign.resume = s.campaign.resume
  sections : ∀ i, (u.sec i).upstream = (s.sec i).upstream ∧ (u.sec i).downstream = (s.sec i).downstream ∧
    (u.sec i).mode = (s.sec i).mode ∧ (u.sec i).limits = (s.sec i).limits ∧
    (u.sec i).phase = (s.sec i).phase

namespace CampaignKept

variable {c : Instr} {s t u : State}

theorem trans (h : CampaignKept c s t) (k : CampaignKept c t u) : CampaignKept c s u where
  powered := k.powered.trans h.powered
  scanner := k.scanner.trans h.scanner
  trips := k.trips.trans h.trips
  store := k.store.trans h.store
  pending := k.pending.trans h.pending
  budget := k.budget.trans h.budget
  watch := k.watch.trans h.watch
  reserve := k.reserve.trans h.reserve
  window := k.window.trans h.window
  units v := ⟨(k.units v).1.trans (h.units v).1, (k.units v).2.trans (h.units v).2⟩
  requested := k.requested.trans h.requested
  supervision := k.supervision.trans h.supervision
  mask := k.mask.trans h.mask
  clock ne := (k.clock ne).trans (h.clock ne)
  resume ne := (k.resume ne).trans (h.resume ne)
  sections i := by
    obtain ⟨up, down, mode, limits, phase⟩ := h.sections i
    obtain ⟨up', down', mode', limits', phase'⟩ := k.sections i
    exact ⟨up'.trans up, down'.trans down, mode'.trans mode, limits'.trans limits, phase'.trans phase⟩

theorem of_frame (f : CascadeFrame s u) : CampaignKept c s u where
  powered := f.powered
  scanner := f.scanner
  trips := f.trips
  store := f.store
  pending := f.pending
  budget := f.budget
  watch := f.watch
  reserve := f.pool.1
  window := f.pool.2
  units v := ⟨(f.units v).1, (f.units v).2.1⟩
  requested := f.requested
  supervision := f.supervision
  mask := (congrArg LinkPort.mask f.link :)
  clock _ := f.clock
  resume _ := f.resume
  sections i := by
    obtain ⟨-, -, -, -, up, down, mode, limits, -, -, -, -, -, phase, -⟩ := f.settings i
    exact ⟨up, down, mode, limits, phase⟩

theorem conclude (h : CampaignKept c s u) (t : Telegram) (v : Verdict) : CampaignKept c s (u.conclude t v) := by
  cases v <;> exact { h with }

end CampaignKept

theorem awaitMark_frame (s : State) (v : Mark) : CascadeFrame s (s.awaitMark v) :=
  (campaign_frame (c := { s.campaign with pendingMark := some v }) rfl rfl rfl rfl).trans
    (requestMark_frame _ _)

/-- R20: the reset of times and rings, and the campaign's own record. -/
theorem zeroed_kept (s : State) (new : CampaignState) : CampaignKept .openCampaign s { s with
    sections := s.sections.map Section.zeroed
    campaign := { s.campaign with clock := 0, lock := true, state := new } } where
  powered := rfl
  scanner := rfl
  trips := rfl
  store := rfl
  pending := rfl
  budget := rfl
  watch := rfl
  reserve := rfl
  window := rfl
  units _ := ⟨rfl, rfl⟩
  requested := rfl
  supervision := rfl
  mask := rfl
  clock open' := absurd rfl open'
  resume _ := rfl
  sections i := by
    have record : (s.sections.map Section.zeroed).get i = (s.sec i).zeroed := Table.get_map _ _ _
    simp only [State.sec, record]
    exact ⟨rfl, rfl, rfl, rfl, rfl⟩

theorem openNow_kept (s : State) : CampaignKept .openCampaign s s.openNow := by
  have drawn : CascadeFrame s s.laidUp.2 := shuffle_frame _ _
  have cold : CascadeFrame s.laidUp.2 (s.laidUp.2.toCold s.laidUp.1) :=
    fold_keeps (R := CascadeFrame) .refl .trans (fun _ _ => enterState_frame _ _ _ _) _ _
  have asked : CascadeFrame s.opening s.openNow :=
    ((awaitMark_frame _ _).trans (report_frame _ _)).trans (handAll_frame _ _)
  exact ((CampaignKept.of_frame (drawn.trans cold)).trans (zeroed_kept _ .opened)).trans (.of_frame asked)

theorem unresumed_kept (s : State) : CampaignKept .resumeCampaign s s.unresumed :=
  { CampaignKept.of_frame (.refl s) with resume := fun resume => absurd rfl resume }

section
variable (f : Fields) (s : State)

theorem openOrder_kept : CampaignKept .openCampaign s (openOrder f s).1 := by
  unfold openOrder
  split
  · exact (openNow_kept s).trans (.of_frame (settle_frame _))
  · exact .of_frame (.refl s)

theorem closeOrder_kept : CampaignKept .closeCampaign s (closeOrder f s).1 := by
  unfold closeOrder
  split
  · exact .of_frame ((turnToWindDown_frame s).trans (settle_frame _))
  · exact .of_frame (.refl s)

theorem resumeOrder_kept : CampaignKept .resumeCampaign s (resumeOrder f s).1 := by
  unfold resumeOrder
  split
  · split
    · exact .of_frame (.refl s)
    · split
      · exact (unresumed_kept s).trans (.of_frame ((resumeTo_frame s _).trans (settle_frame _)))
      · exact .of_frame (.refl s)
  · exact .of_frame (.refl s)

end

theorem campaignOrders_kept {c : Instr} (mem : c ∈ [Instr.openCampaign, .closeCampaign, .resumeCampaign])
    {s u : State} (run : exec c s = .next u) : CampaignKept c s u := by
  have conclude (c : Instr) (x : State) (t : Telegram) (v : Verdict) (h : CampaignKept c s x) := h.conclude t v
  simp only [List.mem_cons, List.not_mem_nil, or_false] at mem
  rcases mem with rfl | rfl | rfl
  · exact row_keeps rfl run (.of_frame (.refl s)) (fun f => openOrder_kept f s) (conclude _)
  · exact row_keeps rfl run (.of_frame (.refl s)) (fun f => closeOrder_kept f s) (conclude _)
  · exact row_keeps rfl run (.of_frame (.refl s)) (fun f => resumeOrder_kept f s) (conclude _)

/-! ### The settings (R34, R43, R65, R109, R165, R173, R174) -/

/-- What the setting `c` leaves alone. -/
structure SettingKept (c : Instr) (s u : State) : Prop where
  powered : u.powered = s.powered
  campaign : u.campaign = s.campaign
  steam : u.steam = s.steam
  supervisor : u.supervisor = s.supervisor
  trips : u.trips = s.trips
  store : u.store = s.store
  lines : u.lines = s.lines
  work : u.work = s.work
  pending : u.pending = s.pending
  receiver : u.link.receiver = s.link.receiver
  channels : u.scanner.channels = s.scanner.channels
  turn : u.scanner.turn = s.scanner.turn
  reporting : c ≠ .setReporting → u.scanner = s.scanner ∧ u.link.mask = s.link.mask ∧
    u.link.reports = s.link.reports
  site : c ≠ .writeSitePart → c ≠ .commitSiteRecord → u.site = s.site
  table : c = .setReporting ∨ c = .writeSitePart ∨ c = .commitSiteRecord → u.sections = s.sections
  sections : ∀ i, (u.sec i).state = (s.sec i).state ∧ (u.sec i).holds = (s.sec i).holds ∧
    (u.sec i).heldFrom = (s.sec i).heldFrom ∧ (u.sec i).phase = (s.sec i).phase ∧
    (u.sec i).upstream = (s.sec i).upstream ∧ (u.sec i).downstream = (s.sec i).downstream ∧
    (u.sec i).intake = (s.sec i).intake ∧ (u.sec i).discharge = (s.sec i).discharge

namespace SettingKept

variable {c : Instr} {s u : State}

theorem refl (c : Instr) (s : State) : SettingKept c s s where
  powered := rfl
  campaign := rfl
  steam := rfl
  supervisor := rfl
  trips := rfl
  store := rfl
  lines := rfl
  work := rfl
  pending := rfl
  receiver := rfl
  channels := rfl
  turn := rfl
  reporting _ := ⟨rfl, rfl, rfl⟩
  site _ _ := rfl
  table _ := rfl
  sections _ := ⟨rfl, rfl, rfl, rfl, rfl, rfl, rfl, rfl⟩

theorem conclude (h : SettingKept c s u) (t : Telegram) (v : Verdict) : SettingKept c s (u.conclude t v) := by
  cases v <;> exact { h with }

/-- A setting of section `i` that keeps its state, its holds, its phase, its links and its route. -/
theorem setSec {i : SectionId} {r : Section}
    (other : ¬ (c = .setReporting ∨ c = .writeSitePart ∨ c = .commitSiteRecord))
    (h : r.state = (s.sec i).state ∧ r.holds = (s.sec i).holds ∧ r.heldFrom = (s.sec i).heldFrom ∧
      r.phase = (s.sec i).phase ∧ r.upstream = (s.sec i).upstream ∧ r.downstream = (s.sec i).downstream ∧
      r.intake = (s.sec i).intake ∧ r.discharge = (s.sec i).discharge) : SettingKept c s (s.setSec i r) :=
  { refl c s with
    table := fun site => absurd site other
    sections := fun j => by
      rw [State.sec_setSec]
      split
      next self =>
        rw [self]
        exact h
      next => exact (refl c s).sections j }

end SettingKept

section
variable (f : Fields) (s : State)

theorem limitsOrder_kept : SettingKept .setLimits s (limitsOrder f s).1 := by
  unfold limitsOrder
  split
  · split
    · exact .refl _ s
    · split
      · exact .setSec (by simp) ⟨rfl, rfl, rfl, rfl, rfl, rfl, rfl, rfl⟩
      · exact .refl _ s
  · exact .refl _ s

theorem timingOrder_kept : SettingKept .setTiming s (timingOrder f s).1 := by
  unfold timingOrder
  split
  · split
    · exact .refl _ s
    · dsimp only
      split
      · exact .refl _ s
      · split
        · exact .refl _ s
        · exact .setSec (by simp) ⟨rfl, rfl, rfl, rfl, rfl, rfl, rfl, rfl⟩
  · exact .refl _ s

theorem liftOrder_kept : SettingKept .liftCeiling s (liftOrder f s).1 := by
  unfold liftOrder
  split
  · split
    · exact .refl _ s
    · split
      · exact .refl _ s
      · split
        · exact .refl _ s
        · exact .setSec (by simp) ⟨rfl, rfl, rfl, rfl, rfl, rfl, rfl, rfl⟩
  · exact .refl _ s

theorem captureOrder_kept : SettingKept .setCapture s (captureOrder f s).1 := by
  unfold captureOrder
  split
  · split
    · exact .refl _ s
    · exact .setSec (by simp) ⟨rfl, rfl, rfl, rfl, rfl, rfl, rfl, rfl⟩
  · exact .refl _ s

theorem reportingOrder_kept : SettingKept .setReporting s (reportingOrder f s).1 := by
  unfold reportingOrder
  split
  · exact { SettingKept.refl _ s with reporting := fun other => absurd rfl other }
  · exact .refl _ s

theorem sitePartOrder_kept : SettingKept .writeSitePart s (sitePartOrder f s).1 := by
  unfold sitePartOrder
  split
  · split
    · exact .refl _ s
    · split
      · exact { SettingKept.refl _ s with site := fun other => absurd rfl other }
      · exact .refl _ s
  · exact .refl _ s

theorem commitOrder_kept : SettingKept .commitSiteRecord s (commitOrder f s).1 := by
  unfold commitOrder
  split
  · exact .refl _ s
  · split
    · exact .refl _ s
    · split
      · exact .refl _ s
      · exact { SettingKept.refl _ s with site := fun _ other => absurd rfl other }

end

theorem settings_kept {c : Instr} (mem : c ∈ [Instr.setLimits, .setTiming, .liftCeiling, .setCapture,
    .setReporting, .writeSitePart, .commitSiteRecord]) {s u : State} (run : exec c s = .next u) :
    SettingKept c s u := by
  have conclude (c : Instr) (x : State) (t : Telegram) (v : Verdict) (h : SettingKept c s x) := h.conclude t v
  simp only [List.mem_cons, List.not_mem_nil, or_false] at mem
  rcases mem with rfl | rfl | rfl | rfl | rfl | rfl | rfl
  · exact row_keeps rfl run (.refl _ s) (fun f => limitsOrder_kept f s) (conclude _)
  · exact row_keeps rfl run (.refl _ s) (fun f => timingOrder_kept f s) (conclude _)
  · exact row_keeps rfl run (.refl _ s) (fun f => liftOrder_kept f s) (conclude _)
  · exact row_keeps rfl run (.refl _ s) (fun f => captureOrder_kept f s) (conclude _)
  · exact row_keeps rfl run (.refl _ s) (fun f => reportingOrder_kept f s) (conclude _)
  · exact row_keeps rfl run (.refl _ s) (fun f => sitePartOrder_kept f s) (conclude _)
  · exact row_keeps rfl run (.refl _ s) (fun f => commitOrder_kept f s) (conclude _)

end Sys2Proof.Machine

/-! What the orders to the links, the modes, the steam budget, the unit pool and the trip unit leave alone. -/

namespace Sys2Proof.Machine

/-! ### Changes of the unit pool and of the trip unit -/

theorem supervise_frame (s : State) (f : UnitSupervisor → UnitSupervisor) :
    CascadeFrame { s with supervisor := f s.supervisor } (s.supervise f) := by
  refine .trans ?_ (putUnits_frame _ _)
  exact units_frame (s := { s with supervisor := f s.supervisor }) (drive_sameFaults _ _ _) s.lines.runLatch

theorem reports_frame (ks : List ReportKey) (s : State) :
    CascadeFrame s { s with link := ks.foldl LinkPort.report s.link } := by
  induction ks generalizing s with
  | nil => exact .refl s
  | cons k ks ih => exact (report_frame s k).trans (ih (s.report k))

/-- What a change of the trip unit hands on and reports is within the frame of a cascade. -/
theorem TripForm.frame {s t : State} (form : TripForm s t) : CascadeFrame { s with trips := t.trips } t := by
  obtain ⟨-, ds, ks, e⟩ := form
  generalize t.trips = trips at e
  rw [e]
  exact (work_frame { s with trips := trips } (s.work ++ ds)).trans
    (reports_frame ks { s with trips := trips, work := s.work ++ ds })

/-! ### The orders -/

/-- What the order `c` to the links, the modes, the budget, the pool or the trip unit leaves alone. -/
structure OrderKept (c : Instr) (s u : State) : Prop where
  powered : u.powered = s.powered
  scanner : u.scanner = s.scanner
  store : u.store = s.store
  pending : u.pending = s.pending
  clock : u.campaign.clock = s.campaign.clock
  resume : u.campaign.resume = s.campaign.resume
  supervision : u.campaign.supervisionLost = s.campaign.supervisionLost
  watch : u.supervisor.watch = s.supervisor.watch
  mask : u.link.mask = s.link.mask
  budget : c ≠ .setBudget → u.steam.hostBudget = s.steam.hostBudget
  requested : c ≠ .setModeCampaign → u.campaign.overlapRequested = s.campaign.overlapRequested
  units : c ≠ .returnUnit → ∀ v, (u.supervisor.units.get v).condition = (s.supervisor.units.get v).condition
  pool : c ≠ .setUnits → u.supervisor.reserve = s.supervisor.reserve ∧ u.supervisor.window = s.supervisor.window
  trips : c ≠ .setGroup → c ≠ .forceTrip → c ≠ .clearTrip → u.trips = s.trips
  links : c ≠ .setLinks → ∀ i, (u.sec i).upstream = (s.sec i).upstream ∧
    (u.sec i).downstream = (s.sec i).downstream

namespace OrderKept

variable {c : Instr} {s t u : State}

theorem trans (h : OrderKept c s t) (k : OrderKept c t u) : OrderKept c s u where
  powered := k.powered.trans h.powered
  scanner := k.scanner.trans h.scanner
  store := k.store.trans h.store
  pending := k.pending.trans h.pending
  clock := k.clock.trans h.clock
  resume := k.resume.trans h.resume
  supervision := k.supervision.trans h.supervision
  watch := k.watch.trans h.watch
  mask := k.mask.trans h.mask
  budget ne := (k.budget ne).trans (h.budget ne)
  requested ne := (k.requested ne).trans (h.requested ne)
  units ne v := (k.units ne v).trans (h.units ne v)
  pool ne := ⟨(k.pool ne).1.trans (h.pool ne).1, (k.pool ne).2.trans (h.pool ne).2⟩
  trips set force clear := (k.trips set force clear).trans (h.trips set force clear)
  links ne i := ⟨(k.links ne i).1.trans (h.links ne i).1, (k.links ne i).2.trans (h.links ne i).2⟩

theorem of_frame (f : CascadeFrame s u) : OrderKept c s u where
  powered := f.powered
  scanner := f.scanner
  store := f.store
  pending := f.pending
  clock := f.clock
  resume := f.resume
  supervision := f.supervision
  watch := f.watch
  mask := (congrArg LinkPort.mask f.link :)
  budget _ := f.budget
  requested _ := f.requested
  units _ v := (f.units v).1
  pool _ := f.pool
  trips _ _ _ := f.trips
  links _ i := by
    obtain ⟨-, -, -, -, up, down, -⟩ := f.settings i
    exact ⟨up, down⟩

theorem refl (c : Instr) (s : State) : OrderKept c s s := of_frame (.refl s)

theorem conclude (h : OrderKept c s u) (t : Telegram) (v : Verdict) : OrderKept c s (u.conclude t v) := by
  cases v <;> exact { h with }

/-- A change of section `i` that keeps its links. -/
theorem setSec {i : SectionId} {r : Section} (up : r.upstream = (s.sec i).upstream)
    (down : r.downstream = (s.sec i).downstream) : OrderKept c s (s.setSec i r) :=
  { refl c s with
    links := fun _ j => by
      rw [State.sec_setSec]
      split
      next self =>
        rw [self]
        exact ⟨up, down⟩
      next => exact ⟨rfl, rfl⟩ }

/-- An order to the trip unit. -/
theorem of_trips (own : c = .setGroup ∨ c = .forceTrip ∨ c = .clearTrip) (form : TripForm s u) :
    OrderKept c s u := by
  have trips : OrderKept c s { s with trips := u.trips } :=
    { refl c s with
      trips := fun set force clear => by
        rcases own with own | own | own
        exacts [absurd own set, absurd own force, absurd own clear] }
  exact trips.trans (of_frame form.frame)

end OrderKept

theorem relink_kept (s : State) (i : SectionId) (links : List Link) (downs : List SectionId) :
    OrderKept .setLinks s (s.relink i links downs) := by
  rw [relink_rest]
  exact { OrderKept.refl _ s with links := fun other => absurd rfl other }

theorem turned_kept (s : State) (i : SectionId) (mode : Mode) :
    OrderKept .setModeSection s (s.turned i mode) := by
  have set : OrderKept .setModeSection s (s.setSec i { s.sec i with mode := mode }) := .setSec rfl rfl
  exact set.trans (.of_frame (report_frame _ _))

theorem setUnits_kept (s : State) (i : SectionId) (minimum reserve window : Nat) :
    OrderKept .setUnits s (s.setUnits i minimum reserve window).settle := by
  have counted : OrderKept .setUnits s (s.setSec i { s.sec i with minUnits := minimum }) := .setSec rfl rfl
  have written : OrderKept .setUnits (s.setSec i { s.sec i with minUnits := minimum })
      (s.unitsSet i minimum reserve window) :=
    { OrderKept.refl _ _ with pool := fun other => absurd rfl other }
  exact (counted.trans written).trans (.of_frame (setUnits_frame _ _ _ _ _))

theorem returned_kept {s : State} {u : UnitId} (role : (s.supervisor.units.get u).role ≠ .none) :
    OrderKept .returnUnit s (s.supervise fun us => us.giveBack u) := by
  have faults := giveBack_sameFaults role
  have given : OrderKept .returnUnit s { s with supervisor := s.supervisor.giveBack u } :=
    { OrderKept.refl _ s with
      watch := faults.watch
      units := fun other => absurd rfl other
      pool := fun _ => ⟨faults.reserve, faults.window⟩ }
  exact given.trans (.of_frame (supervise_frame s fun us => us.giveBack u))

section
variable (f : Fields) (s : State)

theorem linksOrder_kept : OrderKept .setLinks s (linksOrder f s).1 := by
  unfold linksOrder
  split
  · split
    · dsimp only
      split
      · exact .refl _ s
      · split
        · exact .refl _ s
        · split
          · exact .refl _ s
          · exact (relink_kept _ _ _ _).trans (.of_frame (settle_frame _))
    · exact .refl _ s
  · exact .refl _ s

theorem modeOrder_kept : OrderKept .setModeSection s (modeOrder f s).1 := by
  unfold modeOrder
  split
  · split
    · exact .refl _ s
    · split
      · exact .refl _ s
      · exact (turned_kept _ _ _).trans (.of_frame ((reexamine_moves _ _ _).frame.trans (settle_frame _)))
  · exact .refl _ s

theorem overlapOrder_kept : OrderKept .setModeCampaign s (overlapOrder f s).1 := by
  unfold overlapOrder
  split
  · dsimp only
    split
    · exact .refl _ s
    · have asked (asked : Bool) : OrderKept .setModeCampaign s (s.requestOverlap asked) :=
        { OrderKept.refl _ s with requested := fun other => absurd rfl other }
      obtain ⟨-, -, -, -, frame⟩ := setModeCampaign_turns (s := s)
      exact (asked _).trans (.of_frame frame)
  · exact .refl _ s

theorem budgetOrder_kept : OrderKept .setBudget s (budgetOrder f s).1 := by
  unfold budgetOrder
  split
  · have written (budget : Nat) :
        OrderKept .setBudget s { s with steam := { s.steam with hostBudget := budget } } :=
      { OrderKept.refl _ s with budget := fun other => absurd rfl other }
    exact (written _).trans (.of_frame ((steamChange_frame _ _).trans (settle_frame _)))
  · exact .refl _ s

theorem returnOrder_kept : OrderKept .returnUnit s (returnOrder f s).1 := by
  unfold returnOrder
  split
  · split
    · exact .refl _ s
    · dsimp only
      split
      · exact .refl _ s
      · next role =>
        split
        · exact .refl _ s
        · split
          · exact .refl _ s
          · exact (returned_kept role).trans (.of_frame (settle_frame _))
  · exact .refl _ s

theorem unitsOrder_kept : OrderKept .setUnits s (unitsOrder f s).1 := by
  unfold unitsOrder
  split
  · split
    · exact .refl _ s
    · split
      · exact .refl _ s
      · exact setUnits_kept _ _ _ _ _
  · exact .refl _ s

theorem forceOrder_kept : OrderKept .forceTrip s (forceOrder f s).1 := by
  unfold forceOrder
  split
  · split
    · exact .refl _ s
    · exact (OrderKept.of_trips (by simp) (forceGroup_form _ _)).trans (.of_frame (settle_frame _))
  · exact .refl _ s

theorem clearOrder_kept : OrderKept .clearTrip s (clearOrder f s).1 := by
  unfold clearOrder
  split
  · split
    · exact .refl _ s
    · split
      · exact .refl _ s
      · split
        · exact .refl _ s
        · next idle =>
          exact (OrderKept.of_trips (by simp) (clearGroup_change _ _ (not_not.1 idle)).form).trans
            (.of_frame (settle_frame _))
  · exact .refl _ s

theorem groupOrder_kept : OrderKept .setGroup s (groupOrder f s).1 := by
  unfold groupOrder
  split
  · split
    · exact .refl _ s
    · split
      · exact .refl _ s
      · split
        · exact .refl _ s
        · split
          · exact .refl _ s
          · exact (OrderKept.of_trips (by simp) (configureGroup_form _ _ _ _ _ _ (idsNamed_ordered _ _)
              (idsNamed_ordered _ _))).trans (.of_frame (settle_frame _))
  · exact .refl _ s

end

theorem orders_kept {c : Instr} (mem : c ∈ [Instr.setLinks, .setModeSection, .setModeCampaign, .setBudget,
    .returnUnit, .setUnits, .setGroup, .forceTrip, .clearTrip]) {s u : State} (run : exec c s = .next u) :
    OrderKept c s u := by
  have conclude (c : Instr) (x : State) (t : Telegram) (v : Verdict) (h : OrderKept c s x) := h.conclude t v
  simp only [List.mem_cons, List.not_mem_nil, or_false] at mem
  rcases mem with rfl | rfl | rfl | rfl | rfl | rfl | rfl | rfl | rfl
  · exact row_keeps rfl run (.refl _ s) (fun f => linksOrder_kept f s) (conclude _)
  · exact row_keeps rfl run (.refl _ s) (fun f => modeOrder_kept f s) (conclude _)
  · exact row_keeps rfl run (.refl _ s) (fun f => overlapOrder_kept f s) (conclude _)
  · exact row_keeps rfl run (.refl _ s) (fun f => budgetOrder_kept f s) (conclude _)
  · exact row_keeps rfl run (.refl _ s) (fun f => returnOrder_kept f s) (conclude _)
  · exact row_keeps rfl run (.refl _ s) (fun f => unitsOrder_kept f s) (conclude _)
  · exact row_keeps rfl run (.refl _ s) (fun f => groupOrder_kept f s) (conclude _)
  · exact row_keeps rfl run (.refl _ s) (fun f => forceOrder_kept f s) (conclude _)
  · exact row_keeps rfl run (.refl _ s) (fun f => clearOrder_kept f s) (conclude _)

end Sys2Proof.Machine

/-! What the events of the link port, the timers, the fault and trip inputs and the scanner leave alone. -/

namespace Sys2Proof.Machine

/-- What an act keeps, the command that makes it keeps, with power or without. -/
theorem powering_keeps {P : State → Prop} {s u : State} {act : State → State}
    (run : (Host.Outcome.next (s.powering act) : Host.Outcome State Fault Refusal) = .next u) (self : P s)
    (acts : P (act s)) : P u := by
  obtain rfl := Host.Outcome.next.inj run
  unfold State.powering
  split
  · exact acts
  · exact self

/-! ### The link port (R159, R161, R164, R166, R167) -/

/-- A change of the link port alone, its mask and its silence limit kept. -/
def LinkOnly (s u : State) : Prop :=
  u = { s with link := u.link } ∧ u.link.mask = s.link.mask ∧ u.link.silenceLimit = s.link.silenceLimit

theorem LinkOnly.refl (s : State) : LinkOnly s s := ⟨rfl, rfl, rfl⟩

theorem LinkOnly.of_link {s : State} {l : LinkPort} (mask : l.mask = s.link.mask)
    (silence : l.silenceLimit = s.link.silenceLimit) : LinkOnly s { s with link := l } := ⟨rfl, mask, silence⟩

theorem setReceiver_linkOnly (s : State) (r : Receiver) : LinkOnly s (s.setReceiver r) := .of_link rfl rfl

theorem conclude_linkOnly (s : State) (t : Telegram) (v : Verdict) : LinkOnly s (s.conclude t v) := by
  cases v <;> exact .of_link rfl rfl

theorem restart_linkOnly (s : State) : LinkOnly s { s with link := s.link.restart } := by
  rw [restart_eq]
  exact .of_link rfl rfl

theorem transmit_linkOnly (s : State) : LinkOnly s s.transmit := by
  unfold State.transmit
  split <;> exact .of_link rfl rfl

theorem takeUnknown_linkOnly (s : State) : LinkOnly s s.takeUnknown := by
  unfold State.takeUnknown
  split
  · exact .refl s
  · split
    · exact conclude_linkOnly _ _ _
    · exact .refl s

section
variable {s u : State}

theorem interByteTimeout_linkOnly {late : Byte} (run : exec (.interByteTimeout late) s = .next u) :
    LinkOnly s u := by
  refine powering_keeps run (.refl s) ?_
  split
  · exact .refl s
  · exact setReceiver_linkOnly _ _

theorem telegramDiscarded_linkOnly {why : DiscardReason}
    (run : exec (.telegramDiscardedInAssembly why) s = .next u) : LinkOnly s u :=
  powering_keeps run (.refl s) (setReceiver_linkOnly _ _)

theorem lineBreak_linkOnly (run : exec .lineBreak s = .next u) : LinkOnly s u := by
  refine powering_keeps run (.refl s) ?_
  split
  · exact .refl s
  · exact restart_linkOnly s

theorem lineReturn_linkOnly (run : exec .lineReturnToIdle s = .next u) : LinkOnly s u := by
  refine powering_keeps run (.refl s) ?_
  split
  · exact setReceiver_linkOnly _ _
  · exact .refl s

theorem transmitNext_linkOnly (run : exec .transmitNextTelegram s = .next u) : LinkOnly s u :=
  powering_keeps run (.refl s) (transmit_linkOnly s)

theorem unknownKind_linkOnly (run : exec .unknownKindRequest s = .next u) : LinkOnly s u :=
  powering_keeps run (.refl s) (takeUnknown_linkOnly s)

/-- The silence limit's expiry changes two flags and the pending set. -/
theorem silenceExpiry_eq (run : exec .silenceExpiry s = .next u) : u = { s with
    link := { s.link with reports := u.link.reports, silenceExpired := u.link.silenceExpired }
    campaign := { s.campaign with supervisionLost := u.campaign.supervisionLost } } := by
  refine powering_keeps (P := fun u => u = { s with
    link := { s.link with reports := u.link.reports, silenceExpired := u.link.silenceExpired }
    campaign := { s.campaign with supervisionLost := u.campaign.supervisionLost } }) run rfl ?_
  dsimp only
  split
  · unfold State.loseSupervision
    split
    · rfl
    · rw [report_eq]
  · rfl

/-! ### A telegram heard (R26, R160) -/

theorem heard_frame (s : State) (t : Telegram) : ∃ lost l, CascadeFrame
    { s with campaign := { s.campaign with supervisionLost := lost }, link := l } (s.heard t) ∧
    l.mask = s.link.mask ∧ l.answers = s.link.answers ∧ l.awaited = s.link.awaited := by
  cases lost : s.campaign.supervisionLost with
  | true =>
    rw [heard_lost lost]
    exact ⟨false, _, work_frame _ _, rfl, rfl, rfl⟩
  | false =>
    rw [heard_supervised lost]
    exact ⟨s.campaign.supervisionLost, _, .refl _, rfl, rfl, rfl⟩

theorem telegramReceived_frame {kind tag : Byte} {body : List Byte} {check : BitVec 16}
    (run : exec (.telegramReceived kind tag body check) s = .next u) : ∃ lost l, CascadeFrame
      { s with campaign := { s.campaign with supervisionLost := lost }, link := l } u ∧
      l.mask = s.link.mask ∧ l.answers = s.link.answers ∧ l.awaited = s.link.awaited := by
  have self : ∃ lost l, CascadeFrame
      { s with campaign := { s.campaign with supervisionLost := lost }, link := l } s ∧
      l.mask = s.link.mask ∧ l.answers = s.link.answers ∧ l.awaited = s.link.awaited :=
    ⟨s.campaign.supervisionLost, s.link, .refl s, rfl, rfl, rfl⟩
  refine powering_keeps (P := fun u => ∃ lost l, CascadeFrame
    { s with campaign := { s.campaign with supervisionLost := lost }, link := l } u ∧
    l.mask = s.link.mask ∧ l.answers = s.link.answers ∧ l.awaited = s.link.awaited) run self ?_
  dsimp only
  split
  · exact self
  · split
    · obtain ⟨lost, l, frame, kept⟩ := heard_frame s ⟨kind, tag, body⟩
      rw [takeTelegram_eq]
      exact ⟨lost, l, frame.trans (settle_frame _), kept⟩
    · exact ⟨s.campaign.supervisionLost, _, .refl _, rfl, rfl, rfl⟩

/-! ### The timed events of a section (R64, R116) -/

theorem conditioningExpiry_frame {k : Nat} (run : exec (.conditioningExpiry k) s = .next u) :
    CascadeFrame s u := by
  have run : execConditioningExpiry k s = .next u := run
  unfold execConditioningExpiry at run
  split at run
  · cases run
  · refine powering_keeps run (.refl s) ?_
    split
    · exact (reexamine_moves _ _ _).frame.trans (settle_frame _)
    · exact .refl s

theorem lagCompletion_frame {k l : Nat} (run : exec (.lagCompletion k l) s = .next u) : CascadeFrame s u := by
  have run : execLagCompletion k l s = .next u := run
  unfold execLagCompletion at run
  split at run
  · refine powering_keeps run (.refl s) ?_
    split
    · exact (reexamine_moves _ _ _).frame.trans (settle_frame _)
    · exact .refl s
  · cases run

end

/-! ### The fault inputs and the recovery window (R130, R131) -/

theorem fail_reserve (secs : Table Section 24) (us : UnitSupervisor) (u : UnitId) :
    (us.fail secs u).reserve = us.reserve := by
  by_cases role : (us.units.get u).role = .none
  · unfold UnitSupervisor.fail
    dsimp only
    rw [failing_eq]
    simp only [role]
  · exact (fail_sameFaults role).reserve

theorem faultActive_reserve (secs : Table Section 24) (us : UnitSupervisor) (u : UnitId) :
    (us.faultActive secs u).reserve = us.reserve := by
  by_cases idle : (us.units.get u).role = .none ∨ (us.units.get u).condition ≠ .healthy
  · rw [faultActive_idle idle]
    rfl
  · obtain ⟨role, healthy⟩ := not_or.1 idle
    rw [faultActive_healthy role (not_not.1 healthy)]
    split
    · rfl
    · exact fail_reserve _ _ _

theorem faultInactive_reserve (us : UnitSupervisor) (u : UnitId) :
    (us.faultInactive u).reserve = us.reserve := by
  by_cases idle : (us.units.get u).role = .none ∨ (us.units.get u).condition ≠ .faultPending
  · rw [faultInactive_idle idle]
    rfl
  · obtain ⟨role, pending⟩ := not_or.1 idle
    rw [faultInactive_recovers role (not_not.1 pending)]
    exact (offer_sameFaults _ _).reserve

/-- A change of the unit supervisor that keeps its reserve, with the cascade it starts. -/
def PoolCascade (s u : State) : Prop :=
  ∃ us : UnitSupervisor, us.reserve = s.supervisor.reserve ∧ CascadeFrame { s with supervisor := us } u

theorem PoolCascade.refl (s : State) : PoolCascade s s := ⟨s.supervisor, rfl, .refl s⟩

theorem supervise_poolCascade {s : State} {f : UnitSupervisor → UnitSupervisor}
    (h : (f s.supervisor).reserve = s.supervisor.reserve) : PoolCascade s (s.supervise f).settle :=
  ⟨f s.supervisor, h, (supervise_frame s f).trans (settle_frame _)⟩

section
variable {s u : State} {k : Nat}

theorem faultInputActive_poolCascade (run : exec (.faultInputActive k) s = .next u) : PoolCascade s u := by
  have run : execFaultInputActive k s = .next u := run
  unfold execFaultInputActive at run
  split at run
  · cases run
  · refine powering_keeps run (.refl s) ?_
    split
    · exact .refl s
    · exact supervise_poolCascade (faultActive_reserve _ _ _)

theorem faultInputInactive_poolCascade (run : exec (.faultInputInactive k) s = .next u) :
    PoolCascade s u := by
  have run : execFaultInputInactive k s = .next u := run
  unfold execFaultInputInactive at run
  split at run
  · cases run
  · refine powering_keeps run (.refl s) ?_
    split
    · exact supervise_poolCascade (faultInactive_reserve _ _)
    · exact .refl s

theorem recoveryWindowExpiry_poolCascade (run : exec (.recoveryWindowExpiry k) s = .next u) :
    PoolCascade s u := by
  have run : execRecoveryWindowExpiry k s = .next u := run
  unfold execRecoveryWindowExpiry at run
  split at run
  · cases run
  · refine powering_keeps run (.refl s) ?_
    split
    · exact supervise_poolCascade (fail_reserve _ _ _)
    · exact .refl s

/-! ### The trip inputs (R146, R148, R150) -/

/-- A change of the trip unit, with the cascade it starts. -/
def TripCascade (s u : State) : Prop := ∃ trips, CascadeFrame { s with trips := trips } u

theorem TripCascade.refl (s : State) : TripCascade s s := ⟨s.trips, .refl s⟩

/-- The event of an input, taken by each of its groups in turn. -/
theorem inputFold_tripCascade {f : State → GroupId → State} (form : ∀ s g, TripForm s (f s g)) (s : State)
    (i : InputId) (now : Bool) :
    TripCascade s ((s.inputTurns i now).foldl f (s.inputStart i now)).settle := by
  have folded := (TripForm.fold form (s.inputTurns i now) (s.inputStart i now)).frame.trans (settle_frame _)
  generalize ((s.inputTurns i now).foldl f (s.inputStart i now)).settle = u at folded
  generalize (s.inputTurns i now).foldl f (s.inputStart i now) = x at folded
  rw [inputStart_eq] at folded
  exact ⟨x.trips, (order_frame { s with trips := x.trips } _ _).trans folded⟩

theorem inputActive_eq (s : State) (i : InputId) : s.inputActive i =
    ((s.inputTurns i true).foldl (fun x g => x.groupInputActive i g) (s.inputStart i true)).settle := rfl

theorem inputInactive_eq (s : State) (i : InputId) : s.inputInactive i =
    ((s.inputTurns i false).foldl State.groupInputInactive (s.inputStart i false)).settle := rfl

theorem tripInputActive_tripCascade (run : exec (.tripInputActive k) s = .next u) : TripCascade s u := by
  have run : execTripInputActive k s = .next u := run
  unfold execTripInputActive at run
  split at run
  · cases run
  · refine powering_keeps run (.refl s) ?_
    split
    · exact .refl s
    · rw [inputActive_eq]
      exact inputFold_tripCascade (fun x g => (groupInputActive_change x _ g).form) _ _ _

theorem tripInputInactive_tripCascade (run : exec (.tripInputInactive k) s = .next u) : TripCascade s u := by
  have run : execTripInputInactive k s = .next u := run
  unfold execTripInputInactive at run
  split at run
  · cases run
  · refine powering_keeps run (.refl s) ?_
    split
    · rw [inputInactive_eq]
      exact inputFold_tripCascade groupInputInactive_form _ _ _
    · exact .refl s

end

/-! ### Samples (R37, R38, R50) -/

/-- What a sample leaves alone. -/
structure SampleKept (s u : State) : Prop where
  powered : u.powered = s.powered
  trips : u.trips = s.trips
  store : u.store = s.store
  pending : u.pending = s.pending
  budget : u.steam.hostBudget = s.steam.hostBudget
  watch : u.supervisor.watch = s.supervisor.watch
  clock : u.campaign.clock = s.campaign.clock

namespace SampleKept

variable {s t u : State}

theorem trans (h : SampleKept s t) (k : SampleKept t u) : SampleKept s u where
  powered := k.powered.trans h.powered
  trips := k.trips.trans h.trips
  store := k.store.trans h.store
  pending := k.pending.trans h.pending
  budget := k.budget.trans h.budget
  watch := k.watch.trans h.watch
  clock := k.clock.trans h.clock

theorem of_frame (f : CascadeFrame s u) : SampleKept s u where
  powered := f.powered
  trips := f.trips
  store := f.store
  pending := f.pending
  budget := f.budget
  watch := f.watch
  clock := f.clock

theorem refl (s : State) : SampleKept s s := of_frame (.refl s)

end SampleKept

theorem setPhase_kept (s : State) (i : SectionId) (p : Phase) : SampleKept s (s.setPhase i p) := by
  by_cases same : (s.sec i).phase = p
  · rw [setPhase_same s i same]
    exact .refl s
  · rw [setPhase_eq s i same]
    exact ⟨rfl, rfl, rfl, rfl, rfl, rfl, rfl⟩

theorem followPhase_kept (s : State) (i : SectionId) : SampleKept s (s.followPhase i) := by
  unfold State.followPhase
  split
  · exact .refl s
  · exact setPhase_kept _ _ _

theorem sensorChange_frame (s : State) (i : SectionId) (old new : Validity) :
    CascadeFrame s (s.sensorChange i old new) := by
  unfold State.sensorChange
  split
  · exact (addReason_moves _ _ _).frame
  · exact removeReason_frame _ _ _ _
  · exact .refl s
  · exact .refl s

theorem takeDelivery_kept (s : State) (c : ChannelId) (old new : Channel) :
    SampleKept s (s.takeDelivery c old new) := by
  have sensed : SampleKept s (s.sensedBy c old new) := by
    unfold State.sensedBy
    split
    · exact (followPhase_kept _ _).trans (.of_frame (sensorChange_frame _ _ _ _))
    · exact followPhase_kept _ _
  have told : SampleKept s (s.toldBy c old new) := by
    rw [toldBy_eq]
    exact sensed.trans ⟨rfl, rfl, rfl, rfl, rfl, rfl, rfl⟩
  rw [takeDelivery_eq]
  split
  · exact told.trans (.of_frame (reexamine_moves _ _ _).frame)
  · exact told

theorem sample_kept (s : State) (c : ChannelId) (raw : Nat) : SampleKept s (s.sample c raw) := by
  have stored : SampleKept s { s with scanner := s.scanner.taken c (s.sampledAt c raw) } :=
    ⟨rfl, rfl, rfl, rfl, rfl, rfl, rfl⟩
  rw [sample_eq]
  split
  · exact stored
  · exact (stored.trans (takeDelivery_kept _ _ _ _)).trans (.of_frame (settle_frame _))

/-- What a sample of channel `k` leaves of the scanner. -/
def ScannerKept (k : Nat) (s u : State) : Prop :=
  u.scanner.prescale = s.scanner.prescale ∧ u.scanner.round = s.scanner.round ∧
    ∀ c : ChannelId, c.val ≠ k → u.scanner.channels.get c = s.scanner.channels.get c

theorem sample_scannerKept (s : State) (c : ChannelId) (raw : Nat) :
    ScannerKept c.val s (s.sample c raw) := by
  unfold ScannerKept
  rw [sample_scanner]
  exact ⟨rfl, rfl, fun d ne => Table.get_set_of_ne _ _ fun e => ne (congrArg Fin.val e)⟩

theorem channelSample_kept {s u : State} {k raw : Nat} (run : exec (.channelSample k raw) s = .next u) :
    SampleKept s u ∧ ScannerKept k s u := by
  have self : SampleKept s s ∧ ScannerKept k s s := ⟨.refl s, rfl, rfl, fun _ _ => rfl⟩
  have run' : execChannelSample k raw s = .next u := run
  unfold execChannelSample at run'
  split at run'
  · cases run'
  · next c found =>
    split at run'
    · refine powering_keeps (P := fun u => SampleKept s u ∧ ScannerKept k s u) run' self ?_
      split
      · obtain rfl : c.val = k := ((idOf_eq_some_iff _).1 found).symm
        exact ⟨sample_kept _ _ _, sample_scannerKept _ _ _⟩
      · exact self
    · cases run'

/-! ### The orders and the events together -/

/-- Settles O35: each order and event by what it changes, and the frame of the cascade it starts. -/
theorem ordersAndEventsKeepFrame : Obligations.OrdersAndEventsKeepFrame := by
  refine ⟨fun c mem s u run => ?campaign, fun c mem s u run => ?settings,
    fun s u kind tag body check run => ?telegram, fun s u late why run => ?link,
    fun s u run => silenceExpiry_eq run, fun c mem s u run => sectionOrders_frame mem run,
    fun s u k l run => run.elim conditioningExpiry_frame lagCompletion_frame,
    fun c mem s u run => ?orders, fun s u k run => ?faults, fun s u k run => ?trips,
    fun s u k raw run => ?sample⟩
  case campaign =>
    have h := campaignOrders_kept mem run
    exact ⟨h.powered, h.scanner, h.trips, h.store, h.pending, h.budget, h.watch, h.reserve, h.window, h.units,
      h.requested, h.supervision, h.mask, h.clock, h.resume, h.sections⟩
  case settings =>
    have h := settings_kept mem run
    exact ⟨h.powered, h.campaign, h.steam, h.supervisor, h.trips, h.store, h.lines, h.work, h.pending,
      h.receiver, h.channels, h.turn, h.reporting, h.site, h.table, h.sections⟩
  case telegram =>
    obtain ⟨lost, l, frame, mask, answers, awaited⟩ := telegramReceived_frame run
    refine ⟨frame.powered, frame.scanner, frame.trips, frame.store, frame.pending, frame.budget, frame.watch,
      frame.clock, frame.requested, ?_, ?_, ?_, fun v => (frame.units v).1⟩
    all_goals rw [frame.link]
    exacts [mask, answers, awaited]
  case link =>
    rcases run with run | run | run | run | run | run
    exacts [interByteTimeout_linkOnly run, telegramDiscarded_linkOnly run, lineBreak_linkOnly run,
      lineReturn_linkOnly run, transmitNext_linkOnly run, unknownKind_linkOnly run]
  case orders =>
    have h := orders_kept mem run
    exact ⟨h.powered, h.scanner, h.store, h.pending, h.clock, h.resume, h.supervision, h.watch, h.mask,
      h.budget, h.requested, h.units, h.pool, h.trips, h.links⟩
  case faults =>
    obtain ⟨us, reserve, frame⟩ : PoolCascade s u := by
      rcases run with run | run | run
      exacts [faultInputActive_poolCascade run, faultInputInactive_poolCascade run,
        recoveryWindowExpiry_poolCascade run]
    exact ⟨frame.powered, frame.trips, frame.scanner, frame.store, frame.pending, frame.budget, frame.clock,
      frame.pool.1.trans reserve, (congrArg LinkPort.requests frame.link :),
      (congrArg LinkPort.answers frame.link :)⟩
  case trips =>
    obtain ⟨trips, frame⟩ : TripCascade s u :=
      run.elim tripInputActive_tripCascade tripInputInactive_tripCascade
    exact ⟨frame.powered, frame.scanner, frame.store, frame.pending, frame.budget, frame.watch, frame.clock,
      (congrArg LinkPort.requests frame.link :), (congrArg LinkPort.answers frame.link :)⟩
  case sample =>
    obtain ⟨h, scanner⟩ := channelSample_kept run
    exact ⟨h.powered, h.trips, h.store, h.pending, h.budget, h.watch, h.clock, scanner⟩

end Sys2Proof.Machine
